-- ==== Sys2Proof/Word.lean ====
section
/-! DEFINITION. The word types of the engine (00_scope.md rules R7, R8): every data word, address and register
is 32 bits, unsigned, and its arithmetic wraps. -/

namespace Sys2Proof

/-- `XLEN`: the width of every data word, address and register (R5). -/
abbrev Config.xlen : Nat := 32

/-- A data word, an address or a target register (R5, R8). -/
abbrev Word := BitVec Config.xlen

/-- A byte of the error detail, of a line sequence or of an opcode. -/
abbrev Byte := BitVec 8

/-- The number that names a session of the probe (60_exceptions.md R172). -/
abbrev SessionId := Nat

end Sys2Proof
end

