-- ==== Sys2Proof/Config.lean ====
section
/-! DEFINITION. The implementation parameters (00_scope.md rule R5), the open parameters the spec gives no value
for, and the free values: values the spec leaves open, which are constants with no body, so that no proof can
rest on what they are. -/

namespace Sys2Proof.Config

/-! ## Parameters with the value the spec gives -/

/-- `HARTS`: harts 0 and 1 (R5; 10_state.md R19). -/
abbrev harts : Nat := 2

/-- `HARTSEL_BITS`: the width of DMCONTROL's hart selection (R5; 30_encoding.md R63). -/
abbrev hartselBits : Nat := 10

/-- `NGPR`: registers of a hart (R5; 10_state.md R19). -/
abbrev ngpr : Nat := 32

/-- `PIO_BLOCKS` (R5; 10_state.md R21). -/
abbrev pioBlocks : Nat := 2

/-- `SM_PER_BLOCK`: state machines of a PIO block (R5; 10_state.md R21). -/
abbrev smPerBlock : Nat := 4

/-- The PIO slots of the probe: the state machines of all blocks (R5; 10_state.md R21). -/
abbrev slots : Nat := pioBlocks * smPerBlock

/-- `TRN`: turnaround cycles at each change of bus ownership (R5, R6). -/
def trn : Nat := 1

/-- `RETRY_COUNT`: retries after a WAIT (R5; 41_dap.md R96). -/
def retryCount : Word := 5

/-- `RETRY_DELAY_US`: least delay before a retry, in microseconds (R5). -/
def retryDelayUs : Nat := 100

/-- `CYCLES_PER_BIT`: state-machine cycles per SWD bit (R5; 40_wire.md R81, R88). -/
def cyclesPerBit : Nat := 4

/-- `DEFAULT_FREQ_KHZ` (R5, R15). -/
def defaultFreqKhz : Word := 1000

/-- `CLKDIV_MIN` (R5, R88). -/
def clkdivMin : Nat := 1

/-- `CLKDIV_MAX` (R5, R88). -/
def clkdivMax : Nat := 65535

/-- `MAX_SESSIONS`: how many sessions can hold a slot at a time (R5; 60_exceptions.md R172; log 18). -/
def maxSessions : Nat := 8

/-- `ERR_DETAIL_MAX`: bound of the error detail in bytes (R5); its length is at most one less (R14). -/
def errDetailMax : Nat := 128

/-- `RISCV_APSEL`: the AP slot of the RISC-V Debug Module (R5, R27). -/
def riscvApsel : BitVec 4 := 0xA

/-- `SELECT_FIXED`: bits [11:8] of every SELECT word (R5, R26). -/
def selectFixed : BitVec 4 := 0xD

/-- `AP_CTRLSEL`: bits [3:0] of every SELECT word (R5, R26). -/
def apCtrlsel : BitVec 4 := 1

/-- `DM_BASE`: where the DM registers begin in AP 0xA's address space (R5; 42_dm.md R115). -/
def dmBase : Word := 0x00000000

/-- `CSW_INIT`: 32-bit accesses, no auto-increment (R5, R28). -/
def cswInit : Word := 0xA2000002

/-- `DMINIT_SEQ`: the three words of the activation handshake (R5; 42_dm.md R117). -/
def dminitSeq1 : Word := 0x00000000
@[inherit_doc dminitSeq1] def dminitSeq2 : Word := 0x00000001
@[inherit_doc dminitSeq1] def dminitSeq3 : Word := 0x07FFFFC1

/-- `DMINIT_EXPECTED`: the DM status word after the handshake (R5; 42_dm.md R117). -/
def dminitExpected : Word := 0x04010001

/-- `DMINIT_DELAY_MS`, in microseconds (R5). -/
def dminitDelayUs : Nat := 50000

/-- `PWR_POLLS`: reads of CTRL/STAT in a power-up (R5; 41_dap.md R107). -/
def pwrPolls : Nat := 10

/-- `PWR_DELAY_MS`, in microseconds (R5). -/
def pwrDelayUs : Nat := 20000

/-- `HALT_POLLS`: reads of DMSTATUS in a halt, resume, step or halting reset (R5). -/
def haltPolls : Nat := 10

/-- `HALT_DELAY_MS`, in microseconds (R5). -/
def haltDelayUs : Nat := 10000

/-- `RESET_ASSERT_MS`, in microseconds (R5). -/
def resetAssertUs : Nat := 10000

/-- `RESET_SETTLE_MS`, in microseconds (R5). -/
def resetSettleUs : Nat := 50000

/-- `ABSTRACT_POLLS`: reads of ABSTRACTCS in a wait (R5; 42_dm.md R126). -/
def abstractPolls : Nat := 100

/-- `ABSTRACT_DELAY_US` (R5). -/
def abstractDelayUs : Nat := 10

/-- `PROGBUF_SIZE`: words of the program buffer (R5; 92_eei_decisions.md D37); EXECUTE_PROGBUF takes and runs that many
(42_dm.md R137). -/
def progbufSize : Nat := 2

/-- `POSTEXEC_COMMAND` (R5, R67). -/
def postexecCommand : Word := 0x00040000

/-- `LINE_RESET_ONES` (R5, R61). -/
def lineResetOnes : Nat := 56

/-- `LINE_RESET_IDLE` (R5, R61). -/
def lineResetIdle : Nat := 8

/-- `POST_TXN_IDLE`: idle cycles after a transaction (R5; 40_wire.md R82). -/
def postTxnIdle : Nat := 0

/-- `SELECTION_ALERT`: the value the spec supplies from general knowledge (30_encoding.md R60).
PRESUMED (log 7), unsafe. -/
def selectionAlert : List Byte :=
  [0x92, 0xF3, 0x09, 0x62, 0x95, 0x2D, 0x85, 0x86, 0xE9, 0xAF, 0xDD, 0xE3, 0xA2, 0x0E, 0xBC, 0x19]

/-- The connection sequence, byte for byte (30_encoding.md R60). -/
def activationBytes : List Byte :=
  List.replicate 7 0xFF ++ [0xBC, 0xE3] ++ [0xFF] ++ selectionAlert ++ [0xA0, 0xF1, 0xFF]
    ++ List.replicate 8 0xFF ++ [0x00]

/-- `PWRUP_REQ`: CSYSPWRUPREQ and CDBGPWRUPREQ (10_state.md R25). PRESUMED bit places (log 8), unsafe. -/
def pwrupReq : Word := 0x50000000

/-- `PWRUP_ACK`: CSYSPWRUPACK and CDBGPWRUPACK (10_state.md R25). PRESUMED bit places (log 8), unsafe. -/
def pwrupAck : Word := 0xA0000000

/-- `STICKY_W1C`: WDATAERR, STICKYERR, STICKYCMP, STICKYORUN (10_state.md R25). PRESUMED bit places
(log 8), unsafe. -/
def stickyW1c : Word := 0x000000B2

/-- The value that clears ABSTRACTCS.cmderr (10_state.md R32). -/
def cmderrW1c : Word := 0x00000700

/-- `SBCS_CFG`: sbreadonaddr = 1, sbaccess = 2, sberror cleared (30_encoding.md R69). -/
def sbcsCfg : Word := 0x00147000

/-- `INSN_EBREAK` (30_encoding.md R68). -/
def insnEbreak : Word := 0x00100073

/-- `CACHE_ENABLED_AT_CREATE` (R5). -/
def cacheEnabledAtCreate : Bool := false

/-! ## Open parameters: the spec gives no value -/

/-- `SYS_KHZ`: the probe's system clock (R5; 92_eei_decisions.md D66). OPEN in the spec (log 6): no body. -/
opaque sysKhz : Nat

/-- `TARGET_RESET_VECTOR` (R5; 92_eei_decisions.md D65). OPEN in the spec (log 23); no rule reads it. -/
opaque targetResetVector : Word

/-! ## Free values -/

/-- The k-th free bit: what the target drives in a cycle the engine samples (40_wire.md R80: "a draw: it can be
0 or 1 whatever the engine has done"). Free (log 3), safe. -/
opaque targetBit : Nat → Bool

/-- The k-th free error detail before it is cut to its bound (60_exceptions.md R163: "content is not
specified"). Free (log 5), safe. -/
opaque errDetail : Nat → List Byte

/-- The k-th free word: what a read of an empty DOUT returns, which the spec does not say. Free (log 13), safe. -/
opaque portWord : Nat → Word

end Sys2Proof.Config
end

