-- ==== Sys2Proof/Syntax.lean ====
section
/-! DEFINITION. One constructor per row of spec/opcode_table.json, in the table's order. A host command has no
operand field: its operands are the ARG registers and DIN (00_scope.md R9). A word row carries the fields its
mask leaves open. -/

namespace Sys2Proof

/-- A hart of the target: 0 or 1 (`HARTS`, 00_scope.md R5; 30_encoding.md R72). -/
abbrev HartId := Fin Config.harts

inductive Instr where
  -- SWD request bytes (30_encoding.md R55, R56)
  | swdReqDpR0 | swdReqDpR4 | swdReqDpR8 | swdReqDpRC
  | swdReqDpW0 | swdReqDpW4 | swdReqDpW8 | swdReqDpWC
  | swdReqApR0 | swdReqApR4 | swdReqApR8 | swdReqApRC
  | swdReqApW0 | swdReqApW4 | swdReqApW8 | swdReqApWC
  -- acknowledges (30_encoding.md R57)
  | ackOk | ackWait | ackFault
  | ackProtocolError (v : BitVec 3)
  -- host commands (30_encoding.md R71)
  | connect | disconnect | isConnected | getFrequency | setFrequency | lineReset | sendIdleClocks
  | isPowered | powerUp | clearErrors | readDp | writeDp | readAp | writeAp | dapReadMem32 | dapWriteMem32
  | init | isInitialized | halt | resume | step | reset | isHalted
  | readReg | writeReg | readAllRegs | readPc | writePc | readCsr | writeCsr | executeProgbuf
  | sbaInit | sbaRead32 | sbaWrite32 | sbaCheckErrors
  | readMem8 | readMem16 | readMem32 | writeMem8 | writeMem16 | writeMem32 | readMemBlock | writeMemBlock
  | uploadCode | executeCode | trace
  | enableCache | invalidateCache | resourceUsage | getErrorDetail
  | reservedHostOpcode (op : BitVec 8)
  -- words composed for target registers (30_encoding.md R64 to R69; 41_dap.md R109; 42_dm.md R117, R126)
  | selectWord (apsel bank : BitVec 4)
  | ctrlstatClear | ctrlstatPwrupReq | ctrlstatClearErrorsPowered | ctrlstatClearErrorsUnpowered
  | cswInit | dminitSeq1 | dminitSeq2 | dminitSeq3 | dminitExpected
  | dmcSel (h : HartId) | dmcHalt (h : HartId) | dmcResume (h : HartId)
  | dmcReset (h : HartId) (hr : Bool) | dmcUnreset (h : HartId) (hr : Bool)
  | cmdGprRead (n : BitVec 5) | cmdGprWrite (n : BitVec 5) | cmdPostexec
  | abstractcsClearCmderr
  | insnCsrr (csr : BitVec 12) | insnCsrw (csr : BitVec 12) | insnEbreak
  | sbcsCfg
deriving DecidableEq, Repr

/-- Which port or register the bits of a row go to: one bit pattern means one thing in one space and another in
another (the "format" column of spec/opcode_table.json). DESIGN CHOICE (log 17). -/
inductive Space where
  | request          -- the 8-bit SWD request phase
  | ack              -- the 3-bit SWD acknowledge phase
  | command          -- the CMD register of the command port
  | dpSelect         -- DP 0x8
  | ctrlStat         -- DP 0x4
  | apCsw            -- AP 0xA offset 0x00
  | handshake        -- AP 0xA offset 0x10, written
  | handshakeStatus  -- AP 0xA offset 0x10, read and compared
  | dmControl        -- DM offset 0x40
  | dmControlRelease -- DM offset 0x40, the write that ends a reset's ndmreset
  | dmCommand        -- DM offset 0x5C
  | abstractCs       -- DM offset 0x58
  | progbuf          -- DM offsets 0x80, 0x84
  | sbcs             -- DM offset 0xE0
deriving DecidableEq, Repr

/-- The space an instruction's bits belong to. -/
def Instr.space : Instr → Space
  | .swdReqDpR0 | .swdReqDpR4 | .swdReqDpR8 | .swdReqDpRC
  | .swdReqDpW0 | .swdReqDpW4 | .swdReqDpW8 | .swdReqDpWC
  | .swdReqApR0 | .swdReqApR4 | .swdReqApR8 | .swdReqApRC
  | .swdReqApW0 | .swdReqApW4 | .swdReqApW8 | .swdReqApWC => .request
  | .ackOk | .ackWait | .ackFault | .ackProtocolError _ => .ack
  | .connect | .disconnect | .isConnected | .getFrequency | .setFrequency | .lineReset | .sendIdleClocks
  | .isPowered | .powerUp | .clearErrors | .readDp | .writeDp | .readAp | .writeAp | .dapReadMem32
  | .dapWriteMem32
  | .init | .isInitialized | .halt | .resume | .step | .reset | .isHalted
  | .readReg | .writeReg | .readAllRegs | .readPc | .writePc | .readCsr | .writeCsr | .executeProgbuf
  | .sbaInit | .sbaRead32 | .sbaWrite32 | .sbaCheckErrors
  | .readMem8 | .readMem16 | .readMem32 | .writeMem8 | .writeMem16 | .writeMem32 | .readMemBlock
  | .writeMemBlock
  | .uploadCode | .executeCode | .trace
  | .enableCache | .invalidateCache | .resourceUsage | .getErrorDetail
  | .reservedHostOpcode _ => .command
  | .selectWord _ _ => .dpSelect
  | .ctrlstatClear | .ctrlstatPwrupReq | .ctrlstatClearErrorsPowered | .ctrlstatClearErrorsUnpowered => .ctrlStat
  | .cswInit => .apCsw
  | .dminitSeq1 | .dminitSeq2 | .dminitSeq3 => .handshake
  | .dminitExpected => .handshakeStatus
  | .dmcSel _ | .dmcHalt _ | .dmcResume _ | .dmcReset _ _ => .dmControl
  | .dmcUnreset _ _ => .dmControlRelease
  | .cmdGprRead _ | .cmdGprWrite _ | .cmdPostexec => .dmCommand
  | .abstractcsClearCmderr => .abstractCs
  | .insnCsrr _ | .insnCsrw _ | .insnEbreak => .progbuf
  | .sbcsCfg => .sbcs

end Sys2Proof
end

