-- ==== Sys2Proof/WellFormed.lean ====
section
/-! DEFINITION. Which terms of Instr are instructions of the spec. Every field but two is well-formed by its
type; the two rows that stand for several values take only those values. -/

namespace Sys2Proof

/-- The host opcodes the spec reserves (30_encoding.md R71, last paragraph). -/
def reservedOpcode (op : BitVec 8) : Bool :=
  let n := op.toNat
  n == 0x00 || (0x08 ≤ n && n ≤ 0x0F) || (0x19 ≤ n && n ≤ 0x1F) || n == 0x2F || (0x34 ≤ n && n ≤ 0x3F)
    || (0x48 ≤ n && n ≤ 0x4F) || (0x53 ≤ n && n ≤ 0x5F) || (0x62 ≤ n && n ≤ 0x6F) || 0x72 ≤ n

/-- The acknowledge values that are a protocol error (30_encoding.md R57): "Any other value". -/
def malformedAck (v : BitVec 3) : Bool := v != 1 && v != 2 && v != 4

def Instr.wellFormed : Instr → Bool
  | .ackProtocolError v => malformedAck v
  | .reservedHostOpcode op => reservedOpcode op
  | .swdReqDpR0 | .swdReqDpR4 | .swdReqDpR8 | .swdReqDpRC
  | .swdReqDpW0 | .swdReqDpW4 | .swdReqDpW8 | .swdReqDpWC
  | .swdReqApR0 | .swdReqApR4 | .swdReqApR8 | .swdReqApRC
  | .swdReqApW0 | .swdReqApW4 | .swdReqApW8 | .swdReqApWC
  | .ackOk | .ackWait | .ackFault
  | .connect | .disconnect | .isConnected | .getFrequency | .setFrequency | .lineReset | .sendIdleClocks
  | .isPowered | .powerUp | .clearErrors | .readDp | .writeDp | .readAp | .writeAp | .dapReadMem32
  | .dapWriteMem32
  | .init | .isInitialized | .halt | .resume | .step | .reset | .isHalted
  | .readReg | .writeReg | .readAllRegs | .readPc | .writePc | .readCsr | .writeCsr | .executeProgbuf
  | .sbaInit | .sbaRead32 | .sbaWrite32 | .sbaCheckErrors
  | .readMem8 | .readMem16 | .readMem32 | .writeMem8 | .writeMem16 | .writeMem32 | .readMemBlock
  | .writeMemBlock
  | .uploadCode | .executeCode | .trace
  | .enableCache | .invalidateCache | .resourceUsage | .getErrorDetail
  | .selectWord _ _
  | .ctrlstatClear | .ctrlstatPwrupReq | .ctrlstatClearErrorsPowered | .ctrlstatClearErrorsUnpowered
  | .cswInit | .dminitSeq1 | .dminitSeq2 | .dminitSeq3 | .dminitExpected
  | .dmcSel _ | .dmcHalt _ | .dmcResume _ | .dmcReset _ _ | .dmcUnreset _ _
  | .cmdGprRead _ | .cmdGprWrite _ | .cmdPostexec
  | .abstractcsClearCmderr
  | .insnCsrr _ | .insnCsrw _ | .insnEbreak
  | .sbcsCfg => true

end Sys2Proof
end

