-- ==== Sys2Proof/Decode.lean ====
section
/-! DEFINITION. The decoder, total on any bytes, one encoding space at a time; after it the words the engine
composes (30_encoding.md R55 to R69), the encoder made of them, and the reading of a row of
spec/opcode_table.json as the table numbers its bits. -/

namespace Sys2Proof

/-! ## Decoding -/

/-- The sixteen request bytes of 30_encoding.md R56; any other byte is no request (R76). -/
def decodeRequest (b : Byte) : Option Instr :=
  match b.toNat with
  | 0xA5 => some .swdReqDpR0
  | 0x8D => some .swdReqDpR4
  | 0x95 => some .swdReqDpR8
  | 0xBD => some .swdReqDpRC
  | 0x81 => some .swdReqDpW0
  | 0xA9 => some .swdReqDpW4
  | 0xB1 => some .swdReqDpW8
  | 0x99 => some .swdReqDpWC
  | 0x87 => some .swdReqApR0
  | 0xAF => some .swdReqApR4
  | 0xB7 => some .swdReqApR8
  | 0x9F => some .swdReqApRC
  | 0xA3 => some .swdReqApW0
  | 0x8B => some .swdReqApW4
  | 0x93 => some .swdReqApW8
  | 0xBB => some .swdReqApWC
  | _ => none

/-- The eight acknowledge values (30_encoding.md R57), in the low three bits of a byte. -/
def decodeAck (b : Byte) : Option Instr :=
  match b.toNat with
  | 1 => some .ackOk
  | 2 => some .ackWait
  | 4 => some .ackFault
  | n => if n < 8 then some (.ackProtocolError (BitVec.ofNat 3 n)) else none

/-- The host opcodes of 30_encoding.md R71; every other one is reserved (R75). -/
def decodeCommand (op : Byte) : Instr :=
  match op.toNat with
  | 0x01 => .connect
  | 0x02 => .disconnect
  | 0x03 => .isConnected
  | 0x04 => .getFrequency
  | 0x05 => .setFrequency
  | 0x06 => .lineReset
  | 0x07 => .sendIdleClocks
  | 0x10 => .isPowered
  | 0x11 => .powerUp
  | 0x12 => .clearErrors
  | 0x13 => .readDp
  | 0x14 => .writeDp
  | 0x15 => .readAp
  | 0x16 => .writeAp
  | 0x17 => .dapReadMem32
  | 0x18 => .dapWriteMem32
  | 0x20 => .init
  | 0x21 => .isInitialized
  | 0x22 => .halt
  | 0x23 => .resume
  | 0x24 => .step
  | 0x25 => .reset
  | 0x26 => .isHalted
  | 0x27 => .readReg
  | 0x28 => .writeReg
  | 0x29 => .readAllRegs
  | 0x2A => .readPc
  | 0x2B => .writePc
  | 0x2C => .readCsr
  | 0x2D => .writeCsr
  | 0x2E => .executeProgbuf
  | 0x30 => .sbaInit
  | 0x31 => .sbaRead32
  | 0x32 => .sbaWrite32
  | 0x33 => .sbaCheckErrors
  | 0x40 => .readMem8
  | 0x41 => .readMem16
  | 0x42 => .readMem32
  | 0x43 => .writeMem8
  | 0x44 => .writeMem16
  | 0x45 => .writeMem32
  | 0x46 => .readMemBlock
  | 0x47 => .writeMemBlock
  | 0x50 => .uploadCode
  | 0x51 => .executeCode
  | 0x52 => .trace
  | 0x60 => .enableCache
  | 0x61 => .invalidateCache
  | 0x70 => .resourceUsage
  | 0x71 => .getErrorDetail
  | _ => .reservedHostOpcode op

/-- DP 0x8 (30_encoding.md R64): bits [31:16] zero, [11:8] fixed, [3:0] CTRLSEL. -/
def decodeSelect (w : Word) : Option Instr :=
  if w.extractLsb' 16 16 = 0 ∧ w.extractLsb' 8 4 = Config.selectFixed ∧ w.extractLsb' 0 4 = Config.apCtrlsel then
    some (.selectWord (w.extractLsb' 12 4) (w.extractLsb' 4 4))
  else none

/-- DP 0x4 (30_encoding.md R65; 41_dap.md R109). -/
def decodeCtrlStat (w : Word) : Option Instr :=
  if w = 0 then some .ctrlstatClear
  else if w = Config.pwrupReq then some .ctrlstatPwrupReq
  else if w = Config.stickyW1c ||| Config.pwrupReq then some .ctrlstatClearErrorsPowered
  else if w = Config.stickyW1c then some .ctrlstatClearErrorsUnpowered
  else none

/-- AP 0xA offset 0x10, written (42_dm.md R117). -/
def decodeHandshake (w : Word) : Option Instr :=
  if w = Config.dminitSeq1 then some .dminitSeq1
  else if w = Config.dminitSeq2 then some .dminitSeq2
  else if w = Config.dminitSeq3 then some .dminitSeq3
  else none

/-- Bits [25:16] of a DMCONTROL word, when they name a hart the target has (10_state.md R30). -/
def decodeHartsel (w : Word) : Option HartId :=
  if h : (w.extractLsb' 16 Config.hartselBits).toNat < Config.harts then some ⟨_, h⟩ else none

/-- The request flags of a DMCONTROL word: haltreq, resumereq, and all other bits but hartsel. -/
def dmcFlags (w : Word) : Word := w &&& ~~~((BitVec.allOnes Config.hartselBits).setWidth Config.xlen <<< 16)

/-- DMCONTROL (30_encoding.md R66), outside the release of a reset. -/
def decodeDmControl (w : Word) : Option Instr :=
  match decodeHartsel w with
  | none => none
  | some h =>
    if dmcFlags w = 0x00000001 then some (.dmcSel h)
    else if dmcFlags w = 0x80000001 then some (.dmcHalt h)
    else if dmcFlags w = 0x40000001 then some (.dmcResume h)
    else if dmcFlags w = 0x00000003 then some (.dmcReset h false)
    else if dmcFlags w = 0x80000003 then some (.dmcReset h true)
    else none

/-- DMCONTROL at the release of a reset (30_encoding.md R66 `DMC_UNRESET`). -/
def decodeDmControlRelease (w : Word) : Option Instr :=
  match decodeHartsel w with
  | none => none
  | some h =>
    if dmcFlags w = 0x00000001 then some (.dmcUnreset h false)
    else if dmcFlags w = 0x80000001 then some (.dmcUnreset h true)
    else none

/-- COMMAND (30_encoding.md R67). -/
def decodeDmCommand (w : Word) : Option Instr :=
  if w = Config.postexecCommand then some .cmdPostexec
  else if w.extractLsb' 5 27 = 69760 then some (.cmdGprRead (w.extractLsb' 0 5))
  else if w.extractLsb' 5 27 = 71808 then some (.cmdGprWrite (w.extractLsb' 0 5))
  else none

/-- The program buffer (30_encoding.md R68). -/
def decodeProgbuf (w : Word) : Option Instr :=
  if w = Config.insnEbreak then some .insnEbreak
  else if w.extractLsb' 0 20 = 0x02473 then some (.insnCsrr (w.extractLsb' 20 12))
  else if w.extractLsb' 0 20 = 0x41073 then some (.insnCsrw (w.extractLsb' 20 12))
  else none

/-- A 32-bit word in the space it is written to. -/
def decodeWord (sp : Space) (w : Word) : Option Instr :=
  match sp with
  | .dpSelect => decodeSelect w
  | .ctrlStat => decodeCtrlStat w
  | .apCsw => if w = Config.cswInit then some .cswInit else none
  | .handshake => decodeHandshake w
  | .handshakeStatus => if w = Config.dminitExpected then some .dminitExpected else none
  | .dmControl => decodeDmControl w
  | .dmControlRelease => decodeDmControlRelease w
  | .dmCommand => decodeDmCommand w
  | .abstractCs => if w = Config.cmderrW1c then some .abstractcsClearCmderr else none
  | .progbuf => decodeProgbuf w
  | .sbcs => if w = Config.sbcsCfg then some .sbcsCfg else none
  | .request | .ack | .command => none

/-- One byte in the space it is sent to. -/
def decodeByte (sp : Space) (b : Byte) : Option Instr :=
  match sp with
  | .request => decodeRequest b
  | .ack => decodeAck b
  | .command => some (decodeCommand b)
  | _ => none

/-- Whether an object of the space is one byte long; the others are 32-bit words. -/
def Space.oneByte : Space → Bool
  | .request | .ack | .command => true
  | _ => false

/-- The word whose bytes, least significant first, are these four (20_memory.md R40). -/
def wordOfBytes (b0 b1 b2 b3 : Byte) : Word := (b3 ++ b2 ++ b1 ++ b0).setWidth Config.xlen

/-- The instruction at the head of a list of bytes, and the bytes after it. A word lies with its least
significant byte first, the order its bits go on the wire (20_memory.md R39, R40). -/
def decode (sp : Space) (bytes : List Byte) : Option (Instr × List Byte) :=
  if sp.oneByte then
    match bytes with
    | b :: rest => (decodeByte sp b).map fun i => (i, rest)
    | [] => none
  else
    match bytes with
    | b0 :: b1 :: b2 :: b3 :: rest => (decodeWord sp (wordOfBytes b0 b1 b2 b3)).map fun i => (i, rest)
    | _ => none

/-! ## The words the engine composes -/

/-- A bit as a field of one bit in a wider word. -/
def bitAt (n : Nat) (b : Bool) (k : Nat) : BitVec n := (BitVec.ofBool b).setWidth n <<< k

/-- The request byte (30_encoding.md R55): `0x81 | APnDP<<1 | RnW<<2 | A2<<3 | A3<<4 | Parity<<5`. -/
def requestByte (apndp rnw : Bool) (a : BitVec 4) : Byte :=
  0x81 ||| bitAt 8 apndp 1 ||| bitAt 8 rnw 2 ||| bitAt 8 a[2] 3 ||| bitAt 8 a[3] 4
    ||| bitAt 8 (apndp ^^ rnw ^^ a[2] ^^ a[3]) 5

/-- `SelectWord` (30_encoding.md R64). -/
def selectWord (apsel bank ctrlsel : BitVec 4) : Word :=
  (apsel.setWidth Config.xlen <<< 12) ||| (Config.selectFixed.setWidth Config.xlen <<< 8) ||| (bank.setWidth Config.xlen <<< 4)
    ||| ctrlsel.setWidth Config.xlen

/-- The value CLEAR_ERRORS writes (41_dap.md R109). -/
def clearErrorsWord (powered : Bool) : Word :=
  Config.stickyW1c ||| (if powered then Config.pwrupReq else 0)

/-- hartsello = h at DMCONTROL bits [25:16] (30_encoding.md R63). -/
def hartselField (h : HartId) : Word :=
  (BitVec.ofNat Config.hartselBits h.val).setWidth Config.xlen <<< 16

/-- `DMC_SEL(h)` (30_encoding.md R66). -/
def dmcSel (h : HartId) : Word := 0x00000001 ||| hartselField h
/-- `DMC_HALT(h)` (30_encoding.md R66). -/
def dmcHalt (h : HartId) : Word := 0x80000001 ||| hartselField h
/-- `DMC_RESUME(h)` (30_encoding.md R66). -/
def dmcResume (h : HartId) : Word := 0x40000001 ||| hartselField h
/-- `DMC_RESET(h, hr)` (30_encoding.md R66). -/
def dmcReset (h : HartId) (hr : Bool) : Word := 0x00000003 ||| hartselField h ||| bitAt Config.xlen hr 31
/-- `DMC_UNRESET(h, hr)` (30_encoding.md R66). -/
def dmcUnreset (h : HartId) (hr : Bool) : Word := 0x00000001 ||| hartselField h ||| bitAt Config.xlen hr 31

/-- `CMD_GPR_READ(n)` (30_encoding.md R67). -/
def cmdGprRead (n : BitVec 5) : Word := 0x00221000 + n.setWidth Config.xlen
/-- `CMD_GPR_WRITE(n)` (30_encoding.md R67). -/
def cmdGprWrite (n : BitVec 5) : Word := 0x00231000 + n.setWidth Config.xlen

/-- `INSN_CSRR(c)` (30_encoding.md R68). -/
def insnCsrr (c : BitVec 12) : Word := 0x00002473 ||| (c.setWidth Config.xlen <<< 20)
/-- `INSN_CSRW(c)` (30_encoding.md R68). -/
def insnCsrw (c : BitVec 12) : Word := 0x00041073 ||| (c.setWidth Config.xlen <<< 20)

/-! ## Encoding -/

/-- The bytes of a 32-bit word, least significant first. -/
def wordBytes (w : Word) : List Byte :=
  [w.extractLsb' 0 8, w.extractLsb' 8 8, w.extractLsb' 16 8, w.extractLsb' 24 8]

/-- The bytes of an instruction in its own space. -/
def encode : Instr → List Byte
  | .swdReqDpR0 => [requestByte false true 0x0]
  | .swdReqDpR4 => [requestByte false true 0x4]
  | .swdReqDpR8 => [requestByte false true 0x8]
  | .swdReqDpRC => [requestByte false true 0xC]
  | .swdReqDpW0 => [requestByte false false 0x0]
  | .swdReqDpW4 => [requestByte false false 0x4]
  | .swdReqDpW8 => [requestByte false false 0x8]
  | .swdReqDpWC => [requestByte false false 0xC]
  | .swdReqApR0 => [requestByte true true 0x0]
  | .swdReqApR4 => [requestByte true true 0x4]
  | .swdReqApR8 => [requestByte true true 0x8]
  | .swdReqApRC => [requestByte true true 0xC]
  | .swdReqApW0 => [requestByte true false 0x0]
  | .swdReqApW4 => [requestByte true false 0x4]
  | .swdReqApW8 => [requestByte true false 0x8]
  | .swdReqApWC => [requestByte true false 0xC]
  | .ackOk => [1]
  | .ackWait => [2]
  | .ackFault => [4]
  | .ackProtocolError v => [v.setWidth 8]
  | .connect => [0x01]
  | .disconnect => [0x02]
  | .isConnected => [0x03]
  | .getFrequency => [0x04]
  | .setFrequency => [0x05]
  | .lineReset => [0x06]
  | .sendIdleClocks => [0x07]
  | .isPowered => [0x10]
  | .powerUp => [0x11]
  | .clearErrors => [0x12]
  | .readDp => [0x13]
  | .writeDp => [0x14]
  | .readAp => [0x15]
  | .writeAp => [0x16]
  | .dapReadMem32 => [0x17]
  | .dapWriteMem32 => [0x18]
  | .init => [0x20]
  | .isInitialized => [0x21]
  | .halt => [0x22]
  | .resume => [0x23]
  | .step => [0x24]
  | .reset => [0x25]
  | .isHalted => [0x26]
  | .readReg => [0x27]
  | .writeReg => [0x28]
  | .readAllRegs => [0x29]
  | .readPc => [0x2A]
  | .writePc => [0x2B]
  | .readCsr => [0x2C]
  | .writeCsr => [0x2D]
  | .executeProgbuf => [0x2E]
  | .sbaInit => [0x30]
  | .sbaRead32 => [0x31]
  | .sbaWrite32 => [0x32]
  | .sbaCheckErrors => [0x33]
  | .readMem8 => [0x40]
  | .readMem16 => [0x41]
  | .readMem32 => [0x42]
  | .writeMem8 => [0x43]
  | .writeMem16 => [0x44]
  | .writeMem32 => [0x45]
  | .readMemBlock => [0x46]
  | .writeMemBlock => [0x47]
  | .uploadCode => [0x50]
  | .executeCode => [0x51]
  | .trace => [0x52]
  | .enableCache => [0x60]
  | .invalidateCache => [0x61]
  | .resourceUsage => [0x70]
  | .getErrorDetail => [0x71]
  | .reservedHostOpcode op => [op]
  | .selectWord apsel bank => wordBytes (selectWord apsel bank Config.apCtrlsel)
  | .ctrlstatClear => wordBytes 0
  | .ctrlstatPwrupReq => wordBytes Config.pwrupReq
  | .ctrlstatClearErrorsPowered => wordBytes (clearErrorsWord true)
  | .ctrlstatClearErrorsUnpowered => wordBytes (clearErrorsWord false)
  | .cswInit => wordBytes Config.cswInit
  | .dminitSeq1 => wordBytes Config.dminitSeq1
  | .dminitSeq2 => wordBytes Config.dminitSeq2
  | .dminitSeq3 => wordBytes Config.dminitSeq3
  | .dminitExpected => wordBytes Config.dminitExpected
  | .dmcSel h => wordBytes (dmcSel h)
  | .dmcHalt h => wordBytes (dmcHalt h)
  | .dmcResume h => wordBytes (dmcResume h)
  | .dmcReset h hr => wordBytes (dmcReset h hr)
  | .dmcUnreset h hr => wordBytes (dmcUnreset h hr)
  | .cmdGprRead n => wordBytes (cmdGprRead n)
  | .cmdGprWrite n => wordBytes (cmdGprWrite n)
  | .cmdPostexec => wordBytes Config.postexecCommand
  | .abstractcsClearCmderr => wordBytes Config.cmderrW1c
  | .insnCsrr c => wordBytes (insnCsrr c)
  | .insnCsrw c => wordBytes (insnCsrw c)
  | .insnEbreak => wordBytes Config.insnEbreak
  | .sbcsCfg => wordBytes Config.sbcsCfg

/-! ## The rows of spec/opcode_table.json as the table numbers their bits -/

/-- The 32-bit spaces, in the order a bare word of the table is looked up in them (log 17). -/
def wordSpaces : List Space :=
  [.dpSelect, .ctrlStat, .apCsw, .dmControl, .dmCommand, .abstractCs, .progbuf, .sbcs, .handshake,
   .handshakeStatus, .dmControlRelease]

/-- The space a bare number of the table is read in (log 17): up to three bits an acknowledge; a byte a host
command if its opcode is assigned, else a request if it is one of the sixteen, else a (reserved) command; a
longer number a word of the first space that knows it. -/
def tableSpace (nbits w : Nat) : Space :=
  if nbits ≤ 3 then .ack
  else if nbits ≤ 8 then
    if reservedOpcode (BitVec.ofNat 8 w) && (decodeRequest (BitVec.ofNat 8 w)).isSome then .request else .command
  else
    match wordSpaces.find? fun sp => (decodeWord sp (BitVec.ofNat Config.xlen w)).isSome with
    | some sp => sp
    | none => .dpSelect

/-- The bytes of a bare number of the table, in the space it is read in. -/
def tableBytes (nbits w : Nat) : List Byte :=
  if (tableSpace nbits w).oneByte then [BitVec.ofNat 8 w] else wordBytes (BitVec.ofNat Config.xlen w)

/-- The instruction the decoder reads from a row's bits (bit 0 the least significant). -/
def decodeTableWord (nbits w : Nat) : Option Instr :=
  (decode (tableSpace nbits w) (tableBytes nbits w)).map Prod.fst

end Sys2Proof
end

