-- ==== Sys2Proof/Machine/Flags.lean ====
section
/-! DEFINITION. Parity, and the fields the engine tests in the words the target returns (10_state.md rules R24,
R25, R31, R32, R34; 42_dm.md rule R113). -/

namespace Sys2Proof.Machine

/-- The bits of `w`, bit 0 first: the order of the wire (20_memory.md R39). -/
def bitsOf {n : Nat} (w : BitVec n) : List Bool := (List.range n).map w.getLsbD

/-- `xor_reduce(v)` (00_scope.md R8): true when an odd number of bits is 1. -/
def xorReduce (w : Word) : Bool := (bitsOf w).foldr xor false

/-- The word whose bits, bit 0 first, are the list (30_encoding.md R58). -/
def wordOfBits (bs : List Bool) : Word := BitVec.ofFnLE fun i : Fin Config.xlen => bs.getD i.val false

/-- `ack = a0 | a1<<1 | a2<<2` (30_encoding.md R57). -/
def ackOfBits (a0 a1 a2 : Bool) : BitVec 3 := BitVec.ofFnLE fun i : Fin 3 => [a0, a1, a2].getD i.val false

/-- What an acknowledge value means (30_encoding.md R57). -/
inductive Ack where
  | ok | wait | fault | malformed
deriving DecidableEq, Repr

/-- The meaning of the three acknowledge bits (30_encoding.md R57). -/
def ackMeaning (ack : BitVec 3) : Ack :=
  if ack = 1 then .ok else if ack = 2 then .wait else if ack = 4 then .fault else .malformed

/-- `designer = IDCODE[11:1]` (10_state.md R24). PRESUMED bit places (log 8), unsafe. -/
def designer (id : Word) : BitVec 11 := id.extractLsb' 1 11

/-- Both power-up acknowledges (10_state.md R25; 41_dap.md R107). -/
def powerAcked (v : Word) : Bool := v &&& Config.pwrupAck == Config.pwrupAck

/-- DMSTATUS bit 9 (10_state.md R31). -/
def allHalted (v : Word) : Bool := v[9]

/-- DMSTATUS bit 11 (10_state.md R31). -/
def allRunning (v : Word) : Bool := v[11]

/-- ABSTRACTCS bit 12 (10_state.md R32). -/
def abstractBusy (v : Word) : Bool := v[12]

/-- ABSTRACTCS bits [10:8] (10_state.md R32). -/
def cmderr (v : Word) : BitVec 3 := v.extractLsb' 8 3

/-- SBCS bits [11:5] (10_state.md R34). -/
def sbasize (v : Word) : BitVec 7 := v.extractLsb' 5 7

/-- SBCS bits [14:12] (10_state.md R34). -/
def sberror (v : Word) : BitVec 3 := v.extractLsb' 12 3

end Sys2Proof.Machine
end

