-- ==== Sys2Proof/Machine/Operands.lean ====
section
/-! DEFINITION. Operand arithmetic: register addresses and offsets, alignment, ranges, sub-word fields and the
clock divider (10_state.md rules R23, R28, R29, R35; 20_memory.md rules R40, R41; 30_encoding.md rules R63, R72;
40_wire.md rule R88). -/

namespace Sys2Proof.Machine

/-! ## Addresses -/

/-- DP register addresses (10_state.md R23). -/
def dpIdcode : BitVec 4 := 0x0
@[inherit_doc dpIdcode] def dpCtrlStat : BitVec 4 := 0x4
@[inherit_doc dpIdcode] def dpSelect : BitVec 4 := 0x8
@[inherit_doc dpIdcode] def dpRdbuff : BitVec 4 := 0xC

/-- AP register offsets (10_state.md R28); `apBank1` is the bank-1 register the handshake writes. -/
def apCsw : Byte := 0x00
@[inherit_doc apCsw] def apTar : Byte := 0x04
@[inherit_doc apCsw] def apDrw : Byte := 0x0C
@[inherit_doc apCsw] def apBank1 : Byte := 0x10

/-- `bank = (reg >> 4) & 0xF` (30_encoding.md R63). -/
def apBank (reg : Byte) : BitVec 4 := reg.extractLsb' 4 4

/-- `reg & 0xC`: the A[3:2] of an AP access (30_encoding.md R63). -/
def apAddr (reg : Byte) : BitVec 4 := reg.extractLsb' 0 4 &&& 0xC

/-- The DM registers (10_state.md R29). -/
inductive DmReg where
  | data0 | dmcontrol | dmstatus | abstractcs | command
  /-- Word `i` of the program buffer. -/
  | progbuf (i : Nat)
  | sbcs | sbaddress0 | sbdata0
deriving DecidableEq, Repr

/-- `PROGBUF0` (10_state.md R29). -/
abbrev DmReg.progbuf0 : DmReg := .progbuf 0
/-- `PROGBUF1` (10_state.md R29). -/
abbrev DmReg.progbuf1 : DmReg := .progbuf 1

/-- The address of word `i` of a block at `a` (44_ops.md R155 to R157). -/
def blockAddr (a : Word) (i : Nat) : Word := a + BitVec.ofNat Config.xlen (4 * i)

/-- Byte offset from `DM_BASE` (10_state.md R29); word `i` of the program buffer is at `PROGBUF0 + 4*i` (42_dm.md
R131). -/
def dmOffset : DmReg → Word
  | .data0 => 0x10
  | .dmcontrol => 0x40
  | .dmstatus => 0x44
  | .abstractcs => 0x58
  | .command => 0x5C
  | .progbuf i => blockAddr 0x80 i
  | .sbcs => 0xE0
  | .sbaddress0 => 0xE4
  | .sbdata0 => 0xF0

/-- `DCSR` and `DPC` (10_state.md R35). -/
def csrDcsr : BitVec 12 := 0x7B0
@[inherit_doc csrDcsr] def csrDpc : BitVec 12 := 0x7B1

/-- `s0` = x8, the transfer register of CSR access (42_dm.md R132). -/
def regS0 : BitVec 5 := 8

/-- x0 .. x31, in order (42_dm.md R130). -/
def allRegs : List (BitVec 5) := (List.range Config.ngpr).map (BitVec.ofNat 5)

/-! ## Checks on operands -/

/-- `addr & 3 = 0` (20_memory.md R41). -/
def aligned4 (a : Word) : Bool := a &&& 3 == 0

/-- `addr & 1 = 0` (20_memory.md R41). -/
def aligned2 (a : Word) : Bool := a &&& 1 == 0

/-- `a + 4n ≤ 2^32`, computed without wrap (44_ops.md R154). -/
def inRange (a n : Word) : Bool := a.toNat + 4 * n.toNat ≤ 2 ^ Config.xlen

/-- The DP addresses READ_DP may name (41_dap.md R99, R100). -/
def readableDp (a : Word) : Bool := a == 0x0 || a == 0x4 || a == 0xC

/-- The DP addresses WRITE_DP may name (41_dap.md R99, R101). -/
def writableDp (a : Word) : Bool := a == 0x4 || a == 0x8

/-- apsel 0..15 and reg 0x00..0xFC with reg & 3 = 0 (41_dap.md R105, R106). -/
def apOperandsOk (apsel reg : Word) : Bool := apsel.toNat ≤ 15 && reg.toNat ≤ 0xFC && reg &&& 3 == 0

/-! ## Sub-word fields -/

/-- `8 * (a & 3)`: the shift of byte `a` in its word (20_memory.md R40; 44_ops.md R151). -/
def byteShift (a : Word) : Nat := 8 * (a &&& 3).toNat

/-- `8 * (a & 2)`: the shift of halfword `a` in its word (20_memory.md R40; 44_ops.md R150). -/
def halfShift (a : Word) : Nat := 8 * (a &&& 2).toNat

/-- `a & ~3`: the containing word's address. -/
def wordAddr (a : Word) : Word := a &&& ~~~3

/-- The field of `w` under `mask` at shift `sh`, replaced by `v`: `(w & ~(mask << sh)) | (v << sh)`
(44_ops.md R152, R153). -/
def insertField (w mask v : Word) (sh : Nat) : Word := (w &&& ~~~(mask <<< sh)) ||| (v <<< sh)

/-- Byte `i` of an error detail goes to bits [8(i mod 4)+7 : 8(i mod 4)] of word `i div 4`; unused bytes 0
(44_ops.md R161). -/
def packBytes : List Byte → List Word
  | [] => []
  | [b0] => [wordOfBytes b0 0 0 0]
  | [b0, b1] => [wordOfBytes b0 b1 0 0]
  | [b0, b1, b2] => [wordOfBytes b0 b1 b2 0]
  | b0 :: b1 :: b2 :: b3 :: rest => wordOfBytes b0 b1 b2 b3 :: packBytes rest

/-! ## The clock divider -/

/-- `ceil_div(a, b)` (00_scope.md R8), for b > 0. -/
def ceilDiv (a b : Nat) : Nat := (a + b - 1) / b

/-- `Divider(f)` (40_wire.md R88) for a probe whose system clock is `sysKhz`, f ≥ 1. -/
def dividerAt (sysKhz f : Nat) : Nat :=
  Nat.min Config.clkdivMax
    (Nat.max Config.clkdivMin (ceilDiv (ceilDiv sysKhz f + 3) Config.cyclesPerBit))

/-- `Divider(f)` on this probe (40_wire.md R88), as the 16-bit divider register. -/
def divider (f : Word) : BitVec 16 := BitVec.ofNat 16 (dividerAt Config.sysKhz f.toNat)

end Sys2Proof.Machine
end

