-- ==== Sys2Proof/Machine/State.lean ====
section
/-! DEFINITION. The state of the probe as plain data: the session in focus with the slot tracker it shares, the
other sessions, and the host actions not yet served (10_state.md; 30_encoding.md section 6; 70_reset_and_hazards.md
rules R177, R178). Each field names the rule that gives it; the model's own fields are said to be so. -/

namespace Sys2Proof.Machine

/-! ## Errors -/

/-- The closed set of error kinds, in the order of their codes 0 to 15 (60_exceptions.md R162). `wait` is never
reported. -/
inductive ErrorKind where
  | ok | timeout | fault | protocol | parity | wait | notConnected | notInitialized | notHalted
  | alreadyHalted | invalidParam | invalidState | alignment | resourceBusy | abstractCmd | verify
deriving DecidableEq, Repr

/-- The engine has no machine fault and no stuck state (60_exceptions.md R169, R170): every invalid request ends
its command with a status, which is a next state. So no constructor: nothing raises a fault. -/
inductive Fault where
deriving DecidableEq, Repr

/-- Why a step has no meaning. -/
inductive Refusal where
  /-- Raised by the dispatcher for an instruction whose meaning is not written yet. Safe: nothing can be proved
  of what follows. -/
  | notModelled (mnemonic : String)
  /-- Raised by the step when a word is presented in an encoding space that gives it no meaning (30_encoding.md
  R76: "The engine never sends a request whose Start, Stop, Park or Parity bit differs"). Safe: the model stops. -/
  | undecodable (sp : Space) (w : Word)
deriving DecidableEq, Repr

/-! ## Wire -/

/-- One entry of a command's timeline: the three kinds of SWD cycle (40_wire.md R80), or a delay of at least so
many microseconds (70_reset_and_hazards.md R182). -/
inductive WireEvent where
  | drive (b : Bool)
  | sample (b : Bool)
  | release
  | sleep (us : Nat)
deriving DecidableEq, Repr

/-- A PIO slot: block 0..1, state machine 0..3 (10_state.md R16, R21). -/
structure Slot where
  block : Fin Config.pioBlocks
  sm : Fin Config.smPerBlock
deriving DecidableEq, Repr

/-- `S.cfg`, fixed at creation (10_state.md R15); `slot = none` is `auto`. R15 says "pin numbers" and gives them
neither a width nor a range: that a pin is any natural number, and that creation accepts every one, is DESIGN CHOICE
(log 10). -/
structure Cfg where
  swclkPin : Nat
  swdioPin : Nat
  freqKhz : Word
  slot : Option Slot
  enableCache : Bool
deriving DecidableEq, Repr

/-- `S.wire` (10_state.md R16). -/
structure Wire where
  freqKhz : Word
  clkdiv : BitVec 16
  pioProgramOffset : Nat
  initialized : Bool
  slot : Option Slot
deriving DecidableEq, Repr

/-- `S.dap` (10_state.md R17). -/
structure Dap where
  powered : Bool
  selValid : Bool
  currentApsel : BitVec 4
  currentBank : BitVec 4
  ctrlsel : BitVec 4
  retryCount : Word
  lastAck : BitVec 3
deriving DecidableEq, Repr

/-- `S.dm` (10_state.md R18). -/
structure Dm where
  initialized : Bool
  sbaInitialized : Bool
  cacheEnabled : Bool
deriving DecidableEq, Repr

/-- `S.hart[h]` (10_state.md R19): the engine's belief about one hart and its GPR mirror. -/
structure Hart where
  known : Bool
  halted : Bool
  cacheValid : Bool
  gpr : Vector Word Config.ngpr
deriving DecidableEq, Repr

/-- The command port (30_encoding.md R70). -/
structure Port where
  cmd : Byte
  arg0 : Word
  arg1 : Word
  arg2 : Word
  arg3 : Word
  din : List Word
  dout : List Word
  traceReply : Bool
  resultValue : Word
  resultStatus : ErrorKind
  busy : Bool
deriving DecidableEq, Repr

/-- One SWD request: the operands of `Txn` (40_wire.md R82). -/
structure Request where
  apndp : Bool
  rnw : Bool
  addr : BitVec 4
  wdata : Word
deriving DecidableEq, Repr

/-- The transaction in flight, or the last one: its request and the retries left to it (41_dap.md R96). The
model's own field (log 16). -/
structure InFlight where
  request : Request
  retriesLeft : Nat
deriving DecidableEq, Repr

/-- Which command is under way between two actions and how far it is: one that waits for the host (30_encoding.md
R73 `In()`; 44_ops.md R159 `AwaitTraceReply`), or a CONNECT while other sessions meet the slot it took (20_memory.md
R49; log 1). -/
inductive Hold where
  | none
  /-- EXECUTE_PROGBUF waits for a DIN word; `got` are the words popped (42_dm.md R137). -/
  | progbuf (h : HartId) (n : Nat) (got : List Word)
  /-- WRITE_MEM_BLOCK waits for word `i` of `n` (44_ops.md R156). -/
  | writeBlock (a : Word) (n i : Nat)
  /-- UPLOAD_CODE waits for word `i` of `n` (44_ops.md R157). -/
  | upload (a : Word) (n i : Nat)
  /-- EXECUTE_CODE waits for word `i` of `n` of its upload (44_ops.md R158). -/
  | executeCode (h : HartId) (entry : Word) (n i : Nat)
  /-- TRACE waits for the answer to its `count`-th record (44_ops.md R159). -/
  | trace (h : HartId) (max : Word) (capture : Bool) (count : Nat)
  /-- CONNECT stands behind `Acquire`, which gave it slot `x` (40_wire.md R91, R92). -/
  | connect (x : Slot)
deriving DecidableEq, Repr

/-- The state of one session (10_state.md R14 to R19) with its command port. -/
structure Session where
  /-- The session has been created and not destroyed (70_reset_and_hazards.md R177 to R179). -/
  live : Bool
  connected : Bool
  cfg : Cfg
  errDetail : List Byte
  wire : Wire
  dap : Dap
  dm : Dm
  harts : Vector Hart Config.harts
  port : Port
  hold : Hold
  txn : InFlight
  /-- The bits the target will present on SWDIO, first first; after them every bit is free. The model's own
  field (log 3). -/
  swdio : List Bool
  /-- The timeline of the command in progress or last ended, newest first. The model's own field (log 4). -/
  record : List WireEvent
deriving DecidableEq, Repr

/-! ## The process-wide slot tracker -/

/-- `T` (10_state.md R21): the owner of each slot, `none` being `free`, in the order (0,0), (0,1), ..., (1,3). -/
structure Tracker where
  owner : Vector (Option SessionId) Config.slots
deriving DecidableEq, Repr

/-- What a command can read and write: the session in focus, its number, the shared slot tracker, and the count
of free values drawn (the model's own, log 3). -/
structure Engine where
  ses : Session
  self : SessionId
  tracker : Tracker
  free : Nat
deriving DecidableEq, Repr

/-! ## Host actions -/

/-- A register of the command port that the host can read (30_encoding.md R70). -/
inductive PortReg where
  | arg (k : Fin 4) | dout | resultValue | resultStatus | busy
deriving DecidableEq, Repr

/-- One action of the outside world on the probe (log 2). `issue` is the model's own (log 14): a word of
spec/opcode_table.json that is no host command is presented in its space, `data` being the write data of a
request. `startConnect` and `goOn` are the model's own too (log 1): a CMD write of CONNECT whose command stands
behind its `Acquire` when the next action comes, and that command going on to its end. -/
inductive Input where
  | create (cfg : Cfg)
  | destroy (id : SessionId)
  | writeCmd (id : SessionId) (op : Byte)
  | writeArg (id : SessionId) (k : Fin 4) (v : Word)
  | writeDin (id : SessionId) (w : Word)
  | writeTraceReply (id : SessionId) (b : Bool)
  | readPort (id : SessionId) (r : PortReg)
  | issue (id : SessionId) (sp : Space) (w : Word) (data : Word)
  | startConnect (id : SessionId)
  | goOn (id : SessionId)
deriving DecidableEq, Repr

/-- A session that exists and is not in focus. -/
structure Parked where
  id : SessionId
  ses : Session
deriving DecidableEq, Repr

/-- The whole probe. `eng` is the session in focus, `parked` the other sessions that exist, `nextId` the number
the next session gets (log 18), `inbox` the host actions not yet served (log 2), `hostData` what the host's last
port read returned. -/
structure State where
  eng : Engine
  parked : List Parked
  nextId : SessionId
  inbox : List Input
  hostData : Word
deriving DecidableEq, Repr

/-! ## Reset -/

/-- The configuration record with every default (10_state.md R15); the pins and `auto` are DESIGN CHOICE
(log 10). -/
def Cfg.default : Cfg :=
  { swclkPin := 0, swdioPin := 0, freqKhz := Config.defaultFreqKhz, slot := none,
    enableCache := Config.cacheEnabledAtCreate }

def Hart.reset : Hart :=
  { known := false, halted := false, cacheValid := false, gpr := Vector.replicate Config.ngpr 0 }

/-- The command port after reset (30_encoding.md R70); CMD and TRACE_REPLY are DESIGN CHOICE (log 11). -/
def Port.reset : Port :=
  { cmd := 0, arg0 := 0, arg1 := 0, arg2 := 0, arg3 := 0, din := [], dout := [], traceReply := false,
    resultValue := 0, resultStatus := .ok, busy := false }

/-- A session's fields at creation (70_reset_and_hazards.md R178). `live` says whether it exists. -/
def Session.fresh (cfg : Cfg) (live : Bool) : Session :=
  { live := live
    connected := false
    cfg := cfg
    errDetail := []
    wire :=
      { freqKhz := cfg.freqKhz, clkdiv := divider cfg.freqKhz, pioProgramOffset := 0,
        initialized := false, slot := none }
    dap :=
      { powered := false, selValid := false, currentApsel := 0, currentBank := 0, ctrlsel := 0,
        retryCount := Config.retryCount, lastAck := 0 }
    dm := { initialized := false, sbaInitialized := false, cacheEnabled := cfg.enableCache }
    harts := Vector.replicate Config.harts Hart.reset
    port := Port.reset
    hold := .none
    txn := { request := { apndp := false, rnw := false, addr := 0, wdata := 0 }, retriesLeft := 0 }
    swdio := []
    record := [] }

/-- Every slot free (70_reset_and_hazards.md R177). -/
def Tracker.reset : Tracker := { owner := Vector.replicate Config.slots none }

/-- The probe at power-on (70_reset_and_hazards.md R177): every slot free, no session exists; the fields of the
session in focus stand at their creation values (R178, log 24). -/
def State.reset : State :=
  { eng := { ses := Session.fresh Cfg.default false, self := 0, tracker := Tracker.reset, free := 0 }
    parked := []
    nextId := 0
    inbox := []
    hostData := 0 }

end Sys2Proof.Machine
end

