-- ==== Sys2Proof/Machine/Ops.lean ====
section
/-! DEFINITION. The shared operations: how a command begins, raises and ends (30_encoding.md R73, R74;
60_exceptions.md R163), operand checks, the slot tracker, and the Wire Engine (40_wire.md). A procedure of the spec
is a `Proc`: it answers a value or a raise, and in both cases the engine state it leaves, since the engine has no
rollback (R163 point 2). -/

namespace Sys2Proof.Machine

/-! ## Procedures, raises and the ends of a command -/

/-- The 4-bit code in RESULT_STATUS (60_exceptions.md R162). -/
def ErrorKind.code : ErrorKind → BitVec 4
  | .ok => 0 | .timeout => 1 | .fault => 2 | .protocol => 3 | .parity => 4 | .wait => 5
  | .notConnected => 6 | .notInitialized => 7 | .notHalted => 8 | .alreadyHalted => 9
  | .invalidParam => 10 | .invalidState => 11 | .alignment => 12 | .resourceBusy => 13
  | .abstractCmd => 14 | .verify => 15

/-- An early end of a command: the status and RESULT_VALUE (60_exceptions.md R163). -/
structure Raise where
  kind : ErrorKind
  value : Word
deriving DecidableEq, Repr

/-- A procedure of the spec. -/
abbrev Proc (α : Type) := EStateM Raise Engine α

/-- `raise E` (60_exceptions.md R163): RESULT_VALUE is 0 unless a rule names another value. -/
def raise {α : Type} (k : ErrorKind) : Proc α := throw ⟨k, 0⟩

/-- `end with status E, value v` (60_exceptions.md R163). -/
def endWith {α : Type} (k : ErrorKind) (v : Word) : Proc α := throw ⟨k, v⟩

/-- `if not c: raise E`. -/
def require (c : Bool) (k : ErrorKind) : Proc Unit := if c then pure () else raise k

/-- `if c: m`. -/
def onlyIf (c : Bool) (m : Proc Unit) : Proc Unit := if c then m else pure ()

/-- Run `m`; on a raise run `cleanup` and raise the same again (60_exceptions.md R163 point 1). -/
def onRaise {α : Type} (m : Proc α) (cleanup : Proc Unit) : Proc α :=
  tryCatch m fun r => do cleanup; throw r

/-- Run `m` and keep its raise as a value (42_dm.md R132 "on raise E in attempt"). -/
def attempt {α : Type} (m : Proc α) : Proc (Except Raise α) := fun e =>
  match m e with
  | .ok a e' => .ok (.ok a) e'
  | .error r e' => .ok (.error r) e'

/-- How far a command got: ended with a value, or holding for the host (60_exceptions.md R169). -/
inductive Progress where
  | done (v : Word)
  | hold (h : Hold)
deriving DecidableEq, Repr

/-- Change the session in focus. -/
def modifySes (f : Session → Session) : Proc Unit := modify fun e => { e with ses := f e.ses }

/-- The session in focus. -/
def getSes : Proc Session := do return (← get).ses

/-- An accepted command starts (30_encoding.md R73, R74): BUSY is set, DOUT is emptied; its timeline is empty. -/
def Engine.begin (e : Engine) : Engine :=
  { e with ses.port.busy := true, ses.port.dout := [], ses.hold := .none, ses.record := [] }

/-- The content `err_detail` gets at a failing end: any byte string of length 0 to 127 (60_exceptions.md R163
point 4; log 5). -/
def freeErrDetail (k : Nat) : List Byte := (Config.errDetail k).take (Config.errDetailMax - 1)

/-- The result registers are written, the rest of DIN is discarded and BUSY clears (30_encoding.md R74). -/
def Engine.result (e : Engine) (k : ErrorKind) (v : Word) : Engine :=
  { e with
    ses.port.resultStatus := k, ses.port.resultValue := v, ses.port.din := [], ses.port.busy := false,
    ses.hold := .none }

/-- The end of a command by a raise (60_exceptions.md R163). `AlreadyHalted` is no failure and leaves the detail
(42_dm.md R122 "no state changes"); every other status makes it any value (log 5). -/
def Engine.failed (e : Engine) (r : Raise) : Engine :=
  let e' := e.result r.kind r.value
  if r.kind = .alreadyHalted then e'
  else { e' with ses.errDetail := freeErrDetail e.free, free := e.free + 1 }

/-- What a command leaves: `return v` (60_exceptions.md R163), a hold with BUSY still 1, or a raise. -/
def finish : EStateM.Result Raise Engine Progress → Engine
  | .ok (.done v) e => e.result .ok v
  | .ok (.hold h) e => { e with ses.hold := h }
  | .error r e => e.failed r

/-- A command's meaning: begin, run, end or hold. -/
def runCommand (body : Proc Progress) (s : State) : Host.Outcome State Fault Refusal :=
  .next { s with eng := finish (body s.eng.begin) }

/-- A held command goes on where it stopped. -/
def resumeCommand (body : Proc Progress) (s : State) : Host.Outcome State Fault Refusal :=
  .next { s with eng := finish (body { s.eng with ses.hold := .none }) }

/-- A command that ends by `return v`. -/
def returns (m : Proc Word) : Proc Progress := do return .done (← m)

/-- A command that ends by `return 0`. -/
def returnsZero (m : Proc Unit) : Proc Progress := do m; return .done 0

/-- A truth value as RESULT_VALUE. -/
def boolWord (b : Bool) : Word := if b then 1 else 0

/-! ## Checks of a command (60_exceptions.md R167) -/

def requireConnected : Proc Unit := do require (← getSes).connected .notConnected

def requireInitialized : Proc Unit := do require (← getSes).dm.initialized .notInitialized

/-- DM and SBA initialised (43_sba.md R142 to R144). -/
def requireSba : Proc Unit := do
  let s ← getSes
  require (s.dm.initialized && s.dm.sbaInitialized) .notInitialized

/-- A hart operand is 0 or 1 (30_encoding.md R72). -/
def hartOperand (w : Word) : Proc HartId :=
  if h : w.toNat < Config.harts then pure ⟨w.toNat, h⟩ else raise .invalidParam

/-- A Boolean operand is 0 or 1 (30_encoding.md R72). -/
def boolOperand (w : Word) : Proc Bool :=
  if w = 0 then pure false else if w = 1 then pure true else raise .invalidParam

/-- A register-number operand is 0..31 (42_dm.md R128, R129). -/
def regOperand (w : Word) : Proc (BitVec 5) :=
  if w.toNat < Config.ngpr then pure (w.setWidth 5) else raise .invalidParam

/-- A CSR-number operand is 0..0xFFF (42_dm.md R133). -/
def csrOperand (w : Word) : Proc (BitVec 12) :=
  if w.toNat ≤ 0xFFF then pure (w.setWidth 12) else raise .invalidParam

/-! ## The host data streams (30_encoding.md R73) -/

/-- `Out(w)`: push to DOUT, which is unbounded. -/
def out (w : Word) : Proc Unit := modifySes fun s => { s with port.dout := s.port.dout ++ [w] }

/-- Push several words. -/
def outs (ws : List Word) : Proc Unit := modifySes fun s => { s with port.dout := s.port.dout ++ ws }

/-- The oldest DIN word, or `none`, at which the command holds. -/
def popDin : Proc (Option Word) := do
  match (← getSes).port.din with
  | [] => return none
  | w :: rest => do
    modifySes fun s => { s with port.din := rest }
    return some w

/-! ## Harts -/

/-- `S.hart[h]`. -/
def Session.hart (s : Session) (h : HartId) : Hart := s.harts[h.val]

/-- `S.hart[h] <- x`. -/
def Session.setHart (s : Session) (h : HartId) (x : Hart) : Session := { s with harts := s.harts.set h.val x }

/-- Change `S.hart[h]`. -/
def modifyHart (h : HartId) (f : Hart → Hart) : Proc Unit := modifySes fun s => s.setHart h (f (s.hart h))

/-- Change every hart. -/
def modifyHarts (f : Hart → Hart) : Proc Unit := modifySes fun s => { s with harts := s.harts.map f }

/-- Neither known, nor halted, nor mirrored. -/
def Hart.forget (x : Hart) : Hart := { x with known := false, halted := false, cacheValid := false }

/-- `S.hart[h].gpr[n]`, the mirror of register n; a number past the last register reads as 0 (`NGPR` covers every
number there is, 00_scope.md R5). -/
def Hart.reg (x : Hart) (n : BitVec 5) : Word := x.gpr[n.toNat]?.getD 0

/-- `S.hart[h].gpr[n] <- v`. -/
def Hart.setReg (x : Hart) (n : BitVec 5) (v : Word) : Hart := { x with gpr := x.gpr.setIfInBounds n.toNat v }

/-- `S.hart[h].gpr[n] <- v` if caching is on and n ≠ 0 (42_dm.md R128, R129, R130). -/
def mirror (h : HartId) (n : BitVec 5) (v : Word) : Proc Unit := do
  let s ← getSes
  if s.dm.cacheEnabled && n != 0 then
    modifyHart h fun x => x.setReg n v
  else pure ()

/-! ## The slot tracker (10_state.md R21, R22) -/

/-- The place of slot (b, s) in the order (0,0), (0,1), ..., (1,3). -/
def Slot.index (x : Slot) : Fin Config.slots := Fin.mkDivMod x.block x.sm

/-- The slot at a place of that order. -/
def slotAt (k : Fin Config.slots) : Slot := ⟨k.divNat, k.modNat⟩

/-- `T.owner[b][s]`. -/
def Tracker.ownerOf (t : Tracker) (x : Slot) : Option SessionId := t.owner[x.index]

/-- `T.owner[b][s] <- o`. -/
def Tracker.setOwner (t : Tracker) (x : Slot) (o : Option SessionId) : Tracker :=
  { owner := t.owner.set x.index o }

/-- The first free slot in the order (0,0), (0,1), ..., (1,3). -/
def Tracker.firstFree (t : Tracker) : Option Slot :=
  ((List.finRange Config.slots).find? fun k => t.owner[k].isNone).map slotAt

/-- `T.active_sessions`: how many slots are not free. -/
def Tracker.activeSessions (t : Tracker) : Nat := ((List.finRange Config.slots).filter fun k => t.owner[k].isSome).length

/-- The bitmap of block b: bit s is 1 when slot (b, s) is not free (44_ops.md R160). -/
def Tracker.bitmap (t : Tracker) (b : Fin Config.pioBlocks) : Word :=
  (List.finRange Config.smPerBlock).foldl (fun w m => w ||| bitAt Config.xlen (t.ownerOf ⟨b, m⟩).isSome m.val) 0

/-- The slot `Acquire(c)` takes, if one is to be had (40_wire.md R92): none beyond `MAX_SESSIONS` sessions that hold
one (60_exceptions.md R172). -/
def Tracker.pick (t : Tracker) (c : Option Slot) : Option Slot :=
  if t.activeSessions < Config.maxSessions then
    match c with
    | none => t.firstFree
    | some x => if (t.ownerOf x).isNone then some x else none
  else none

/-- `Acquire(c)` (40_wire.md R92), one indivisible step. -/
def acquire (c : Option Slot) : Proc Slot := do
  let e ← get
  match e.tracker.pick c with
  | some x => do
    set { e with tracker := e.tracker.setOwner x (some e.self) }
    return x
  | none => raise .resourceBusy

/-- `Release(S.wire.slot)` (40_wire.md R93). -/
def releaseSlot : Proc Unit := modify fun e =>
  { e with
    tracker := match e.ses.wire.slot with
      | some x => e.tracker.setOwner x none
      | none => e.tracker
    ses.wire.slot := none, ses.wire.initialized := false }

/-- The fields DISCONNECT sets (40_wire.md R94), shared with ConnectUnwind (R91). -/
def disconnectFields : Proc Unit := modifySes fun s =>
  { s with
    connected := false, dap.powered := false, dap.selValid := false, dm.initialized := false,
    dm.sbaInitialized := false, harts := s.harts.map Hart.forget }

/-! ## Cycles (40_wire.md R80) -/

/-- Add an event to the timeline. -/
def logEvent (ev : WireEvent) : Proc Unit := modifySes fun s => { s with record := ev :: s.record }

/-- `Drive(b)`. -/
def drive (b : Bool) : Proc Unit := logEvent (.drive b)

/-- `Release()`. -/
def release : Proc Unit := logEvent .release

/-- `Sample()`: the next bit the target presents; when the list is at its end, a free bit (log 3). -/
def sample : Proc Bool := fun e =>
  match e.ses.swdio with
  | b :: rest => .ok b { e with ses.swdio := rest, ses.record := .sample b :: e.ses.record }
  | [] =>
    let b := Config.targetBit e.free
    .ok b { e with free := e.free + 1, ses.record := .sample b :: e.ses.record }

/-- `Sleep(t)`, a lower bound in microseconds (70_reset_and_hazards.md R182; log 4). -/
def sleep (us : Nat) : Proc Unit := logEvent (.sleep us)

/-- One `Drive` per bit, in list order. -/
def driveBits : List Bool → Proc Unit
  | [] => pure ()
  | b :: bs => do drive b; driveBits bs

/-- n cycles of `Drive(b)`. -/
def driveRepeat (b : Bool) : Nat → Proc Unit
  | 0 => pure ()
  | n + 1 => do drive b; driveRepeat b n

/-- n samples, first first. -/
def sampleBits : Nat → Proc (List Bool)
  | 0 => return []
  | n + 1 => do
    let b ← sample
    let bs ← sampleBits n
    return b :: bs

/-- `repeat n: Release()`. -/
def releases : Nat → Proc Unit
  | 0 => pure ()
  | n + 1 => do release; releases n

/-- A turnaround: `TRN` cycles (30_encoding.md R59). -/
def turnaround : Proc Unit := releases Config.trn

/-- The idle cycles after a transaction: `POST_TXN_IDLE` zeros (00_scope.md R5; 40_wire.md R82). -/
def trailingIdle : Proc Unit := driveRepeat false Config.postTxnIdle

/-! ## Line sequences -/

/-- `S.dap.sel_valid <- false`. -/
def forgetSelect : Proc Unit := modifySes fun s => { s with dap.selValid := false }

/-- `LineResetSeq()` (40_wire.md R84). -/
def lineResetSeq : Proc Unit := do
  driveRepeat true Config.lineResetOnes
  driveRepeat false Config.lineResetIdle
  forgetSelect

/-- The bits of a byte list, each byte bit 0 first (30_encoding.md R60). -/
def byteListBits (bs : List Byte) : List Bool := bs.flatMap bitsOf

/-- `ActivationSeq()` (40_wire.md R87). -/
def activationSeq : Proc Unit := do
  driveBits (byteListBits Config.activationBytes)
  forgetSelect

/-! ## One transaction (40_wire.md R82) -/

/-- What the target answered to a transaction that raised nothing: OK with the data read (0 for a write), WAIT or
FAULT. -/
inductive Answer where
  | ok (d : Word)
  | wait
  | fault
deriving DecidableEq, Repr

/-- The data phase of an OK read: 33 samples, a turnaround, then the parity check (R82, R83). -/
def dataIn : Proc Answer := do
  let bs ← sampleBits Config.xlen
  let p ← sample
  turnaround
  trailingIdle
  require (p == xorReduce (wordOfBits bs)) .parity
  return .ok (wordOfBits bs)

/-- The data phase of an OK write: a turnaround, then 33 driven bits (R82). -/
def dataOut (w : Word) : Proc Answer := do
  turnaround
  driveBits (bitsOf w)
  drive (xorReduce w)
  trailingIdle
  return .ok 0

/-- What follows the acknowledge (R82). -/
def afterAck (q : Request) (ack : BitVec 3) : Proc Answer := do
  modifySes fun s => { s with dap.lastAck := ack }
  match ackMeaning ack with
  | .ok => if q.rnw then dataIn else dataOut q.wdata
  | .wait => do turnaround; trailingIdle; return .wait
  | .fault => do turnaround; trailingIdle; return .fault
  | .malformed => do turnaround; lineResetSeq; trailingIdle; raise .protocol

/-- The three acknowledge samples (30_encoding.md R57). -/
def sampleAck : Proc (BitVec 3) := do
  let a0 ← sample
  let a1 ← sample
  let a2 ← sample
  return ackOfBits a0 a1 a2

/-- `Txn(apndp, rnw, a, wdata)` (R82). -/
def txn (q : Request) : Proc Answer := do
  driveBits (bitsOf (requestByte q.apndp q.rnw q.addr))
  turnaround
  let ack ← sampleAck
  afterAck q ack

/-! ## The WAIT retry engine (41_dap.md R96) -/

/-- The answer turned into a value, a raise, or what is to happen on WAIT. -/
def settle (onWait : Proc Word) : Answer → Proc Word
  | .ok d => pure d
  | .fault => raise .fault
  | .wait => onWait

/-- Note the transaction in flight (log 16). -/
def track (q : Request) (left : Nat) : Proc Unit :=
  modifySes fun s => { s with txn := { request := q, retriesLeft := left } }

/-- `Txn` with `left` retries to go; `Timeout` when a WAIT finds none left. -/
def retry (q : Request) : Nat → Proc Word
  | 0 => do
    track q 0
    let a ← txn q
    settle (raise .timeout) a
  | left + 1 => do
    track q (left + 1)
    let a ← txn q
    settle (do sleep Config.retryDelayUs; retry q left) a

/-- What a WAIT leads to when `left` retries are left. -/
def onWait (q : Request) : Nat → Proc Word
  | 0 => raise .timeout
  | left + 1 => do sleep Config.retryDelayUs; retry q left

/-- `RetryTxn(apndp, rnw, a, wdata)` (R96). -/
def retryTxn (q : Request) : Proc Word := do
  let s ← getSes
  retry q s.dap.retryCount.toNat

end Sys2Proof.Machine
end

