-- ==== Sys2Proof/Machine/DapOps.lean ====
section
/-! DEFINITION. The DAP layer's procedures (41_dap.md): DP access, the SELECT cache and AP access, power-up, the
MEM-AP path, and the bounded poll loop that every wait of the spec uses (60_exceptions.md R169). -/

namespace Sys2Proof.Machine

/-- `DpRead(a)` (41_dap.md R98). -/
def dpRead (a : BitVec 4) : Proc Word := retryTxn { apndp := false, rnw := true, addr := a, wdata := 0 }

/-- `DpWrite(a, v)` (41_dap.md R98). -/
def dpWrite (a : BitVec 4) (v : Word) : Proc Unit := do
  let _ ← retryTxn { apndp := false, rnw := false, addr := a, wdata := v }

/-- The SELECT cache holds (apsel, bank, AP_CTRLSEL) (41_dap.md R102). -/
def Session.selectHit (s : Session) (apsel bank : BitVec 4) : Bool :=
  s.dap.selValid && s.dap.currentApsel == apsel && s.dap.currentBank == bank && s.dap.ctrlsel == Config.apCtrlsel

/-- The SELECT write of a cache miss (41_dap.md R102). -/
def writeSelect (apsel bank : BitVec 4) : Proc Unit := do
  forgetSelect
  dpWrite dpSelect (selectWord apsel bank Config.apCtrlsel)
  modifySes fun s =>
    { s with
      dap.currentApsel := apsel, dap.currentBank := bank, dap.ctrlsel := Config.apCtrlsel,
      dap.selValid := true }

/-- `SelectAp(apsel, bank)` (41_dap.md R102). -/
def selectAp (apsel bank : BitVec 4) : Proc Unit := do
  let s ← getSes
  if s.selectHit apsel bank then pure () else writeSelect apsel bank

/-- `ApRead(apsel, reg)` (41_dap.md R103): the first data are the previous read's and are discarded. -/
def apRead (apsel : BitVec 4) (reg : Byte) : Proc Word := do
  selectAp apsel (apBank reg)
  let _ ← retryTxn { apndp := true, rnw := true, addr := apAddr reg, wdata := 0 }
  dpRead dpRdbuff

/-- `ApWrite(apsel, reg, v)` (41_dap.md R104), with the RDBUFF flush (20_memory.md R47). -/
def apWrite (apsel : BitVec 4) (reg : Byte) (v : Word) : Proc Unit := do
  selectAp apsel (apBank reg)
  let _ ← retryTxn { apndp := true, rnw := false, addr := apAddr reg, wdata := v }
  let _ ← dpRead dpRdbuff

/-- At most n reads, the first first, a delay between two: the first value that passes the test, or none. -/
def poll (read : Proc Word) (test : Word → Bool) (delayUs : Nat) : Nat → Proc (Option Word)
  | 0 => return none
  | n + 1 => do
    let v ← read
    if test v then return some v
    else do
      onlyIf (n != 0) (sleep delayUs)
      poll read test delayUs n

/-- `PowerUp()` (41_dap.md R107). -/
def powerUp : Proc Unit := do
  modifySes fun s => { s with dap.powered := false }
  dpWrite dpCtrlStat 0
  dpWrite dpCtrlStat Config.pwrupReq
  match ← poll (dpRead dpCtrlStat) powerAcked Config.pwrDelayUs Config.pwrPolls with
  | some _ => modifySes fun s => { s with dap.powered := true }
  | none => raise .timeout

/-- `MemApRead(addr)` (41_dap.md R110). -/
def memApRead (addr : Word) : Proc Word := do
  require (aligned4 addr) .alignment
  apWrite Config.riscvApsel apTar addr
  apRead Config.riscvApsel apDrw

/-- `MemApWrite(addr, v)` (41_dap.md R110). -/
def memApWrite (addr v : Word) : Proc Unit := do
  require (aligned4 addr) .alignment
  apWrite Config.riscvApsel apTar addr
  apWrite Config.riscvApsel apDrw v

end Sys2Proof.Machine
end

