-- ==== Sys2Proof/Machine/DmOps.lean ====
section
/-! DEFINITION. The DM driver's procedures (42_dm.md) and the System Bus Access sequencer's (43_sba.md). -/

namespace Sys2Proof.Machine

/-- `DmRead(off)` (42_dm.md R115). -/
def dmRead (r : DmReg) : Proc Word := memApRead (Config.dmBase + dmOffset r)

/-- `DmWrite(off, v)` (42_dm.md R115). -/
def dmWrite (r : DmReg) (v : Word) : Proc Unit := memApWrite (Config.dmBase + dmOffset r) v

/-- `SelectHart(h)` (42_dm.md R116). -/
def selectHart (h : HartId) : Proc Unit := dmWrite .dmcontrol (dmcSel h)

/-! ## System Bus Access (43_sba.md) -/

/-- `SbaInit()` (43_sba.md R141). -/
def sbaInit : Proc Unit := do
  modifySes fun s => { s with dm.sbaInitialized := false }
  let v ← dmRead .sbcs
  require (sbasize v != 0) .invalidState
  dmWrite .sbcs Config.sbcsCfg
  modifySes fun s => { s with dm.sbaInitialized := true }

/-- `SbaRead(addr)` (43_sba.md R142). -/
def sbaRead (addr : Word) : Proc Word := do
  dmWrite .sbaddress0 addr
  dmRead .sbdata0

/-- `SbaWrite(addr, v)` (43_sba.md R143). -/
def sbaWrite (addr v : Word) : Proc Unit := do
  dmWrite .sbaddress0 addr
  dmWrite .sbdata0 v

/-! ## Initialisation (42_dm.md R117) -/

/-- One word of the activation handshake, then its delay. -/
def handshakeWrite (w : Word) : Proc Unit := do
  apWrite Config.riscvApsel apBank1 w
  sleep Config.dminitDelayUs

/-- The DM status word, compared with the expected one. -/
def handshakeStatus : Proc Word := do
  let st ← apRead Config.riscvApsel apBank1
  require (st == Config.dminitExpected) .invalidState
  return st

/-- `DmInit()` (42_dm.md R117). A raise of SbaInit is caught and ignored. -/
def dmInit : Proc Unit := do
  modifySes fun s => { s with dm.initialized := false, dm.sbaInitialized := false }
  apWrite Config.riscvApsel apCsw Config.cswInit
  apWrite Config.riscvApsel apTar (Config.dmBase + dmOffset .dmcontrol)
  handshakeWrite Config.dminitSeq1
  handshakeWrite Config.dminitSeq2
  handshakeWrite Config.dminitSeq3
  let _ ← handshakeStatus
  selectAp Config.riscvApsel 0
  modifySes fun s => { s with dm.initialized := true }
  modifyHarts fun x => { x.forget with gpr := Vector.replicate Config.ngpr 0 }
  tryCatch sbaInit fun _ => pure ()

/-! ## Halt state (42_dm.md section 4) -/

/-- `QueryHalted(h)` (42_dm.md R119). -/
def queryHalted (h : HartId) : Proc Bool := do
  let s ← getSes
  if (s.hart h).known then return (s.hart h).halted
  else do
    selectHart h
    let v ← dmRead .dmstatus
    modifyHart h fun x =>
      { x with halted := allHalted v, known := true, cacheValid := x.cacheValid && allHalted v }
    return allHalted v

/-- `RequireHalted(h)` (42_dm.md R120). -/
def requireHalted (h : HartId) : Proc Unit := do
  let halted ← queryHalted h
  require halted .notHalted

/-- `S.hart[h].cache_valid <- false; S.hart[h].known <- false`. -/
def forgetHart (h : HartId) : Proc Unit := modifyHart h fun x => { x with cacheValid := false, known := false }

/-- `S.hart[h].halted <- b; S.hart[h].known <- true`. -/
def learnHart (h : HartId) (b : Bool) : Proc Unit := modifyHart h fun x => { x with halted := b, known := true }

/-- Poll DMSTATUS for a bit, at most HALT_POLLS times; `Timeout` if it never shows. -/
def awaitStatus (test : Word → Bool) : Proc Unit := do
  match ← poll (dmRead .dmstatus) test Config.haltDelayUs Config.haltPolls with
  | some _ => pure ()
  | none => raise .timeout

/-- `Halt(h)` (42_dm.md R122): true when the hart was known halted, the `AlreadyHalted` end. -/
def haltHart (h : HartId) : Proc Bool := do
  let s ← getSes
  if (s.hart h).known && (s.hart h).halted then return true
  else do
    forgetHart h
    dmWrite .dmcontrol (dmcHalt h)
    awaitStatus allHalted
    learnHart h true
    return false

/-- `Resume(h)` (42_dm.md R123). -/
def resumeHart (h : HartId) : Proc Unit := do
  let s ← getSes
  if (s.hart h).known && !(s.hart h).halted then pure ()
  else do
    forgetHart h
    dmWrite .dmcontrol (dmcResume h)
    awaitStatus allRunning
    learnHart h false

/-- The body of RESET after its checks (42_dm.md R125). -/
def resetHart (h : HartId) (hr : Bool) : Proc Unit := do
  modifyHarts fun x => { x with cacheValid := false, known := false }
  dmWrite .dmcontrol (dmcReset h hr)
  sleep Config.resetAssertUs
  dmWrite .dmcontrol (dmcUnreset h hr)
  sleep Config.resetSettleUs
  if hr then do
    awaitStatus allHalted
    learnHart h true
  else learnHart h false

/-! ## Abstract commands and GPR access (42_dm.md section 6) -/

/-- `WaitAbstract()` (42_dm.md R126). -/
def waitAbstract : Proc Unit := do
  match ← poll (dmRead .abstractcs) (fun v => !abstractBusy v) Config.abstractDelayUs Config.abstractPolls with
  | none => raise .timeout
  | some v =>
    if cmderr v = 0 then pure ()
    else do
      dmWrite .abstractcs Config.cmderrW1c
      raise .abstractCmd

/-- `GprRead(n)` (42_dm.md R127). -/
def gprRead (n : BitVec 5) : Proc Word := do
  dmWrite .command (cmdGprRead n)
  waitAbstract
  dmRead .data0

/-- `GprWrite(n, v)` (42_dm.md R127). -/
def gprWrite (n : BitVec 5) (v : Word) : Proc Unit := do
  dmWrite .data0 v
  dmWrite .command (cmdGprWrite n)
  waitAbstract

/-- `ReadReg(h, n)` (42_dm.md R128). -/
def readReg (h : HartId) (n : BitVec 5) : Proc Word := do
  let s ← getSes
  if s.dm.cacheEnabled && (s.hart h).cacheValid then return (s.hart h).reg n
  else do
    selectHart h
    let v ← gprRead n
    mirror h n v
    return v

/-- `WriteReg(h, n, v)` (42_dm.md R129): a failed one invalidates the mirror, whichever of its steps failed (42_dm.md
R140, 70_reset_and_hazards.md R191; log 22). -/
def writeReg (h : HartId) (n : BitVec 5) (v : Word) : Proc Unit := do
  onRaise (do selectHart h; gprWrite n v) (modifyHart h fun x => { x with cacheValid := false })
  mirror h n v

/-- The registers of the list, in order, read over the wire (42_dm.md R130). -/
def readRegs (h : HartId) (emit : Bool) : List (BitVec 5) → Proc (List Word)
  | [] => return []
  | n :: ns => do
    let v ← gprRead n
    onlyIf emit (out v)
    mirror h n v
    let vs ← readRegs h emit ns
    return v :: vs

/-- `ReadAllRegs(h, emit)` (42_dm.md R130). -/
def readAllRegs (h : HartId) (emit : Bool) : Proc (List Word) := do
  selectHart h
  let regs ← readRegs h emit allRegs
  let s ← getSes
  modifyHart h fun x => { x with cacheValid := s.dm.cacheEnabled }
  return regs

/-! ## Program buffer and CSR access (42_dm.md section 7) -/

/-- The words of the list, from word `i` of the program buffer on, in order (42_dm.md R131). -/
def writeProgbuf (i : Nat) : List Word → Proc Unit
  | [] => pure ()
  | w :: ws => do
    dmWrite (.progbuf i) w
    writeProgbuf (i + 1) ws

/-- `RunProgbuf(h, L)` (42_dm.md R131). -/
def runProgbuf (h : HartId) (l : List Word) : Proc Unit := do
  writeProgbuf 0 l
  modifyHart h fun x => { x with cacheValid := false }
  dmWrite .command Config.postexecCommand
  waitAbstract

/-- Run `m`, then restore s0 whatever happened; the first error wins (42_dm.md R132; 60_exceptions.md R164). -/
def thenRestoreS0 {α : Type} (h : HartId) (s0 : Word) (m : Proc α) : Proc α := do
  let first ← attempt m
  let restored ← attempt (writeReg h regS0 s0)
  match first, restored with
  | .error r, _ => throw r
  | .ok _, .error r => throw r
  | .ok a, .ok _ => return a

/-- `CsrRead(h, c)` (42_dm.md R132). -/
def csrRead (h : HartId) (c : BitVec 12) : Proc Word := do
  let s0 ← readReg h regS0
  thenRestoreS0 h s0 do
    selectHart h
    runProgbuf h [insnCsrr c, Config.insnEbreak]
    readReg h regS0

/-- `CsrWrite(h, c, v)` (42_dm.md R132). -/
def csrWrite (h : HartId) (c : BitVec 12) (v : Word) : Proc Unit := do
  let s0 ← readReg h regS0
  thenRestoreS0 h s0 do
    writeReg h regS0 v
    selectHart h
    runProgbuf h [insnCsrw c, Config.insnEbreak]

/-- `Step(h)` (42_dm.md R124): known halted before the restore of DCSR. -/
def stepHart (h : HartId) : Proc Unit := do
  let dcsr ← csrRead h csrDcsr
  csrWrite h csrDcsr (dcsr ||| 0x4)
  forgetHart h
  dmWrite .dmcontrol (dmcSel h)
  dmWrite .dmcontrol (dmcResume h)
  awaitStatus allHalted
  learnHart h true
  csrWrite h csrDcsr dcsr

/-! ## Target memory (44_ops.md R146) -/

/-- `MemRead(addr, 4)` (44_ops.md R146). -/
def memRead (addr : Word) : Proc Word := do
  let s ← getSes
  if s.dm.sbaInitialized then sbaRead addr else memApRead addr

/-- `MemWrite(addr, 4, v)` (44_ops.md R146). -/
def memWrite (addr v : Word) : Proc Unit := do
  let s ← getSes
  if s.dm.sbaInitialized then sbaWrite addr v else memApWrite addr v

end Sys2Proof.Machine
end

