-- ==== Sys2Proof/Machine/DapCommands.lean ====
section
/-! DEFINITION. The DAP Engine's commands (41_dap.md). -/

namespace Sys2Proof.Machine

/-- IS_POWERED (41_dap.md R108). -/
def execIsPowered (s : State) : Host.Outcome State Fault Refusal :=
  runCommand (returns do return boolWord (← getSes).dap.powered) s

/-- POWER_UP (41_dap.md R107). -/
def execPowerUp (s : State) : Host.Outcome State Fault Refusal :=
  runCommand (returnsZero do requireConnected; powerUp) s

/-- CLEAR_ERRORS (41_dap.md R109). -/
def execClearErrors (s : State) : Host.Outcome State Fault Refusal :=
  runCommand (returnsZero do
    requireConnected
    dpWrite dpCtrlStat (clearErrorsWord (← getSes).dap.powered)) s

/-- READ_DP (41_dap.md R99, R100). -/
def execReadDp (s : State) : Host.Outcome State Fault Refusal :=
  runCommand (returns do
    requireConnected
    let p := (← getSes).port
    require (readableDp p.arg0) .invalidParam
    dpRead (p.arg0.setWidth 4)) s

/-- WRITE_DP (41_dap.md R99, R101): a write of SELECT invalidates the cache before it. -/
def execWriteDp (s : State) : Host.Outcome State Fault Refusal :=
  runCommand (returnsZero do
    requireConnected
    let p := (← getSes).port
    require (writableDp p.arg0) .invalidParam
    onlyIf (p.arg0 == 0x8) forgetSelect
    dpWrite (p.arg0.setWidth 4) p.arg1) s

/-- READ_AP (41_dap.md R105). -/
def execReadAp (s : State) : Host.Outcome State Fault Refusal :=
  runCommand (returns do
    requireConnected
    let p := (← getSes).port
    require (apOperandsOk p.arg0 p.arg1) .invalidParam
    apRead (p.arg0.setWidth 4) (p.arg1.setWidth 8)) s

/-- WRITE_AP (41_dap.md R106). -/
def execWriteAp (s : State) : Host.Outcome State Fault Refusal :=
  runCommand (returnsZero do
    requireConnected
    let p := (← getSes).port
    require (apOperandsOk p.arg0 p.arg1) .invalidParam
    apWrite (p.arg0.setWidth 4) (p.arg1.setWidth 8) p.arg2) s

/-- DAP_READ_MEM32 (41_dap.md R111). -/
def execDapReadMem32 (s : State) : Host.Outcome State Fault Refusal :=
  runCommand (returns do
    requireConnected
    let p := (← getSes).port
    require (aligned4 p.arg0) .alignment
    memApRead p.arg0) s

/-- DAP_WRITE_MEM32 (41_dap.md R112). -/
def execDapWriteMem32 (s : State) : Host.Outcome State Fault Refusal :=
  runCommand (returnsZero do
    requireConnected
    let p := (← getSes).port
    require (aligned4 p.arg0) .alignment
    memApWrite p.arg0 p.arg1) s

end Sys2Proof.Machine
end

