-- ==== Sys2Proof/Machine/DmCommands.lean ====
section
/-! DEFINITION. The DM driver's commands (42_dm.md). -/

namespace Sys2Proof.Machine

/-- INIT (42_dm.md R117). -/
def execInit (s : State) : Host.Outcome State Fault Refusal :=
  runCommand (returnsZero do requireConnected; dmInit) s

/-- IS_INITIALIZED (42_dm.md R118). -/
def execIsInitialized (s : State) : Host.Outcome State Fault Refusal :=
  runCommand (returns do return boolWord (← getSes).dm.initialized) s

/-- HALT (42_dm.md R122). -/
def execHalt (s : State) : Host.Outcome State Fault Refusal :=
  runCommand (returnsZero do
    requireConnected
    let h ← hartOperand (← getSes).port.arg0
    requireInitialized
    let already ← haltHart h
    onlyIf already (endWith .alreadyHalted 0)) s

/-- RESUME (42_dm.md R123). -/
def execResume (s : State) : Host.Outcome State Fault Refusal :=
  runCommand (returnsZero do
    requireConnected
    let h ← hartOperand (← getSes).port.arg0
    requireInitialized
    resumeHart h) s

/-- STEP (42_dm.md R124). -/
def execStep (s : State) : Host.Outcome State Fault Refusal :=
  runCommand (returnsZero do
    requireConnected
    let h ← hartOperand (← getSes).port.arg0
    requireInitialized
    requireHalted h
    stepHart h) s

/-- RESET (42_dm.md R125). -/
def execReset (s : State) : Host.Outcome State Fault Refusal :=
  runCommand (returnsZero do
    requireConnected
    let p := (← getSes).port
    let h ← hartOperand p.arg0
    let hr ← boolOperand p.arg1
    requireInitialized
    resetHart h hr) s

/-- IS_HALTED (42_dm.md R121). -/
def execIsHalted (s : State) : Host.Outcome State Fault Refusal :=
  runCommand (returns do
    requireConnected
    let h ← hartOperand (← getSes).port.arg0
    requireInitialized
    return boolWord (← queryHalted h)) s

/-- READ_REG (42_dm.md R128). -/
def execReadReg (s : State) : Host.Outcome State Fault Refusal :=
  runCommand (returns do
    requireConnected
    let p := (← getSes).port
    let h ← hartOperand p.arg0
    let n ← regOperand p.arg1
    requireInitialized
    requireHalted h
    readReg h n) s

/-- WRITE_REG (42_dm.md R129). -/
def execWriteReg (s : State) : Host.Outcome State Fault Refusal :=
  runCommand (returnsZero do
    requireConnected
    let p := (← getSes).port
    let h ← hartOperand p.arg0
    let n ← regOperand p.arg1
    requireInitialized
    requireHalted h
    writeReg h n p.arg2) s

/-- READ_ALL_REGS (42_dm.md R130). -/
def execReadAllRegs (s : State) : Host.Outcome State Fault Refusal :=
  runCommand (returnsZero do
    requireConnected
    let h ← hartOperand (← getSes).port.arg0
    requireInitialized
    requireHalted h
    let _ ← readAllRegs h true) s

/-- The body of READ_CSR for a CSR number that is in range (42_dm.md R133). -/
def readCsrChecked (h : HartId) (c : BitVec 12) : Proc Word := do
  requireInitialized
  requireHalted h
  csrRead h c

/-- The body of WRITE_CSR for a CSR number that is in range (42_dm.md R134). -/
def writeCsrChecked (h : HartId) (c : BitVec 12) (v : Word) : Proc Unit := do
  requireInitialized
  requireHalted h
  csrWrite h c v

/-- READ_PC: READ_CSR of DPC (42_dm.md R135; 30_encoding.md R79). -/
def execReadPc (s : State) : Host.Outcome State Fault Refusal :=
  runCommand (returns do
    requireConnected
    let h ← hartOperand (← getSes).port.arg0
    readCsrChecked h csrDpc) s

/-- WRITE_PC: WRITE_CSR of DPC (42_dm.md R136; 30_encoding.md R79). -/
def execWritePc (s : State) : Host.Outcome State Fault Refusal :=
  runCommand (returnsZero do
    requireConnected
    let p := (← getSes).port
    let h ← hartOperand p.arg0
    writeCsrChecked h csrDpc p.arg1) s

/-- READ_CSR (42_dm.md R133). -/
def execReadCsr (s : State) : Host.Outcome State Fault Refusal :=
  runCommand (returns do
    requireConnected
    let p := (← getSes).port
    let h ← hartOperand p.arg0
    let c ← csrOperand p.arg1
    readCsrChecked h c) s

/-- WRITE_CSR (42_dm.md R134). -/
def execWriteCsr (s : State) : Host.Outcome State Fault Refusal :=
  runCommand (returnsZero do
    requireConnected
    let p := (← getSes).port
    let h ← hartOperand p.arg0
    let c ← csrOperand p.arg1
    writeCsrChecked h c p.arg2) s

/-! ## EXECUTE_PROGBUF (42_dm.md R137) -/

/-- Pop DIN words onto `got` until `need` are popped; false when DIN ran empty first (30_encoding.md R73). -/
def collectDin : Nat → List Word → Proc (Bool × List Word)
  | 0, got => return (true, got)
  | need + 1, got => do
    match ← popDin with
    | none => return (false, got)
    | some w => collectDin need (got ++ [w])

/-- The list L that is run: the words as given if they end in `ebreak`, with an `ebreak` appended if there is
room, else none (42_dm.md R137). -/
def progbufList (ws : List Word) : Option (List Word) :=
  if ws.getLast? = some Config.insnEbreak then some ws
  else if ws.length < Config.progbufSize then some (ws ++ [Config.insnEbreak])
  else none

/-- EXECUTE_PROGBUF once its words are popped. -/
def executeWords (h : HartId) (ws : List Word) : Proc Unit := do
  match progbufList ws with
  | none => raise .invalidParam
  | some l => do
    requireInitialized
    requireHalted h
    selectHart h
    runProgbuf h l

/-- EXECUTE_PROGBUF with `got` words popped of `n`. -/
def continueProgbuf (h : HartId) (n : Nat) (got : List Word) : Proc Progress := do
  match ← collectDin (n - got.length) got with
  | (false, ws) => return .hold (.progbuf h n ws)
  | (true, ws) => returnsZero (executeWords h ws)

/-- EXECUTE_PROGBUF (42_dm.md R137). -/
def execExecuteProgbuf (s : State) : Host.Outcome State Fault Refusal :=
  runCommand (do
    requireConnected
    let p := (← getSes).port
    let h ← hartOperand p.arg0
    require (1 ≤ p.arg1.toNat && p.arg1.toNat ≤ Config.progbufSize) .invalidParam
    continueProgbuf h p.arg1.toNat []) s

end Sys2Proof.Machine
end

