-- ==== Sys2Proof/Machine/MemCommands.lean ====
section
/-! DEFINITION. The memory API, block transfer, upload, code launch and the single-step tracer (44_ops.md sections
2 to 5). -/

namespace Sys2Proof.Machine

/-! ## Word and sub-word access -/

/-- READ_MEM8 (44_ops.md R151). -/
def execReadMem8 (s : State) : Host.Outcome State Fault Refusal :=
  runCommand (returns do
    requireConnected
    let a := (← getSes).port.arg0
    requireInitialized
    let w ← memRead (wordAddr a)
    return (w >>> byteShift a) &&& 0xFF) s

/-- READ_MEM16 (44_ops.md R150). -/
def execReadMem16 (s : State) : Host.Outcome State Fault Refusal :=
  runCommand (returns do
    requireConnected
    let a := (← getSes).port.arg0
    require (aligned2 a) .alignment
    requireInitialized
    let w ← memRead (wordAddr a)
    return (w >>> halfShift a) &&& 0xFFFF) s

/-- READ_MEM32 (44_ops.md R148). -/
def execReadMem32 (s : State) : Host.Outcome State Fault Refusal :=
  runCommand (returns do
    requireConnected
    let a := (← getSes).port.arg0
    require (aligned4 a) .alignment
    requireInitialized
    memRead a) s

/-- WRITE_MEM8 (44_ops.md R153): read-modify-write of the containing word. -/
def execWriteMem8 (s : State) : Host.Outcome State Fault Refusal :=
  runCommand (returnsZero do
    requireConnected
    let p := (← getSes).port
    require (p.arg1.toNat < 2 ^ 8) .invalidParam
    requireInitialized
    let w ← memRead (wordAddr p.arg0)
    memWrite (wordAddr p.arg0) (insertField w 0xFF p.arg1 (byteShift p.arg0))) s

/-- WRITE_MEM16 (44_ops.md R152): read-modify-write of the containing word. -/
def execWriteMem16 (s : State) : Host.Outcome State Fault Refusal :=
  runCommand (returnsZero do
    requireConnected
    let p := (← getSes).port
    require (p.arg1.toNat < 2 ^ 16) .invalidParam
    require (aligned2 p.arg0) .alignment
    requireInitialized
    let w ← memRead (wordAddr p.arg0)
    memWrite (wordAddr p.arg0) (insertField w 0xFFFF p.arg1 (halfShift p.arg0))) s

/-- WRITE_MEM32 (44_ops.md R149). -/
def execWriteMem32 (s : State) : Host.Outcome State Fault Refusal :=
  runCommand (returnsZero do
    requireConnected
    let p := (← getSes).port
    require (aligned4 p.arg0) .alignment
    requireInitialized
    memWrite p.arg0 p.arg1) s

/-! ## Block transfer -/

/-- A raise at word `i` ends the command with RESULT_VALUE = i (44_ops.md R155 to R157). -/
def atWord {α : Type} (i : Nat) (m : Proc α) : Proc α := tryCatch m fun r => throw ⟨r.kind, BitVec.ofNat Config.xlen i⟩

/-- `left` words from word `i` on, each pushed to DOUT (44_ops.md R155). -/
def readBlock (a : Word) : (left i : Nat) → Proc Unit
  | 0, _ => pure ()
  | left + 1, i => do
    let w ← atWord i (memRead (blockAddr a i))
    out w
    readBlock a left (i + 1)

/-- `left` words from word `i` on, each popped from DIN and given to `f`; the word at which DIN ran empty, or
none when all were done (30_encoding.md R73). -/
def feed (f : Nat → Word → Proc Unit) : (left i : Nat) → Proc (Option Nat)
  | 0, _ => return none
  | left + 1, i => do
    match ← popDin with
    | none => return some i
    | some w => do
      atWord i (f i w)
      feed f left (i + 1)

/-- The checks of a block command (44_ops.md R147, R154). -/
def blockChecks (a n : Word) : Proc Unit := do
  requireConnected
  require (inRange a n) .invalidParam
  require (aligned4 a) .alignment
  requireInitialized

/-- READ_MEM_BLOCK (44_ops.md R155). -/
def execReadMemBlock (s : State) : Host.Outcome State Fault Refusal :=
  runCommand (returns do
    let p := (← getSes).port
    blockChecks p.arg0 p.arg1
    readBlock p.arg0 p.arg1.toNat 0
    return p.arg1) s

/-- WRITE_MEM_BLOCK from word `i` on (44_ops.md R156). -/
def continueWriteBlock (a : Word) (n i : Nat) : Proc Progress := do
  match ← feed (fun j w => memWrite (blockAddr a j) w) (n - i) i with
  | some j => return .hold (.writeBlock a n j)
  | none => return .done (BitVec.ofNat Config.xlen n)

/-- WRITE_MEM_BLOCK (44_ops.md R156). -/
def execWriteMemBlock (s : State) : Host.Outcome State Fault Refusal :=
  runCommand (do
    let p := (← getSes).port
    blockChecks p.arg0 p.arg1
    continueWriteBlock p.arg0 p.arg1.toNat 0) s

/-! ## Upload and launch -/

/-- One word of an upload: write it, read it back, compare (44_ops.md R157). -/
def uploadWord (a : Word) (i : Nat) (w : Word) : Proc Unit := do
  memWrite (blockAddr a i) w
  let r ← memRead (blockAddr a i)
  if r = w then pure () else endWith .verify (BitVec.ofNat Config.xlen i)

/-- UPLOAD_CODE from word `i` on (44_ops.md R157). -/
def continueUpload (a : Word) (n i : Nat) : Proc Progress := do
  match ← feed (uploadWord a) (n - i) i with
  | some j => return .hold (.upload a n j)
  | none => return .done (BitVec.ofNat Config.xlen n)

/-- UPLOAD_CODE (44_ops.md R157). -/
def execUploadCode (s : State) : Host.Outcome State Fault Refusal :=
  runCommand (do
    let p := (← getSes).port
    blockChecks p.arg0 p.arg1
    continueUpload p.arg0 p.arg1.toNat 0) s

/-- EXECUTE_CODE after its upload (44_ops.md R158); `AlreadyHalted` counts as success (60_exceptions.md R165). -/
def launch (h : HartId) (entry : Word) : Proc Unit := do
  let _ ← haltHart h
  csrWrite h csrDpc entry
  let pc ← csrRead h csrDpc
  require (pc == entry) .verify
  resumeHart h

/-- EXECUTE_CODE from word `i` of its upload on (44_ops.md R158; log 19). -/
def continueExecuteCode (h : HartId) (entry : Word) (n i : Nat) : Proc Progress := do
  match ← feed (uploadWord entry) (n - i) i with
  | some j => return .hold (.executeCode h entry n j)
  | none => returnsZero (launch h entry)

/-- EXECUTE_CODE (44_ops.md R158). -/
def execExecuteCode (s : State) : Host.Outcome State Fault Refusal :=
  runCommand (do
    requireConnected
    let p := (← getSes).port
    let h ← hartOperand p.arg0
    require (p.arg2 != 0 && inRange p.arg1 p.arg2) .invalidParam
    require (aligned4 p.arg1) .alignment
    requireInitialized
    continueExecuteCode h p.arg1 p.arg2.toNat 0) s

/-! ## The single-step tracer (44_ops.md R159) -/

/-- The registers of a trace record: all 32 when they are captured, else none. -/
def traceRegs (h : HartId) (capture : Bool) : Proc (List Word) :=
  if capture then readAllRegs h false else pure []

/-- One trace record: index, pc, instruction word, then x0..x31 when registers are captured. -/
def traceRecord (h : HartId) (capture : Bool) (count : Nat) : Proc Unit := do
  let pc ← csrRead h csrDpc
  require (aligned4 pc) .alignment
  let insn ← memRead pc
  let regs ← traceRegs h capture
  outs ([BitVec.ofNat Config.xlen count, pc, insn] ++ regs)

/-- `neg32(k)` of a status code (00_scope.md R8; 44_ops.md R159). -/
def negCode (k : ErrorKind) : Word := -(k.code.setWidth Config.xlen)

/-- A raise in TRACE's body: swallowed after at least one record, else reported with `neg32(code)`. -/
def traceGuard (count : Nat) (m : Proc Progress) : Proc Progress :=
  tryCatch m fun r => if 1 ≤ count then pure (.done (BitVec.ofNat Config.xlen count)) else throw ⟨r.kind, negCode r.kind⟩

/-- The next record, then the hold for the host's answer. -/
def traceNext (h : HartId) (max : Word) (capture : Bool) (count : Nat) : Proc Progress := do
  traceRecord h capture count
  return .hold (.trace h max capture (count + 1))

/-- TRACE goes on with the host's answer to its `count`-th record. -/
def continueTrace (h : HartId) (max : Word) (capture : Bool) (count : Nat) (reply : Bool) : Proc Progress :=
  if reply = false then pure (.done (BitVec.ofNat Config.xlen count))
  else if max ≠ 0 ∧ count = max.toNat then pure (.done (BitVec.ofNat Config.xlen count))
  else traceGuard count do
    stepHart h
    traceNext h max capture count

/-- TRACE (44_ops.md R159). -/
def execTrace (s : State) : Host.Outcome State Fault Refusal :=
  runCommand (do
    requireConnected
    let p := (← getSes).port
    let h ← hartOperand p.arg0
    let capture ← boolOperand p.arg2
    requireInitialized
    traceGuard 0 do
      let _ ← haltHart h
      traceNext h p.arg1 capture 0) s

end Sys2Proof.Machine
end

