-- ==== Sys2Proof/Machine/QueryCommands.lean ====
section
/-! DEFINITION. Cache control, queries and reserved opcodes (42_dm.md section 8; 44_ops.md section 6;
30_encoding.md R75). -/

namespace Sys2Proof.Machine

/-- ENABLE_CACHE (42_dm.md R138). -/
def execEnableCache (s : State) : Host.Outcome State Fault Refusal :=
  runCommand (returnsZero do
    let on ← boolOperand (← getSes).port.arg0
    modifySes fun s => { s with dm.cacheEnabled := on }
    onlyIf (!on) (modifyHarts fun x => { x with cacheValid := false })) s

/-- INVALIDATE_CACHE (42_dm.md R139). -/
def execInvalidateCache (s : State) : Host.Outcome State Fault Refusal :=
  runCommand (returnsZero do
    let h ← hartOperand (← getSes).port.arg0
    modifyHart h fun x => { x with cacheValid := false }) s

/-- RESOURCE_USAGE (44_ops.md R160). -/
def execResourceUsage (s : State) : Host.Outcome State Fault Refusal :=
  runCommand (returns do
    let t := (← get).tracker
    outs ((List.finRange Config.pioBlocks).map t.bitmap)
    return BitVec.ofNat Config.xlen t.activeSessions) s

/-- GET_ERROR_DETAIL (44_ops.md R161). -/
def execGetErrorDetail (s : State) : Host.Outcome State Fault Refusal :=
  runCommand (returns do
    let d := (← getSes).errDetail
    outs (packBytes d)
    return BitVec.ofNat Config.xlen d.length) s

/-- A reserved opcode raises `InvalidParam` (30_encoding.md R75). That it empties DOUT and discards DIN, as R74 and
60_exceptions.md R163 say of every CMD write and raise, though R75 lets only the result registers and `err_detail` change,
is DEDUCED (log 28). -/
def execReservedHostOpcode (_op : BitVec 8) (s : State) : Host.Outcome State Fault Refusal :=
  runCommand (raise .invalidParam) s

end Sys2Proof.Machine
end

