-- ==== Sys2Proof/Machine/Requests.lean ====
section
/-! DEFINITION. The rows of the opcode table below the command port (log 14): a request byte presented to the Wire
Engine runs its transaction under the retry loop (41_dap.md R96); an acknowledge value stands for the three bits the
target drives, and the transaction in flight goes on from it (40_wire.md R82; log 16). No transaction happens unless
the session is connected (10_state.md R20 invariant 5). -/

namespace Sys2Proof.Machine

/-- Run the transaction of a request byte; the write data are those presented with it. A request presented by itself
is this one transaction: an AP write makes no RDBUFF read after it, which 20_memory.md R47 asks of the engine's own AP
writes only (DESIGN CHOICE, log 14). -/
def issueRequest (apndp rnw : Bool) (a : BitVec 4) : Proc Word := do
  requireConnected
  let s ← getSes
  retryTxn { apndp := apndp, rnw := rnw, addr := a, wdata := s.txn.request.wdata }

/-- A request the engine never sends (30_encoding.md R56, R76; 41_dap.md R99): refused as READ_DP and WRITE_DP
refuse it, before any cycle (log 15). -/
def neverEmitted : Proc Word := do
  requireConnected
  raise .invalidParam

/-- The request writes SELECT. -/
def Request.writesSelect (q : Request) : Bool := !q.apndp && !q.rnw && q.addr == dpSelect

/-- The transaction in flight goes on from the acknowledge `ack`. Where that transaction is a SELECT write, it is one
outside the cache path, so the SELECT cache is invalid before anything is sent (10_state.md R17; 41_dap.md R101), whatever
the acknowledge is; the write data are those last presented, be it with a request that was refused (DESIGN CHOICE, logs
14 and 16). -/
def answerAck (ack : BitVec 3) : Proc Word := do
  requireConnected
  onlyIf (← getSes).txn.request.writesSelect forgetSelect
  logEvent (.sample ack[0])
  logEvent (.sample ack[1])
  logEvent (.sample ack[2])
  let s ← getSes
  let a ← afterAck s.txn.request ack
  settle (onWait s.txn.request s.txn.retriesLeft) a

/-! ## DP requests -/

def execSwdReqDpR0 (s : State) : Host.Outcome State Fault Refusal :=
  runCommand (returns (issueRequest false true dpIdcode)) s

def execSwdReqDpR4 (s : State) : Host.Outcome State Fault Refusal :=
  runCommand (returns (issueRequest false true dpCtrlStat)) s

/-- DP read 0x8: never emitted, SELECT is write-only (41_dap.md R99). -/
def execSwdReqDpR8 (s : State) : Host.Outcome State Fault Refusal := runCommand (returns neverEmitted) s

def execSwdReqDpRC (s : State) : Host.Outcome State Fault Refusal :=
  runCommand (returns (issueRequest false true dpRdbuff)) s

/-- DP write 0x0: never emitted, IDCODE is read-only (41_dap.md R99). -/
def execSwdReqDpW0 (s : State) : Host.Outcome State Fault Refusal := runCommand (returns neverEmitted) s

def execSwdReqDpW4 (s : State) : Host.Outcome State Fault Refusal :=
  runCommand (returns (issueRequest false false dpCtrlStat)) s

/-- DP write 0x8 outside the cache path invalidates the SELECT cache first (10_state.md R17; 41_dap.md R102). -/
def execSwdReqDpW8 (s : State) : Host.Outcome State Fault Refusal :=
  runCommand (returns do requireConnected; forgetSelect; issueRequest false false dpSelect) s

/-- DP write 0xC: never emitted, RDBUFF is read-only (41_dap.md R99). -/
def execSwdReqDpWC (s : State) : Host.Outcome State Fault Refusal := runCommand (returns neverEmitted) s

/-! ## AP requests -/

def execSwdReqApR0 (s : State) : Host.Outcome State Fault Refusal :=
  runCommand (returns (issueRequest true true 0x0)) s

def execSwdReqApR4 (s : State) : Host.Outcome State Fault Refusal :=
  runCommand (returns (issueRequest true true 0x4)) s

def execSwdReqApR8 (s : State) : Host.Outcome State Fault Refusal :=
  runCommand (returns (issueRequest true true 0x8)) s

def execSwdReqApRC (s : State) : Host.Outcome State Fault Refusal :=
  runCommand (returns (issueRequest true true 0xC)) s

def execSwdReqApW0 (s : State) : Host.Outcome State Fault Refusal :=
  runCommand (returns (issueRequest true false 0x0)) s

def execSwdReqApW4 (s : State) : Host.Outcome State Fault Refusal :=
  runCommand (returns (issueRequest true false 0x4)) s

def execSwdReqApW8 (s : State) : Host.Outcome State Fault Refusal :=
  runCommand (returns (issueRequest true false 0x8)) s

def execSwdReqApWC (s : State) : Host.Outcome State Fault Refusal :=
  runCommand (returns (issueRequest true false 0xC)) s

/-! ## Acknowledges (30_encoding.md R57) -/

def execAckOk (s : State) : Host.Outcome State Fault Refusal := runCommand (returns (answerAck 1)) s

def execAckWait (s : State) : Host.Outcome State Fault Refusal := runCommand (returns (answerAck 2)) s

def execAckFault (s : State) : Host.Outcome State Fault Refusal := runCommand (returns (answerAck 4)) s

/-- Any other value: a turnaround, the line reset, then `Protocol` (40_wire.md R82). -/
def execAckProtocolError (v : BitVec 3) (s : State) : Host.Outcome State Fault Refusal :=
  runCommand (returns (answerAck v)) s

end Sys2Proof.Machine
end

