-- ==== Sys2Proof/Machine/SbaCommands.lean ====
section
/-! DEFINITION. The System Bus Access commands (43_sba.md). -/

namespace Sys2Proof.Machine

/-- SBA_INIT (43_sba.md R141). -/
def execSbaInit (s : State) : Host.Outcome State Fault Refusal :=
  runCommand (returnsZero do requireConnected; requireInitialized; sbaInit) s

/-- SBA_READ32 (43_sba.md R142). -/
def execSbaRead32 (s : State) : Host.Outcome State Fault Refusal :=
  runCommand (returns do
    requireConnected
    let p := (← getSes).port
    require (aligned4 p.arg0) .alignment
    requireSba
    sbaRead p.arg0) s

/-- SBA_WRITE32 (43_sba.md R143). -/
def execSbaWrite32 (s : State) : Host.Outcome State Fault Refusal :=
  runCommand (returnsZero do
    requireConnected
    let p := (← getSes).port
    require (aligned4 p.arg0) .alignment
    requireSba
    sbaWrite p.arg0 p.arg1) s

/-- SBA_CHECK_ERRORS (43_sba.md R144): on an error the status is `Fault` and the value the SBCS word seen. When the write
that clears the error raises itself, the value is 0, which is DEDUCED: R144 names the SBCS word at its `Fault` end only,
60_exceptions.md R163 names it of the command (log 29). -/
def execSbaCheckErrors (s : State) : Host.Outcome State Fault Refusal :=
  runCommand (returns do
    requireConnected
    requireSba
    let v ← dmRead .sbcs
    if sberror v = 0 then return v
    else do
      dmWrite .sbcs Config.sbcsCfg
      endWith .fault v) s

end Sys2Proof.Machine
end

