-- ==== Sys2Proof/Machine/WireCommands.lean ====
section
/-! DEFINITION. The Wire Engine's commands (40_wire.md): connection, frequency and line sequences. -/

namespace Sys2Proof.Machine

/-- `ConnectUnwind()` (40_wire.md R91): release the slot, then the fields DISCONNECT clears. -/
def connectUnwind : Proc Unit := do
  releaseSlot
  disconnectFields

/-- CONNECT's IDCODE read: every raise of it becomes `Protocol` (40_wire.md R91). -/
def readIdcode : Proc Word := tryCatch (dpRead dpIdcode) fun _ => raise .protocol

/-- CONNECT after Acquire (40_wire.md R91). -/
def connectWith (slot : Slot) : Proc Word := do
  modifySes fun s =>
    { s with
      wire.slot := some slot, wire.initialized := true, wire.clkdiv := divider s.wire.freqKhz,
      dap.powered := false, dap.selValid := false }
  activationSeq
  let id ← readIdcode
  require (designer id != 0) .protocol
  modifySes fun s => { s with connected := true }
  powerUp
  dmInit
  return id

/-- CONNECT after Acquire, to its end: whatever it raises, ConnectUnwind comes first (40_wire.md R91). -/
def connectFrom (slot : Slot) : Proc Word := onRaise (connectWith slot) connectUnwind

/-- CONNECT (40_wire.md R91). -/
def connectSession : Proc Word := do
  let s ← getSes
  if s.connected then return 0
  else do
    let slot ← acquire s.cfg.slot
    connectFrom slot

/-- CONNECT as far as Acquire (40_wire.md R91, R92): with a slot it is under way, otherwise it has ended. -/
def beginConnect : Proc Progress := do
  let s ← getSes
  if s.connected then return .done 0
  else do
    let slot ← acquire s.cfg.slot
    return .hold (.connect slot)

/-- The CONNECT under way goes on to its end (40_wire.md R91). -/
def continueConnect (slot : Slot) : Proc Progress := returns (connectFrom slot)

/-- DISCONNECT (40_wire.md R94). -/
def disconnectSession : Proc Unit := do
  let s ← getSes
  if s.connected then do
    releaseSlot
    disconnectFields
  else pure ()

def execConnect (s : State) : Host.Outcome State Fault Refusal := runCommand (returns connectSession) s

def execDisconnect (s : State) : Host.Outcome State Fault Refusal := runCommand (returnsZero disconnectSession) s

/-- IS_CONNECTED (40_wire.md R95). -/
def execIsConnected (s : State) : Host.Outcome State Fault Refusal :=
  runCommand (returns do return boolWord (← getSes).connected) s

/-- GET_FREQUENCY (40_wire.md R90). -/
def execGetFrequency (s : State) : Host.Outcome State Fault Refusal :=
  runCommand (returns do return (← getSes).wire.freqKhz) s

/-- SET_FREQUENCY (40_wire.md R89). -/
def execSetFrequency (s : State) : Host.Outcome State Fault Refusal :=
  runCommand (returnsZero do
    let f := (← getSes).port.arg0
    require (f != 0) .invalidParam
    modifySes fun s => { s with wire.freqKhz := f, wire.clkdiv := divider f }) s

/-- LINE_RESET (40_wire.md R85). -/
def execLineReset (s : State) : Host.Outcome State Fault Refusal :=
  runCommand (returnsZero do requireConnected; lineResetSeq) s

/-- SEND_IDLE_CLOCKS (40_wire.md R86). -/
def execSendIdleClocks (s : State) : Host.Outcome State Fault Refusal :=
  runCommand (returnsZero do
    requireConnected
    let n := (← getSes).port.arg0
    driveRepeat false n.toNat) s

end Sys2Proof.Machine
end

