-- ==== Sys2Proof/Machine/Words.lean ====
section
/-! DEFINITION. The rows of the opcode table that are words composed for target registers (30_encoding.md section 5;
42_dm.md R117): each is sent to its register by the procedure that sends it inside a command (log 14). The engine's
beliefs about the harts do not change, as after a host write of a DM register (70_reset_and_hazards.md R193). -/

namespace Sys2Proof.Machine

/-- A word's procedure, under the rule that no transaction happens unless connected (10_state.md R20). -/
def sendWord (m : Proc Unit) : Proc Progress := returnsZero do requireConnected; m

/-- SELECT (30_encoding.md R64; 41_dap.md R102): the SELECT write of a cache miss. -/
def execSelectWord (apsel bank : BitVec 4) (s : State) : Host.Outcome State Fault Refusal :=
  runCommand (sendWord (writeSelect apsel bank)) s

/-- CTRL/STAT cleared (30_encoding.md R65; 41_dap.md R107). -/
def execCtrlstatClear (s : State) : Host.Outcome State Fault Refusal :=
  runCommand (sendWord (dpWrite dpCtrlStat 0)) s

/-- CTRL/STAT power-up requests (30_encoding.md R65; 41_dap.md R107). -/
def execCtrlstatPwrupReq (s : State) : Host.Outcome State Fault Refusal :=
  runCommand (sendWord (dpWrite dpCtrlStat Config.pwrupReq)) s

/-- CTRL/STAT sticky bits cleared, power requests kept (41_dap.md R109). -/
def execCtrlstatClearErrorsPowered (s : State) : Host.Outcome State Fault Refusal :=
  runCommand (sendWord (dpWrite dpCtrlStat (clearErrorsWord true))) s

/-- CTRL/STAT sticky bits cleared (41_dap.md R109). -/
def execCtrlstatClearErrorsUnpowered (s : State) : Host.Outcome State Fault Refusal :=
  runCommand (sendWord (dpWrite dpCtrlStat (clearErrorsWord false))) s

/-- CSW of AP 0xA (42_dm.md R117). -/
def execCswInit (s : State) : Host.Outcome State Fault Refusal :=
  runCommand (sendWord (apWrite Config.riscvApsel apCsw Config.cswInit)) s

/-- First handshake word and its delay (42_dm.md R117). -/
def execDminitSeq1 (s : State) : Host.Outcome State Fault Refusal :=
  runCommand (sendWord (handshakeWrite Config.dminitSeq1)) s

/-- Second handshake word and its delay (42_dm.md R117). -/
def execDminitSeq2 (s : State) : Host.Outcome State Fault Refusal :=
  runCommand (sendWord (handshakeWrite Config.dminitSeq2)) s

/-- Third handshake word and its delay (42_dm.md R117). -/
def execDminitSeq3 (s : State) : Host.Outcome State Fault Refusal :=
  runCommand (sendWord (handshakeWrite Config.dminitSeq3)) s

/-- The DM status word is read and compared; `InvalidState` if it differs (42_dm.md R117). -/
def execDminitExpected (s : State) : Host.Outcome State Fault Refusal :=
  runCommand (returns do requireConnected; handshakeStatus) s

/-- `DMC_SEL(h)` to DMCONTROL (30_encoding.md R66). -/
def execDmcSel (h : HartId) (s : State) : Host.Outcome State Fault Refusal :=
  runCommand (sendWord (dmWrite .dmcontrol (dmcSel h))) s

/-- `DMC_HALT(h)` to DMCONTROL (30_encoding.md R66). -/
def execDmcHalt (h : HartId) (s : State) : Host.Outcome State Fault Refusal :=
  runCommand (sendWord (dmWrite .dmcontrol (dmcHalt h))) s

/-- `DMC_RESUME(h)` to DMCONTROL (30_encoding.md R66). -/
def execDmcResume (h : HartId) (s : State) : Host.Outcome State Fault Refusal :=
  runCommand (sendWord (dmWrite .dmcontrol (dmcResume h))) s

/-- `DMC_RESET(h, hr)` to DMCONTROL (30_encoding.md R66). -/
def execDmcReset (h : HartId) (hr : Bool) (s : State) : Host.Outcome State Fault Refusal :=
  runCommand (sendWord (dmWrite .dmcontrol (dmcReset h hr))) s

/-- `DMC_UNRESET(h, hr)` to DMCONTROL (30_encoding.md R66). -/
def execDmcUnreset (h : HartId) (hr : Bool) (s : State) : Host.Outcome State Fault Refusal :=
  runCommand (sendWord (dmWrite .dmcontrol (dmcUnreset h hr))) s

/-- `CMD_GPR_READ(n)` to COMMAND (30_encoding.md R67). -/
def execCmdGprRead (n : BitVec 5) (s : State) : Host.Outcome State Fault Refusal :=
  runCommand (sendWord (dmWrite .command (cmdGprRead n))) s

/-- `CMD_GPR_WRITE(n)` to COMMAND (30_encoding.md R67). -/
def execCmdGprWrite (n : BitVec 5) (s : State) : Host.Outcome State Fault Refusal :=
  runCommand (sendWord (dmWrite .command (cmdGprWrite n))) s

/-- `CMD_POSTEXEC` to COMMAND (30_encoding.md R67). -/
def execCmdPostexec (s : State) : Host.Outcome State Fault Refusal :=
  runCommand (sendWord (dmWrite .command Config.postexecCommand)) s

/-- cmderr cleared in ABSTRACTCS (42_dm.md R126). -/
def execAbstractcsClearCmderr (s : State) : Host.Outcome State Fault Refusal :=
  runCommand (sendWord (dmWrite .abstractcs Config.cmderrW1c)) s

/-- `INSN_CSRR(c)` to PROGBUF0 (30_encoding.md R68; 42_dm.md R131). -/
def execInsnCsrr (csr : BitVec 12) (s : State) : Host.Outcome State Fault Refusal :=
  runCommand (sendWord (dmWrite .progbuf0 (insnCsrr csr))) s

/-- `INSN_CSRW(c)` to PROGBUF0 (30_encoding.md R68; 42_dm.md R131). -/
def execInsnCsrw (csr : BitVec 12) (s : State) : Host.Outcome State Fault Refusal :=
  runCommand (sendWord (dmWrite .progbuf0 (insnCsrw csr))) s

/-- `INSN_EBREAK` to PROGBUF1 (30_encoding.md R68; 42_dm.md R131). -/
def execInsnEbreak (s : State) : Host.Outcome State Fault Refusal :=
  runCommand (sendWord (dmWrite .progbuf1 Config.insnEbreak)) s

/-- `SBCS_CFG` to SBCS (30_encoding.md R69; 43_sba.md R141). -/
def execSbcsCfg (s : State) : Host.Outcome State Fault Refusal :=
  runCommand (sendWord (dmWrite .sbcs Config.sbcsCfg)) s

end Sys2Proof.Machine
end

