-- ==== Sys2Proof/Machine/Dispatch.lean ====
section
/-! DEFINITION. One arm per instruction: the call of its meaning. -/

namespace Sys2Proof.Machine

def exec (i : Instr) (s : State) : Host.Outcome State Fault Refusal :=
  match i with
  | .swdReqDpR0 => Sys2Proof.Machine.execSwdReqDpR0 s
  | .swdReqDpR4 => Sys2Proof.Machine.execSwdReqDpR4 s
  | .swdReqDpR8 => Sys2Proof.Machine.execSwdReqDpR8 s
  | .swdReqDpRC => Sys2Proof.Machine.execSwdReqDpRC s
  | .swdReqDpW0 => Sys2Proof.Machine.execSwdReqDpW0 s
  | .swdReqDpW4 => Sys2Proof.Machine.execSwdReqDpW4 s
  | .swdReqDpW8 => Sys2Proof.Machine.execSwdReqDpW8 s
  | .swdReqDpWC => Sys2Proof.Machine.execSwdReqDpWC s
  | .swdReqApR0 => Sys2Proof.Machine.execSwdReqApR0 s
  | .swdReqApR4 => Sys2Proof.Machine.execSwdReqApR4 s
  | .swdReqApR8 => Sys2Proof.Machine.execSwdReqApR8 s
  | .swdReqApRC => Sys2Proof.Machine.execSwdReqApRC s
  | .swdReqApW0 => Sys2Proof.Machine.execSwdReqApW0 s
  | .swdReqApW4 => Sys2Proof.Machine.execSwdReqApW4 s
  | .swdReqApW8 => Sys2Proof.Machine.execSwdReqApW8 s
  | .swdReqApWC => Sys2Proof.Machine.execSwdReqApWC s
  | .ackOk => Sys2Proof.Machine.execAckOk s
  | .ackWait => Sys2Proof.Machine.execAckWait s
  | .ackFault => Sys2Proof.Machine.execAckFault s
  | .ackProtocolError v => Sys2Proof.Machine.execAckProtocolError v s
  | .connect => Sys2Proof.Machine.execConnect s
  | .disconnect => Sys2Proof.Machine.execDisconnect s
  | .isConnected => Sys2Proof.Machine.execIsConnected s
  | .getFrequency => Sys2Proof.Machine.execGetFrequency s
  | .setFrequency => Sys2Proof.Machine.execSetFrequency s
  | .lineReset => Sys2Proof.Machine.execLineReset s
  | .sendIdleClocks => Sys2Proof.Machine.execSendIdleClocks s
  | .isPowered => Sys2Proof.Machine.execIsPowered s
  | .powerUp => Sys2Proof.Machine.execPowerUp s
  | .clearErrors => Sys2Proof.Machine.execClearErrors s
  | .readDp => Sys2Proof.Machine.execReadDp s
  | .writeDp => Sys2Proof.Machine.execWriteDp s
  | .readAp => Sys2Proof.Machine.execReadAp s
  | .writeAp => Sys2Proof.Machine.execWriteAp s
  | .dapReadMem32 => Sys2Proof.Machine.execDapReadMem32 s
  | .dapWriteMem32 => Sys2Proof.Machine.execDapWriteMem32 s
  | .init => Sys2Proof.Machine.execInit s
  | .isInitialized => Sys2Proof.Machine.execIsInitialized s
  | .halt => Sys2Proof.Machine.execHalt s
  | .resume => Sys2Proof.Machine.execResume s
  | .step => Sys2Proof.Machine.execStep s
  | .reset => Sys2Proof.Machine.execReset s
  | .isHalted => Sys2Proof.Machine.execIsHalted s
  | .readReg => Sys2Proof.Machine.execReadReg s
  | .writeReg => Sys2Proof.Machine.execWriteReg s
  | .readAllRegs => Sys2Proof.Machine.execReadAllRegs s
  | .readPc => Sys2Proof.Machine.execReadPc s
  | .writePc => Sys2Proof.Machine.execWritePc s
  | .readCsr => Sys2Proof.Machine.execReadCsr s
  | .writeCsr => Sys2Proof.Machine.execWriteCsr s
  | .executeProgbuf => Sys2Proof.Machine.execExecuteProgbuf s
  | .sbaInit => Sys2Proof.Machine.execSbaInit s
  | .sbaRead32 => Sys2Proof.Machine.execSbaRead32 s
  | .sbaWrite32 => Sys2Proof.Machine.execSbaWrite32 s
  | .sbaCheckErrors => Sys2Proof.Machine.execSbaCheckErrors s
  | .readMem8 => Sys2Proof.Machine.execReadMem8 s
  | .readMem16 => Sys2Proof.Machine.execReadMem16 s
  | .readMem32 => Sys2Proof.Machine.execReadMem32 s
  | .writeMem8 => Sys2Proof.Machine.execWriteMem8 s
  | .writeMem16 => Sys2Proof.Machine.execWriteMem16 s
  | .writeMem32 => Sys2Proof.Machine.execWriteMem32 s
  | .readMemBlock => Sys2Proof.Machine.execReadMemBlock s
  | .writeMemBlock => Sys2Proof.Machine.execWriteMemBlock s
  | .uploadCode => Sys2Proof.Machine.execUploadCode s
  | .executeCode => Sys2Proof.Machine.execExecuteCode s
  | .trace => Sys2Proof.Machine.execTrace s
  | .enableCache => Sys2Proof.Machine.execEnableCache s
  | .invalidateCache => Sys2Proof.Machine.execInvalidateCache s
  | .resourceUsage => Sys2Proof.Machine.execResourceUsage s
  | .getErrorDetail => Sys2Proof.Machine.execGetErrorDetail s
  | .reservedHostOpcode op => Sys2Proof.Machine.execReservedHostOpcode op s
  | .selectWord apsel bank => Sys2Proof.Machine.execSelectWord apsel bank s
  | .ctrlstatClear => Sys2Proof.Machine.execCtrlstatClear s
  | .ctrlstatPwrupReq => Sys2Proof.Machine.execCtrlstatPwrupReq s
  | .ctrlstatClearErrorsPowered => Sys2Proof.Machine.execCtrlstatClearErrorsPowered s
  | .ctrlstatClearErrorsUnpowered => Sys2Proof.Machine.execCtrlstatClearErrorsUnpowered s
  | .cswInit => Sys2Proof.Machine.execCswInit s
  | .dminitSeq1 => Sys2Proof.Machine.execDminitSeq1 s
  | .dminitSeq2 => Sys2Proof.Machine.execDminitSeq2 s
  | .dminitSeq3 => Sys2Proof.Machine.execDminitSeq3 s
  | .dminitExpected => Sys2Proof.Machine.execDminitExpected s
  | .dmcSel h => Sys2Proof.Machine.execDmcSel h s
  | .dmcHalt h => Sys2Proof.Machine.execDmcHalt h s
  | .dmcResume h => Sys2Proof.Machine.execDmcResume h s
  | .dmcReset h hr => Sys2Proof.Machine.execDmcReset h hr s
  | .dmcUnreset h hr => Sys2Proof.Machine.execDmcUnreset h hr s
  | .cmdGprRead n => Sys2Proof.Machine.execCmdGprRead n s
  | .cmdGprWrite n => Sys2Proof.Machine.execCmdGprWrite n s
  | .cmdPostexec => Sys2Proof.Machine.execCmdPostexec s
  | .abstractcsClearCmderr => Sys2Proof.Machine.execAbstractcsClearCmderr s
  | .insnCsrr csr => Sys2Proof.Machine.execInsnCsrr csr s
  | .insnCsrw csr => Sys2Proof.Machine.execInsnCsrw csr s
  | .insnEbreak => Sys2Proof.Machine.execInsnEbreak s
  | .sbcsCfg => Sys2Proof.Machine.execSbcsCfg s

end Sys2Proof.Machine
end

