-- ==== Sys2Proof/Machine/HostPort.lean ====
section
/-! DEFINITION. The outside world's actions on the probe: sessions come and go (70_reset_and_hazards.md R178, R179),
the host writes and reads command ports (30_encoding.md R70 to R74), a held command goes on when the host lifts
its hold (R73; 44_ops.md R159), and a CONNECT stands behind its Acquire while other sessions act (20_memory.md
R49). -/

namespace Sys2Proof.Machine

/-! ## Sessions -/

/-- The sessions not in focus when another one comes into focus. -/
def State.parkFocus (s : State) : List Parked :=
  if s.eng.ses.live then ⟨s.eng.self, s.eng.ses⟩ :: s.parked else s.parked

/-- The parked session of that number. -/
def State.findParked (s : State) (id : SessionId) : Option Parked := s.parked.find? fun p => p.id == id

/-- The same probe with session `id` in focus; none when no such session exists. -/
def State.focus (s : State) (id : SessionId) : Option State :=
  if s.eng.ses.live && s.eng.self == id then some s
  else
    match s.findParked id with
    | none => none
    | some p =>
      some
        { s with
          eng := { s.eng with ses := p.ses, self := p.id }
          parked := s.parkFocus.filter fun q => !(q.id == id) }

/-- Create a session (70_reset_and_hazards.md R178): refused, with no effect, for a frequency of 0. The new
session is in focus. -/
def State.createSession (s : State) (cfg : Cfg) : State :=
  if cfg.freqKhz = 0 then s
  else
    { s with
      eng := { s.eng with ses := Session.fresh cfg true, self := s.nextId }
      parked := s.parkFocus
      nextId := s.nextId + 1 }

/-- The engine a procedure leaves, whether it answered or raised. -/
def endState {α : Type} : EStateM.Result Raise Engine α → Engine
  | .ok _ e => e
  | .error _ e => e

/-- DISCONNECT as destruction performs it (70_reset_and_hazards.md R179): no result is written. A CONNECT under way
is unwound with its slot (log 21). -/
def Engine.disconnected (e : Engine) : Engine :=
  match e.ses.hold with
  | .connect x => endState (connectUnwind { e with ses.wire.slot := some x })
  | _ => if e.ses.connected then endState (connectUnwind e) else e

/-- Destroy the session in focus (70_reset_and_hazards.md R179): DISCONNECT, then it ceases to exist; its fields
go back to creation values (log 21). -/
def State.destroyFocus (s : State) : State :=
  { s with eng := { s.eng.disconnected with ses := Session.fresh Cfg.default false } }

/-! ## Port accesses -/

/-- What the host reads from a port register, and the session after the read (a read of DOUT pops it); none for
an empty DOUT, whose value the spec does not say (log 13). -/
def Session.readPort (s : Session) : PortReg → Option Word × Session
  | .arg k => (some (match k with | 0 => s.port.arg0 | 1 => s.port.arg1 | 2 => s.port.arg2 | 3 => s.port.arg3), s)
  | .dout =>
    match s.port.dout with
    | [] => (none, s)
    | w :: rest => (some w, { s with port.dout := rest })
  | .resultValue => (some s.port.resultValue, s)
  | .resultStatus => (some (s.port.resultStatus.code.setWidth Config.xlen), s)
  | .busy => (some (boolWord s.port.busy), s)

/-- A read of the command port in focus. -/
def State.readPort (s : State) (r : PortReg) : State :=
  match s.eng.ses.readPort r with
  | (some v, ses) => { s with eng := { s.eng with ses := ses }, hostData := v }
  | (none, ses) =>
    { s with eng := { s.eng with ses := ses, free := s.eng.free + 1 }, hostData := Config.portWord s.eng.free }

/-- ARGk takes a value. -/
def Session.writeArg (s : Session) (k : Fin 4) (v : Word) : Session :=
  match k with
  | 0 => { s with port.arg0 := v }
  | 1 => { s with port.arg1 := v }
  | 2 => { s with port.arg2 := v }
  | 3 => { s with port.arg3 := v }

/-- Change the session in focus. -/
def State.modifySes (s : State) (f : Session → Session) : State :=
  { s with eng := { s.eng with ses := f s.eng.ses } }

/-! ## Holds -/

/-- A command held at `In()` goes on with the words DIN now has (30_encoding.md R73). -/
def resumeDin (s : State) : Host.Outcome State Fault Refusal :=
  match s.eng.ses.hold with
  | .progbuf h n got => resumeCommand (continueProgbuf h n got) s
  | .writeBlock a n i => resumeCommand (continueWriteBlock a n i) s
  | .upload a n i => resumeCommand (continueUpload a n i) s
  | .executeCode h entry n i => resumeCommand (continueExecuteCode h entry n i) s
  | .none => .next s
  | .trace _ _ _ _ => .next s
  | .connect _ => .next s

/-- A TRACE_REPLY write: the held TRACE goes on; ignored when no record awaits a reply (60_exceptions.md R170). -/
def replyTrace (b : Bool) (s : State) : Host.Outcome State Fault Refusal :=
  match s.eng.ses.hold with
  | .trace h max capture count =>
    resumeCommand (continueTrace h max capture count b) (s.modifySes fun x => { x with port.traceReply := b })
  | .none => .next s
  | .progbuf _ _ _ => .next s
  | .writeBlock _ _ _ => .next s
  | .upload _ _ _ => .next s
  | .executeCode _ _ _ _ => .next s
  | .connect _ => .next s

/-- The CONNECT under way goes on to its end (40_wire.md R91); without one this has no effect. -/
def goOn (s : State) : Host.Outcome State Fault Refusal :=
  match s.eng.ses.hold with
  | .connect x => resumeCommand (continueConnect x) s
  | .none => .next s
  | .progbuf _ _ _ => .next s
  | .writeBlock _ _ _ => .next s
  | .upload _ _ _ => .next s
  | .executeCode _ _ _ _ => .next s
  | .trace _ _ _ _ => .next s

/-! ## Instruction fetch -/

/-- Decode an object of a space and run it; a word the space gives no meaning is refused. -/
def fetchRun (sp : Space) (w : Word) (s : State) : Host.Outcome State Fault Refusal :=
  match decode sp (wordBytes w) with
  | some (i, _) => exec i s
  | none => .refused (.undecodable sp w)

/-- A CMD write (30_encoding.md R74): ignored while BUSY is 1. -/
def writeCmd (op : Byte) (s : State) : Host.Outcome State Fault Refusal :=
  if s.eng.ses.port.busy then .next s
  else fetchRun .command (op.setWidth Config.xlen) (s.modifySes fun x => { x with port.cmd := op })

/-- A CMD write of CONNECT (30_encoding.md R74) whose command goes as far as Acquire before the next action is
served (20_memory.md R49; log 1): ignored while BUSY is 1. -/
def startConnect (s : State) : Host.Outcome State Fault Refusal :=
  if s.eng.ses.port.busy then .next s
  else runCommand beginConnect (s.modifySes fun x => { x with port.cmd := 0x01 })

/-- A word below the command port is presented (log 14): ignored while BUSY is 1, as a CMD write. -/
def issueWord (sp : Space) (w data : Word) (s : State) : Host.Outcome State Fault Refusal :=
  if s.eng.ses.port.busy then .next s
  else
    fetchRun sp w
      (match sp with
        | .request => s.modifySes fun x => { x with txn.request.wdata := data }
        | _ => s)

/-! ## One action -/

/-- An action on the port of session `id`; without such a session it has no effect. -/
def onSession (id : SessionId) (s : State) (f : State → Host.Outcome State Fault Refusal) :
    Host.Outcome State Fault Refusal :=
  match s.focus id with
  | some s' => f s'
  | none => .next s

/-- Serve one action of the outside world. -/
def serve (x : Input) (s : State) : Host.Outcome State Fault Refusal :=
  match x with
  | .create cfg => .next (s.createSession cfg)
  | .destroy id => onSession id s fun s' => .next s'.destroyFocus
  | .writeCmd id op => onSession id s (writeCmd op)
  | .writeArg id k v => onSession id s fun s' => .next (s'.modifySes fun x => x.writeArg k v)
  | .writeDin id w =>
    onSession id s fun s' => resumeDin (s'.modifySes fun x => { x with port.din := x.port.din ++ [w] })
  | .writeTraceReply id b => onSession id s (replyTrace b)
  | .readPort id r => onSession id s fun s' => .next (s'.readPort r)
  | .issue id sp w data => onSession id s (issueWord sp w data)
  | .startConnect id => onSession id s startConnect
  | .goOn id => onSession id s goOn

/-- Serve the oldest action; with none the probe is idle (60_exceptions.md R168). -/
def serveNext (s : State) : Host.Outcome State Fault Refusal :=
  match s.inbox with
  | [] => .next s
  | x :: rest => serve x { s with inbox := rest }

end Sys2Proof.Machine
end

