-- ==== Sys2Proof/Machine/Step.lean ====
section
/-! DEFINITION. One step of the probe, and the placing of an instruction where the next step fetches it. -/

namespace Sys2Proof.Machine

/-- One step: the oldest action of the outside world is served (log 2). -/
def step (s : State) : Host.Outcome State Fault Refusal := serveNext s

/-- `s` with an instruction of the opcode table as the very next action on the port in focus: a CMD write for a
host command, else the word presented in its space. The session in focus must exist, under a number in use, and
not be busy (log 2). -/
def State.withFetchWord (s : State) (nbits w : Nat) : State :=
  { s with
    eng := { s.eng with ses := { s.eng.ses with live := true, port.busy := false, hold := .none } }
    nextId := Nat.max s.nextId (s.eng.self + 1)
    inbox :=
      (match tableSpace nbits w with
        | .command => Input.writeCmd s.eng.self (BitVec.ofNat 8 w)
        | sp => Input.issue s.eng.self sp (BitVec.ofNat Config.xlen w) 0) :: s.inbox }

end Sys2Proof.Machine
end

