-- ==== Sys2Proof/Safety.lean ====
section
/-! DEFINITION. The terms in which claims about runs are stated: what the target presents when it answers, the
scripts of the spec's procedures, a state but for its wire fields, cycle counts, and the invariants of 10_state.md
rule R20. -/

namespace Sys2Proof.Machine

/-! ## What goes over the wire when the target answers -/

/-- The bits of an OK answer to a write (30_encoding.md R57). -/
def okWriteBits : List Bool := [true, false, false]

/-- The bits of an OK answer to a read: acknowledge 1,0,0, the data bit 0 first, the parity (30_encoding.md R57,
R58). -/
def okReadBits (d : Word) : List Bool := [true, false, false] ++ bitsOf d ++ [xorReduce d]

/-- The bits of a WAIT answer (30_encoding.md R57). -/
def waitBits : List Bool := [false, true, false]

/-- The bits of a FAULT answer (30_encoding.md R57). -/
def faultBits : List Bool := [false, false, true]

/-- Driven cycles, one for each bit. -/
def driven (bs : List Bool) : List WireEvent := bs.map WireEvent.drive

/-- Sampled cycles, one for each bit. -/
def sampled (bs : List Bool) : List WireEvent := bs.map WireEvent.sample

/-- The cycles of a line reset (40_wire.md R84): 56 ones, 8 zeros. -/
def lineResetEvents : List WireEvent := driven (List.replicate 56 true ++ List.replicate 8 false)

/-- The eight request cycles, Start first (30_encoding.md R55), and the turnaround after them (R59). -/
def requestEvents (ap rnw : Bool) (a : BitVec 4) : List WireEvent :=
  driven [true, ap, rnw, a[2], a[3], ap ^^ rnw ^^ a[2] ^^ a[3], false, true] ++ [.release]

/-- The cycles of a write that the target acknowledges OK (40_wire.md R82). -/
def okWriteEvents (ap : Bool) (a : BitVec 4) (w : Word) : List WireEvent :=
  requestEvents ap false a ++ sampled okWriteBits ++ [.release] ++ driven (bitsOf w ++ [xorReduce w])

/-- The cycles of a read that the target answers OK with `d` (40_wire.md R82). -/
def okReadEvents (ap : Bool) (a : BitVec 4) (d : Word) : List WireEvent :=
  requestEvents ap true a ++ sampled (okReadBits d) ++ [.release]

/-- The cycles of a transaction that the target answers with an acknowledge that carries no data (40_wire.md
R82). -/
def noDataEvents (ap rnw : Bool) (a : BitVec 4) (ack : List Bool) : List WireEvent :=
  requestEvents ap rnw a ++ sampled ack ++ [.release]

/-- The cycles of a WAIT answer and the delay before the retry (41_dap.md R96). -/
def waitEvents (ap rnw : Bool) (a : BitVec 4) : List WireEvent :=
  noDataEvents ap rnw a waitBits ++ [.sleep 100]

/-- A piece of wire activity in which the target answers: with so many retries allowed, from the bits the target
presents it makes the events of the timeline, in time order, and leaves the rest of the bits. -/
abbrev Dialogue := Nat → List Bool → List WireEvent → List Bool → Prop

/-- The target answers with at most as many WAITs as retries are allowed, then OK (41_dap.md R96). -/
def answered (ap rnw : Bool) (a : BitVec 4) (okBits : List Bool) (okEvents : List WireEvent) : Dialogue :=
  fun n bits evs rest => ∃ k, k ≤ n
    ∧ bits = (List.replicate k waitBits).flatten ++ okBits ++ rest
    ∧ evs = (List.replicate k (waitEvents ap rnw a)).flatten ++ okEvents

/-- A write of `w` that is acknowledged. -/
def writes (ap : Bool) (a : BitVec 4) (w : Word) : Dialogue :=
  answered ap false a okWriteBits (okWriteEvents ap a w)

/-- A read that is answered with `d`. -/
def reads (ap : Bool) (a : BitVec 4) (d : Word) : Dialogue :=
  answered ap true a (okReadBits d) (okReadEvents ap a d)

/-- A read that is answered with some word that passes the test. -/
def readsSome (ap : Bool) (a : BitVec 4) (p : Word → Bool) : Dialogue :=
  fun n bits evs rest => ∃ d, p d = true ∧ reads ap a d n bits evs rest

/-- A read whose data are discarded. -/
def flushes (ap : Bool) (a : BitVec 4) : Dialogue := readsSome ap a fun _ => true

/-- A transaction that ends in a FAULT, after at most as many WAITs as retries are allowed (40_wire.md R82; 41_dap.md
R96). -/
def faults (ap rnw : Bool) (a : BitVec 4) : Dialogue := answered ap rnw a faultBits (noDataEvents ap rnw a faultBits)

/-- A delay. -/
def pauses (us : Nat) : Dialogue := fun _ bits evs rest => bits = rest ∧ evs = [.sleep us]

/-- Driven bits. -/
def sends (bs : List Bool) : Dialogue := fun _ bits evs rest => bits = rest ∧ evs = driven bs

/-- Pieces of wire activity, one after the other. -/
abbrev Script := List Dialogue

/-- All the pieces of a script happen, in order. -/
def talk : Script → Dialogue
  | [] => fun _ bits evs rest => bits = rest ∧ evs = []
  | d :: ds => fun n bits evs rest => ∃ mid evs₁ evs₂,
      d n bits evs₁ mid ∧ talk ds n mid evs₂ rest ∧ evs = evs₁ ++ evs₂

/-- At most `left` reads with a delay between two: some that miss, then one that hits (60_exceptions.md R169). -/
def awaits (read : (Word → Bool) → Script) (hit miss : Word → Bool) (us : Nat) : (left : Nat) → Dialogue
  | 0 => fun _ _ _ _ => False
  | left + 1 => fun n bits evs rest =>
      talk (read hit) n bits evs rest ∨
        talk (read miss ++ [pauses us, awaits read hit miss us left]) n bits evs rest

/-- n reads that all miss, with a delay between two: a poll that gives up (60_exceptions.md R169). -/
def givesUp (read : (Word → Bool) → Script) (miss : Word → Bool) (us n : Nat) : Script :=
  (List.replicate (n - 1) (read miss ++ [pauses us])).flatten ++ read miss

/-! ## Scripts: the wire activity of each procedure when it succeeds, the SELECT cache hitting
(70_reset_and_hazards.md R183) -/

/-- The SELECT write of a cache miss (41_dap.md R102). -/
def selectScript (apsel bank : BitVec 4) : Script := [writes false 0x8 (selectWord apsel bank 1)]
/-- The SELECT write, when the cache does not hit (41_dap.md R102). -/
def maybeSelect (hit : Bool) (apsel bank : BitVec 4) : Script := if hit then [] else selectScript apsel bank
/-- `ApWrite`: the write, then the flush (41_dap.md R104). -/
def apWriteScript (reg : Byte) (w : Word) : Script := [writes true (apAddr reg) w, flushes false 0xC]
/-- `ApRead` of a word that passes `p`: the discarded read, then RDBUFF (41_dap.md R103). -/
def apReadScript (reg : Byte) (p : Word → Bool) : Script := [flushes true (apAddr reg), readsSome false 0xC p]
/-- `MemApWrite` (41_dap.md R110). -/
def memApWriteScript (a w : Word) : Script := apWriteScript 0x04 a ++ apWriteScript 0x0C w
/-- `MemApRead` (41_dap.md R110). -/
def memApReadScript (a : Word) (p : Word → Bool) : Script := apWriteScript 0x04 a ++ apReadScript 0x0C p
/-- The address of a DM register (10_state.md R29, `DM_BASE` being 0). -/
def dmAddress : DmReg → Word
  | .data0 => 0x10
  | .dmcontrol => 0x40
  | .dmstatus => 0x44
  | .abstractcs => 0x58
  | .command => 0x5C
  | .progbuf i => 0x80 + BitVec.ofNat Config.xlen (4 * i)
  | .sbcs => 0xE0
  | .sbaddress0 => 0xE4
  | .sbdata0 => 0xF0
/-- `DmWrite` (42_dm.md R115). -/
def dmWriteScript (r : DmReg) (w : Word) : Script := memApWriteScript (dmAddress r) w
/-- `DmRead` (42_dm.md R115). -/
def dmReadScript (r : DmReg) (p : Word → Bool) : Script := memApReadScript (dmAddress r) p
/-- `SelectHart` (42_dm.md R116). -/
def selectHartScript (h : HartId) : Script := dmWriteScript .dmcontrol (dmcSel h)
/-- `WaitAbstract` that finds no error: polling ABSTRACTCS until busy, bit 12, is 0, with cmderr, bits 10 to 8, at 0 then
(42_dm.md R126; 10_state.md R32). -/
def waitAbstractScript : Script :=
  [awaits (dmReadScript .abstractcs) (fun v => !v[12] && v.extractLsb' 8 3 == 0) (fun v => v[12]) 10 100]
/-- `RequireHalted` on a hart that is halted, known to be or not (42_dm.md R119, R120). -/
def requireHaltedScript (known : Bool) (h : HartId) : Script :=
  if known then [] else selectHartScript h ++ dmReadScript .dmstatus allHalted
/-- Polling DMSTATUS until `p` (42_dm.md R122 to R125). -/
def awaitStatusScript (p : Word → Bool) : Script :=
  [awaits (dmReadScript .dmstatus) p (fun v => !p v) 10000 10]
/-- `GprRead` of `v` (42_dm.md R127). -/
def gprReadScript (n : BitVec 5) (v : Word) : Script :=
  dmWriteScript .command (cmdGprRead n) ++ waitAbstractScript ++ dmReadScript .data0 (· == v)
/-- `GprWrite` (42_dm.md R127). -/
def gprWriteScript (n : BitVec 5) (v : Word) : Script :=
  dmWriteScript .data0 v ++ dmWriteScript .command (cmdGprWrite n) ++ waitAbstractScript
/-- `ReadReg` of `v` over the wire (42_dm.md R128). -/
def readRegScript (h : HartId) (n : BitVec 5) (v : Word) : Script := selectHartScript h ++ gprReadScript n v
/-- `ReadReg` of `v`, from the mirror when it hits (42_dm.md R128). -/
def maybeReadReg (hit : Bool) (h : HartId) (n : BitVec 5) (v : Word) : Script :=
  if hit then [] else readRegScript h n v
/-- `WriteReg` (42_dm.md R129). -/
def writeRegScript (h : HartId) (n : BitVec 5) (v : Word) : Script := selectHartScript h ++ gprWriteScript n v
/-- The registers of the list, in order, each with its value (42_dm.md R130). -/
def gprReadsScript (rs : List (BitVec 5 × Word)) : Script := rs.flatMap fun r => gprReadScript r.1 r.2
/-- `SelectHart` and `RunProgbuf` (42_dm.md R131). -/
def progbufScript (h : HartId) (l : List Word) : Script :=
  selectHartScript h ++ l.zipIdx.flatMap (fun x => dmWriteScript (.progbuf x.2) x.1)
    ++ dmWriteScript .command 0x00040000 ++ waitAbstractScript
/-- `CsrRead` of `v`, s0 being `s0`, known to the mirror or not (42_dm.md R132). -/
def csrReadScript (hit : Bool) (h : HartId) (c : BitVec 12) (s0 v : Word) : Script :=
  maybeReadReg hit h 8 s0 ++ progbufScript h [insnCsrr c, 0x00100073] ++ readRegScript h 8 v
    ++ writeRegScript h 8 s0
/-- `CsrWrite` of `v`, s0 being `s0`, known to the mirror or not (42_dm.md R132). -/
def csrWriteScript (hit : Bool) (h : HartId) (c : BitVec 12) (s0 v : Word) : Script :=
  maybeReadReg hit h 8 s0 ++ writeRegScript h 8 v ++ progbufScript h [insnCsrw c, 0x00100073]
    ++ writeRegScript h 8 s0
/-- `Step`, DCSR being `dcsr`; `s0` is what each of the three CSR accesses finds in s0 (42_dm.md R124). -/
def stepScript (hit : Bool) (h : HartId) (dcsr s0 s0' s0'' : Word) : Script :=
  csrReadScript hit h 0x7B0 s0 dcsr ++ csrWriteScript false h 0x7B0 s0' (dcsr ||| 0x4)
    ++ dmWriteScript .dmcontrol (dmcSel h) ++ dmWriteScript .dmcontrol (dmcResume h) ++ awaitStatusScript allHalted
    ++ csrWriteScript false h 0x7B0 s0'' dcsr
/-- `Step` whose hart does not halt in time (42_dm.md R124). -/
def stepTimeoutScript (hit : Bool) (h : HartId) (dcsr s0 s0' : Word) : Script :=
  csrReadScript hit h 0x7B0 s0 dcsr ++ csrWriteScript false h 0x7B0 s0' (dcsr ||| 0x4)
    ++ dmWriteScript .dmcontrol (dmcSel h) ++ dmWriteScript .dmcontrol (dmcResume h)
    ++ givesUp (dmReadScript .dmstatus) (fun v => !v[9]) 10000 10
/-- `Halt` from an unknown or running hart (42_dm.md R122). -/
def haltScript (h : HartId) : Script := dmWriteScript .dmcontrol (dmcHalt h) ++ awaitStatusScript allHalted
/-- `Halt` of a hart that does not halt in time (42_dm.md R122). -/
def haltTimeoutScript (h : HartId) : Script :=
  dmWriteScript .dmcontrol (dmcHalt h) ++ givesUp (dmReadScript .dmstatus) (fun v => !v[9]) 10000 10
/-- `Resume` from an unknown or halted hart (42_dm.md R123). -/
def resumeScript (h : HartId) : Script := dmWriteScript .dmcontrol (dmcResume h) ++ awaitStatusScript allRunning
/-- `Resume` of a hart that does not run in time (42_dm.md R123). -/
def resumeTimeoutScript (h : HartId) : Script :=
  dmWriteScript .dmcontrol (dmcResume h) ++ givesUp (dmReadScript .dmstatus) (fun v => !v[11]) 10000 10
/-- RESET with the hart to be halted, which does not halt in time (42_dm.md R125). -/
def resetTimeoutScript (h : HartId) : Script :=
  dmWriteScript .dmcontrol (dmcReset h true) ++ [pauses 10000] ++ dmWriteScript .dmcontrol (dmcUnreset h true)
    ++ [pauses 50000] ++ givesUp (dmReadScript .dmstatus) (fun v => !v[9]) 10000 10
/-- RESET (42_dm.md R125). -/
def resetScript (h : HartId) (hr : Bool) : Script :=
  dmWriteScript .dmcontrol (dmcReset h hr) ++ [pauses 10000] ++ dmWriteScript .dmcontrol (dmcUnreset h hr)
    ++ [pauses 50000] ++ (if hr then awaitStatusScript allHalted else [])
/-- `ReadAllRegs` (42_dm.md R130). -/
def readAllRegsScript (h : HartId) (vs : List Word) : Script :=
  selectHartScript h ++ gprReadsScript (allRegs.zip vs)
/-- `SbaRead` (43_sba.md R142). -/
def sbaReadScript (a d : Word) : Script := dmWriteScript .sbaddress0 a ++ dmReadScript .sbdata0 (· == d)
/-- `SbaWrite` (43_sba.md R143). -/
def sbaWriteScript (a w : Word) : Script := dmWriteScript .sbaddress0 a ++ dmWriteScript .sbdata0 w
/-- `SbaInit` on a target that has SBA (43_sba.md R141). -/
def sbaInitScript : Script := dmReadScript .sbcs (fun v => sbasize v != 0) ++ dmWriteScript .sbcs 0x00147000
/-- Both power-up acknowledges, bits 31 and 29 of CTRL/STAT (10_state.md R25; bit places PRESUMED, log 8). -/
def bothAcked (v : Word) : Bool := v &&& 0xA0000000 == 0xA0000000
/-- `PowerUp` (41_dap.md R107). -/
def powerUpScript : Script :=
  [writes false 0x4 0, writes false 0x4 0x50000000,
   awaits (fun p => [readsSome false 0x4 p]) bothAcked (fun v => !bothAcked v) 20000 10]
/-- `PowerUp` that is not acknowledged in time (41_dap.md R107). -/
def powerUpTimeoutScript : Script :=
  [writes false 0x4 0, writes false 0x4 0x50000000]
    ++ givesUp (fun p => [readsSome false 0x4 p]) (fun v => !bothAcked v) 20000 10
/-- `DmInit` up to the read of the DM status word; `hit` says whether the SELECT cache holds AP 0xA bank 0 (42_dm.md
R117). -/
def handshakeScript (hit : Bool) : Script :=
  maybeSelect hit 0xA 0 ++ apWriteScript 0x00 0xA2000002 ++ apWriteScript 0x04 0x40
    ++ selectScript 0xA 1 ++ apWriteScript 0x10 0x00000000 ++ [pauses 50000]
    ++ apWriteScript 0x10 0x00000001 ++ [pauses 50000]
    ++ apWriteScript 0x10 0x07FFFFC1 ++ [pauses 50000]
/-- `DmInit` up to SbaInit (42_dm.md R117). -/
def dmInitHead (hit : Bool) : Script :=
  handshakeScript hit ++ apReadScript 0x10 (· == 0x04010001) ++ selectScript 0xA 0
/-- `DmInit` that finds another DM status word (42_dm.md R117). -/
def dmInitFailScript (hit : Bool) : Script := handshakeScript hit ++ apReadScript 0x10 (· != 0x04010001)
/-- `DmInit` on a target that has SBA (42_dm.md R117). -/
def dmInitScript (hit : Bool) : Script := dmInitHead hit ++ sbaInitScript

/-- `DmInit` on a target whose SBCS says that it has no SBA (42_dm.md R117; 43_sba.md R141). -/
def dmInitNoSbaScript (hit : Bool) : Script :=
  dmInitHead hit ++ dmReadScript .sbcs fun v => sbasize v == 0
/-- `WaitAbstract` that finds an error and clears it (42_dm.md R126). -/
def abstractErrorScript : Script :=
  [awaits (dmReadScript .abstractcs) (fun v => !v[12] && v.extractLsb' 8 3 != 0) (fun v => v[12]) 10 100]
    ++ dmWriteScript .abstractcs 0x00000700
/-- `WaitAbstract` that gives up (42_dm.md R126). -/
def abstractTimeoutScript : Script := givesUp (dmReadScript .abstractcs) (fun v => v[12]) 10 100
/-- The connection sequence of 30_encoding.md R60, byte for byte; the sixteen bytes of the selection alert are PRESUMED
(log 7). -/
def connectBytes : List Byte :=
  [0xFF, 0xFF, 0xFF, 0xFF, 0xFF, 0xFF, 0xFF, 0xBC, 0xE3, 0xFF,
   0x92, 0xF3, 0x09, 0x62, 0x95, 0x2D, 0x85, 0x86, 0xE9, 0xAF, 0xDD, 0xE3, 0xA2, 0x0E, 0xBC, 0x19,
   0xA0, 0xF1, 0xFF, 0xFF, 0xFF, 0xFF, 0xFF, 0xFF, 0xFF, 0xFF, 0xFF, 0x00]
/-- CONNECT on a target whose IDCODE is `id`, with SBA or without (40_wire.md R91). -/
def connectScript (sba : Bool) (id : Word) : Script :=
  [sends (connectBytes.flatMap bitsOf), reads false 0x0 id] ++ powerUpScript
    ++ (if sba then dmInitScript false else dmInitNoSbaScript false)

/-- `MemRead` on the selected path (44_ops.md R146). -/
def memReadScript (sba : Bool) (a d : Word) : Script :=
  if sba then sbaReadScript a d else memApReadScript a (· == d)
/-- `MemWrite` on the selected path (44_ops.md R146). -/
def memWriteScript (sba : Bool) (a w : Word) : Script := if sba then sbaWriteScript a w else memApWriteScript a w
/-- A block read of the words `ws` (44_ops.md R155). -/
def readBlockScript (sba : Bool) (a : Word) (ws : List Word) : Script :=
  ws.zipIdx.flatMap fun x => memReadScript sba (blockAddr a x.2) x.1
/-- A block write of the words `ws` (44_ops.md R156). -/
def writeBlockScript (sba : Bool) (a : Word) (ws : List Word) : Script :=
  ws.zipIdx.flatMap fun x => memWriteScript sba (blockAddr a x.2) x.1
/-- The launch after an upload as far as the pc's readback: halt unless the hart is known halted, DPC written, and read
back as `pc`; `s0` and `s0'` are what the two CSR accesses find in s0, the first from the mirror when it hits (44_ops.md
R158). -/
def setPcScript (known hit : Bool) (h : HartId) (entry s0 s0' pc : Word) : Script :=
  (if known then [] else haltScript h) ++ csrWriteScript hit h 0x7B1 s0 entry ++ csrReadScript false h 0x7B1 s0' pc
/-- The launch after an upload: the pc set and read back as written, then resume (44_ops.md R158). -/
def launchScript (known hit : Bool) (h : HartId) (entry s0 s0' : Word) : Script :=
  setPcScript known hit h entry s0 s0' entry ++ resumeScript h
/-- One trace record: DPC, the instruction word there, the registers when they are captured (44_ops.md R159). -/
def recordScript (hit sba capture : Bool) (h : HartId) (s0 pc insn : Word) (vs : List Word) : Script :=
  csrReadScript hit h 0x7B1 s0 pc ++ memReadScript sba pc insn ++ (if capture then readAllRegsScript h vs else [])
/-- An upload of the words `ws`, each read back as written (44_ops.md R157). -/
def uploadScript (sba : Bool) (a : Word) (ws : List Word) : Script :=
  ws.zipIdx.flatMap fun x => memWriteScript sba (blockAddr a x.2) x.1 ++ memReadScript sba (blockAddr a x.2) x.1

/-! ## A state but for its wire fields -/

/-- The event is a sample. -/
def WireEvent.isSample : WireEvent → Bool
  | .sample _ => true
  | _ => false

/-- `last_ack` after successful wire activity: OK if there was a transaction, else as before (40_wire.md R82). -/
def ackAfter (evs : List WireEvent) (ack : BitVec 3) : BitVec 3 := if evs.any WireEvent.isSample then 1 else ack

/-- The engine after transactions answered OK: the remaining input bits, the timeline and the transaction in flight
are as given, `last_ack` is OK if a transaction happened, and every other field is as it was. -/
def Engine.wired (e : Engine) (bits : List Bool) (record : List WireEvent) (fl : InFlight) : Engine :=
  { e with
    ses.swdio := bits, ses.record := record, ses.txn := fl, ses.dap.lastAck := ackAfter record e.ses.dap.lastAck }

/-- The probe with its wire fields as given, every other field as it was. -/
def State.onWire (s : State) (bits : List Bool) (record : List WireEvent) (fl : InFlight) (ack : BitVec 3) : State :=
  { s with
    eng.ses.swdio := bits, eng.ses.record := record, eng.ses.txn := fl, eng.ses.dap.lastAck := ack }

/-- The same as `Engine.wired` on the whole probe. -/
def State.wired (s : State) (bits : List Bool) (record : List WireEvent) (fl : InFlight) : State :=
  { s with eng := s.eng.wired bits record fl }

/-- The probe after a command that ended by `return v` with the words `dout` on DOUT and no wire activity: the
port's results are written, DIN is empty, BUSY is 0 (30_encoding.md R73, R74; 60_exceptions.md R163), and the timeline
is empty; every other field is as it was. -/
def State.returned (s : State) (v : Word) (dout : List Word) : State :=
  { s with
    eng.ses.port.resultStatus := .ok, eng.ses.port.resultValue := v, eng.ses.port.din := [],
    eng.ses.port.dout := dout, eng.ses.port.busy := false, eng.ses.hold := .none, eng.ses.record := [] }

/-- The probe after a command that ended by `raise` with status `k` and value `v` (60_exceptions.md R163) with no
wire activity: the error detail is a free value, every other field is as `State.returned` says. -/
def State.raised (s : State) (k : ErrorKind) (v : Word) (dout : List Word) : State :=
  { s.returned v dout with
    eng.ses.port.resultStatus := k, eng.ses.errDetail := freeErrDetail s.eng.free, eng.free := s.eng.free + 1 }

/-- The probe while a command holds for the host: BUSY is 1 (60_exceptions.md R169). -/
def State.holding (s : State) (h : Hold) (dout : List Word) : State :=
  { s with
    eng.ses.port.dout := dout, eng.ses.port.busy := true, eng.ses.hold := h, eng.ses.record := [] }

/-- The connection's fields stand at their disconnected values (10_state.md R20, invariant 1; 40_wire.md R91, R94). -/
def Session.unwound (x : Session) : Prop :=
  x.connected = false ∧ x.wire.slot = none ∧ x.wire.initialized = false ∧ x.dap.powered = false
    ∧ x.dap.selValid = false ∧ x.dm.initialized = false ∧ x.dm.sbaInitialized = false

/-- The probe with CMD at CONNECT's opcode (30_encoding.md R70; 40_wire.md R91). -/
def State.commanded (s : State) : State := s.modifySes fun x => { x with port.cmd := 0x01 }

/-- Change one hart of the session in focus. -/
def State.withHart (s : State) (h : HartId) (f : Hart → Hart) : State :=
  s.modifySes fun x => x.setHart h (f (x.hart h))

/-- The SELECT cache holds (apsel, bank, AP_CTRLSEL) (41_dap.md R102). -/
def State.selected (s : State) (apsel bank : BitVec 4) : State :=
  s.modifySes fun x =>
    { x with
      dap.selValid := true, dap.currentApsel := apsel, dap.currentBank := bank, dap.ctrlsel := 1 }

/-- The SELECT cache is invalid (41_dap.md R101, R102; 40_wire.md R84). -/
def State.unselected (s : State) : State := s.modifySes fun x => { x with dap.selValid := false }

/-- The probe as an acknowledge row finds it when it goes on: where the transaction in flight is a SELECT write, it is
outside the cache path and the cache is invalid (10_state.md R17; logs 14 and 16). -/
def State.answering (s : State) : State :=
  if s.eng.ses.txn.request.apndp = false ∧ s.eng.ses.txn.request.rnw = false ∧ s.eng.ses.txn.request.addr = 0x8
  then s.unselected else s

/-- The probe as a request row finds it when it is sent: a SELECT write outside the cache path has invalidated the
cache (10_state.md R17; log 14). -/
def State.issuing (s : State) (i : Instr) : State := if i = .swdReqDpW8 then s.unselected else s

/-- The probe after INIT (42_dm.md R117); `sba` says whether SbaInit succeeded. -/
def State.initialised (s : State) (sba : Bool) : State :=
  (s.selected 0xA 0).modifySes fun x =>
    { x with
      dm.initialized := true, dm.sbaInitialized := sba
      harts := Vector.replicate Config.harts
        { known := false, halted := false, cacheValid := false, gpr := Vector.replicate Config.ngpr 0 } }

/-- The probe after CONNECT in the slot `x`, on a target with SBA or without (40_wire.md R91). -/
def State.joined (s : State) (x : Slot) (sba : Bool) : State :=
  { (s.initialised sba).modifySes fun y =>
      { y with
        connected := true, wire.slot := some x, wire.initialized := true
        wire.clkdiv := divider y.wire.freqKhz, dap.powered := true } with
    eng.tracker := s.eng.tracker.setOwner x (some s.eng.self) }

/-- The probe after DISCONNECT of a connected session (40_wire.md R93, R94). -/
def State.left (s : State) : State :=
  { s.modifySes fun x =>
      { x with
        connected := false, wire.slot := none, wire.initialized := false, dap.powered := false
        dap.selValid := false, dm.initialized := false, dm.sbaInitialized := false
        harts := x.harts.map fun y => { y with known := false, halted := false, cacheValid := false } } with
    eng.tracker :=
      match s.eng.ses.wire.slot with
      | some x => s.eng.tracker.setOwner x none
      | none => s.eng.tracker }

/-- The program EXECUTE_PROGBUF runs for the words `ws`, one or two of them (42_dm.md R137). -/
def programOf : List Word → Option (List Word)
  | [w] => some (if w = 0x00100073 then [w] else [w, 0x00100073])
  | [w, v] => if v = 0x00100073 then some [w, v] else none
  | _ => none

/-- The mirror of a hart takes a register's value when caching is on and the register is not x0 (42_dm.md R128,
R129). -/
def Hart.mirrored (x : Hart) (on : Bool) (n : BitVec 5) (v : Word) : Hart :=
  if on && n != 0 then { x with gpr := x.gpr.set n.toNat v n.isLt } else x

/-- A hart after a CSR access that found `s0` in s0: the mirror is no longer valid, and its x8 is `s0` (42_dm.md R131,
R132). -/
def Hart.afterCsr (x : Hart) (on : Bool) (s0 : Word) : Hart := { x.mirrored on 8 s0 with cacheValid := false }

/-- A hart found halted: what HALT, QueryHalted and STEP know then (42_dm.md R119, R122, R124). -/
def Hart.knownHalted (x : Hart) : Hart := { x with known := true, halted := true }

/-- A hart after all the registers of the list were read (42_dm.md R130). -/
def Hart.mirroredAll (x : Hart) (on : Bool) (rs : List (BitVec 5 × Word)) : Hart :=
  rs.foldl (fun y r => y.mirrored on r.1 r.2) x

/-- A hart after ReadAllRegs: x1 to x31 mirrored when caching is on, and the mirror valid then (42_dm.md R130). -/
def Hart.afterReadAll (x : Hart) (on : Bool) (vs : List Word) : Hart :=
  { x.mirroredAll on (allRegs.zip vs) with cacheValid := on }

/-- A hart after a trace record that found `s0` in s0 and, when registers are captured, their values `vs` (44_ops.md
R159). -/
def Hart.traced (x : Hart) (on capture : Bool) (s0 : Word) (vs : List Word) : Hart :=
  if capture then (x.afterCsr on s0).knownHalted.afterReadAll on vs else (x.afterCsr on s0).knownHalted

/-- The words of a trace record on DOUT (44_ops.md R159). -/
def recordWords (capture : Bool) (n : Nat) (pc insn : Word) (vs : List Word) : List Word :=
  [BitVec.ofNat Config.xlen n, pc, insn] ++ (if capture then vs else [])

/-- The mirror answers a read of hart `h` (42_dm.md R128). -/
def Session.mirrorHit (x : Session) (h : HartId) : Bool := x.dm.cacheEnabled && (x.hart h).cacheValid

/-- What the target presents makes the script happen with the events `evs`, and leaves `rest`. -/
def State.hears (s : State) (t : Script) (evs : List WireEvent) (rest : List Bool) : Prop :=
  talk t s.eng.ses.dap.retryCount.toNat s.eng.ses.swdio evs rest

/-- `exec i s` answers `t` after the wire activity `evs`, with `rest` left of what the target presents. -/
def completes (i : Instr) (s t : State) (evs : List WireEvent) (rest : List Bool) : Prop :=
  ∃ fl, exec i s = .next (t.wired rest evs.reverse fl)

/-! ## Situations a command meets -/

/-- Connected. -/
def State.online (s : State) : Bool := s.eng.ses.connected

/-- Connected, DM initialised, and the SELECT cache at the RISC-V AP's bank 0. -/
def State.ready (s : State) : Bool :=
  s.eng.ses.connected && s.eng.ses.dm.initialized && s.eng.ses.selectHit 0xA 0

/-- Ready, and hart `h` known halted. -/
def State.readyHalted (s : State) (h : HartId) : Bool :=
  s.ready && (s.eng.ses.hart h).known && (s.eng.ses.hart h).halted

/-- The command has ended, and by a raise (60_exceptions.md R163). -/
def State.failed (s : State) : Bool := !s.eng.ses.port.busy && s.eng.ses.port.resultStatus != .ok

/-- The cycles of a state's timeline; a delay is none (30_encoding.md R77; 40_wire.md R80). -/
def State.cycles (s : State) : Nat :=
  s.eng.ses.record.countP fun ev => match ev with
    | .sleep _ => false
    | _ => true

/-- A hart operand register names hart `h`. -/
def names (w : Word) (h : HartId) : Prop := w = BitVec.ofNat Config.xlen h.val

/-! ## What the spec's tables say of each row -/

/-- The requests the engine sends: APnDP, RnW and A (30_encoding.md R56). -/
def requestRow : Instr → Option (Bool × Bool × BitVec 4)
  | .swdReqDpR0 => some (false, true, 0x0)
  | .swdReqDpR4 => some (false, true, 0x4)
  | .swdReqDpRC => some (false, true, 0xC)
  | .swdReqApR0 => some (true, true, 0x0)
  | .swdReqApR4 => some (true, true, 0x4)
  | .swdReqApR8 => some (true, true, 0x8)
  | .swdReqApRC => some (true, true, 0xC)
  | .swdReqDpW4 => some (false, false, 0x4)
  | .swdReqDpW8 => some (false, false, 0x8)
  | .swdReqApW0 => some (true, false, 0x0)
  | .swdReqApW4 => some (true, false, 0x4)
  | .swdReqApW8 => some (true, false, 0x8)
  | .swdReqApWC => some (true, false, 0xC)
  | _ => none

/-- The rows that need no connection (60_exceptions.md R167, first line of the table, and the reserved opcodes). -/
def offlineRow : Instr → Bool
  | .isConnected | .getFrequency | .setFrequency | .isPowered | .isInitialized | .enableCache | .invalidateCache
  | .resourceUsage | .getErrorDetail | .connect | .disconnect | .reservedHostOpcode _ => true
  | _ => false

/-- The operands of a row are in range (R72, R89, R99, R105, R106, R128 to R137, R152 to R159); a reserved opcode
and a request that is never emitted have no operands in range (R75, R99). -/
def paramsOk (i : Instr) (p : Port) : Bool :=
  let a := p.arg0.toNat
  let b := p.arg1.toNat
  let c := p.arg2.toNat
  match i with
  | .swdReqDpR8 | .swdReqDpW0 | .swdReqDpWC | .reservedHostOpcode _ => false
  | .setFrequency => a != 0
  | .readDp => a == 0x0 || a == 0x4 || a == 0xC
  | .writeDp => a == 0x4 || a == 0x8
  | .readAp | .writeAp => a ≤ 15 && b ≤ 0xFC && b % 4 == 0
  | .halt | .resume | .step | .isHalted | .readAllRegs | .readPc | .writePc | .enableCache | .invalidateCache =>
    a ≤ 1
  | .reset => a ≤ 1 && b ≤ 1
  | .readReg | .writeReg => a ≤ 1 && b ≤ 31
  | .readCsr | .writeCsr => a ≤ 1 && b ≤ 0xFFF
  | .executeProgbuf => a ≤ 1 && 1 ≤ b && b ≤ 2
  | .writeMem8 => b < 2 ^ 8
  | .writeMem16 => b < 2 ^ 16
  | .readMemBlock | .writeMemBlock | .uploadCode => a + 4 * b ≤ 2 ^ 32
  | .executeCode => a ≤ 1 && c != 0 && b + 4 * c ≤ 2 ^ 32
  | .trace => a ≤ 1 && c ≤ 1
  | _ => true

/-- The address operand of a row is aligned (20_memory.md R41). -/
def addressAligned (i : Instr) (p : Port) : Bool :=
  match i with
  | .dapReadMem32 | .dapWriteMem32 | .sbaRead32 | .sbaWrite32 | .readMem32 | .writeMem32 | .readMemBlock
  | .writeMemBlock | .uploadCode => p.arg0.toNat % 4 == 0
  | .readMem16 | .writeMem16 => p.arg0.toNat % 2 == 0
  | .executeCode => p.arg1.toNat % 4 == 0
  | _ => true

/-- The rows that need the DM initialised, EXECUTE_PROGBUF apart (60_exceptions.md R167): it checks that after it
has popped its DIN words. -/
def needsInit : Instr → Bool
  | .halt | .resume | .reset | .isHalted | .sbaInit | .sbaRead32 | .sbaWrite32 | .sbaCheckErrors
  | .readMem8 | .readMem16 | .readMem32 | .writeMem8 | .writeMem16 | .writeMem32 | .readMemBlock | .writeMemBlock
  | .uploadCode | .executeCode | .trace
  | .readReg | .writeReg | .readAllRegs | .readPc | .writePc | .readCsr | .writeCsr | .step => true
  | _ => false

/-- The rows that need SBA initialised (60_exceptions.md R167). -/
def needsSba : Instr → Bool
  | .sbaRead32 | .sbaWrite32 | .sbaCheckErrors => true
  | _ => false

/-- The rows that need a halted hart, EXECUTE_PROGBUF apart (60_exceptions.md R167). -/
def needsHalted : Instr → Bool
  | .readReg | .writeReg | .readAllRegs | .readPc | .writePc | .readCsr | .writeCsr | .step => true
  | _ => false

/-- The initialisation a row needs is there. -/
def initialisedFor (i : Instr) (x : Session) : Bool :=
  (!needsInit i || x.dm.initialized) && (!needsSba i || x.dm.sbaInitialized)

/-- The host commands whose ARG0 names a hart, RESET apart (30_encoding.md R71). -/
def namesHart : Instr → Bool
  | .halt | .resume | .step | .isHalted | .readReg | .writeReg | .readAllRegs | .readPc | .writePc | .readCsr
  | .writeCsr | .executeProgbuf | .executeCode | .trace | .invalidateCache => true
  | _ => false

/-- The SBA commands, the MEM-AP commands and the memory commands (41_dap.md R111, R112; 43_sba.md; 44_ops.md sections
2 and 3). -/
def memoryRow : Instr → Bool
  | .sbaInit | .sbaRead32 | .sbaWrite32 | .sbaCheckErrors | .dapReadMem32 | .dapWriteMem32
  | .readMem8 | .readMem16 | .readMem32 | .writeMem8 | .writeMem16 | .writeMem32 | .readMemBlock | .writeMemBlock
  | .uploadCode => true
  | _ => false

/-- The rows that are words for a DM register: the register and the word, from 30_encoding.md R66 to R69 and 42_dm.md
R126; an `ebreak` goes to the second program-buffer word. -/
def dmWord : Instr → Option (DmReg × Nat)
  | .dmcSel h => some (.dmcontrol, 0x00000001 + h.val * 2 ^ 16)
  | .dmcHalt h => some (.dmcontrol, 0x80000001 + h.val * 2 ^ 16)
  | .dmcResume h => some (.dmcontrol, 0x40000001 + h.val * 2 ^ 16)
  | .dmcReset h hr => some (.dmcontrol, 0x00000003 + h.val * 2 ^ 16 + hr.toNat * 2 ^ 31)
  | .dmcUnreset h hr => some (.dmcontrol, 0x00000001 + h.val * 2 ^ 16 + hr.toNat * 2 ^ 31)
  | .cmdGprRead n => some (.command, 0x00221000 + n.toNat)
  | .cmdGprWrite n => some (.command, 0x00231000 + n.toNat)
  | .cmdPostexec => some (.command, 0x00040000)
  | .abstractcsClearCmderr => some (.abstractcs, 0x00000700)
  | .insnCsrr c => some (.progbuf0, 0x00002473 + c.toNat * 2 ^ 20)
  | .insnCsrw c => some (.progbuf0, 0x00041073 + c.toNat * 2 ^ 20)
  | .insnEbreak => some (.progbuf1, 0x00100073)
  | .sbcsCfg => some (.sbcs, 0x00147000)
  | _ => none

/-- The rows that are words for CTRL/STAT (30_encoding.md R65; 41_dap.md R109). -/
def ctrlStatWord : Instr → Option Word
  | .ctrlstatClear => some 0x00000000
  | .ctrlstatPwrupReq => some 0x50000000
  | .ctrlstatClearErrorsPowered => some 0x500000B2
  | .ctrlstatClearErrorsUnpowered => some 0x000000B2
  | _ => none

/-- The rows that are words of the activation handshake (42_dm.md R117). -/
def handshakeWord : Instr → Option Word
  | .dminitSeq1 => some 0x00000000
  | .dminitSeq2 => some 0x00000001
  | .dminitSeq3 => some 0x07FFFFC1
  | _ => none

/-- The error kinds in the order of their codes 0 to 15 (60_exceptions.md R162). -/
def statusOrder : List ErrorKind :=
  [.ok, .timeout, .fault, .protocol, .parity, .wait, .notConnected, .notInitialized, .notHalted, .alreadyHalted,
   .invalidParam, .invalidState, .alignment, .resourceBusy, .abstractCmd, .verify]

/-- The rows that are acknowledges (30_encoding.md R57). -/
def ackRow : Instr → Bool
  | .ackOk | .ackWait | .ackFault | .ackProtocolError _ => true
  | _ => false

/-- The commands that can end a mirror's validity (42_dm.md R140). -/
def losesMirror : Instr → Bool
  | .connect | .disconnect | .init | .halt | .resume | .step | .reset | .writeReg | .readPc | .writePc | .readCsr
  | .writeCsr | .executeProgbuf | .executeCode | .trace | .enableCache | .invalidateCache => true
  | _ => false

/-! ## Invariants (10_state.md R20) -/

/-- Rule R20, invariants 1 to 4, for one session, with the bounds of R14 and R16 and the port's BUSY. -/
structure SessionInv (x : Session) : Prop where
  /-- Invariant 1. -/
  offline : x.connected = false →
    x.wire.initialized = false ∧ x.wire.slot = none ∧ x.dap.powered = false ∧ x.dap.selValid = false
      ∧ x.dm.initialized = false ∧ x.dm.sbaInitialized = false
  /-- Invariant 2. -/
  sbaNeedsDm : x.dm.sbaInitialized = true → x.dm.initialized = true
  /-- Invariant 3. -/
  mirrorNeedsHalt : ∀ h, (x.hart h).cacheValid = true →
    (x.hart h).known = true ∧ (x.hart h).halted = true ∧ x.dm.cacheEnabled = true
  /-- Invariant 4. -/
  x0IsZero : ∀ h, (x.hart h).gpr[0] = 0
  /-- R14: at most ERR_DETAIL_MAX - 1 bytes. -/
  detailBound : x.errDetail.length ≤ Config.errDetailMax - 1
  /-- R16: a frequency of at least 1 kHz, and its divider. -/
  freqPositive : x.wire.freqKhz ≠ 0
  dividerOfFreq : x.wire.clkdiv = divider x.wire.freqKhz
  /-- R74: BUSY is 1 between steps only while a command holds. -/
  busyIffHold : x.port.busy = true ↔ x.hold ≠ .none
  /-- R91, R167: a CONNECT under way has found the session disconnected, every other held command has found it
  connected. -/
  holdConnected : match x.hold with
    | .none => True
    | .connect _ => x.connected = false
    | _ => x.connected = true

/-- The slot the session has in the tracker: the one of its connection, or the one its CONNECT under way got from
`Acquire` (40_wire.md R91, R92). -/
def Session.takenSlot (x : Session) : Option Slot :=
  match x.hold with
  | .connect y => some y
  | _ => x.wire.slot

/-- The sessions that exist, with their numbers: the one in focus if it lives, then the parked ones. -/
def State.sessions (s : State) : List (SessionId × Session) :=
  (if s.eng.ses.live then [(s.eng.self, s.eng.ses)] else []) ++ s.parked.map fun p => (p.id, p.ses)

/-- The invariant of the whole probe: every session that exists satisfies R20, session numbers are distinct and
below the next one, and a slot a session has taken is its own in the tracker (R21). -/
structure ProbeInv (s : State) : Prop where
  each : ∀ p ∈ s.sessions, SessionInv p.2
  distinct : (s.sessions.map Prod.fst).Nodup
  numbered : ∀ p ∈ s.sessions, p.1 < s.nextId
  owns : ∀ p ∈ s.sessions, ∀ x, p.2.takenSlot = some x → s.eng.tracker.ownerOf x = some p.1
  parkedLive : ∀ p ∈ s.parked, p.ses.live = true

end Sys2Proof.Machine
end

