-- ==== Sys2Proof/Certificates/Slice0/Obligations.lean ====
section
/-! DEFINITION. The statements for the provers. Each docstring names the rule it formalises. -/

open Sys2Proof Sys2Proof.Machine

/-! ## Encoding -/

/-- Decoding an encoded well-formed instruction gives it back, with every operand (30_encoding.md R55 to R71). -/
def Obligations.DecodeOfEncode : Prop :=
  ∀ (i : Instr) (rest : List Byte), i.wellFormed = true → decode i.space (encode i ++ rest) = some (i, rest)

/-- A decoded instruction is well-formed, belongs to the space it was read in, and encodes to the bytes read. -/
def Obligations.EncodeOfDecode : Prop :=
  ∀ (sp : Space) (bytes : List Byte) (i : Instr) (rest : List Byte), decode sp bytes = some (i, rest) →
    i.wellFormed = true ∧ i.space = sp ∧ encode i ++ rest = bytes

/-- Words written out from the spec decode to the instructions they stand for (30_encoding.md R56, R57, R64 to R71;
42_dm.md R117). -/
def Obligations.WrittenWordsDecode : Prop :=
  decode .request [0xA5] = some (.swdReqDpR0, [])
    ∧ decode .request [0xBB] = some (.swdReqApWC, [])
    ∧ decode .ack [0x05] = some (.ackProtocolError 5, [])
    ∧ decode .command [0x25] = some (.reset, [])
    ∧ decode .command [0x2F] = some (.reservedHostOpcode 0x2F, [])
    ∧ decode .dpSelect [0x11, 0xAD, 0x00, 0x00] = some (.selectWord 0xA 1, [])
    ∧ decode .dmControl [0x03, 0x00, 0x01, 0x80] = some (.dmcReset 1 true, [])
    ∧ decode .dmCommand [0x0E, 0x10, 0x23, 0x00] = some (.cmdGprWrite 14, [])
    ∧ decode .progbuf [0x73, 0x24, 0x00, 0x7B] = some (.insnCsrr 0x7B0, [])

/-- Every field of the request byte is where R55 puts it, the byte value is R55's formula, A2 and A3 of an AP access are
bits 2 and 3 of the AP offset, and the cycles of a request are the byte's bits, bit 0 first, and the turnaround. -/
def Obligations.RequestByteFields : Prop :=
  (∀ (ap rnw : Bool) (a : BitVec 4),
    (requestByte ap rnw a)[0] = true ∧ (requestByte ap rnw a)[1] = ap ∧ (requestByte ap rnw a)[2] = rnw
      ∧ (requestByte ap rnw a)[3] = a[2] ∧ (requestByte ap rnw a)[4] = a[3]
      ∧ (requestByte ap rnw a)[5] = (ap ^^ rnw ^^ a[2] ^^ a[3])
      ∧ (requestByte ap rnw a)[6] = false ∧ (requestByte ap rnw a)[7] = true
      ∧ (requestByte ap rnw a).toNat = 0x81 + 2 * ap.toNat + 4 * rnw.toNat + 8 * a[2].toNat + 16 * a[3].toNat
        + 32 * (ap ^^ rnw ^^ a[2] ^^ a[3]).toNat
      ∧ requestEvents ap rnw a = driven (bitsOf (requestByte ap rnw a)) ++ [WireEvent.release])
    ∧ ∀ reg : Byte, (apAddr reg)[2] = reg[2] ∧ (apAddr reg)[3] = reg[3]

/-- The words composed for SELECT and for the DM registers are those of R64 and R66 to R69, least significant byte
first. -/
def Obligations.ComposedWords : Prop :=
  (∀ apsel bank : BitVec 4,
      encode (.selectWord apsel bank)
        = wordBytes (BitVec.ofNat 32 (apsel.toNat * 2 ^ 12 + 0xD * 2 ^ 8 + bank.toNat * 2 ^ 4 + 1)))
    ∧ ∀ (i : Instr) (r : DmReg) (w : Nat), dmWord i = some (r, w) → encode i = wordBytes (BitVec.ofNat 32 w)

/-! ## The step -/

/-- A CMD write to a session that is not busy runs the instruction its byte decodes to, at the state with that session
in focus and CMD written (30_encoding.md R74). -/
def Obligations.StepRunsAWrittenCommand : Prop :=
  ∀ (s s' : State) (id : SessionId) (op : Byte) (rest : List Input) (i : Instr) (more : List Byte),
    s.inbox = .writeCmd id op :: rest → { s with inbox := rest }.focus id = some s' →
    s'.eng.ses.port.busy = false → decode .command [op] = some (i, more) →
    step s = exec i (s'.modifySes fun x => { x with port.cmd := op })

/-- A word presented to a session that is not busy runs the instruction it decodes to in its space; with a request byte
come the write data (the model's own input, log 14). -/
def Obligations.StepRunsAPresentedWord : Prop :=
  ∀ (s s' : State) (id : SessionId) (sp : Space) (w data : Word) (rest : List Input) (i : Instr) (more : List Byte),
    s.inbox = .issue id sp w data :: rest → { s with inbox := rest }.focus id = some s' →
    s'.eng.ses.port.busy = false → decode sp (wordBytes w) = some (i, more) →
    step s = exec i (if sp = .request then s'.modifySes (fun x => { x with txn.request.wdata := data }) else s')

/-- The host's accesses to the command port that run no instruction (30_encoding.md R70, R73): an ARG write writes that
register; a DIN write to a session that waits for no word appends the word, however many DIN holds (that DIN has no
bound is the model's choice, log 26); a read of ARG, RESULT_VALUE, RESULT_STATUS or BUSY returns the register
(60_exceptions.md R162 for the code), a read of DOUT returns its oldest word and takes it off, and of an empty DOUT
returns some word, which the spec does not say (a free value, log 13). A CMD write while BUSY is 1 and a TRACE_REPLY
write while no trace record awaits a reply have no effect but to be served; bringing a session into focus changes no
session and no slot (30_encoding.md R74; 60_exceptions.md R170). -/
def Obligations.HostPortAccesses : Prop :=
  (∀ (s s' : State) (id : SessionId) (k : Fin 4) (v : Word) (rest : List Input),
      s.inbox = .writeArg id k v :: rest → { s with inbox := rest }.focus id = some s' →
      (k = 0 → step s = .next (s'.modifySes fun x => { x with port.arg0 := v }))
      ∧ (k = 1 → step s = .next (s'.modifySes fun x => { x with port.arg1 := v }))
      ∧ (k = 2 → step s = .next (s'.modifySes fun x => { x with port.arg2 := v }))
      ∧ (k = 3 → step s = .next (s'.modifySes fun x => { x with port.arg3 := v })))
    ∧ (∀ (s s' : State) (id : SessionId) (w : Word) (rest : List Input),
      s.inbox = .writeDin id w :: rest → { s with inbox := rest }.focus id = some s' →
      (s'.eng.ses.hold = .none ∨ (∃ h m c n, s'.eng.ses.hold = .trace h m c n)
        ∨ ∃ x, s'.eng.ses.hold = .connect x) →
      step s = .next (s'.modifySes fun x => { x with port.din := x.port.din ++ [w] }))
    ∧ (∀ (s s' : State) (id : SessionId) (r : PortReg) (rest : List Input),
      s.inbox = .readPort id r :: rest → { s with inbox := rest }.focus id = some s' →
      (r = .arg 0 → step s = .next { s' with hostData := s'.eng.ses.port.arg0 })
      ∧ (r = .arg 1 → step s = .next { s' with hostData := s'.eng.ses.port.arg1 })
      ∧ (r = .arg 2 → step s = .next { s' with hostData := s'.eng.ses.port.arg2 })
      ∧ (r = .arg 3 → step s = .next { s' with hostData := s'.eng.ses.port.arg3 })
      ∧ (r = .resultValue → step s = .next { s' with hostData := s'.eng.ses.port.resultValue })
      ∧ (∀ n : Nat, r = .resultStatus → statusOrder[n]? = some s'.eng.ses.port.resultStatus →
        step s = .next { s' with hostData := BitVec.ofNat 32 n })
      ∧ (r = .busy → step s = .next { s' with hostData := if s'.eng.ses.port.busy then 1 else 0 })
      ∧ (∀ (w : Word) (ws : List Word), r = .dout → s'.eng.ses.port.dout = w :: ws →
        step s = .next { (s'.modifySes fun x => { x with port.dout := ws }) with hostData := w })
      ∧ (r = .dout → s'.eng.ses.port.dout = [] →
        ∃ v : Word, step s = .next { s' with hostData := v, eng.free := s'.eng.free + 1 }))
    ∧ (∀ (s s' : State) (id : SessionId) (op : Byte) (rest : List Input),
      s.inbox = .writeCmd id op :: rest → { s with inbox := rest }.focus id = some s' →
      s'.eng.ses.port.busy = true → step s = .next s')
    ∧ (∀ (s s' : State) (id : SessionId) (b : Bool) (rest : List Input),
      s.inbox = .writeTraceReply id b :: rest → { s with inbox := rest }.focus id = some s' →
      (∀ h m c n, s'.eng.ses.hold ≠ .trace h m c n) → step s = .next s')
    ∧ ∀ (s s' : State) (id : SessionId), ProbeInv s → s.focus id = some s' →
      s'.sessions.Perm s.sessions ∧ s'.eng.self = id ∧ s'.eng.tracker = s.eng.tracker
        ∧ s'.nextId = s.nextId ∧ s'.inbox = s.inbox

/-! ## Reset, creation and destruction -/

/-- 70_reset_and_hazards.md R177: at power-on every slot is free and no session exists. -/
def Obligations.ResetOfTheProbe : Prop :=
  (∀ x : Slot, State.reset.eng.tracker.ownerOf x = none) ∧ State.reset.eng.tracker.activeSessions = 0
    ∧ State.reset.sessions = []

/-- 70_reset_and_hazards.md R178: every field of a created session, no wire cycle, the tracker untouched, the other
sessions as they were; a frequency of 0 is refused; the default configuration asks for 1000 kHz and no caching. That
creation succeeds whatever the pin numbers of the configuration is the model's choice (log 10); that it succeeds however
many sessions exist, and that the new session's number is `nextId`, is the model's choice too (log 18). -/
def Obligations.SessionCreation : Prop :=
  (Cfg.default.freqKhz = 1000 ∧ Cfg.default.enableCache = false)
  ∧ ∀ (s : State) (cfg : Cfg) (rest : List Input), s.inbox = .create cfg :: rest →
    (cfg.freqKhz = 0 → step s = .next { s with inbox := rest })
    ∧ (cfg.freqKhz ≠ 0 → ∃ t, step s = .next t
      ∧ t.sessions = (s.nextId, t.eng.ses) :: s.sessions ∧ t.eng.tracker = s.eng.tracker ∧ t.inbox = rest
      ∧ t.eng.ses.connected = false ∧ t.eng.ses.cfg = cfg ∧ t.eng.ses.errDetail = []
      ∧ t.eng.ses.wire.freqKhz = cfg.freqKhz ∧ t.eng.ses.wire.clkdiv = divider cfg.freqKhz
      ∧ t.eng.ses.wire.initialized = false ∧ t.eng.ses.wire.slot = none
      ∧ t.eng.ses.dap.powered = false ∧ t.eng.ses.dap.selValid = false ∧ t.eng.ses.dap.currentApsel = 0
      ∧ t.eng.ses.dap.currentBank = 0 ∧ t.eng.ses.dap.ctrlsel = 0 ∧ t.eng.ses.dap.retryCount = 5
      ∧ t.eng.ses.dap.lastAck = 0
      ∧ t.eng.ses.dm.initialized = false ∧ t.eng.ses.dm.sbaInitialized = false
      ∧ t.eng.ses.dm.cacheEnabled = cfg.enableCache
      ∧ (∀ h, (t.eng.ses.hart h).known = false ∧ (t.eng.ses.hart h).halted = false
        ∧ (t.eng.ses.hart h).cacheValid = false ∧ ∀ n : Fin 32, (t.eng.ses.hart h).gpr[n] = 0)
      ∧ t.eng.ses.port.busy = false ∧ t.eng.ses.port.resultValue = 0 ∧ t.eng.ses.port.resultStatus = .ok
      ∧ t.eng.ses.port.arg0 = 0 ∧ t.eng.ses.port.arg1 = 0 ∧ t.eng.ses.port.arg2 = 0 ∧ t.eng.ses.port.arg3 = 0
      ∧ t.eng.ses.port.din = [] ∧ t.eng.ses.port.dout = [] ∧ t.eng.ses.record = [])

/-- 70_reset_and_hazards.md R179: a destroyed session's slot returns to the tracker, the session ceases to exist and
accepts nothing any more, and the other sessions stay. That this holds of a session whose command holds, and of one
whose CONNECT is under way, too, is the model's choice (log 21). -/
def Obligations.DestructionReturnsTheSlot : Prop :=
  ∀ (s s' : State) (id : SessionId) (rest : List Input), ProbeInv s →
    s.inbox = .destroy id :: rest → { s with inbox := rest }.focus id = some s' →
    ∃ t, step s = .next t ∧ s'.sessions = (id, s'.eng.ses) :: t.sessions ∧ t.focus id = none
      ∧ t.eng.tracker = (match s'.eng.ses.takenSlot with
          | some x => s'.eng.tracker.setOwner x none
          | none => s'.eng.tracker)
      ∧ ∀ (op : Byte) (more : List Input),
        step { t with inbox := .writeCmd id op :: more } = .next { t with inbox := more }

/-! ## Invariants -/

/-- The invariant of 10_state.md R20 and R21 holds at reset. -/
def Obligations.ResetSatisfiesTheInvariant : Prop := ProbeInv State.reset

/-- Every step keeps the invariant of 10_state.md R20 and R21. -/
def Obligations.StepKeepsTheInvariant : Prop := ∀ s t : State, ProbeInv s → step s = .next t → ProbeInv t

/-- What no instruction changes, whatever happens on the wire: the other sessions, the numbers, the queue of host
actions, the configuration (10_state.md R15), `retry_count` (R17), the ARG registers, CMD and TRACE_REPLY (30_encoding.md
R70). That no instruction changes `pio_program_offset` is the model's choice (log 9): 10_state.md R16 lets it have any
value. -/
def Obligations.ExecKeepsTheRest : Prop :=
  ∀ (i : Instr) (s t : State), exec i s = .next t →
    t.parked = s.parked ∧ t.nextId = s.nextId ∧ t.inbox = s.inbox ∧ t.hostData = s.hostData
    ∧ t.eng.self = s.eng.self ∧ t.eng.ses.live = s.eng.ses.live ∧ t.eng.ses.cfg = s.eng.ses.cfg
    ∧ t.eng.ses.dap.retryCount = s.eng.ses.dap.retryCount
    ∧ t.eng.ses.wire.pioProgramOffset = s.eng.ses.wire.pioProgramOffset
    ∧ t.eng.ses.port.cmd = s.eng.ses.port.cmd ∧ t.eng.ses.port.arg0 = s.eng.ses.port.arg0
    ∧ t.eng.ses.port.arg1 = s.eng.ses.port.arg1 ∧ t.eng.ses.port.arg2 = s.eng.ses.port.arg2
    ∧ t.eng.ses.port.arg3 = s.eng.ses.port.arg3 ∧ t.eng.ses.port.traceReply = s.eng.ses.port.traceReply

/-- Whatever happens on the wire, a field changes only by the commands its table names (10_state.md R14, R16 to R18,
R21). The SELECT cache becomes invalid only by CONNECT, by DISCONNECT, or with a line reset or a SELECT write in the
command's timeline, and it holds what it held before or what a SELECT write acknowledged in that timeline wrote (41_dap.md
R102); an acknowledge row goes on with a SELECT write sent before it (logs 14 and 16). A mirror becomes valid only by
READ_ALL_REGS that succeeds and by TRACE, with caching on, and loses its validity only by the commands of 42_dm.md R140.
The error detail changes only at a failing end (R14); that AlreadyHalted is none is DEDUCED (log 5). -/
def Obligations.FieldsChangeOnlyByTheirCommands : Prop :=
  ∀ (i : Instr) (s t : State), exec i s = .next t →
    (i ≠ .connect → i ≠ .disconnect → t.eng.ses.connected = s.eng.ses.connected ∧ t.eng.tracker = s.eng.tracker
      ∧ t.eng.ses.wire.slot = s.eng.ses.wire.slot ∧ t.eng.ses.wire.initialized = s.eng.ses.wire.initialized)
    ∧ (i ≠ .setFrequency → t.eng.ses.wire.freqKhz = s.eng.ses.wire.freqKhz)
    ∧ (i ≠ .setFrequency → i ≠ .connect → t.eng.ses.wire.clkdiv = s.eng.ses.wire.clkdiv)
    ∧ (i ≠ .connect → i ≠ .disconnect → i ≠ .powerUp → t.eng.ses.dap.powered = s.eng.ses.dap.powered)
    ∧ (i ≠ .connect → i ≠ .disconnect → i ≠ .init → t.eng.ses.dm.initialized = s.eng.ses.dm.initialized)
    ∧ (i ≠ .connect → i ≠ .disconnect → i ≠ .init → i ≠ .sbaInit →
      t.eng.ses.dm.sbaInitialized = s.eng.ses.dm.sbaInitialized)
    ∧ (i ≠ .enableCache → t.eng.ses.dm.cacheEnabled = s.eng.ses.dm.cacheEnabled)
    ∧ (i ≠ .connect → i ≠ .disconnect → s.eng.ses.dap.selValid = true → t.eng.ses.dap.selValid = false →
      lineResetEvents <:+: t.eng.ses.record.reverse ∨ requestEvents false false 0x8 <:+: t.eng.ses.record.reverse
        ∨ (ackRow i = true ∧ s.eng.ses.txn.request.apndp = false ∧ s.eng.ses.txn.request.rnw = false
          ∧ s.eng.ses.txn.request.addr = 0x8))
    ∧ (t.eng.ses.dap.selValid = true →
      (s.eng.ses.dap.selValid = true ∧ t.eng.ses.dap.currentApsel = s.eng.ses.dap.currentApsel
        ∧ t.eng.ses.dap.currentBank = s.eng.ses.dap.currentBank ∧ t.eng.ses.dap.ctrlsel = s.eng.ses.dap.ctrlsel)
      ∨ (t.eng.ses.dap.ctrlsel = 1
        ∧ okWriteEvents false 0x8 (selectWord t.eng.ses.dap.currentApsel t.eng.ses.dap.currentBank 1)
          <:+: t.eng.ses.record.reverse))
    ∧ (∀ h : HartId, (t.eng.ses.hart h).cacheValid = true → (s.eng.ses.hart h).cacheValid = true
      ∨ (s.eng.ses.dm.cacheEnabled = true ∧ names s.eng.ses.port.arg0 h
        ∧ (i = .trace ∨ (i = .readAllRegs ∧ t.eng.ses.port.resultStatus = .ok))))
    ∧ (∀ h : HartId, SessionInv s.eng.ses → losesMirror i = false → (s.eng.ses.hart h).cacheValid = true →
      (t.eng.ses.hart h).cacheValid = true)
    ∧ (t.eng.ses.port.busy = true ∨ t.eng.ses.port.resultStatus = .ok ∨ t.eng.ses.port.resultStatus = .alreadyHalted →
      t.eng.ses.errDetail = s.eng.ses.errDetail)

/-- 10_state.md R19: a command that names hart h, RESET apart, leaves the other hart's state alone; 43_sba.md R145: the
mirror and the halt state are unaffected by the SBA commands, and by the other memory commands alike. Both whatever
happens on the wire. -/
def Obligations.HartStateIsIsolated : Prop :=
  (∀ (i : Instr) (s t : State) (h g : HartId), namesHart i = true → names s.eng.ses.port.arg0 h → g ≠ h →
      exec i s = .next t → t.eng.ses.hart g = s.eng.ses.hart g)
    ∧ ∀ (i : Instr) (s t : State), memoryRow i = true → exec i s = .next t →
      t.eng.ses.harts = s.eng.ses.harts

/-- 10_state.md R20, invariant 5: while not connected only CONNECT makes wire cycles. -/
def Obligations.NoCycleUnlessConnected : Prop :=
  ∀ (i : Instr) (s t : State), i ≠ .connect → s.eng.ses.connected = false → exec i s = .next t →
    t.eng.ses.record = [] ∧ t.eng.ses.swdio = s.eng.ses.swdio ∧ t.eng.ses.txn = s.eng.ses.txn
      ∧ t.eng.ses.dap.lastAck = s.eng.ses.dap.lastAck

/-- Every instruction answers a next state; there it has ended, with BUSY 0 and DIN empty, or it holds for the host,
with BUSY 1 (30_encoding.md R74; 60_exceptions.md R169). -/
def Obligations.EveryInstructionAnswers : Prop :=
  ∀ (i : Instr) (s : State), ∃ t, exec i s = .next t
    ∧ ((t.eng.ses.port.busy = false ∧ t.eng.ses.hold = .none ∧ t.eng.ses.port.din = [])
      ∨ (t.eng.ses.port.busy = true ∧ t.eng.ses.hold ≠ .none))

/-! ## The order of checks (60_exceptions.md R167) -/

/-- First `NotConnected`: no other effect but the results and the error detail. That the request, acknowledge and word
rows need a connection too is the model's choice (log 14). -/
def Obligations.NotConnectedComesFirst : Prop :=
  ∀ (i : Instr) (s : State), offlineRow i = false → s.online = false →
    exec i s = .next (s.raised .notConnected 0 [])

/-- Then `InvalidParam`, for an operand out of range, a reserved opcode (30_encoding.md R75) or a request that is never
emitted (41_dap.md R99); that a presented request of that kind raises it is the model's choice (log 15). That a reserved
opcode empties DIN and DOUT as every command that raises does is DEDUCED (log 28). -/
def Obligations.InvalidParamComesSecond : Prop :=
  ∀ (i : Instr) (s : State), (offlineRow i = true ∨ s.online = true) → paramsOk i s.eng.ses.port = false →
    exec i s = .next (s.raised .invalidParam 0 [])

/-- Then `Alignment`, before any wire activity (20_memory.md R41); then `NotInitialized`; then `NotHalted`, for a hart
known to run without any wire activity, and for an unknown one when the query of DMSTATUS shows that it runs (42_dm.md
R119, R120). EXECUTE_PROGBUF makes the last two checks once its DIN words are popped (42_dm.md R137). -/
def Obligations.LaterChecksFollowInOrder : Prop :=
  ∀ (i : Instr) (s : State) (evs : List WireEvent) (rest : List Bool), s.online = true →
    paramsOk i s.eng.ses.port = true →
    (addressAligned i s.eng.ses.port = false → exec i s = .next (s.raised .alignment 0 []))
    ∧ (addressAligned i s.eng.ses.port = true →
      (initialisedFor i s.eng.ses = false → exec i s = .next (s.raised .notInitialized 0 []))
      ∧ ∀ h : HartId, initialisedFor i s.eng.ses = true → needsHalted i = true → names s.eng.ses.port.arg0 h →
        ((s.eng.ses.hart h).known = true → (s.eng.ses.hart h).halted = false →
          exec i s = .next (s.raised .notHalted 0 []))
        ∧ ((s.eng.ses.hart h).known = false → s.eng.ses.selectHit 0xA 0 = true →
          s.hears (selectHartScript h ++ dmReadScript .dmstatus fun v => v[9] == false) evs rest →
          completes i s
            ((s.withHart h fun x => { x with known := true, halted := false, cacheValid := false }).raised .notHalted 0
              []) evs rest))
    ∧ ∀ (h : HartId) (ws more l : List Word), i = .executeProgbuf → names s.eng.ses.port.arg0 h →
      s.eng.ses.port.din = ws ++ more → s.eng.ses.port.arg1 = BitVec.ofNat 32 ws.length → programOf ws = some l →
      (s.eng.ses.dm.initialized = false → exec i s = .next (s.raised .notInitialized 0 []))
      ∧ (s.eng.ses.dm.initialized = true → (s.eng.ses.hart h).known = true → (s.eng.ses.hart h).halted = false →
        exec i s = .next (s.raised .notHalted 0 []))
      ∧ (s.eng.ses.dm.initialized = true → (s.eng.ses.hart h).known = false → s.eng.ses.selectHit 0xA 0 = true →
        s.hears (selectHartScript h ++ dmReadScript .dmstatus fun v => v[9] == false) evs rest →
        completes i s
          ((s.withHart h fun x => { x with known := true, halted := false, cacheValid := false }).raised .notHalted 0 [])
          evs rest)

/-! ## Transactions -/

/-- A read request answered OK after at most `retry_count` WAITs returns the data, bit 0 first, and makes exactly the
cycles of 40_wire.md R82 (and 41_dap.md R96 for the WAITs). That a request is presented by itself is the model's choice
(log 14). -/
def Obligations.OkReadRequest : Prop :=
  ∀ (i : Instr) (s : State) (ap : Bool) (a : BitVec 4) (d : Word) (evs : List WireEvent) (rest : List Bool),
    requestRow i = some (ap, true, a) → s.online = true → s.hears [reads ap a d] evs rest →
    completes i s (s.returned d []) evs rest

/-- A write request acknowledged OK drives the write data with its parity (40_wire.md R82), the 32 bits of the word, bit 0
first, and a bit that is 1 exactly when an odd number of them is 1 (00_scope.md R8; 30_encoding.md R58); the raw SELECT
write invalidates the SELECT cache (10_state.md R17). That a request is presented by itself, an AP write with no flush after
it, and what the SELECT write does to the cache then, is the model's choice (log 14). -/
def Obligations.OkWriteRequest : Prop :=
  (∀ d : Word, bitsOf d = List.ofFn (fun k : Fin 32 => d[k.val])
    ∧ (xorReduce d = true ↔ (List.ofFn fun k : Fin 32 => d[k.val]).count true % 2 = 1))
  ∧ ∀ (i : Instr) (s : State) (ap : Bool) (a : BitVec 4) (evs : List WireEvent) (rest : List Bool),
    requestRow i = some (ap, false, a) → s.online = true →
    s.hears [writes ap a s.eng.ses.txn.request.wdata] evs rest →
    completes i s ((s.issuing i).returned 0 []) evs rest

/-- 41_dap.md R96: WAIT on the first attempt and on all `retry_count` retries ends with `Timeout`, with a delay between
two attempts and none after the last. That a request is presented by itself is the model's choice (log 14). -/
def Obligations.WaitExhaustionTimesOut : Prop :=
  ∀ (i : Instr) (s : State) (ap rnw : Bool) (a : BitVec 4) (rest : List Bool),
    requestRow i = some (ap, rnw, a) → s.online = true →
    s.eng.ses.swdio = (List.replicate (s.eng.ses.dap.retryCount.toNat + 1) waitBits).flatten ++ rest →
    ∃ fl, exec i s = .next (((s.issuing i).raised .timeout 0 []).onWire rest
      ((List.replicate s.eng.ses.dap.retryCount.toNat (waitEvents ap rnw a)).flatten
        ++ noDataEvents ap rnw a waitBits).reverse fl 2)

/-- 40_wire.md R82, R83 and 41_dap.md R96: a FAULT is raised as `Fault`, wrong parity (an odd number of ones among the
33 bits of the data phase, 30_encoding.md R58) as `Parity` after the trailing turnaround and with no line reset, and any other acknowledge as `Protocol` after a line reset. That a request is
presented by itself is the model's choice (log 14). -/
def Obligations.BadAnswersEndTheCommand : Prop :=
  ∀ (i : Instr) (s : State) (ap rnw : Bool) (a : BitVec 4) (rest : List Bool),
    requestRow i = some (ap, rnw, a) → s.online = true →
    (s.eng.ses.swdio = faultBits ++ rest →
      ∃ fl, exec i s = .next (((s.issuing i).raised .fault 0 []).onWire rest
        (noDataEvents ap rnw a faultBits).reverse fl 4))
    ∧ (∀ data : List Bool, rnw = true → data.length = 33 → data.count true % 2 = 1 →
      s.eng.ses.swdio = [true, false, false] ++ data ++ rest →
      ∃ fl, exec i s = .next (((s.issuing i).raised .parity 0 []).onWire rest
        (requestEvents ap true a ++ sampled ([true, false, false] ++ data) ++ [WireEvent.release]).reverse fl 1))
    ∧ (∀ a0 a1 a2 : Bool, [a0, a1, a2] ≠ okWriteBits → [a0, a1, a2] ≠ waitBits → [a0, a1, a2] ≠ faultBits →
      s.eng.ses.swdio = [a0, a1, a2] ++ rest →
      ∃ fl, exec i s = .next ((s.unselected.raised .protocol 0 []).onWire rest
        (noDataEvents ap rnw a [a0, a1, a2] ++ lineResetEvents).reverse fl (ackOfBits a0 a1 a2)))

/-- 30_encoding.md R57, R77 and 40_wire.md R82 from the acknowledge on: what each acknowledge row does to the
transaction in flight (the model's own form of these rows, log 16). Where that is a SELECT write, the row finds the SELECT
cache invalid (the model's choice, logs 14 and 16). -/
def Obligations.AcknowledgeRows : Prop :=
  ∀ (s : State) (q : Request) (n : Nat) (rest : List Bool), s.online = true →
    s.eng.ses.txn = { request := q, retriesLeft := n } →
    (∀ d : Word, q.rnw = true → s.eng.ses.swdio = bitsOf d ++ [xorReduce d] ++ rest →
      ∃ fl, exec .ackOk s = .next ((s.returned d []).onWire rest
        (sampled (okReadBits d) ++ [WireEvent.release]).reverse fl 1))
    ∧ (q.rnw = false →
      ∃ fl, exec .ackOk s = .next ((s.answering.returned 0 []).onWire s.eng.ses.swdio
        (sampled okWriteBits ++ [WireEvent.release] ++ driven (bitsOf q.wdata ++ [xorReduce q.wdata])).reverse fl 1))
    ∧ (n = 0 →
      ∃ fl, exec .ackWait s = .next ((s.answering.raised .timeout 0 []).onWire s.eng.ses.swdio
        (sampled waitBits ++ [WireEvent.release]).reverse fl 2))
    ∧ (∀ (d : Word) (evs : List WireEvent), 0 < n → q.rnw = true →
      reads q.apndp q.addr d (n - 1) s.eng.ses.swdio evs rest →
      ∃ fl, exec .ackWait s = .next ((s.returned d []).onWire rest
        (sampled waitBits ++ [WireEvent.release, WireEvent.sleep 100] ++ evs).reverse fl 1))
    ∧ (∀ evs : List WireEvent, 0 < n → q.rnw = false →
      writes q.apndp q.addr q.wdata (n - 1) s.eng.ses.swdio evs rest →
      ∃ fl, exec .ackWait s = .next ((s.answering.returned 0 []).onWire rest
        (sampled waitBits ++ [WireEvent.release, WireEvent.sleep 100] ++ evs).reverse fl 1))
    ∧ (∃ fl, exec .ackFault s = .next ((s.answering.raised .fault 0 []).onWire s.eng.ses.swdio
        (sampled faultBits ++ [WireEvent.release]).reverse fl 4))
    ∧ (∀ v : BitVec 3, malformedAck v = true →
      ∃ fl, exec (.ackProtocolError v) s = .next ((s.unselected.raised .protocol 0 []).onWire s.eng.ses.swdio
        (sampled [v[0], v[1], v[2]] ++ [WireEvent.release] ++ lineResetEvents).reverse fl v))

/-- 30_encoding.md R77: how many cycles a request makes, k WAITs before its last answer: 13 for each WAIT, then 46 for a
transaction with data (a read with wrong parity too), 13 for a FAULT, 13 and the line reset's 64 for any other
acknowledge, 13 for a WAIT that finds no retry left. That a request is presented by itself is the model's choice
(log 14). -/
def Obligations.TransactionCycleCounts : Prop :=
  ∀ (i : Instr) (s : State) (ap rnw : Bool) (a : BitVec 4) (k : Nat) (bits : List Bool),
    requestRow i = some (ap, rnw, a) → s.online = true → k ≤ s.eng.ses.dap.retryCount.toNat →
    s.eng.ses.swdio = (List.replicate k waitBits).flatten ++ bits →
    (∀ data : List Bool, rnw = true → data.length = 33 → okWriteBits ++ data <+: bits →
      ∃ t, exec i s = .next t ∧ t.cycles = 13 * k + 46)
    ∧ (rnw = false → okWriteBits <+: bits → ∃ t, exec i s = .next t ∧ t.cycles = 13 * k + 46)
    ∧ (faultBits <+: bits → ∃ t, exec i s = .next t ∧ t.cycles = 13 * k + 13)
    ∧ (∀ a0 a1 a2 : Bool, [a0, a1, a2] ≠ okWriteBits → [a0, a1, a2] ≠ waitBits → [a0, a1, a2] ≠ faultBits →
      [a0, a1, a2] <+: bits → ∃ t, exec i s = .next t ∧ t.cycles = 13 * k + 13 + 64)
    ∧ (k = s.eng.ses.dap.retryCount.toNat → waitBits <+: bits →
      ∃ t, exec i s = .next t ∧ t.cycles = 13 * (k + 1))

/-! ## Wire Engine commands -/

/-- 40_wire.md R84 to R86: LINE_RESET drives 56 ones and 8 zeros and invalidates the SELECT cache; SEND_IDLE_CLOCKS
drives n zeros; while disconnected both raise `NotConnected` with no cycle. -/
def Obligations.LineSequences : Prop :=
  ∀ s : State,
    (s.online = true →
      completes .lineReset s (s.unselected.returned 0 []) lineResetEvents s.eng.ses.swdio
        ∧ completes .sendIdleClocks s (s.returned 0 [])
          (driven (List.replicate s.eng.ses.port.arg0.toNat false)) s.eng.ses.swdio)
    ∧ (s.online = false →
      exec .lineReset s = .next (s.raised .notConnected 0 [])
        ∧ exec .sendIdleClocks s = .next (s.raised .notConnected 0 []))

/-- The commands that only look at or switch a belief, in every state: IS_CONNECTED (R95), GET_FREQUENCY (R90),
IS_POWERED (R108), IS_INITIALIZED (R118), ENABLE_CACHE (R138), INVALIDATE_CACHE (R139); the last two refuse an operand
above 1. -/
def Obligations.CommandsWithoutWire : Prop :=
  ∀ s : State,
    exec .isConnected s = .next (s.returned (if s.eng.ses.connected then 1 else 0) [])
    ∧ exec .getFrequency s = .next (s.returned s.eng.ses.wire.freqKhz [])
    ∧ exec .isPowered s = .next (s.returned (if s.eng.ses.dap.powered then 1 else 0) [])
    ∧ exec .isInitialized s = .next (s.returned (if s.eng.ses.dm.initialized then 1 else 0) [])
    ∧ (s.eng.ses.port.arg0 = 1 →
      exec .enableCache s = .next ((s.modifySes fun x => { x with dm.cacheEnabled := true }).returned 0 []))
    ∧ (s.eng.ses.port.arg0 = 0 →
      exec .enableCache s = .next ((s.modifySes fun x =>
        { x with
          dm.cacheEnabled := false, harts := x.harts.map fun y => { y with cacheValid := false } }).returned 0 []))
    ∧ (∀ h : HartId, names s.eng.ses.port.arg0 h →
      exec .invalidateCache s = .next ((s.withHart h fun x => { x with cacheValid := false }).returned 0 []))
    ∧ (1 < s.eng.ses.port.arg0.toNat →
      exec .enableCache s = .next (s.raised .invalidParam 0 [])
        ∧ exec .invalidateCache s = .next (s.raised .invalidParam 0 []))

/-- RESOURCE_USAGE (44_ops.md R160) and GET_ERROR_DETAIL (R161), in every state; the detail is at most 127 bytes long in a
session that satisfies the invariant. -/
def Obligations.ResourceUsageAndErrorDetail : Prop :=
  ∀ s : State,
    (∃ w0 w1 : Word,
      exec .resourceUsage s
        = .next (s.returned (BitVec.ofNat 32 (s.eng.tracker.owner.toList.countP Option.isSome)) [w0, w1])
      ∧ (∀ m : Fin 4, w0[m.val] = (s.eng.tracker.ownerOf ⟨0, m⟩).isSome
        ∧ w1[m.val] = (s.eng.tracker.ownerOf ⟨1, m⟩).isSome) ∧ w0.toNat < 16 ∧ w1.toNat < 16)
    ∧ (∃ ws : List Word,
      exec .getErrorDetail s = .next (s.returned (BitVec.ofNat 32 s.eng.ses.errDetail.length) ws)
      ∧ ws.length = (s.eng.ses.errDetail.length + 3) / 4
      ∧ ∀ i, i < 4 * ws.length →
        (ws.getD (i / 4) 0).extractLsb' (8 * (i % 4)) 8 = s.eng.ses.errDetail.getD i 0)
    ∧ (SessionInv s.eng.ses → s.eng.ses.errDetail.length ≤ 127)

/-- SET_FREQUENCY (40_wire.md R89) writes the frequency and its divider, and refuses 0; the divider is R88's: the least
q with q·f ≥ SYS_KHZ, the least d with 4·d ≥ q + 3, clamped to 1 and 65535. -/
def Obligations.SetFrequencySetsTheDivider : Prop :=
  (∀ s : State, s.eng.ses.port.arg0 ≠ 0 →
      exec .setFrequency s = .next ((s.modifySes fun x =>
        { x with
          wire.freqKhz := s.eng.ses.port.arg0
          wire.clkdiv := BitVec.ofNat 16 (dividerAt Config.sysKhz s.eng.ses.port.arg0.toNat) }).returned 0 []))
    ∧ (∀ s : State, s.eng.ses.port.arg0 = 0 → exec .setFrequency s = .next (s.raised .invalidParam 0 []))
    ∧ ∀ sys f : Nat, 1 ≤ f → ∃ q d : Nat,
      sys ≤ q * f ∧ (∀ q', sys ≤ q' * f → q ≤ q') ∧ q + 3 ≤ 4 * d ∧ (∀ d', q + 3 ≤ 4 * d' → d ≤ d')
      ∧ dividerAt sys f = min 65535 (max 1 d)

/-- 40_wire.md R92: `Acquire` takes the first free slot, or the configured one if it is free, gives it to this session
alone of all slots, and raises `ResourceBusy` when none is to be had. -/
def Obligations.AcquireTakesTheFirstFreeSlot : Prop :=
  (∀ (c : Option Slot) (e : Engine),
      acquire c e = match e.tracker.pick c with
        | some x => .ok x { e with tracker := e.tracker.setOwner x (some e.self) }
        | none => .error ⟨.resourceBusy, 0⟩ e)
  ∧ (∀ (t : Tracker) (x y : Slot) (o : Option SessionId),
      (t.setOwner x o).ownerOf y = if y = x then o else t.ownerOf y)
  ∧ ∀ t : Tracker,
    (∀ x : Slot, t.pick none = some x ↔
      t.ownerOf x = none ∧ ∀ y : Slot, 4 * y.block.val + y.sm.val < 4 * x.block.val + x.sm.val → t.ownerOf y ≠ none)
    ∧ (t.pick none = none ↔ ∀ x : Slot, t.ownerOf x ≠ none)
    ∧ ∀ x : Slot, t.pick (some x) = if t.ownerOf x = none then some x else none

/-- CONNECT succeeds (40_wire.md R91): the activation sequence of 30_encoding.md R60 (its selection alert is PRESUMED,
log 7), an IDCODE with a designer and power-up (bit places PRESUMED, log 8) and initialisation answered; the session
holds the slot, is connected, powered and initialised, with SBA if the target has it, and the result is the IDCODE. -/
def Obligations.ConnectSucceeds : Prop :=
  ∀ (s : State) (x : Slot) (sba : Bool) (id : Word) (evs : List WireEvent) (rest : List Bool), s.online = false →
    s.eng.tracker.pick s.eng.ses.cfg.slot = some x → id.extractLsb' 1 11 ≠ 0 →
    s.hears (connectScript sba id) evs rest → completes .connect s ((s.joined x sba).returned id []) evs rest

/-- DISCONNECT (40_wire.md R94), and the CONNECTs and DISCONNECTs that make no wire cycle: of a session that is
connected or not, and with no slot to be had (R91, R92). -/
def Obligations.DisconnectAndConnectWithoutWire : Prop :=
  ∀ s : State,
    (s.online = true → exec .disconnect s = .next (s.left.returned 0 []))
    ∧ (s.online = false → exec .disconnect s = .next (s.returned 0 []))
    ∧ (s.online = true → exec .connect s = .next (s.returned 0 []))
    ∧ (s.online = false → s.eng.tracker.pick s.eng.ses.cfg.slot = none →
      exec .connect s = .next (s.raised .resourceBusy 0 []))

/-- A CONNECT that fails, however it fails, gives its slot back and leaves the session disconnected (40_wire.md R91,
R93), and until then the slot is taken for every other session (20_memory.md R49; 40_wire.md R92). A CONNECT that has
come as far as `Acquire` when the next action is served has changed the tracker and nothing else of the session but its
port; no session's `Acquire` gets its slot; its rest returns the slot when it fails; and the two parts with nothing
between them are the CONNECT of one CMD write. That an action of the queue ends the first part and another one begins
the second is the model's representation of that order (log 1). -/
def Obligations.FailedConnectUnwinds : Prop :=
  (∀ s t : State, SessionInv s.eng.ses → s.online = false → exec .connect s = .next t →
    t.eng.ses.port.resultStatus ≠ .ok →
    t.eng.tracker = s.eng.tracker ∧ t.eng.ses.unwound ∧ t.eng.ses.port.resultValue = 0)
  ∧ (∀ (s s' : State) (id : SessionId) (rest : List Input),
    s.inbox = .startConnect id :: rest → { s with inbox := rest }.focus id = some s' →
    (s'.eng.ses.port.busy = true → step s = .next s')
    ∧ (s'.eng.ses.port.busy = false →
      (s'.online = true → step s = .next (s'.commanded.returned 0 []))
      ∧ (s'.online = false → s'.eng.tracker.pick s'.eng.ses.cfg.slot = none →
        step s = .next (s'.commanded.raised .resourceBusy 0 []))
      ∧ (∀ x : Slot, s'.online = false → s'.eng.tracker.pick s'.eng.ses.cfg.slot = some x →
        step s = .next
          { s'.commanded.holding (.connect x) [] with eng.tracker := s'.eng.tracker.setOwner x (some id) })
      ∧ ∀ u : State, s'.eng.ses.live = true → step s = .next u →
        step { u with inbox := .goOn id :: rest } = step { s with inbox := .writeCmd id 0x01 :: rest }))
  ∧ (∀ (s s' : State) (id : SessionId) (rest : List Input),
    s.inbox = .goOn id :: rest → { s with inbox := rest }.focus id = some s' →
    ((∀ x, s'.eng.ses.hold ≠ .connect x) → step s = .next s')
    ∧ ∀ (x : Slot) (t : State), s'.eng.ses.hold = .connect x → step s = .next t →
      t.eng.ses.port.resultStatus ≠ .ok →
      t.eng.tracker = s'.eng.tracker.setOwner x none ∧ t.eng.ses.unwound ∧ t.eng.ses.port.resultValue = 0
        ∧ ∀ h, (t.eng.ses.hart h).known = false ∧ (t.eng.ses.hart h).halted = false
          ∧ (t.eng.ses.hart h).cacheValid = false)
  ∧ ∀ (s : State) (p : SessionId × Session) (x : Slot), ProbeInv s → p ∈ s.sessions → p.2.hold = .connect x →
    ∀ c : Option Slot, s.eng.tracker.pick c ≠ some x

/-! ## DAP Engine commands -/

/-- POWER_UP (41_dap.md R107) when both acknowledges, mask 0xA0000000 (10_state.md R25), show within ten reads, and when
they do not; CLEAR_ERRORS (R109). The bit places in CTRL/STAT are PRESUMED (log 8). -/
def Obligations.PowerUpAndClearErrors : Prop :=
  ∀ (s : State) (evs : List WireEvent) (rest : List Bool), s.online = true →
    (s.hears powerUpScript evs rest →
      completes .powerUp s ((s.modifySes fun x => { x with dap.powered := true }).returned 0 []) evs rest)
    ∧ (s.hears powerUpTimeoutScript evs rest →
      completes .powerUp s ((s.modifySes fun x => { x with dap.powered := false }).raised .timeout 0 []) evs rest)
    ∧ (s.hears [writes false 0x4 (if s.eng.ses.dap.powered then 0x500000B2 else 0x000000B2)] evs rest →
      completes .clearErrors s (s.returned 0 []) evs rest)

/-- READ_DP (41_dap.md R100) and WRITE_DP (R101), which invalidates the SELECT cache when it writes SELECT. -/
def Obligations.DpAccess : Prop :=
  ∀ (s : State) (a : BitVec 4) (evs : List WireEvent) (rest : List Bool), s.online = true →
    s.eng.ses.port.arg0 = a.setWidth 32 →
    (∀ d : Word, (a = 0x0 ∨ a = 0x4 ∨ a = 0xC) → s.hears [reads false a d] evs rest →
      completes .readDp s (s.returned d []) evs rest)
    ∧ (a = 0x4 → s.hears [writes false a s.eng.ses.port.arg1] evs rest →
      completes .writeDp s (s.returned 0 []) evs rest)
    ∧ (a = 0x8 → s.hears [writes false a s.eng.ses.port.arg1] evs rest →
      completes .writeDp s (s.unselected.returned 0 []) evs rest)

/-- READ_AP (41_dap.md R105) and WRITE_AP (R106), the SELECT cache hitting or not (R102 to R104). -/
def Obligations.ApAccess : Prop :=
  ∀ (s : State) (apsel : BitVec 4) (reg : Byte) (evs : List WireEvent) (rest : List Bool), s.online = true →
    s.eng.ses.port.arg0 = apsel.setWidth 32 → s.eng.ses.port.arg1 = reg.setWidth 32 → reg.toNat % 4 = 0 →
    (∀ d : Word,
      s.hears (maybeSelect (s.eng.ses.selectHit apsel (reg.extractLsb' 4 4)) apsel (reg.extractLsb' 4 4)
        ++ apReadScript reg (· == d)) evs rest →
      completes .readAp s ((s.selected apsel (reg.extractLsb' 4 4)).returned d []) evs rest)
    ∧ (s.hears (maybeSelect (s.eng.ses.selectHit apsel (reg.extractLsb' 4 4)) apsel (reg.extractLsb' 4 4)
        ++ apWriteScript reg s.eng.ses.port.arg2) evs rest →
      completes .writeAp s ((s.selected apsel (reg.extractLsb' 4 4)).returned 0 []) evs rest)

/-- DAP_READ_MEM32 (41_dap.md R111) and DAP_WRITE_MEM32 (R112), the SELECT cache hitting or not. -/
def Obligations.MemApAccess : Prop :=
  ∀ (s : State) (evs : List WireEvent) (rest : List Bool), s.online = true → s.eng.ses.port.arg0.toNat % 4 = 0 →
    (∀ d : Word,
      s.hears (maybeSelect (s.eng.ses.selectHit 0xA 0) 0xA 0 ++ memApReadScript s.eng.ses.port.arg0 (· == d))
        evs rest →
      completes .dapReadMem32 s ((s.selected 0xA 0).returned d []) evs rest)
    ∧ (s.hears (maybeSelect (s.eng.ses.selectHit 0xA 0) 0xA 0
        ++ memApWriteScript s.eng.ses.port.arg0 s.eng.ses.port.arg1) evs rest →
      completes .dapWriteMem32 s ((s.selected 0xA 0).returned 0 []) evs rest)

/-! ## DM driver commands -/

/-- INIT (42_dm.md R117) on a target with SBA, on one whose SBCS says there is none, which INIT ignores, and on one whose
DM status word is another than 0x04010001: `InvalidState`, the DM not initialised and AP 0xA bank 1 selected. -/
def Obligations.InitActivatesTheDm : Prop :=
  ∀ (s : State) (evs : List WireEvent) (rest : List Bool), s.online = true →
    (s.hears (dmInitScript (s.eng.ses.selectHit 0xA 0)) evs rest →
      completes .init s ((s.initialised true).returned 0 []) evs rest)
    ∧ (s.hears (dmInitNoSbaScript (s.eng.ses.selectHit 0xA 0)) evs rest →
      completes .init s ((s.initialised false).returned 0 []) evs rest)
    ∧ (s.hears (dmInitFailScript (s.eng.ses.selectHit 0xA 0)) evs rest →
      completes .init s (((s.selected 0xA 1).modifySes fun x =>
        { x with dm.initialized := false, dm.sbaInitialized := false }).raised .invalidState 0 []) evs rest)

/-- HALT (42_dm.md R122): of a hart unknown or running, which halts in time or does not (`Timeout`, its state unknown
then), and of one known halted (`AlreadyHalted`, 60_exceptions.md R165, no state change but the results). -/
def Obligations.HaltHaltsAHart : Prop :=
  ∀ (s : State) (h : HartId) (evs : List WireEvent) (rest : List Bool), s.ready = true →
    names s.eng.ses.port.arg0 h →
    (((s.eng.ses.hart h).known && (s.eng.ses.hart h).halted) = false → s.hears (haltScript h) evs rest →
      completes .halt s
        ((s.withHart h fun x => { x with known := true, halted := true, cacheValid := false }).returned 0 [])
        evs rest)
    ∧ (((s.eng.ses.hart h).known && (s.eng.ses.hart h).halted) = false → s.hears (haltTimeoutScript h) evs rest →
      completes .halt s
        ((s.withHart h fun x => { x with known := false, cacheValid := false }).raised .timeout 0 []) evs rest)
    ∧ (((s.eng.ses.hart h).known && (s.eng.ses.hart h).halted) = true →
      exec .halt s = .next ((s.returned 0 []).modifySes fun x => { x with port.resultStatus := .alreadyHalted }))

/-- RESUME (42_dm.md R123): of a hart unknown or halted, which runs in time or does not (`Timeout`, its state unknown
then), and of one known to run, with no wire activity. -/
def Obligations.ResumeResumesAHart : Prop :=
  ∀ (s : State) (h : HartId) (evs : List WireEvent) (rest : List Bool), s.ready = true →
    names s.eng.ses.port.arg0 h →
    (((s.eng.ses.hart h).known && !(s.eng.ses.hart h).halted) = false → s.hears (resumeScript h) evs rest →
      completes .resume s
        ((s.withHart h fun x => { x with known := true, halted := false, cacheValid := false }).returned 0 [])
        evs rest)
    ∧ (((s.eng.ses.hart h).known && !(s.eng.ses.hart h).halted) = false → s.hears (resumeTimeoutScript h) evs rest →
      completes .resume s
        ((s.withHart h fun x => { x with known := false, cacheValid := false }).raised .timeout 0 []) evs rest)
    ∧ (((s.eng.ses.hart h).known && !(s.eng.ses.hart h).halted) = true → exec .resume s = .next (s.returned 0 []))

/-- IS_HALTED (42_dm.md R121): a known state is answered without wire activity; an unknown one is queried, and a hart
found running loses its mirror (R119). -/
def Obligations.IsHaltedAnswers : Prop :=
  ∀ (s : State) (h : HartId) (b : Bool) (evs : List WireEvent) (rest : List Bool), s.ready = true →
    names s.eng.ses.port.arg0 h →
    ((s.eng.ses.hart h).known = true →
      exec .isHalted s = .next (s.returned (if (s.eng.ses.hart h).halted then 1 else 0) []))
    ∧ ((s.eng.ses.hart h).known = false →
      s.hears (selectHartScript h ++ dmReadScript .dmstatus fun v => v[9] == b) evs rest →
      completes .isHalted s
        ((s.withHart h fun x => { x with known := true, halted := b, cacheValid := x.cacheValid && b }).returned
          (if b then 1 else 0) []) evs rest)

/-- STEP (42_dm.md R124): DCSR is read, written with bit 2 set, the hart resumed and awaited, DCSR restored; the hart is
known halted and its mirror no longer valid. A hart that does not halt in time ends it with `Timeout`, DCSR not restored
and the hart's state unknown. -/
def Obligations.StepStepsAHart : Prop :=
  ∀ (s : State) (h : HartId) (dcsr s0 s0' s0'' : Word) (evs : List WireEvent) (rest : List Bool), s.ready = true →
    names s.eng.ses.port.arg0 h → ((s.eng.ses.hart h).known = true → (s.eng.ses.hart h).halted = true) →
    (s.eng.ses.mirrorHit h = true → s0 = (s.eng.ses.hart h).gpr[8]) →
    (s.hears (requireHaltedScript (s.eng.ses.hart h).known h
        ++ stepScript (s.eng.ses.mirrorHit h) h dcsr s0 s0' s0'') evs rest →
      completes .step s
        ((s.withHart h fun x => (x.afterCsr s.eng.ses.dm.cacheEnabled s0'').knownHalted).returned 0 []) evs rest)
    ∧ (s.hears (requireHaltedScript (s.eng.ses.hart h).known h
        ++ stepTimeoutScript (s.eng.ses.mirrorHit h) h dcsr s0 s0') evs rest →
      completes .step s
        ((s.withHart h fun x => { (x.afterCsr s.eng.ses.dm.cacheEnabled s0').knownHalted with known := false }).raised
          .timeout 0 []) evs rest)

/-- RESET (42_dm.md R125): ndmreset asserted and released, both harts forgotten, and hart h known halted or known
running as asked; a hart that is to halt and does not in time ends it with `Timeout`, both harts unknown. -/
def Obligations.ResetResetsTheHarts : Prop :=
  ∀ (s : State) (h : HartId) (hr : Bool) (evs : List WireEvent) (rest : List Bool), s.ready = true →
    names s.eng.ses.port.arg0 h → s.eng.ses.port.arg1 = BitVec.ofNat 32 hr.toNat →
    (s.hears (resetScript h hr) evs rest →
      completes .reset s
        (((s.modifySes fun x =>
          { x with harts := x.harts.map fun y => { y with cacheValid := false, known := false } }).withHart h
            fun x => { x with halted := hr, known := true }).returned 0 []) evs rest)
    ∧ (hr = true → s.hears (resetTimeoutScript h) evs rest →
      completes .reset s
        ((s.modifySes fun x =>
          { x with harts := x.harts.map fun y => { y with cacheValid := false, known := false } }).raised .timeout 0 [])
        evs rest)

/-- READ_REG (42_dm.md R128), from the mirror when it hits, and WRITE_REG (R129): the register's mirror word follows
when caching is on, but for x0. A WRITE_REG that fails, at whichever of its steps, invalidates the mirror (42_dm.md R140;
that this covers its selection of the hart is DEDUCED, log 22). -/
def Obligations.RegisterAccess : Prop :=
  ∀ (s : State) (h : HartId) (n : BitVec 5) (v : Word) (evs : List WireEvent) (rest : List Bool), s.ready = true →
    names s.eng.ses.port.arg0 h → s.eng.ses.port.arg1 = n.setWidth 32 →
    ((s.eng.ses.hart h).known = true → (s.eng.ses.hart h).halted = true) →
    ((s.eng.ses.mirrorHit h = true → v = (s.eng.ses.hart h).gpr[n.toNat]'n.isLt) →
      s.hears (requireHaltedScript (s.eng.ses.hart h).known h ++ maybeReadReg (s.eng.ses.mirrorHit h) h n v)
        evs rest →
      completes .readReg s
        ((s.withHart h fun x => x.knownHalted.mirrored s.eng.ses.dm.cacheEnabled n v).returned v []) evs rest)
    ∧ (v = s.eng.ses.port.arg2 →
      s.hears (requireHaltedScript (s.eng.ses.hart h).known h ++ writeRegScript h n v) evs rest →
      completes .writeReg s
        ((s.withHart h fun x => x.knownHalted.mirrored s.eng.ses.dm.cacheEnabled n v).returned 0 []) evs rest)
    ∧ ∀ t : State, (s.eng.ses.hart h).known = true → exec .writeReg s = .next t → t.eng.ses.port.resultStatus ≠ .ok →
      (t.eng.ses.hart h).cacheValid = false

/-- READ_ALL_REGS (42_dm.md R130): x0 to x31 over the wire and on DOUT in order; with caching on the mirror holds x1 to
x31 and is valid. -/
def Obligations.ReadAllRegsReadsAll : Prop :=
  ∀ (s : State) (h : HartId) (vs : List Word) (evs : List WireEvent) (rest : List Bool), s.ready = true →
    names s.eng.ses.port.arg0 h → ((s.eng.ses.hart h).known = true → (s.eng.ses.hart h).halted = true) →
    vs.length = 32 →
    s.hears (requireHaltedScript (s.eng.ses.hart h).known h ++ readAllRegsScript h vs) evs rest →
    completes .readAllRegs s
      ((s.withHart h fun x => x.knownHalted.afterReadAll s.eng.ses.dm.cacheEnabled vs).returned 0 vs) evs rest

/-- READ_CSR and WRITE_CSR (42_dm.md R132 to R134), and READ_PC and WRITE_PC as the same of CSR 0x7B1 (R135, R136): s0 is
saved, used and restored. -/
def Obligations.CsrAccess : Prop :=
  ∀ (s : State) (h : HartId) (c : BitVec 12) (s0 v : Word) (evs : List WireEvent) (rest : List Bool),
    s.ready = true → names s.eng.ses.port.arg0 h →
    ((s.eng.ses.hart h).known = true → (s.eng.ses.hart h).halted = true) →
    (s.eng.ses.mirrorHit h = true → s0 = (s.eng.ses.hart h).gpr[8]) →
    (s.hears (requireHaltedScript (s.eng.ses.hart h).known h ++ csrReadScript (s.eng.ses.mirrorHit h) h c s0 v)
        evs rest →
      (s.eng.ses.port.arg1 = c.setWidth 32 →
        completes .readCsr s
          ((s.withHart h fun x => x.knownHalted.afterCsr s.eng.ses.dm.cacheEnabled s0).returned v []) evs rest)
      ∧ (c = 0x7B1 →
        completes .readPc s
          ((s.withHart h fun x => x.knownHalted.afterCsr s.eng.ses.dm.cacheEnabled s0).returned v []) evs rest))
    ∧ (s.hears (requireHaltedScript (s.eng.ses.hart h).known h ++ csrWriteScript (s.eng.ses.mirrorHit h) h c s0 v)
        evs rest →
      (s.eng.ses.port.arg1 = c.setWidth 32 → s.eng.ses.port.arg2 = v →
        completes .writeCsr s
          ((s.withHart h fun x => x.knownHalted.afterCsr s.eng.ses.dm.cacheEnabled s0).returned 0 []) evs rest)
      ∧ (c = 0x7B1 → s.eng.ses.port.arg1 = v →
        completes .writePc s
          ((s.withHart h fun x => x.knownHalted.afterCsr s.eng.ses.dm.cacheEnabled s0).returned 0 []) evs rest))

/-- EXECUTE_PROGBUF (42_dm.md R137): with its words on DIN it runs the program, an `ebreak` appended if there is none;
with two words and no `ebreak` it is refused; with a word missing it holds. -/
def Obligations.ExecuteProgbufRunsAProgram : Prop :=
  ∀ (s : State) (h : HartId) (ws more : List Word) (evs : List WireEvent) (rest : List Bool), s.ready = true →
    names s.eng.ses.port.arg0 h →
    (∀ l : List Word, s.eng.ses.port.din = ws ++ more → s.eng.ses.port.arg1 = BitVec.ofNat 32 ws.length →
      programOf ws = some l → ((s.eng.ses.hart h).known = true → (s.eng.ses.hart h).halted = true) →
      s.hears (requireHaltedScript (s.eng.ses.hart h).known h ++ progbufScript h l) evs rest →
      completes .executeProgbuf s
        ((s.withHart h fun x => { x.knownHalted with cacheValid := false }).returned 0 []) evs rest)
    ∧ (s.eng.ses.port.din = ws ++ more → s.eng.ses.port.arg1 = 2 → ws.length = 2 → programOf ws = none →
      exec .executeProgbuf s = .next (s.raised .invalidParam 0 []))
    ∧ (∀ n : Nat, s.eng.ses.port.din = ws → s.eng.ses.port.arg1 = BitVec.ofNat 32 n → ws.length < n → n ≤ 2 →
      exec .executeProgbuf s
        = .next ((s.holding (.progbuf h n ws) []).modifySes fun x => { x with port.din := [] }))

/-! ## System Bus Access commands -/

/-- SBA_INIT (43_sba.md R141), SBA_READ32 (R142), SBA_WRITE32 (R143) and SBA_CHECK_ERRORS (R144). -/
def Obligations.SbaCommands : Prop :=
  ∀ (s : State) (evs : List WireEvent) (rest : List Bool), s.ready = true →
    (s.hears sbaInitScript evs rest →
      completes .sbaInit s ((s.modifySes fun x => { x with dm.sbaInitialized := true }).returned 0 []) evs rest)
    ∧ (s.hears (dmReadScript .sbcs fun v => v.extractLsb' 5 7 == 0) evs rest →
      completes .sbaInit s
        ((s.modifySes fun x => { x with dm.sbaInitialized := false }).raised .invalidState 0 []) evs rest)
    ∧ (s.eng.ses.dm.sbaInitialized = true → s.eng.ses.port.arg0.toNat % 4 = 0 →
      (∀ d : Word, s.hears (sbaReadScript s.eng.ses.port.arg0 d) evs rest →
        completes .sbaRead32 s (s.returned d []) evs rest)
      ∧ (s.hears (sbaWriteScript s.eng.ses.port.arg0 s.eng.ses.port.arg1) evs rest →
        completes .sbaWrite32 s (s.returned 0 []) evs rest))
    ∧ (s.eng.ses.dm.sbaInitialized = true → ∀ v : Word,
      (v.extractLsb' 12 3 = 0 → s.hears (dmReadScript .sbcs (· == v)) evs rest →
        completes .sbaCheckErrors s (s.returned v []) evs rest)
      ∧ (v.extractLsb' 12 3 ≠ 0 →
        s.hears (dmReadScript .sbcs (· == v) ++ dmWriteScript .sbcs 0x00147000) evs rest →
        completes .sbaCheckErrors s (s.raised .fault v []) evs rest))

/-! ## Memory commands -/

/-- READ_MEM32, READ_MEM16 and READ_MEM8 (44_ops.md R148, R150, R151), over the selected path (R146): the word, or the
field of the containing word that 20_memory.md R40 gives. -/
def Obligations.MemoryReads : Prop :=
  ∀ (s : State) (d : Word) (evs : List WireEvent) (rest : List Bool), s.ready = true →
    s.hears (memReadScript s.eng.ses.dm.sbaInitialized
      (BitVec.ofNat 32 (s.eng.ses.port.arg0.toNat / 4 * 4)) d) evs rest →
    (s.eng.ses.port.arg0.toNat % 4 = 0 → completes .readMem32 s (s.returned d []) evs rest)
    ∧ (s.eng.ses.port.arg0.toNat % 2 = 0 →
      completes .readMem16 s
        (s.returned ((d.extractLsb' (8 * (s.eng.ses.port.arg0.toNat % 4)) 16).setWidth 32) []) evs rest)
    ∧ completes .readMem8 s
        (s.returned ((d.extractLsb' (8 * (s.eng.ses.port.arg0.toNat % 4)) 8).setWidth 32) []) evs rest

/-- WRITE_MEM32, WRITE_MEM16 and WRITE_MEM8 (44_ops.md R149, R152, R153), over the selected path: the sub-word forms
read the containing word `d` and write it back with only the addressed field changed. -/
def Obligations.MemoryWrites : Prop :=
  ∀ (s : State) (d w : Word) (evs : List WireEvent) (rest : List Bool), s.ready = true →
    (s.eng.ses.port.arg0.toNat % 4 = 0 →
      s.hears (memWriteScript s.eng.ses.dm.sbaInitialized s.eng.ses.port.arg0 s.eng.ses.port.arg1) evs rest →
      completes .writeMem32 s (s.returned 0 []) evs rest)
    ∧ (s.hears (memReadScript s.eng.ses.dm.sbaInitialized (BitVec.ofNat 32 (s.eng.ses.port.arg0.toNat / 4 * 4)) d
        ++ memWriteScript s.eng.ses.dm.sbaInitialized
          (BitVec.ofNat 32 (s.eng.ses.port.arg0.toNat / 4 * 4)) w) evs rest →
      (s.eng.ses.port.arg0.toNat % 2 = 0 → s.eng.ses.port.arg1.toNat < 2 ^ 16 →
        (∀ k : Nat, (hk : k < 32) → w[k] =
          if 8 * (s.eng.ses.port.arg0.toNat % 4) ≤ k ∧ k < 8 * (s.eng.ses.port.arg0.toNat % 4) + 16
          then s.eng.ses.port.arg1.getLsbD (k - 8 * (s.eng.ses.port.arg0.toNat % 4)) else d[k]) →
        completes .writeMem16 s (s.returned 0 []) evs rest)
      ∧ (s.eng.ses.port.arg1.toNat < 2 ^ 8 →
        (∀ k : Nat, (hk : k < 32) → w[k] =
          if 8 * (s.eng.ses.port.arg0.toNat % 4) ≤ k ∧ k < 8 * (s.eng.ses.port.arg0.toNat % 4) + 8
          then s.eng.ses.port.arg1.getLsbD (k - 8 * (s.eng.ses.port.arg0.toNat % 4)) else d[k]) →
        completes .writeMem8 s (s.returned 0 []) evs rest))

/-- READ_MEM_BLOCK, WRITE_MEM_BLOCK and UPLOAD_CODE (44_ops.md R154 to R157): n words at rising addresses, none for
n = 0; with DIN short of words a write or an upload holds after those it has; a word that reads back differently ends an
upload with `Verify` and its index. A read block that fails, however it fails, ends with the count of the words it pushed;
a FAULT at word i ends a read or a write block with `Fault` and i. Whichever of the three fails, however it fails at word
i, the result value is i: the same command asked for i words or fewer does not fail, and asked for more it ends as this
one does, so that nothing is done for a later word. -/
def Obligations.BlockTransfer : Prop :=
  ∀ (s : State) (ws more : List Word) (evs : List WireEvent) (rest : List Bool), s.ready = true →
    s.eng.ses.port.arg0.toNat % 4 = 0 →
    s.eng.ses.port.arg0.toNat + 4 * s.eng.ses.port.arg1.toNat ≤ 2 ^ 32 →
    (ws.length = s.eng.ses.port.arg1.toNat →
      (s.hears (readBlockScript s.eng.ses.dm.sbaInitialized s.eng.ses.port.arg0 ws) evs rest →
        completes .readMemBlock s (s.returned s.eng.ses.port.arg1 ws) evs rest)
      ∧ (s.eng.ses.port.din = ws ++ more →
        (s.hears (writeBlockScript s.eng.ses.dm.sbaInitialized s.eng.ses.port.arg0 ws) evs rest →
          completes .writeMemBlock s (s.returned s.eng.ses.port.arg1 []) evs rest)
        ∧ (s.hears (uploadScript s.eng.ses.dm.sbaInitialized s.eng.ses.port.arg0 ws) evs rest →
          completes .uploadCode s (s.returned s.eng.ses.port.arg1 []) evs rest)))
    ∧ (ws.length < s.eng.ses.port.arg1.toNat → s.eng.ses.port.din = ws →
      (s.hears (writeBlockScript s.eng.ses.dm.sbaInitialized s.eng.ses.port.arg0 ws) evs rest →
        completes .writeMemBlock s
          ((s.holding (.writeBlock s.eng.ses.port.arg0 s.eng.ses.port.arg1.toNat ws.length) []).modifySes
            fun x => { x with port.din := [] }) evs rest)
      ∧ (s.hears (uploadScript s.eng.ses.dm.sbaInitialized s.eng.ses.port.arg0 ws) evs rest →
        completes .uploadCode s
          ((s.holding (.upload s.eng.ses.port.arg0 s.eng.ses.port.arg1.toNat ws.length) []).modifySes
            fun x => { x with port.din := [] }) evs rest))
    ∧ (∀ w d : Word, ws.length < s.eng.ses.port.arg1.toNat → s.eng.ses.port.din = ws ++ w :: more → d ≠ w →
      s.hears (uploadScript s.eng.ses.dm.sbaInitialized s.eng.ses.port.arg0 ws
        ++ memWriteScript s.eng.ses.dm.sbaInitialized
          (s.eng.ses.port.arg0 + BitVec.ofNat 32 (4 * ws.length)) w
        ++ memReadScript s.eng.ses.dm.sbaInitialized
          (s.eng.ses.port.arg0 + BitVec.ofNat 32 (4 * ws.length)) d) evs rest →
      completes .uploadCode s (s.raised .verify (BitVec.ofNat 32 ws.length) []) evs rest)
    ∧ (∀ t : State, exec .readMemBlock s = .next t →
      t.eng.ses.port.resultValue = BitVec.ofNat 32 t.eng.ses.port.dout.length
      ∧ t.eng.ses.port.dout.length ≤ s.eng.ses.port.arg1.toNat
      ∧ (t.eng.ses.port.resultStatus = .ok ↔ t.eng.ses.port.dout.length = s.eng.ses.port.arg1.toNat))
    ∧ (ws.length < s.eng.ses.port.arg1.toNat →
      (s.hears (readBlockScript s.eng.ses.dm.sbaInitialized s.eng.ses.port.arg0 ws ++ [faults true false 0x4]) evs rest →
        ∃ fl, exec .readMemBlock s
          = .next ((s.raised .fault (BitVec.ofNat 32 ws.length) ws).onWire rest evs.reverse fl 4))
      ∧ ∀ w : Word, s.eng.ses.port.din = ws ++ w :: more →
        s.hears (writeBlockScript s.eng.ses.dm.sbaInitialized s.eng.ses.port.arg0 ws ++ [faults true false 0x4]) evs
          rest →
        ∃ fl, exec .writeMemBlock s
          = .next ((s.raised .fault (BitVec.ofNat 32 ws.length) []).onWire rest evs.reverse fl 4))
    ∧ ∀ (i : Instr) (t : State), (i = .readMemBlock ∨ i = .writeMemBlock ∨ i = .uploadCode) → exec i s = .next t →
      t.failed = true →
      ∃ k : Nat, k < s.eng.ses.port.arg1.toNat ∧ t.eng.ses.port.resultValue = BitVec.ofNat 32 k
        ∧ ∀ (m : Word) (u : State), m.toNat ≤ s.eng.ses.port.arg1.toNat →
          exec i (s.modifySes fun x => { x with port.arg1 := m }) = .next u →
          (m.toNat ≤ k → u.failed = false)
          ∧ (k < m.toNat → u = t.modifySes fun x => { x with port.arg1 := m })

/-- A command held for DIN goes on with the word the host writes (30_encoding.md R73), and holds again or ends:
WRITE_MEM_BLOCK writes it (44_ops.md R156), UPLOAD_CODE writes it and reads it back (R157), EXECUTE_CODE does that and,
after the last word, launches (R158), EXECUTE_PROGBUF runs its program once it has its words (42_dm.md R137). That it goes
on with the operands it read when it started, whatever the ARG registers hold by then, is DEDUCED (log 12). -/
def Obligations.HeldCommandsGoOn : Prop :=
  ∀ (s s' : State) (id : SessionId) (w : Word) (rest : List Input) (evs : List WireEvent) (left : List Bool),
    s.inbox = .writeDin id w :: rest → { s with inbox := rest }.focus id = some s' →
    s'.ready = true → s'.eng.ses.port.din = [] →
    (∀ (a : Word) (n j : Nat), j < n → n < 2 ^ 32 → a.toNat % 4 = 0 →
      (s'.eng.ses.hold = .writeBlock a n j →
        s'.hears (memWriteScript s'.eng.ses.dm.sbaInitialized (a + BitVec.ofNat 32 (4 * j)) w) evs left →
        ∃ fl, step s = .next ((s'.modifySes fun x =>
          if j + 1 = n then
            { x with
              hold := .none, port.busy := false, port.resultStatus := .ok, port.resultValue := BitVec.ofNat 32 n }
          else { x with hold := .writeBlock a n (j + 1) }).onWire left (evs.reverse ++ s'.eng.ses.record) fl 1))
      ∧ (s'.eng.ses.hold = .upload a n j →
        s'.hears (memWriteScript s'.eng.ses.dm.sbaInitialized (a + BitVec.ofNat 32 (4 * j)) w
          ++ memReadScript s'.eng.ses.dm.sbaInitialized (a + BitVec.ofNat 32 (4 * j)) w) evs left →
        ∃ fl, step s = .next ((s'.modifySes fun x =>
          if j + 1 = n then
            { x with
              hold := .none, port.busy := false, port.resultStatus := .ok, port.resultValue := BitVec.ofNat 32 n }
          else { x with hold := .upload a n (j + 1) }).onWire left (evs.reverse ++ s'.eng.ses.record) fl 1))
      ∧ ∀ h : HartId, s'.eng.ses.hold = .executeCode h a n j →
        (j + 1 < n →
          s'.hears (memWriteScript s'.eng.ses.dm.sbaInitialized (a + BitVec.ofNat 32 (4 * j)) w
            ++ memReadScript s'.eng.ses.dm.sbaInitialized (a + BitVec.ofNat 32 (4 * j)) w) evs left →
          ∃ fl, step s = .next ((s'.modifySes fun x =>
            { x with hold := .executeCode h a n (j + 1) }).onWire left (evs.reverse ++ s'.eng.ses.record) fl 1))
        ∧ ∀ (known hit : Bool) (s0 s0' : Word), j + 1 = n →
          known = ((s'.eng.ses.hart h).known && (s'.eng.ses.hart h).halted) →
          hit = (known && s'.eng.ses.mirrorHit h) → (hit = true → s0 = (s'.eng.ses.hart h).gpr[8]) →
          s'.hears (memWriteScript s'.eng.ses.dm.sbaInitialized (a + BitVec.ofNat 32 (4 * j)) w
            ++ memReadScript s'.eng.ses.dm.sbaInitialized (a + BitVec.ofNat 32 (4 * j)) w
            ++ launchScript known hit h a s0 s0') evs left →
          ∃ fl, step s = .next (((s'.withHart h fun x =>
            { x.afterCsr s'.eng.ses.dm.cacheEnabled s0' with known := true, halted := false }).modifySes fun x =>
              { x with
                hold := .none, port.busy := false, port.resultStatus := .ok, port.resultValue := 0 }).onWire left
                  (evs.reverse ++ s'.eng.ses.record) fl 1))
    ∧ ∀ (h : HartId) (n : Nat) (got : List Word), s'.eng.ses.hold = .progbuf h n got →
      (got.length + 1 < n →
        step s = .next (s'.modifySes fun x => { x with hold := .progbuf h n (got ++ [w]) }))
      ∧ ∀ l : List Word, got.length + 1 = n → programOf (got ++ [w]) = some l →
        ((s'.eng.ses.hart h).known = true → (s'.eng.ses.hart h).halted = true) →
        s'.hears (requireHaltedScript (s'.eng.ses.hart h).known h ++ progbufScript h l) evs left →
        ∃ fl, step s = .next (((s'.withHart h fun x => { x.knownHalted with cacheValid := false }).modifySes fun x =>
          { x with
            hold := .none, port.busy := false, port.resultStatus := .ok, port.resultValue := 0 }).onWire left
              (evs.reverse ++ s'.eng.ses.record) fl 1)

/-- EXECUTE_CODE (44_ops.md R158): the words uploaded at `entry`, the hart halted unless it is known halted, its pc set
and read back, and the hart resumed; with DIN short of words it holds after those it has. An upload that fails, however it
fails, ends it as UPLOAD_CODE of the same words ends: `Verify` for a word that reads back differently, and the index of the
word as the result value, which is DEDUCED (log 19). A hart that does not halt in time ends it with `Timeout`, the hart's
state unknown; a pc that reads back differently with `Verify`, the hart left halted; a hart that does not resume in time
with `Timeout`, its state unknown. -/
def Obligations.ExecuteCodeLaunches : Prop :=
  ∀ (s : State) (h : HartId) (ws more : List Word) (evs : List WireEvent) (rest : List Bool),
    s.ready = true → names s.eng.ses.port.arg0 h → s.eng.ses.port.arg1.toNat % 4 = 0 →
    s.eng.ses.port.arg1.toNat + 4 * s.eng.ses.port.arg2.toNat ≤ 2 ^ 32 →
    (∀ (known hit : Bool) (s0 s0' : Word), known = ((s.eng.ses.hart h).known && (s.eng.ses.hart h).halted) →
      hit = (known && s.eng.ses.mirrorHit h) → (hit = true → s0 = (s.eng.ses.hart h).gpr[8]) →
      s.eng.ses.port.arg2.toNat = ws.length → ws ≠ [] → s.eng.ses.port.din = ws ++ more →
      s.hears (uploadScript s.eng.ses.dm.sbaInitialized s.eng.ses.port.arg1 ws
        ++ launchScript known hit h s.eng.ses.port.arg1 s0 s0') evs rest →
      completes .executeCode s
        ((s.withHart h fun x =>
          { x.afterCsr s.eng.ses.dm.cacheEnabled s0' with known := true, halted := false }).returned 0 []) evs rest)
    ∧ (ws.length < s.eng.ses.port.arg2.toNat → s.eng.ses.port.din = ws →
      s.hears (uploadScript s.eng.ses.dm.sbaInitialized s.eng.ses.port.arg1 ws) evs rest →
      completes .executeCode s
        ((s.holding (.executeCode h s.eng.ses.port.arg1 s.eng.ses.port.arg2.toNat ws.length) []).modifySes
          fun x => { x with port.din := [] }) evs rest)
    ∧ (∀ w d : Word, ws.length < s.eng.ses.port.arg2.toNat → s.eng.ses.port.din = ws ++ w :: more → d ≠ w →
      s.hears (uploadScript s.eng.ses.dm.sbaInitialized s.eng.ses.port.arg1 ws
        ++ memWriteScript s.eng.ses.dm.sbaInitialized
          (s.eng.ses.port.arg1 + BitVec.ofNat 32 (4 * ws.length)) w
        ++ memReadScript s.eng.ses.dm.sbaInitialized
          (s.eng.ses.port.arg1 + BitVec.ofNat 32 (4 * ws.length)) d) evs rest →
      completes .executeCode s (s.raised .verify (BitVec.ofNat 32 ws.length) []) evs rest)
    ∧ (∀ t : State,
      exec .uploadCode (s.modifySes fun x => { x with port.arg0 := x.port.arg1, port.arg1 := x.port.arg2 }) = .next t →
      t.failed = true →
      exec .executeCode s = .next (t.modifySes fun x =>
        { x with port.arg0 := s.eng.ses.port.arg0, port.arg1 := s.eng.ses.port.arg1 }))
    ∧ ∀ (known hit : Bool) (s0 s0' pc : Word), known = ((s.eng.ses.hart h).known && (s.eng.ses.hart h).halted) →
      hit = (known && s.eng.ses.mirrorHit h) → (hit = true → s0 = (s.eng.ses.hart h).gpr[8]) →
      s.eng.ses.port.arg2.toNat = ws.length → ws ≠ [] → s.eng.ses.port.din = ws ++ more →
      (known = false →
        s.hears (uploadScript s.eng.ses.dm.sbaInitialized s.eng.ses.port.arg1 ws ++ haltTimeoutScript h) evs rest →
        completes .executeCode s
          ((s.withHart h fun x => { x with known := false, cacheValid := false }).raised .timeout 0 []) evs rest)
      ∧ (pc ≠ s.eng.ses.port.arg1 →
        s.hears (uploadScript s.eng.ses.dm.sbaInitialized s.eng.ses.port.arg1 ws
          ++ setPcScript known hit h s.eng.ses.port.arg1 s0 s0' pc) evs rest →
        completes .executeCode s
          ((s.withHart h fun x => (x.afterCsr s.eng.ses.dm.cacheEnabled s0').knownHalted).raised .verify 0 []) evs
          rest)
      ∧ (s.hears (uploadScript s.eng.ses.dm.sbaInitialized s.eng.ses.port.arg1 ws
          ++ setPcScript known hit h s.eng.ses.port.arg1 s0 s0' s.eng.ses.port.arg1 ++ resumeTimeoutScript h) evs rest →
        completes .executeCode s
          ((s.withHart h fun x => { (x.afterCsr s.eng.ses.dm.cacheEnabled s0').knownHalted with known := false }).raised
            .timeout 0 []) evs rest)

/-- TRACE (44_ops.md R159): the hart halted unless it is known halted, a first record on DOUT, with or without registers,
and the hold for the host's answer; a misaligned pc ends it with the negated code of `Alignment`, there being no record
yet. -/
def Obligations.TraceDeliversItsFirstRecord : Prop :=
  ∀ (s : State) (h : HartId) (known hit c : Bool) (pc insn s0 : Word) (vs : List Word) (evs : List WireEvent)
      (rest : List Bool), s.ready = true →
    names s.eng.ses.port.arg0 h → s.eng.ses.port.arg2 = BitVec.ofNat 32 c.toNat →
    known = ((s.eng.ses.hart h).known && (s.eng.ses.hart h).halted) →
    hit = (known && s.eng.ses.mirrorHit h) → (hit = true → s0 = (s.eng.ses.hart h).gpr[8]) →
    (pc.toNat % 4 = 0 → (c = true → vs.length = 32) →
      s.hears ((if known then [] else haltScript h)
        ++ recordScript hit s.eng.ses.dm.sbaInitialized c h s0 pc insn vs) evs rest →
      completes .trace s
        ((s.withHart h fun x => x.traced s.eng.ses.dm.cacheEnabled c s0 vs).holding
          (.trace h s.eng.ses.port.arg1 c 1) (recordWords c 0 pc insn vs)) evs rest)
    ∧ (pc.toNat % 4 ≠ 0 →
      s.hears ((if known then [] else haltScript h) ++ csrReadScript hit h 0x7B1 s0 pc) evs rest →
      completes .trace s
        ((s.withHart h fun x => (x.afterCsr s.eng.ses.dm.cacheEnabled s0).knownHalted).raised .alignment
          (-12) []) evs rest)

/-- TRACE (44_ops.md R159) with records delivered: an answer of 0, or the last record, ends it with the count of
records; an answer of 1 steps the hart and delivers the next record; a misaligned pc then is swallowed, the count being
the result. That it goes on with the operands it read when it started is DEDUCED (log 12), and so is that the count is a
natural number whose words are taken modulo 2^32 (log 20), and that the swallowed raise leaves `err_detail` as it was
(log 5). -/
def Obligations.TraceGoesOnWithTheAnswer : Prop :=
  ∀ (s s' : State) (id : SessionId) (b : Bool) (rest : List Input) (h : HartId) (max : Word) (c : Bool) (n : Nat),
    s.inbox = .writeTraceReply id b :: rest → { s with inbox := rest }.focus id = some s' →
    s'.eng.ses.hold = .trace h max c n →
    (b = false ∨ (max ≠ 0 ∧ n = max.toNat) →
      step s = .next (s'.modifySes fun x =>
        { x with
          port.traceReply := b, port.resultStatus := .ok, port.resultValue := BitVec.ofNat 32 n
          port.din := [], port.busy := false, hold := .none }))
    ∧ ∀ (dcsr s0 s0' s0'' s1 pc insn : Word) (vs : List Word) (evs : List WireEvent) (left : List Bool), b = true →
      (max = 0 ∨ n ≠ max.toNat) → s'.ready = true → 1 ≤ n →
      (s'.eng.ses.mirrorHit h = true → s0 = (s'.eng.ses.hart h).gpr[8]) →
      (pc.toNat % 4 = 0 → (c = true → vs.length = 32) →
        s'.hears (stepScript (s'.eng.ses.mirrorHit h) h dcsr s0 s0' s0''
          ++ recordScript false s'.eng.ses.dm.sbaInitialized c h s1 pc insn vs) evs left →
        ∃ fl, step s = .next (((s'.withHart h fun x =>
          (x.afterCsr s'.eng.ses.dm.cacheEnabled s0'').traced s'.eng.ses.dm.cacheEnabled c s1 vs).modifySes fun x =>
            { x with
              port.traceReply := true, port.dout := x.port.dout ++ recordWords c n pc insn vs
              hold := .trace h max c (n + 1) }).onWire left (evs.reverse ++ s'.eng.ses.record) fl 1))
      ∧ (pc.toNat % 4 ≠ 0 →
        s'.hears (stepScript (s'.eng.ses.mirrorHit h) h dcsr s0 s0' s0'' ++ csrReadScript false h 0x7B1 s1 pc) evs
          left →
        ∃ fl, step s = .next (((s'.withHart h fun x =>
          (x.afterCsr s'.eng.ses.dm.cacheEnabled s0'').traced s'.eng.ses.dm.cacheEnabled false s1 []).modifySes fun x =>
            { x with
              port.traceReply := true, port.resultStatus := .ok, port.resultValue := BitVec.ofNat 32 n
              port.din := [], port.busy := false, hold := .none }).onWire left
                (evs.reverse ++ s'.eng.ses.record) fl 1))

/-! ## Words composed for target registers -/

/-- The word rows of the Debug Port, SELECT (30_encoding.md R64), which the SELECT cache then holds (41_dap.md R102), and
CTRL/STAT (30_encoding.md R65; 41_dap.md R109; the bit places in CTRL/STAT are PRESUMED, log 8); and those of AP 0xA, CSW
and the activation handshake (42_dm.md R117), the SELECT cache hitting or not. That such a word is written by itself is
the model's own form of these rows (log 14). -/
def Obligations.DpAndApWords : Prop :=
  ∀ (s : State) (evs : List WireEvent) (rest : List Bool), s.online = true →
    (∀ apsel bank : BitVec 4, s.hears (selectScript apsel bank) evs rest →
      completes (.selectWord apsel bank) s ((s.selected apsel bank).returned 0 []) evs rest)
    ∧ (∀ (i : Instr) (w : Word), ctrlStatWord i = some w → s.hears [writes false 0x4 w] evs rest →
      completes i s (s.returned 0 []) evs rest)
    ∧ (s.hears (maybeSelect (s.eng.ses.selectHit 0xA 0) 0xA 0 ++ apWriteScript apCsw 0xA2000002) evs rest →
      completes .cswInit s ((s.selected 0xA 0).returned 0 []) evs rest)
    ∧ (∀ (i : Instr) (w : Word), handshakeWord i = some w →
      s.hears (maybeSelect (s.eng.ses.selectHit 0xA 1) 0xA 1 ++ apWriteScript apBank1 w ++ [pauses 50000])
        evs rest →
      completes i s ((s.selected 0xA 1).returned 0 []) evs rest)
    ∧ (s.hears (maybeSelect (s.eng.ses.selectHit 0xA 1) 0xA 1 ++ apReadScript apBank1 (· == 0x04010001)) evs rest →
      completes .dminitExpected s ((s.selected 0xA 1).returned 0x04010001 []) evs rest)
    ∧ (s.hears (maybeSelect (s.eng.ses.selectHit 0xA 1) 0xA 1 ++ apReadScript apBank1 (· != 0x04010001)) evs rest →
      completes .dminitExpected s ((s.selected 0xA 1).raised .invalidState 0 []) evs rest)

/-- The word rows of the DM registers (30_encoding.md R66 to R69; 42_dm.md R126), each written over the MEM-AP path
(R115), the SELECT cache hitting or not; no belief about a hart changes (70_reset_and_hazards.md
R193). That such a word is written by itself is the model's own form of these rows (log 14). -/
def Obligations.DmWords : Prop :=
  ∀ (i : Instr) (r : DmReg) (w : Nat) (s : State) (evs : List WireEvent) (rest : List Bool), s.online = true →
    dmWord i = some (r, w) →
    s.hears (maybeSelect (s.eng.ses.selectHit 0xA 0) 0xA 0 ++ dmWriteScript r (BitVec.ofNat 32 w)) evs rest →
    completes i s ((s.selected 0xA 0).returned 0 []) evs rest

/-! ## Errors and cleanup -/

/-- 42_dm.md R126 and R132: a nonzero cmderr found by READ_REG is cleared by 0x700 before `AbstractCmd` is raised; found
by READ_CSR's program it is cleared, s0 is restored all the same, and the first error is the one reported
(60_exceptions.md R164). An abstract command that stays busy ends READ_REG with `Timeout` (42_dm.md R126). A READ_CSR that
fails and whose restore of s0 fails too, be it at its selection of the hart, leaves the mirror invalid
(70_reset_and_hazards.md R191; log 22). -/
def Obligations.FailedRegisterAccessCleansUp : Prop :=
  ∀ (s : State) (h : HartId) (evs : List WireEvent) (rest : List Bool), s.readyHalted h = true →
    names s.eng.ses.port.arg0 h →
    (s.eng.ses.mirrorHit h = false →
      (∀ n : BitVec 5, s.eng.ses.port.arg1 = n.setWidth 32 →
        (s.hears (selectHartScript h ++ dmWriteScript .command (cmdGprRead n) ++ abstractErrorScript) evs rest →
          completes .readReg s (s.raised .abstractCmd 0 []) evs rest)
        ∧ (s.hears (selectHartScript h ++ dmWriteScript .command (cmdGprRead n) ++ abstractTimeoutScript) evs rest →
          completes .readReg s (s.raised .timeout 0 []) evs rest))
      ∧ ∀ (c : BitVec 12) (s0 : Word), s.eng.ses.port.arg1 = c.setWidth 32 →
        s.hears (readRegScript h 8 s0 ++ selectHartScript h ++ dmWriteScript .progbuf0 (insnCsrr c)
          ++ dmWriteScript .progbuf1 0x00100073 ++ dmWriteScript .command 0x00040000 ++ abstractErrorScript
          ++ writeRegScript h 8 s0) evs rest →
        completes .readCsr s
          ((s.withHart h fun x => x.afterCsr s.eng.ses.dm.cacheEnabled s0).raised .abstractCmd 0 []) evs rest)
    ∧ (s.eng.ses.mirrorHit h = true → ∀ c : BitVec 12, s.eng.ses.port.arg1 = c.setWidth 32 →
      s.hears [faults true false 0x4, faults true false 0x4] evs rest →
      ∃ fl, exec .readCsr s = .next (((s.withHart h fun x => { x with cacheValid := false }).raised .fault 0 []).onWire
        rest evs.reverse fl 4))
end

