-- ==== Sys2Proof/Laws/State.lean ====
section
/-! SUPPORT. The small lemmas of the state's updates: one per field per update, true by definition, so that no later
proof unfolds a record update. -/

namespace Sys2Proof.Machine

/-- The range of a word in numerals, for arithmetic (00_scope.md R5, R8). -/
theorem word_lt (w : Word) : w.toNat < 2 ^ 32 := w.isLt

/-! ## `Engine.wired` -/

section wired
variable (e : Engine) (bits : List Bool) (r : List WireEvent) (x : InFlight)

@[simp] theorem wired_self : (e.wired bits r x).self = e.self := rfl
@[simp] theorem wired_tracker : (e.wired bits r x).tracker = e.tracker := rfl
@[simp] theorem wired_free : (e.wired bits r x).free = e.free := rfl
@[simp] theorem wired_swdio : (e.wired bits r x).ses.swdio = bits := rfl
@[simp] theorem wired_record : (e.wired bits r x).ses.record = r := rfl
@[simp] theorem wired_txn : (e.wired bits r x).ses.txn = x := rfl
@[simp] theorem wired_lastAck : (e.wired bits r x).ses.dap.lastAck = ackAfter r e.ses.dap.lastAck := rfl
@[simp] theorem wired_connected : (e.wired bits r x).ses.connected = e.ses.connected := rfl
@[simp] theorem wired_powered : (e.wired bits r x).ses.dap.powered = e.ses.dap.powered := rfl
@[simp] theorem wired_retryCount : (e.wired bits r x).ses.dap.retryCount = e.ses.dap.retryCount := rfl
@[simp] theorem wired_dm : (e.wired bits r x).ses.dm = e.ses.dm := rfl
@[simp] theorem wired_port : (e.wired bits r x).ses.port = e.ses.port := rfl
@[simp] theorem wired_wire : (e.wired bits r x).ses.wire = e.ses.wire := rfl
@[simp] theorem wired_cfg : (e.wired bits r x).ses.cfg = e.ses.cfg := rfl
@[simp] theorem wired_hold : (e.wired bits r x).ses.hold = e.ses.hold := rfl
@[simp] theorem wired_hart (h : HartId) : (e.wired bits r x).ses.hart h = e.ses.hart h := rfl
@[simp] theorem wired_selectHit (a b : BitVec 4) :
    (e.wired bits r x).ses.selectHit a b = e.ses.selectHit a b := rfl

end wired

/-! ## `Session.setHart` -/

section setHart
variable (s : Session) (h g : HartId) (x : Hart)

theorem hart_setHart : (s.setHart h x).hart g = if g = h then x else s.hart g := by
  simp only [Session.hart, Session.setHart, Vector.getElem_set, Fin.ext_iff, eq_comm]

@[simp] theorem hart_setHart_same : (s.setHart h x).hart h = x := by simp [hart_setHart]

theorem hart_setHart_other (hg : g ≠ h) : (s.setHart h x).hart g = s.hart g := by simp [hart_setHart, hg]

@[simp] theorem setHart_setHart (y : Hart) : (s.setHart h x).setHart h y = s.setHart h y := by
  simp [Session.setHart]

@[simp] theorem setHart_hart : s.setHart h (s.hart h) = s := by
  simp [Session.setHart, Session.hart]

@[simp] theorem setHart_connected : (s.setHart h x).connected = s.connected := rfl
@[simp] theorem setHart_live : (s.setHart h x).live = s.live := rfl
@[simp] theorem setHart_cfg : (s.setHart h x).cfg = s.cfg := rfl
@[simp] theorem setHart_errDetail : (s.setHart h x).errDetail = s.errDetail := rfl
@[simp] theorem setHart_wire : (s.setHart h x).wire = s.wire := rfl
@[simp] theorem setHart_dap : (s.setHart h x).dap = s.dap := rfl
@[simp] theorem setHart_dm : (s.setHart h x).dm = s.dm := rfl
@[simp] theorem setHart_port : (s.setHart h x).port = s.port := rfl
@[simp] theorem setHart_hold : (s.setHart h x).hold = s.hold := rfl
@[simp] theorem setHart_txn : (s.setHart h x).txn = s.txn := rfl
@[simp] theorem setHart_swdio : (s.setHart h x).swdio = s.swdio := rfl
@[simp] theorem setHart_record : (s.setHart h x).record = s.record := rfl
@[simp] theorem setHart_selectHit (a b : BitVec 4) : (s.setHart h x).selectHit a b = s.selectHit a b := rfl

end setHart

/-! ## Beginning and ending a command -/

section command
variable (e : Engine)

@[simp] theorem begin_self : e.begin.self = e.self := rfl
@[simp] theorem begin_tracker : e.begin.tracker = e.tracker := rfl
@[simp] theorem begin_free : e.begin.free = e.free := rfl
@[simp] theorem begin_live : e.begin.ses.live = e.ses.live := rfl
@[simp] theorem begin_connected : e.begin.ses.connected = e.ses.connected := rfl
@[simp] theorem begin_cfg : e.begin.ses.cfg = e.ses.cfg := rfl
@[simp] theorem begin_errDetail : e.begin.ses.errDetail = e.ses.errDetail := rfl
@[simp] theorem begin_wire : e.begin.ses.wire = e.ses.wire := rfl
@[simp] theorem begin_dap : e.begin.ses.dap = e.ses.dap := rfl
@[simp] theorem begin_dm : e.begin.ses.dm = e.ses.dm := rfl
@[simp] theorem begin_hart (h : HartId) : e.begin.ses.hart h = e.ses.hart h := rfl
@[simp] theorem begin_txn : e.begin.ses.txn = e.ses.txn := rfl
@[simp] theorem begin_swdio : e.begin.ses.swdio = e.ses.swdio := rfl
@[simp] theorem begin_record : e.begin.ses.record = [] := rfl
@[simp] theorem begin_hold : e.begin.ses.hold = .none := rfl
@[simp] theorem begin_arg0 : e.begin.ses.port.arg0 = e.ses.port.arg0 := rfl
@[simp] theorem begin_arg1 : e.begin.ses.port.arg1 = e.ses.port.arg1 := rfl
@[simp] theorem begin_arg2 : e.begin.ses.port.arg2 = e.ses.port.arg2 := rfl
@[simp] theorem begin_arg3 : e.begin.ses.port.arg3 = e.ses.port.arg3 := rfl
@[simp] theorem begin_din : e.begin.ses.port.din = e.ses.port.din := rfl
@[simp] theorem begin_dout : e.begin.ses.port.dout = [] := rfl
@[simp] theorem begin_busy : e.begin.ses.port.busy = true := rfl
@[simp] theorem begin_selectHit (a b : BitVec 4) : e.begin.ses.selectHit a b = e.ses.selectHit a b := rfl

variable (k : ErrorKind) (v : Word)

@[simp] theorem result_status : (e.result k v).ses.port.resultStatus = k := rfl
@[simp] theorem result_value : (e.result k v).ses.port.resultValue = v := rfl
@[simp] theorem result_din : (e.result k v).ses.port.din = [] := rfl
@[simp] theorem result_busy : (e.result k v).ses.port.busy = false := rfl
@[simp] theorem result_hold : (e.result k v).ses.hold = .none := rfl
@[simp] theorem result_dap : (e.result k v).ses.dap = e.ses.dap := rfl
@[simp] theorem result_dm : (e.result k v).ses.dm = e.ses.dm := rfl
@[simp] theorem result_wire : (e.result k v).ses.wire = e.ses.wire := rfl
@[simp] theorem result_hart (h : HartId) : (e.result k v).ses.hart h = e.ses.hart h := rfl
@[simp] theorem result_tracker : (e.result k v).tracker = e.tracker := rfl

end command

end Sys2Proof.Machine
end

