-- ==== Sys2Proof/Laws/Proc.lean ====
section
/-! SUPPORT. How a procedure runs: each way of combining procedures applied to an engine, and the rules by which a
relation between the engine before and after is proved of a procedure from its parts. -/

namespace Sys2Proof.Machine

variable {α β : Type}

/-! ## Running -/

theorem bind_run (m : Proc α) (f : α → Proc β) (e : Engine) :
    (m >>= f) e = match m e with
      | .ok a e' => f a e'
      | .error r e' => .error r e' := by
  change EStateM.bind m f e = _
  unfold EStateM.bind
  cases m e <;> rfl

/-- A procedure whose first part answers goes on with the rest. -/
theorem bind_ok {m : Proc α} {f : α → Proc β} {e e' : Engine} {a : α} (h : m e = .ok a e') :
    (m >>= f) e = f a e' := by rw [bind_run, h]

/-- A procedure whose first part raises ends there (60_exceptions.md R163). -/
theorem bind_error {m : Proc α} {f : α → Proc β} {e e' : Engine} {r : Raise} (h : m e = .error r e') :
    (m >>= f) e = .error r e' := by rw [bind_run, h]

/-- A procedure that answers does so through an answer of its first part. -/
theorem bind_eq_ok {m : Proc α} {f : α → Proc β} {e e' : Engine} {b : β} :
    (m >>= f) e = .ok b e' ↔ ∃ a e₁, m e = .ok a e₁ ∧ f a e₁ = .ok b e' := by
  rw [bind_run]; cases m e <;> simp

@[simp] theorem pure_run (a : α) (e : Engine) : (pure a : Proc α) e = .ok a e := rfl
@[simp] theorem throw_run (r : Raise) (e : Engine) : (throw r : Proc α) e = .error r e := rfl
@[simp] theorem raise_run (k : ErrorKind) (e : Engine) : (raise k : Proc α) e = .error ⟨k, 0⟩ e := rfl
@[simp] theorem endWith_run (k : ErrorKind) (v : Word) (e : Engine) :
    (endWith k v : Proc α) e = .error ⟨k, v⟩ e := rfl
@[simp] theorem get_run (e : Engine) : (get : Proc Engine) e = .ok e e := rfl
@[simp] theorem set_run (e e' : Engine) : (set e' : Proc Unit) e = .ok () e' := rfl
@[simp] theorem modify_run (f : Engine → Engine) (e : Engine) : (modify f : Proc Unit) e = .ok () (f e) := rfl
@[simp] theorem getSes_run (e : Engine) : getSes e = .ok e.ses e := rfl
@[simp] theorem modifySes_run (f : Session → Session) (e : Engine) :
    modifySes f e = .ok () { e with ses := f e.ses } := rfl
@[simp] theorem modifyHart_run (h : HartId) (f : Hart → Hart) (e : Engine) :
    modifyHart h f e = .ok () { e with ses := e.ses.setHart h (f (e.ses.hart h)) } := rfl
@[simp] theorem modifyHarts_run (f : Hart → Hart) (e : Engine) :
    modifyHarts f e = .ok () { e with ses.harts := e.ses.harts.map f } := rfl
@[simp] theorem require_true (k : ErrorKind) (e : Engine) : require true k e = .ok () e := rfl
@[simp] theorem require_false (k : ErrorKind) (e : Engine) : require false k e = .error ⟨k, 0⟩ e := rfl

theorem require_run (c : Bool) (k : ErrorKind) (e : Engine) :
    require c k e = if c then .ok () e else .error ⟨k, 0⟩ e := by cases c <;> rfl

theorem tryCatch_run (m : Proc α) (f : Raise → Proc α) (e : Engine) :
    (tryCatch m f : Proc α) e = match m e with
      | .ok a e' => .ok a e'
      | .error r e' => f r e' := by
  change EStateM.tryCatch m f e = _
  unfold EStateM.tryCatch
  cases h : m e <;> rfl

theorem tryCatch_ok {m : Proc α} {f : Raise → Proc α} {e e' : Engine} {a : α} (h : m e = .ok a e') :
    (tryCatch m f : Proc α) e = .ok a e' := by rw [tryCatch_run, h]

theorem tryCatch_error {m : Proc α} {f : Raise → Proc α} {e e' : Engine} {r : Raise} (h : m e = .error r e') :
    (tryCatch m f : Proc α) e = f r e' := by rw [tryCatch_run, h]

theorem onRaise_ok {m : Proc α} {c : Proc Unit} {e e' : Engine} {a : α} (h : m e = .ok a e') :
    onRaise m c e = .ok a e' := tryCatch_ok h

theorem attempt_ok {m : Proc α} {e e' : Engine} {a : α} (h : m e = .ok a e') :
    attempt m e = .ok (.ok a) e' := by unfold attempt; rw [h]

theorem attempt_error {m : Proc α} {e e' : Engine} {r : Raise} (h : m e = .error r e') :
    attempt m e = .ok (.error r) e' := by unfold attempt; rw [h]

/-! ## A relation between before and after -/

/-- Whatever a procedure does, an answer or a raise, the engine it leaves stands in `R` to the one it found. -/
def Respects (R : Engine → Engine → Prop) (m : Proc α) : Prop := ∀ e, R e (endState (m e))

/-- What `Respects` needs of its relation. -/
structure Closed (R : Engine → Engine → Prop) : Prop where
  refl : ∀ e, R e e
  trans : ∀ {e e₁ e₂}, R e e₁ → R e₁ e₂ → R e e₂

/-- Equality of a view is such a relation. -/
theorem Closed.view {γ : Type} (f : Engine → γ) : Closed fun e e' => f e' = f e :=
  ⟨fun _ => rfl, fun h₁ h₂ => h₂.trans h₁⟩

namespace Closed

variable {R : Engine → Engine → Prop} (C : Closed R)
include C

theorem pure (a : α) : Respects R (Pure.pure a : Proc α) := fun e => C.refl e
theorem throw (r : Raise) : Respects R (MonadExcept.throw r : Proc α) := fun e => C.refl e
theorem raise (k : ErrorKind) : Respects R (Machine.raise k : Proc α) := fun e => C.refl e
theorem endWith (k : ErrorKind) (v : Word) : Respects R (Machine.endWith k v : Proc α) := fun e => C.refl e
theorem getSes : Respects R Machine.getSes := fun e => C.refl e
theorem get : Respects R (MonadState.get : Proc Engine) := fun e => C.refl e

theorem require (c : Bool) (k : ErrorKind) : Respects R (Machine.require c k) := by
  intro e; cases c <;> exact C.refl e

theorem bind {m : Proc α} {f : α → Proc β} (hm : Respects R m) (hf : ∀ a, Respects R (f a)) :
    Respects R (m >>= f) := by
  intro e
  have h := hm e
  rw [bind_run]
  cases hc : m e with
  | ok a e' => rw [hc] at h; exact C.trans h (hf a e')
  | error r e' => rw [hc] at h; exact h

theorem tryCatch {m : Proc α} {f : Raise → Proc α} (hm : Respects R m) (hf : ∀ r, Respects R (f r)) :
    Respects R (MonadExcept.tryCatch m f : Proc α) := by
  intro e
  have h := hm e
  rw [show (MonadExcept.tryCatch m f : Proc α) e = _ from tryCatch_run m f e]
  cases hc : m e with
  | ok a e' => rw [hc] at h; exact h
  | error r e' => rw [hc] at h; exact C.trans h (hf r e')

theorem onRaise {m : Proc α} {c : Proc Unit} (hm : Respects R m) (hc : Respects R c) :
    Respects R (Machine.onRaise m c) := C.tryCatch hm fun r => C.bind hc fun _ => C.throw r

omit C in
theorem attempt {m : Proc α} (hm : Respects R m) : Respects R (Machine.attempt m) := by
  intro e
  have h := hm e
  unfold Machine.attempt
  cases hc : m e with
  | ok a e' => rw [hc] at h; exact h
  | error r e' => rw [hc] at h; exact h

omit C in
theorem ite {c : Prop} [Decidable c] {m n : Proc α} (hm : Respects R m) (hn : Respects R n) :
    Respects R (if c then m else n) := by split <;> assumption

theorem onlyIf (c : Bool) {m : Proc Unit} (hm : Respects R m) : Respects R (Machine.onlyIf c m) := by
  unfold Machine.onlyIf; split
  · exact hm
  · exact C.pure _

theorem poll {read : Proc Word} (test : Word → Bool) (d : Nat) (hr : Respects R read)
    (hs : Respects R (sleep d)) : ∀ n, Respects R (Machine.poll read test d n)
  | 0 => C.pure _
  | n + 1 => C.bind hr fun v => by
      split
      · exact C.pure _
      · exact C.bind (C.onlyIf _ hs) fun _ => Closed.poll test d hr hs n

end Closed

end Sys2Proof.Machine
end

