-- ==== Sys2Proof/Laws/Talk.lean ====
section
/-! SUPPORT. What a procedure does when the target answers it: `Yields` says once what a procedure answers and leaves
after a script of wire activity, and one lemma for each way of combining procedures carries it along. -/

namespace Sys2Proof.Machine

variable {α β : Type}

/-- The engine with its wire fields as given. -/
def Engine.on (e : Engine) (bits : List Bool) (r : List WireEvent) (fl : InFlight) (ack : BitVec 3) : Engine :=
  { e with ses.swdio := bits, ses.record := r, ses.txn := fl, ses.dap.lastAck := ack }

theorem on_self (e : Engine) : e.on e.ses.swdio e.ses.record e.ses.txn e.ses.dap.lastAck = e := rfl

theorem on_wired (e : Engine) (bits : List Bool) (r : List WireEvent) (fl : InFlight) :
    e.on bits r fl (ackAfter r e.ses.dap.lastAck) = e.wired bits r fl := rfl

@[simp] theorem ackAfter_reverse (r : List WireEvent) (ack : BitVec 3) : ackAfter r.reverse ack = ackAfter r ack := by
  simp [ackAfter]

theorem ackAfter_append (a b : List WireEvent) (ack : BitVec 3) :
    ackAfter (a ++ b) ack = ackAfter b (ackAfter a ack) := by
  unfold ackAfter
  rw [List.any_append]
  cases a.any WireEvent.isSample <;> cases b.any WireEvent.isSample <;> simp

section on
variable (e : Engine) (bits : List Bool) (r : List WireEvent) (fl : InFlight) (ack : BitVec 3)

@[simp] theorem on_swdio : (e.on bits r fl ack).ses.swdio = bits := rfl
@[simp] theorem on_record : (e.on bits r fl ack).ses.record = r := rfl
@[simp] theorem on_retryCount : (e.on bits r fl ack).ses.dap.retryCount = e.ses.dap.retryCount := rfl
@[simp] theorem on_on (bits' : List Bool) (r' : List WireEvent) (fl' : InFlight) (ack' : BitVec 3) :
    (e.on bits r fl ack).on bits' r' fl' ack' = e.on bits' r' fl' ack' := rfl

end on

@[simp] theorem driven_append (a b : List Bool) : driven (a ++ b) = driven a ++ driven b := List.map_append
@[simp] theorem driven_cons (b : Bool) (bs : List Bool) : driven (b :: bs) = .drive b :: driven bs := rfl
@[simp] theorem driven_nil : driven [] = [] := rfl
@[simp] theorem sampled_append (a b : List Bool) : sampled (a ++ b) = sampled a ++ sampled b := List.map_append
@[simp] theorem sampled_cons (b : Bool) (bs : List Bool) : sampled (b :: bs) = .sample b :: sampled bs := rfl
@[simp] theorem sampled_nil : sampled [] = [] := rfl
@[simp] theorem driven_not_sampled (bs : List Bool) : (driven bs).any WireEvent.isSample = false := by
  simp [driven, WireEvent.isSample]

/-- Whatever the wire fields of `e` are, the procedure answers a value in `P` after the script and leaves `e'` with
its wire fields moved on. -/
def Yields (m : Proc α) (t : Script) (e : Engine) (P : α → Prop) (e' : Engine) : Prop :=
  ∀ bits rest evs r fl ack, talk t e.ses.dap.retryCount.toNat bits evs rest →
    e'.ses.dap.retryCount = e.ses.dap.retryCount ∧
    ∃ a fl', P a ∧ m (e.on bits r fl ack) = .ok a (e'.on rest (evs.reverse ++ r) fl' (ackAfter evs ack))

/-! ## Talk -/

theorem talk_append {t u : Script} {n : Nat} {bits rest : List Bool} {evs : List WireEvent} :
    talk (t ++ u) n bits evs rest ↔
      ∃ mid evs₁ evs₂, talk t n bits evs₁ mid ∧ talk u n mid evs₂ rest ∧ evs = evs₁ ++ evs₂ := by
  induction t generalizing bits evs with
  | nil =>
    constructor
    · intro h; exact ⟨bits, [], evs, ⟨rfl, rfl⟩, h, rfl⟩
    · rintro ⟨mid, e₁, e₂, ⟨rfl, rfl⟩, h, rfl⟩; simpa using h
  | cons d ds ih =>
    simp only [List.cons_append, talk, ih]
    constructor
    · rintro ⟨m, e₁, e₂, hd, ⟨m', e₃, e₄, h₃, h₄, rfl⟩, rfl⟩
      exact ⟨m', e₁ ++ e₃, e₄, ⟨m, e₁, e₃, hd, h₃, rfl⟩, h₄, by simp⟩
    · rintro ⟨m', e₅, e₄, ⟨m, e₁, e₃, hd, h₃, rfl⟩, h₄, rfl⟩
      exact ⟨m, e₁, e₃ ++ e₄, hd, ⟨m', e₃, e₄, h₃, h₄, rfl⟩, by simp⟩

theorem talk_singleton {d : Dialogue} {n : Nat} {bits rest : List Bool} {evs : List WireEvent} :
    talk [d] n bits evs rest ↔ d n bits evs rest := by
  constructor
  · rintro ⟨_, _, _, h, ⟨rfl, rfl⟩, rfl⟩; simpa using h
  · intro h; exact ⟨rest, evs, [], h, ⟨rfl, rfl⟩, by simp⟩

/-! ## Combining -/

namespace Yields

variable {m : Proc α} {f : α → Proc β} {t u : Script} {e e₁ e₂ : Engine} {P : α → Prop} {Q : β → Prop}

/-- One after the other. -/
theorem bind (hm : Yields m t e P e₁) (hf : ∀ a, P a → Yields (f a) u e₁ Q e₂) :
    Yields (m >>= f) (t ++ u) e Q e₂ := by
  intro bits rest evs r fl ack h
  obtain ⟨mid, e₃, e₄, h₁, h₂, rfl⟩ := talk_append.1 h
  obtain ⟨hr, a, fl', ha, hm'⟩ := hm _ _ _ r fl ack h₁
  rw [← hr] at h₂
  obtain ⟨hr', a', fl'', ha', hf'⟩ := hf a ha _ _ _ (e₃.reverse ++ r) fl' (ackAfter e₃ ack) h₂
  refine ⟨hr'.trans hr, a', fl'', ha', ?_⟩
  rw [bind_ok hm', hf', ackAfter_append]
  simp

/-- One after the other, the first answering one value. -/
theorem bind_eq {a : α} (hm : Yields m t e (· = a) e₁) (hf : Yields (f a) u e₁ Q e₂) :
    Yields (m >>= f) (t ++ u) e Q e₂ := bind hm fun _ h => h ▸ hf

/-- One after the other, the first without wire activity. -/
theorem bind_quiet (hm : Yields m [] e P e₁) (hf : ∀ a, P a → Yields (f a) u e₁ Q e₂) :
    Yields (m >>= f) u e Q e₂ := by simpa using bind hm hf

/-- One after the other, the second without wire activity. -/
theorem quiet_bind (hm : Yields m t e P e₁) (hf : ∀ a, P a → Yields (f a) [] e₁ Q e₂) :
    Yields (m >>= f) t e Q e₂ := by simpa using bind hm hf

theorem weaken {P' : α → Prop} (h : Yields m t e P e₁) (hp : ∀ a, P a → P' a) : Yields m t e P' e₁ := by
  intro bits rest evs r fl ack ht
  obtain ⟨hr, a, fl', ha, hm⟩ := h _ _ _ r fl ack ht
  exact ⟨hr, a, fl', hp a ha, hm⟩

/-- The same with the script written another way. -/
theorem as (h : Yields m t e P e₁) {t' : Script} (ht : t = t') :
    Yields m t' e P e₁ := ht ▸ h

/-- The same with the engine it leaves written another way. -/
theorem leaving (h : Yields m t e P e₁) (he : e₁ = e₂) : Yields m t e P e₂ := he ▸ h

theorem pure (a : α) (e : Engine) : Yields (Pure.pure a : Proc α) [] e (· = a) e := by
  rintro bits rest evs r fl ack ⟨rfl, rfl⟩
  exact ⟨rfl, a, fl, rfl, rfl⟩

/-- A procedure that looks at the session goes on as it would at the session without its wire fields. -/
theorem look {f : Session → Proc β} (hf : ∀ bits r fl ack, f (e.on bits r fl ack).ses = f e.ses)
    (h : Yields (f e.ses) u e Q e₂) : Yields (getSes >>= f) u e Q e₂ := by
  intro bits rest evs r fl ack ht
  obtain ⟨hr, a, fl', ha, hm⟩ := h _ _ _ r fl ack ht
  refine ⟨hr, a, fl', ha, ?_⟩
  rw [bind_ok (getSes_run _), hf, hm]

/-- An update of the session that leaves the wire fields alone. -/
theorem update {f : Session → Session}
    (hr : (f e.ses).dap.retryCount = e.ses.dap.retryCount)
    (hf : ∀ bits r fl ack, f (e.on bits r fl ack).ses = (Engine.on { e with ses := f e.ses } bits r fl ack).ses) :
    Yields (modifySes f) [] e (fun _ => True) { e with ses := f e.ses } := by
  rintro bits rest evs r fl ack ⟨rfl, rfl⟩
  refine ⟨hr, (), fl, trivial, ?_⟩
  rw [modifySes_run, hf]; rfl

theorem updateHart (h : HartId) (f : Hart → Hart) :
    Yields (modifyHart h f) [] e (fun _ => True)
      { e with ses := e.ses.setHart h (f (e.ses.hart h)) } := by
  refine update (f := fun s => s.setHart h (f (s.hart h))) (by simp) ?_
  intro bits r fl ack; rfl

theorem require {k : ErrorKind} {c : Bool} (h : c = true) :
    Yields (Machine.require c k) [] e (fun _ => True) e := by
  subst h
  rintro bits rest evs r fl ack ⟨rfl, rfl⟩
  exact ⟨rfl, (), fl, trivial, rfl⟩

theorem onRaise {d : Proc Unit} (h : Yields m t e P e₁) : Yields (Machine.onRaise m d) t e P e₁ := by
  intro bits rest evs r fl ack ht
  obtain ⟨hr, a, fl', ha, hm⟩ := h _ _ _ r fl ack ht
  exact ⟨hr, a, fl', ha, onRaise_ok hm⟩

theorem tryCatch {g : Raise → Proc α} (h : Yields m t e P e₁) :
    Yields (MonadExcept.tryCatch m g : Proc α) t e P e₁ := by
  intro bits rest evs r fl ack ht
  obtain ⟨hr, a, fl', ha, hm⟩ := h _ _ _ r fl ack ht
  exact ⟨hr, a, fl', ha, tryCatch_ok hm⟩

theorem attempt (h : Yields m t e P e₁) :
    Yields (Machine.attempt m) t e (fun x => ∃ a, P a ∧ x = .ok a) e₁ := by
  intro bits rest evs r fl ack ht
  obtain ⟨hr, a, fl', ha, hm⟩ := h _ _ _ r fl ack ht
  exact ⟨hr, .ok a, fl', ⟨a, ha, rfl⟩, attempt_ok hm⟩

theorem sleep (us : Nat) : Yields (Machine.sleep us) [pauses us] e (fun _ => True) e := by
  intro bits rest evs r fl ack ht
  obtain ⟨rfl, rfl⟩ := talk_singleton.1 ht
  exact ⟨rfl, (), fl, trivial, rfl⟩

end Yields

/-! ## Cycles -/

/-- The engine after events were added to the timeline. -/
def Engine.logged (e : Engine) (evs : List WireEvent) : Engine :=
  { e with ses.record := evs.reverse ++ e.ses.record }

@[simp] theorem logged_nil (e : Engine) : e.logged [] = e := rfl
@[simp] theorem logged_logged (e : Engine) (a b : List WireEvent) : (e.logged a).logged b = e.logged (a ++ b) := by
  simp [Engine.logged]

theorem drive_run (b : Bool) (e : Engine) : drive b e = .ok () (e.logged [.drive b]) := rfl
theorem release_run (e : Engine) : release e = .ok () (e.logged [.release]) := rfl
theorem sleep_run (us : Nat) (e : Engine) : sleep us e = .ok () (e.logged [.sleep us]) := rfl
theorem turnaround_run (e : Engine) : turnaround e = .ok () (e.logged [.release]) := rfl
theorem trailingIdle_run (e : Engine) : trailingIdle e = .ok () e := rfl

theorem driveBits_run (bs : List Bool) (e : Engine) :
    driveBits bs e = .ok () (e.logged (driven bs)) := by
  induction bs generalizing e with
  | nil => rfl
  | cons b bs ih => rw [driveBits, bind_ok (drive_run b e), ih]; simp

theorem driveRepeat_run (b : Bool) (n : Nat) (e : Engine) :
    driveRepeat b n e = .ok () (e.logged (driven (List.replicate n b))) := by
  induction n generalizing e with
  | zero => rfl
  | succ n ih => rw [driveRepeat, bind_ok (drive_run b e), ih]; simp [List.replicate_succ]

/-- The line reset: 56 ones, 8 zeros, the SELECT cache invalid (40_wire.md R84). -/
theorem lineResetSeq_run (e : Engine) :
    lineResetSeq e = .ok ()
      { e with
        ses.record := lineResetEvents.reverse ++ e.ses.record
        ses.dap.selValid := false } := by
  rw [lineResetSeq, bind_ok (driveRepeat_run _ _ e), bind_ok (driveRepeat_run _ _ _), logged_logged, ← driven_append]
  rfl

/-- The engine after samples. -/
def Engine.heard (e : Engine) (bs rest : List Bool) : Engine :=
  { e with ses.swdio := rest, ses.record := (sampled bs).reverse ++ e.ses.record }

theorem sample_run {e : Engine} {b : Bool} {rest : List Bool} (h : e.ses.swdio = b :: rest) :
    sample e = .ok b (e.heard [b] rest) := by unfold sample; rw [h]; rfl

theorem heard_heard (e : Engine) (a b r s : List Bool) : (e.heard a r).heard b s = e.heard (a ++ b) s := by
  simp [Engine.heard]

theorem sampleBits_run (bs : List Bool) {e : Engine} {rest : List Bool} (h : e.ses.swdio = bs ++ rest) :
    sampleBits bs.length e = .ok bs (e.heard bs rest) := by
  induction bs generalizing e with
  | nil => simp only [List.length_nil, sampleBits, List.nil_append] at *; subst h; rfl
  | cons b bs ih =>
    simp only [List.length_cons, sampleBits]
    rw [bind_ok (sample_run (b := b) (rest := bs ++ rest) (by simpa using h)), bind_ok (ih rfl), heard_heard]
    rfl

/-- The three acknowledge samples. -/
theorem sampleAck_run {e : Engine} {a0 a1 a2 : Bool} {rest : List Bool} (h : e.ses.swdio = a0 :: a1 :: a2 :: rest) :
    sampleAck e = .ok (ackOfBits a0 a1 a2) (e.heard [a0, a1, a2] rest) := by
  unfold sampleAck
  rw [bind_ok (sample_run h), bind_ok (sample_run rfl), bind_ok (sample_run rfl)]
  rfl

/-! ## Bits and words -/

theorem bitsOf_length {n : Nat} (w : BitVec n) : (bitsOf w).length = n := by simp [bitsOf]

theorem wordOfBits_bitsOf (w : Word) : wordOfBits (bitsOf w) = w := by
  apply BitVec.eq_of_getLsbD_eq
  intro i hi
  simp [wordOfBits, bitsOf, hi]

theorem bitsOf_requestByte (ap rnw : Bool) (a : BitVec 4) :
    bitsOf (requestByte ap rnw a) = [true, ap, rnw, a[2], a[3], ap ^^ rnw ^^ a[2] ^^ a[3], false, true] := by
  revert a; cases ap <;> cases rnw <;> decide

theorem ackOfBits_ok : ackOfBits true false false = 1 := by decide
theorem ackOfBits_wait : ackOfBits false true false = 2 := by decide
theorem ackOfBits_fault : ackOfBits false false true = 4 := by decide

/-! ## One transaction (40_wire.md R82) -/

/-- The engine after the request, the turnaround, the acknowledge samples and the note of the acknowledge. -/
def Engine.acked (e : Engine) (q : Request) (a0 a1 a2 : Bool) (rest : List Bool) : Engine :=
  { e with
    ses.swdio := rest
    ses.record := (requestEvents q.apndp q.rnw q.addr ++ sampled [a0, a1, a2]).reverse ++ e.ses.record
    ses.dap.lastAck := ackOfBits a0 a1 a2 }

/-- A transaction is what follows its acknowledge. -/
theorem txn_run (q : Request) {e : Engine} {a0 a1 a2 : Bool} {rest : List Bool}
    (h : e.ses.swdio = a0 :: a1 :: a2 :: rest) :
    ∃ e', txn q e = afterAck q (ackOfBits a0 a1 a2) e' ∧
      { e' with ses.dap.lastAck := ackOfBits a0 a1 a2 } = e.acked q a0 a1 a2 rest ∧
      e'.ses.dap.lastAck = e.ses.dap.lastAck := by
  refine ⟨((e.logged (driven (bitsOf (requestByte q.apndp q.rnw q.addr)))).logged
    [.release]).heard [a0, a1, a2] rest, ?_, ?_, ?_⟩
  · unfold txn
    exact (bind_ok (driveBits_run _ _)).trans ((bind_ok (turnaround_run _)).trans
      (bind_ok (sampleAck_run (rest := rest) h)))
  · rw [bitsOf_requestByte]
    simp [Engine.heard, Engine.logged, Engine.acked, requestEvents]
  · rfl

/-- The part of a transaction after the acknowledge is noted. -/
def afterMeaning (q : Request) : Ack → Proc Answer
  | .ok => if q.rnw then dataIn else dataOut q.wdata
  | .wait => do turnaround; trailingIdle; return .wait
  | .fault => do turnaround; trailingIdle; return .fault
  | .malformed => do turnaround; lineResetSeq; trailingIdle; raise .protocol

/-- Noting the acknowledge comes first after it. -/
theorem afterAck_run (q : Request) (ack : BitVec 3) (e : Engine) :
    afterAck q ack e = afterMeaning q (ackMeaning ack) { e with ses.dap.lastAck := ack } := by
  unfold afterAck
  rw [bind_ok (modifySes_run _ _)]
  cases ackMeaning ack <;> rfl

/-- The transaction after the acknowledge, in one equation. -/
theorem txn_eq (q : Request) {e : Engine} {a0 a1 a2 : Bool} {rest : List Bool}
    (h : e.ses.swdio = a0 :: a1 :: a2 :: rest) :
    txn q e = afterMeaning q (ackMeaning (ackOfBits a0 a1 a2)) (e.acked q a0 a1 a2 rest) := by
  obtain ⟨e', h₁, h₂, -⟩ := txn_run q h
  rw [h₁, afterAck_run, h₂]

/-- The data phase of a read. -/
theorem dataIn_run {e : Engine} {d : Word} {p : Bool} {rest : List Bool}
    (h : e.ses.swdio = bitsOf d ++ p :: rest) :
    dataIn e = (if p = xorReduce d then EStateM.Result.ok (Answer.ok d) else .error ⟨.parity, 0⟩)
      ((e.heard (bitsOf d ++ [p]) rest).logged [.release]) := by
  unfold dataIn
  have h' : sampleBits 32 e = .ok (bitsOf d) (e.heard (bitsOf d) (p :: rest)) := by
    rw [← sampleBits_run (bitsOf d) h, bitsOf_length]
  rw [bind_ok h', bind_ok (sample_run (b := p) (rest := rest) rfl), heard_heard, bind_ok (turnaround_run _),
    bind_ok (trailingIdle_run _), wordOfBits_bitsOf]
  by_cases hp : p = xorReduce d
  · subst hp
    rw [if_pos rfl, bind_ok (by rw [beq_self_eq_true]; exact require_true _ _)]; rfl
  · rw [if_neg hp, bind_error (r := ⟨.parity, 0⟩) (by rw [beq_false_of_ne hp]; exact require_false _ _)]

/-- The data phase of a write. -/
theorem dataOut_run (w : Word) (e : Engine) :
    dataOut w e = .ok (.ok 0) (e.logged ([.release] ++ driven (bitsOf w) ++ [.drive (xorReduce w)])) := by
  unfold dataOut
  rw [bind_ok (turnaround_run _), bind_ok (driveBits_run _ _), bind_ok (drive_run _ _),
    bind_ok (trailingIdle_run _), logged_logged, logged_logged]
  rfl

/-- An engine after the timeline `evs` of a transaction. -/
def Engine.after (e : Engine) (evs : List WireEvent) (rest : List Bool) (ack : BitVec 3) : Engine :=
  { e with ses.swdio := rest, ses.record := evs.reverse ++ e.ses.record, ses.dap.lastAck := ack }

/-- A read that is answered OK with good parity (R82, R83). -/
theorem txn_ok_read {q : Request} (hq : q.rnw = true) {e : Engine} {d : Word} {rest : List Bool}
    (h : e.ses.swdio = okReadBits d ++ rest) :
    txn q e = .ok (.ok d) (e.after (okReadEvents q.apndp q.addr d) rest 1) := by
  have h' : e.ses.swdio = true :: false :: false :: (bitsOf d ++ xorReduce d :: rest) := by
    simpa [okReadBits] using h
  rw [txn_eq q h', ackOfBits_ok]
  change (if q.rnw then dataIn else dataOut q.wdata) _ = _
  rw [if_pos hq, dataIn_run (rest := rest) rfl, if_pos rfl]
  simp [Engine.after, Engine.acked, Engine.heard, Engine.logged, okReadEvents, okReadBits, hq, ackOfBits_ok]

/-- A read that is answered OK with bad parity raises Parity, with no line reset (R83). -/
theorem txn_bad_parity {q : Request} (hq : q.rnw = true) {e : Engine} {d : Word} {rest : List Bool}
    (h : e.ses.swdio = [true, false, false] ++ bitsOf d ++ [!xorReduce d] ++ rest) :
    txn q e = .error ⟨.parity, 0⟩
      (e.after (requestEvents q.apndp true q.addr
        ++ sampled ([true, false, false] ++ bitsOf d ++ [!xorReduce d]) ++ [.release]) rest 1) := by
  have h' : e.ses.swdio = true :: false :: false :: (bitsOf d ++ (!xorReduce d) :: rest) := by simpa using h
  rw [txn_eq q h', ackOfBits_ok]
  change (if q.rnw then dataIn else dataOut q.wdata) _ = _
  rw [if_pos hq, dataIn_run (rest := rest) rfl, if_neg (by simp)]
  simp [Engine.after, Engine.acked, Engine.heard, Engine.logged, hq, ackOfBits_ok]

/-- A write that is acknowledged OK (R82). -/
theorem txn_ok_write {q : Request} (hq : q.rnw = false) {e : Engine} {rest : List Bool}
    (h : e.ses.swdio = okWriteBits ++ rest) :
    txn q e = .ok (.ok 0) (e.after (okWriteEvents q.apndp q.addr q.wdata) rest 1) := by
  rw [txn_eq q h, ackOfBits_ok]
  change (if q.rnw then dataIn else dataOut q.wdata) _ = _
  rw [hq, if_neg (by simp), dataOut_run]
  simp [Engine.after, Engine.acked, Engine.logged, okWriteEvents, okWriteBits, hq, ackOfBits_ok]

/-- A WAIT (R82). -/
theorem txn_wait (q : Request) {e : Engine} {rest : List Bool} (h : e.ses.swdio = waitBits ++ rest) :
    txn q e = .ok .wait (e.after (noDataEvents q.apndp q.rnw q.addr waitBits) rest 2) := by
  rw [txn_eq q h, ackOfBits_wait]
  change (turnaround >>= fun _ => trailingIdle >>= fun _ => pure Answer.wait) _ = _
  rw [bind_ok (turnaround_run _), bind_ok (trailingIdle_run _)]
  simp [Engine.after, Engine.acked, Engine.logged, noDataEvents, waitBits, ackOfBits_wait]

/-- A FAULT (R82). -/
theorem txn_fault (q : Request) {e : Engine} {rest : List Bool} (h : e.ses.swdio = faultBits ++ rest) :
    txn q e = .ok .fault (e.after (noDataEvents q.apndp q.rnw q.addr faultBits) rest 4) := by
  rw [txn_eq q h, ackOfBits_fault]
  change (turnaround >>= fun _ => trailingIdle >>= fun _ => pure Answer.fault) _ = _
  rw [bind_ok (turnaround_run _), bind_ok (trailingIdle_run _)]
  simp [Engine.after, Engine.acked, Engine.logged, noDataEvents, faultBits, ackOfBits_fault]

/-- Any other acknowledge: the line reset, then Protocol (R82, R84). -/
theorem txn_malformed (q : Request) {e : Engine} {a0 a1 a2 : Bool} {rest : List Bool}
    (hm : malformedAck (ackOfBits a0 a1 a2) = true) (h : e.ses.swdio = [a0, a1, a2] ++ rest) :
    ∃ e', txn q e = .error ⟨.protocol, 0⟩ e' ∧
      e' = { e.after (noDataEvents q.apndp q.rnw q.addr [a0, a1, a2] ++ lineResetEvents) rest
          (ackOfBits a0 a1 a2) with
        ses.dap.selValid := false } := by
  refine ⟨_, ?_, rfl⟩
  rw [txn_eq q h]
  have : ackMeaning (ackOfBits a0 a1 a2) = .malformed := by
    revert hm; cases a0 <;> cases a1 <;> cases a2 <;> decide
  rw [this]
  change (turnaround >>= fun _ => lineResetSeq >>= fun _ => trailingIdle >>= fun _ => raise .protocol) _ = _
  rw [bind_ok (turnaround_run _), bind_ok (lineResetSeq_run _), bind_ok (trailingIdle_run _)]
  simp [Engine.after, Engine.acked, Engine.logged, noDataEvents]

end Sys2Proof.Machine
end

