-- ==== Sys2Proof/Laws/Procedures.lean ====
section
/-! SUPPORT. One lemma per procedure of the spec: what it answers and leaves after its script (40_wire.md to
44_ops.md). -/

namespace Sys2Proof.Machine

/-! ## Alignment -/

theorem and_three (a : Word) : (a &&& 3).toNat = a.toNat % 4 := by
  rw [BitVec.toNat_and]
  exact Nat.and_two_pow_sub_one_eq_mod a.toNat 2

theorem aligned4_iff (a : Word) : aligned4 a = true ↔ a.toNat % 4 = 0 := by
  rw [← and_three, aligned4, beq_iff_eq, ← BitVec.toNat_inj]; rfl

/-- Every word of an aligned block is aligned (44_ops.md R154). -/
theorem aligned4_blockAddr {a : Word} (ha : aligned4 a = true) (i : Nat) : aligned4 (blockAddr a i) = true := by
  rw [aligned4_iff] at *
  simp only [blockAddr, BitVec.toNat_add, BitVec.toNat_ofNat, Config.xlen]
  omega

/-! ## The DM registers -/

/-- A DM register is at `DM_BASE` and its offset (10_state.md R29; 42_dm.md R115). -/
theorem dmAddress_eq (r : DmReg) : dmAddress r = Config.dmBase + dmOffset r := by
  cases r <;> first | rfl | exact (BitVec.zero_add _).symm

/-- Every DM register is aligned, every word of the program buffer among them. -/
theorem aligned4_dm (r : DmReg) : aligned4 (Config.dmBase + dmOffset r) = true := by
  cases r with
  | progbuf i => exact (BitVec.zero_add (blockAddr 0x80 i)).symm ▸ aligned4_blockAddr (by decide) i
  | _ => decide

/-- The mirror of a register number there is. -/
theorem reg_eq (x : Hart) (n : BitVec 5) : x.reg n = x.gpr[n.toNat]'n.isLt := by
  have h : n.toNat < Config.ngpr := n.isLt
  simp [Hart.reg, h]

theorem setReg_eq (x : Hart) (n : BitVec 5) (v : Word) :
    x.setReg n v = { x with gpr := x.gpr.set n.toNat v n.isLt } := by
  rw [Hart.setReg]
  congr 1
  ext i hi
  rw [Vector.getElem_setIfInBounds, Vector.getElem_set]

/-! ## The retry loop (41_dap.md R96) -/

theorem track_run (q : Request) (n : Nat) (e : Engine) :
    track q n e = .ok () (e.on e.ses.swdio e.ses.record ⟨q, n⟩ e.ses.dap.lastAck) := rfl

/-- One round of the loop is the transaction, then what its answer leads to. -/
theorem retry_eq (q : Request) (n : Nat) (e : Engine) :
    retry q n e = (txn q >>= settle (onWait q n)) (e.on e.ses.swdio e.ses.record ⟨q, n⟩ e.ses.dap.lastAck) := by
  cases n with
  | zero =>
    unfold retry
    exact bind_ok (track_run q 0 e)
  | succ n =>
    unfold retry
    exact bind_ok (track_run q (n + 1) e)

/-- At most n WAITs, then OK. -/
theorem retry_ok {q : Request} {d : Word} {okEvs : List WireEvent} {tail rest : List Bool}
    (ht : ∀ e : Engine, e.ses.swdio = tail → txn q e = .ok (.ok d) (e.after okEvs rest 1)) (k : Nat) :
    ∀ {n : Nat} (e : Engine), k ≤ n → e.ses.swdio = (List.replicate k waitBits).flatten ++ tail →
      ∃ fl, retry q n e = .ok d (e.on rest
        (((List.replicate k (waitEvents q.apndp q.rnw q.addr)).flatten ++ okEvs).reverse ++ e.ses.record) fl 1) := by
  induction k with
  | zero =>
    intro n e _ h
    refine ⟨⟨q, n⟩, (retry_eq q n e).trans ((bind_ok (ht _ (by simpa using h))).trans ?_)⟩
    simp only [settle, List.replicate_zero, List.flatten_nil, List.nil_append]
    rfl
  | succ k ih =>
    intro n e hn h
    obtain ⟨n, rfl⟩ : ∃ m, n = m + 1 := ⟨n - 1, by omega⟩
    have h' : e.ses.swdio = waitBits ++ ((List.replicate k waitBits).flatten ++ tail) := by
      simpa [List.replicate_succ] using h
    obtain ⟨fl, hr⟩ := ih (n := n)
      (((e.on e.ses.swdio e.ses.record ⟨q, n + 1⟩ e.ses.dap.lastAck).after
        (noDataEvents q.apndp q.rnw q.addr waitBits) ((List.replicate k waitBits).flatten ++ tail) 2).logged
          [.sleep Config.retryDelayUs]) (by omega) rfl
    refine ⟨fl, (retry_eq q (n + 1) e).trans ((bind_ok (txn_wait q
      (e := e.on e.ses.swdio e.ses.record ⟨q, n + 1⟩ e.ses.dap.lastAck) h')).trans ((bind_ok (sleep_run _ _)).trans
      (hr.trans ?_)))⟩
    simp [Engine.on, Engine.after, Engine.logged, List.replicate_succ, waitEvents, Config.retryDelayUs]

namespace Yields

variable {e : Engine}

/-- The loop on a transaction the target answers. -/
theorem retryTxn {q : Request} {d : Word} {okBits : List Bool} {okEvs : List WireEvent}
    (ht : ∀ (rest : List Bool) (e : Engine), e.ses.swdio = okBits ++ rest →
      txn q e = .ok (.ok d) (e.after okEvs rest 1)) (hs : okEvs.any WireEvent.isSample = true) :
    Yields (Machine.retryTxn q) [answered q.apndp q.rnw q.addr okBits okEvs] e (· = d) e := by
  intro bits rest evs r fl ack h
  obtain ⟨k, hk, rfl, rfl⟩ := talk_singleton.1 h
  obtain ⟨fl', hr⟩ := retry_ok (ht rest) k (e.on ((List.replicate k waitBits).flatten ++ okBits ++ rest) r fl ack) hk
    (by simp [Engine.on])
  refine ⟨rfl, d, fl', rfl, (bind_ok (getSes_run _)).trans (hr.trans ?_)⟩
  rw [ackAfter, List.any_append, hs, Bool.or_true, if_pos rfl]
  rfl

/-- A read answered with some word that passes a test. -/
theorem some_of_each {α : Type} {m : Proc α} {e' : Engine} {ap : Bool} {a : BitVec 4} {p : Word → Bool} {P : α → Prop}
    (h : ∀ d, p d = true → Yields m [reads ap a d] e P e') :
    Yields m [readsSome ap a p] e P e' := by
  intro bits rest evs r fl ack ht
  obtain ⟨d, hp, hd⟩ := talk_singleton.1 ht
  exact h d hp _ _ _ r fl ack (talk_singleton.2 hd)

theorem txnRead (ap : Bool) (a : BitVec 4) (w d : Word) :
    Yields (Machine.retryTxn ⟨ap, true, a, w⟩) [reads ap a d] e (· = d) e :=
  retryTxn (fun _ _ h => txn_ok_read rfl h) (by simp [okReadEvents, okReadBits, WireEvent.isSample])

theorem txnReadSome (ap : Bool) (a : BitVec 4) (w : Word) (p : Word → Bool) :
    Yields (Machine.retryTxn ⟨ap, true, a, w⟩) [readsSome ap a p] e (fun d => p d = true) e :=
  some_of_each fun d hp => (txnRead ap a w d).weaken fun _ h => h ▸ hp

theorem txnWrite (ap : Bool) (a : BitVec 4) (w : Word) :
    Yields (Machine.retryTxn ⟨ap, false, a, w⟩) [writes ap a w] e (· = 0) e :=
  retryTxn (fun _ _ h => txn_ok_write rfl h) (by simp [okWriteEvents, okWriteBits, WireEvent.isSample])

/-! ## DP and AP access (41_dap.md R98, R102 to R104) -/

theorem dpRead (a : BitVec 4) (p : Word → Bool) :
    Yields (Machine.dpRead a) [readsSome false a p] e (fun d => p d = true) e := txnReadSome _ _ _ _

theorem dpWrite (a : BitVec 4) (w : Word) :
    Yields (Machine.dpWrite a w) [writes false a w] e (fun _ => True) e :=
  quiet_bind (txnWrite _ _ _) fun _ _ => (pure () e).weaken fun _ _ => trivial


/-- The SELECT cache of an engine holds (apsel, bank, AP_CTRLSEL). -/
theorem selectHit (apsel bank : BitVec 4) (h : e.ses.selectHit apsel bank = true) :
    Yields (selectAp apsel bank) [] e (fun _ => True) e := by
  refine look (fun _ _ _ _ => rfl) ?_
  rw [if_pos h]
  exact (pure () e).weaken fun _ _ => trivial

end Yields

/-- The engine with its SELECT cache holding (apsel, bank, AP_CTRLSEL) (41_dap.md R102). -/
def Engine.selecting (e : Engine) (apsel bank : BitVec 4) : Engine :=
  { e with
    ses.dap.selValid := true, ses.dap.currentApsel := apsel, ses.dap.currentBank := bank, ses.dap.ctrlsel := 1 }

theorem selectHit_iff (s : Session) (apsel bank : BitVec 4) : s.selectHit apsel bank = true ↔
    s.dap.selValid = true ∧ s.dap.currentApsel = apsel ∧ s.dap.currentBank = bank ∧ s.dap.ctrlsel = 1 := by
  simp [Session.selectHit, Config.apCtrlsel, and_assoc]

/-- A hit leaves the cache as it is. -/
theorem selecting_of_hit {e : Engine} {apsel bank : BitVec 4} (h : e.ses.selectHit apsel bank = true) :
    e.selecting apsel bank = e := by
  obtain ⟨h₁, rfl, rfl, h₂⟩ := (selectHit_iff _ _ _).1 h
  obtain ⟨⟨_, _, _, _, _, ⟨_, _, _, _, _, _, _⟩, _, _, _, _, _, _, _⟩, _, _, _⟩ := e
  simp_all [Engine.selecting]

theorem selecting_hit (e : Engine) (apsel bank : BitVec 4) :
    (e.selecting apsel bank).ses.selectHit apsel bank = true := by
  simp [selectHit_iff, Engine.selecting]

namespace Yields

variable {e : Engine}

/-- The SELECT write of a miss. -/
theorem writeSelect (apsel bank : BitVec 4) :
    Yields (Machine.writeSelect apsel bank) (selectScript apsel bank) e (fun _ => True)
      (e.selecting apsel bank) :=
  bind_quiet (update (e := e) rfl fun _ _ _ _ => rfl) fun _ _ =>
    quiet_bind (dpWrite _ _) fun _ _ => update rfl fun _ _ _ _ => rfl

/-- SelectAp, hit or miss. -/
theorem selectAp (apsel bank : BitVec 4) :
    Yields (Machine.selectAp apsel bank) (maybeSelect (e.ses.selectHit apsel bank) apsel bank) e
      (fun _ => True) (e.selecting apsel bank) := by
  by_cases h : e.ses.selectHit apsel bank = true
  · rw [h, selecting_of_hit h]; exact selectHit _ _ h
  · refine look (fun _ _ _ _ => rfl) ?_
    rw [if_neg h, Bool.eq_false_iff.2 h]
    exact writeSelect _ _

/-- AP write, hit or miss. -/
theorem apWrite (apsel : BitVec 4) (reg : Byte) (w : Word) :
    Yields (Machine.apWrite apsel reg w)
      (maybeSelect (e.ses.selectHit apsel (apBank reg)) apsel (apBank reg) ++ apWriteScript reg w) e
      (fun _ => True) (e.selecting apsel (apBank reg)) :=
  (bind (selectAp apsel (apBank reg)) fun _ _ =>
    bind (txnWrite true (apAddr reg) w) fun _ _ =>
      quiet_bind (dpRead dpRdbuff fun _ => true) fun _ _ => (pure () _).weaken fun _ _ => trivial).as rfl

/-- AP read, hit or miss. -/
theorem apRead (apsel : BitVec 4) (reg : Byte) (p : Word → Bool) :
    Yields (Machine.apRead apsel reg)
      (maybeSelect (e.ses.selectHit apsel (apBank reg)) apsel (apBank reg) ++ apReadScript reg p) e
      (fun d => p d = true) (e.selecting apsel (apBank reg)) :=
  (bind (selectAp apsel (apBank reg)) fun _ _ =>
    bind (txnReadSome true (apAddr reg) 0 fun _ => true) fun _ _ => dpRead dpRdbuff p).as rfl

/-- AP write on a hit. -/
theorem apWriteHit {apsel : BitVec 4} {reg : Byte} (w : Word) (h : e.ses.selectHit apsel (apBank reg) = true) :
    Yields (Machine.apWrite apsel reg w) (apWriteScript reg w) e (fun _ => True) e := by
  have := apWrite (e := e) apsel reg w
  rwa [h, selecting_of_hit h] at this

/-- AP read on a hit. -/
theorem apReadHit {apsel : BitVec 4} {reg : Byte} (p : Word → Bool) (h : e.ses.selectHit apsel (apBank reg) = true) :
    Yields (Machine.apRead apsel reg) (apReadScript reg p) e (fun d => p d = true) e := by
  have := apRead (e := e) apsel reg p
  rwa [h, selecting_of_hit h] at this

/-! ## The MEM-AP path and DM registers (41_dap.md R110; 42_dm.md R115) -/

theorem memApWrite {a : Word} (w : Word) (ha : aligned4 a = true) (h : e.ses.selectHit 0xA 0 = true) :
    Yields (Machine.memApWrite a w) (memApWriteScript a w) e (fun _ => True) e :=
  (bind_quiet (require ha) fun _ _ => bind (apWriteHit a h) fun _ _ => apWriteHit w h).as rfl

theorem memApRead {a : Word} (p : Word → Bool) (ha : aligned4 a = true) (h : e.ses.selectHit 0xA 0 = true) :
    Yields (Machine.memApRead a) (memApReadScript a p) e (fun d => p d = true) e :=
  (bind_quiet (require ha) fun _ _ => bind (apWriteHit a h) fun _ _ => apReadHit p h).as rfl

theorem dmWrite (r : DmReg) (w : Word) (h : e.ses.selectHit 0xA 0 = true) :
    Yields (Machine.dmWrite r w) (dmWriteScript r w) e (fun _ => True) e := by
  rw [dmWriteScript, dmAddress_eq]; exact memApWrite w (aligned4_dm r) h

theorem dmRead (r : DmReg) (p : Word → Bool) (h : e.ses.selectHit 0xA 0 = true) :
    Yields (Machine.dmRead r) (dmReadScript r p) e (fun d => p d = true) e := by
  rw [dmReadScript, dmAddress_eq]; exact memApRead p (aligned4_dm r) h

theorem selectHart (x : HartId) (h : e.ses.selectHit 0xA 0 = true) :
    Yields (Machine.selectHart x) (selectHartScript x) e (fun _ => True) e := dmWrite _ _ h

/-- The poll loop, when a read hits in time (60_exceptions.md R169). -/
theorem poll {read : Proc Word} {script : (Word → Bool) → Script} {test hit miss : Word → Bool} {us : Nat}
    (hr : ∀ p, Yields read (script p) e (fun d => p d = true) e)
    (hhit : ∀ v, hit v = true → test v = true) (hmiss : ∀ v, miss v = true → test v = false) :
    ∀ n, Yields (Machine.poll read test us n) [awaits script hit miss us n] e
      (fun o => ∃ v, o = some v ∧ hit v = true) e
  | 0 => by intro bits rest evs r fl ack ht; exact (talk_singleton.1 ht).elim
  | n + 1 => by
    intro bits rest evs r fl ack ht
    rcases talk_singleton.1 ht with ht | ht
    · have h₁ : Yields (Machine.poll read test us (n + 1)) (script hit) e
          (fun o => ∃ v, o = some v ∧ hit v = true) e :=
        quiet_bind (hr hit) fun v hv => by
          rw [if_pos (hhit v hv)]
          exact (pure _ e).weaken fun _ h => ⟨v, h, hv⟩
      exact h₁ _ _ _ r fl ack ht
    · cases n with
      | zero =>
        obtain ⟨_, _, _, _, ⟨_, _, _, _, ⟨_, _, _, h, _⟩, _⟩, _⟩ := talk_append.1 ht
        exact h.elim
      | succ n =>
        have h₁ : Yields (Machine.poll read test us (n + 2))
            (script miss ++ [pauses us, awaits script hit miss us (n + 1)]) e
            (fun o => ∃ v, o = some v ∧ hit v = true) e :=
          (bind (hr miss) fun v hv => by
            rw [hmiss v hv]
            exact bind (u := [awaits script hit miss us (n + 1)]) (sleep us) fun _ _ =>
              poll hr hhit hmiss (n + 1)).as rfl
        exact h₁ _ _ _ r fl ack ht

end Yields

/-! ## Harts (42_dm.md sections 4 to 6) -/

/-- Change one hart of an engine. -/
def Engine.withHart (e : Engine) (h : HartId) (f : Hart → Hart) : Engine :=
  { e with ses := e.ses.setHart h (f (e.ses.hart h)) }

section withHart
variable (e : Engine) (h : HartId) (f g : Hart → Hart)

@[simp] theorem withHart_selectHit (a b : BitVec 4) :
    (e.withHart h f).ses.selectHit a b = e.ses.selectHit a b := setHart_selectHit _ _ _ _ _
@[simp] theorem withHart_dm : (e.withHart h f).ses.dm = e.ses.dm := setHart_dm _ _ _
@[simp] theorem withHart_dap : (e.withHart h f).ses.dap = e.ses.dap := setHart_dap _ _ _
@[simp] theorem withHart_port : (e.withHart h f).ses.port = e.ses.port := setHart_port _ _ _
@[simp] theorem withHart_connected : (e.withHart h f).ses.connected = e.ses.connected := setHart_connected _ _ _
@[simp] theorem withHart_hart : (e.withHart h f).ses.hart h = f (e.ses.hart h) := hart_setHart_same _ _ _
@[simp] theorem withHart_withHart : (e.withHart h f).withHart h g = e.withHart h (fun x => g (f x)) := by
  simp [Engine.withHart]
@[simp] theorem withHart_id : e.withHart h (fun x => x) = e := by simp [Engine.withHart]

end withHart

@[simp] theorem mirrored_known (x : Hart) (on : Bool) (n : BitVec 5) (v : Word) :
    (x.mirrored on n v).known = x.known := by unfold Hart.mirrored; split <;> rfl
@[simp] theorem mirrored_halted (x : Hart) (on : Bool) (n : BitVec 5) (v : Word) :
    (x.mirrored on n v).halted = x.halted := by unfold Hart.mirrored; split <;> rfl
@[simp] theorem mirrored_cacheValid (x : Hart) (on : Bool) (n : BitVec 5) (v : Word) :
    (x.mirrored on n v).cacheValid = x.cacheValid := by unfold Hart.mirrored; split <;> rfl

/-- Two mirrorings of one register: the later one stays. -/
@[simp] theorem mirrored_mirrored (x : Hart) (on : Bool) (n : BitVec 5) (v w : Word) :
    (x.mirrored on n v).mirrored on n w = x.mirrored on n w := by
  unfold Hart.mirrored; split <;> simp

namespace Yields

variable {e : Engine}

theorem modifyHart (h : HartId) (f : Hart → Hart) :
    Yields (Machine.modifyHart h f) [] e (fun _ => True) (e.withHart h f) := updateHart h f

theorem mirror (h : HartId) (n : BitVec 5) (v : Word) :
    Yields (Machine.mirror h n v) [] e (fun _ => True)
      (e.withHart h (·.mirrored e.ses.dm.cacheEnabled n v)) := by
  refine look (fun _ _ _ _ => rfl) ?_
  unfold Hart.mirrored
  simp only [← setReg_eq]
  split
  · exact modifyHart h _
  · simpa using (pure () e).weaken fun _ _ => trivial

theorem learnHart (h : HartId) (b : Bool) :
    Yields (Machine.learnHart h b) [] e (fun _ => True)
      (e.withHart h fun x => { x with halted := b, known := true }) := modifyHart _ _

theorem forgetHart (h : HartId) :
    Yields (Machine.forgetHart h) [] e (fun _ => True)
      (e.withHart h fun x => { x with cacheValid := false, known := false }) := modifyHart _ _

theorem awaitStatus (p : Word → Bool) (hs : e.ses.selectHit 0xA 0 = true) :
    Yields (Machine.awaitStatus p) (awaitStatusScript p) e (fun _ => True) e :=
  quiet_bind (poll (fun q => dmRead .dmstatus q hs) (fun _ h => h) (fun v h => by simpa using h) _)
    fun o ho => by
      obtain ⟨v, rfl, _⟩ := ho
      exact (pure () e).weaken fun _ _ => trivial

theorem waitAbstract (hs : e.ses.selectHit 0xA 0 = true) :
    Yields Machine.waitAbstract waitAbstractScript e (fun _ => True) e :=
  quiet_bind (poll (hit := fun v => !v[12] && v.extractLsb' 8 3 == 0) (miss := fun v => v[12])
      (fun q => dmRead .abstractcs q hs) (fun v h => by simp only [Bool.and_eq_true] at h; exact h.1)
      (fun v h => by simp [abstractBusy, h]) _)
    fun o ho => by
      obtain ⟨v, rfl, hv⟩ := ho
      have : cmderr v = 0 := by simp only [Bool.and_eq_true, beq_iff_eq] at hv; exact hv.2
      simp only [this, if_true]
      exact (pure () e).weaken fun _ _ => trivial

theorem exactly {m : Proc Word} {t : Script} {e' : Engine} {v : Word}
    (h : Yields m t e (fun d => (d == v) = true) e') : Yields m t e (· = v) e' :=
  h.weaken fun _ h => by simpa using h

theorem gprRead (n : BitVec 5) (v : Word) (hs : e.ses.selectHit 0xA 0 = true) :
    Yields (Machine.gprRead n) (gprReadScript n v) e (· = v) e :=
  (bind (dmWrite _ _ hs) fun _ _ => bind (waitAbstract hs) fun _ _ => exactly (dmRead .data0 (· == v) hs)).as
    (by simp [gprReadScript])

theorem gprWrite (n : BitVec 5) (v : Word) (hs : e.ses.selectHit 0xA 0 = true) :
    Yields (Machine.gprWrite n v) (gprWriteScript n v) e (fun _ => True) e :=
  (bind (dmWrite _ _ hs) fun _ _ => bind (dmWrite _ _ hs) fun _ _ => waitAbstract hs).as
    (by simp [gprWriteScript])

/-- ReadReg over the wire. -/
theorem readRegMiss (h : HartId) (n : BitVec 5) (v : Word) (hs : e.ses.selectHit 0xA 0 = true)
    (hm : e.ses.mirrorHit h = false) :
    Yields (Machine.readReg h n) (readRegScript h n v) e (· = v)
      (e.withHart h (·.mirrored e.ses.dm.cacheEnabled n v)) := by
  refine look (fun _ _ _ _ => rfl) ?_
  rw [if_neg (by simpa [Session.mirrorHit] using hm)]
  refine (bind (selectHart h hs) fun _ _ => quiet_bind (gprRead n v hs) fun a ha => ?_).as rfl
  subst ha
  exact bind_quiet (mirror h n a) fun _ _ => pure a _

/-- ReadReg from the mirror. -/
theorem readRegHit (h : HartId) (n : BitVec 5) (hm : e.ses.mirrorHit h = true) :
    Yields (Machine.readReg h n) [] e (· = (e.ses.hart h).gpr[n.toNat]'n.isLt) e := by
  refine look (fun _ _ _ _ => rfl) ?_
  rw [if_pos (by simpa [Session.mirrorHit] using hm), ← reg_eq]
  exact pure _ e

theorem writeReg (h : HartId) (n : BitVec 5) (v : Word) (hs : e.ses.selectHit 0xA 0 = true) :
    Yields (Machine.writeReg h n v) (writeRegScript h n v) e (fun _ => True)
      (e.withHart h (·.mirrored e.ses.dm.cacheEnabled n v)) :=
  quiet_bind (onRaise (bind (selectHart h hs) fun _ _ => gprWrite n v hs)) fun _ _ => mirror h n v

/-- The words of the list, from word `i` of the program buffer on (42_dm.md R131). -/
theorem writeProgbuf (hs : e.ses.selectHit 0xA 0 = true) : ∀ (l : List Word) (i : Nat),
    Yields (Machine.writeProgbuf i l) ((l.zipIdx i).flatMap fun x => dmWriteScript (.progbuf x.2) x.1) e
      (fun _ => True) e
  | [], _ => (pure () e).weaken fun _ _ => trivial
  | w :: ws, i => (bind (dmWrite (.progbuf i) w hs) fun _ _ => writeProgbuf hs ws (i + 1)).as (by simp)

/-- `SelectHart` and RunProgbuf of any program (42_dm.md R131). -/
theorem runProgbuf (h : HartId) (l : List Word) (hs : e.ses.selectHit 0xA 0 = true) :
    Yields (do Machine.selectHart h; Machine.runProgbuf h l) (progbufScript h l) e (fun _ => True)
      (e.withHart h fun x => { x with cacheValid := false }) :=
  (bind (selectHart h hs) fun _ _ => bind (writeProgbuf hs l 0)
    fun _ _ => bind_quiet (modifyHart h _) fun _ _ => bind (dmWrite .command _ (by simpa using hs)) fun _ _ =>
      waitAbstract (by simpa using hs)).as (by simp [progbufScript, Config.postexecCommand])

/-- A procedure, then the restore of s0. -/
theorem thenRestoreS0 {α : Type} {m : Proc α} {t : Script} {P : α → Prop} {e₁ : Engine} (h : HartId)
    (s0 : Word) (hm : Yields m t e P e₁) (hs : e₁.ses.selectHit 0xA 0 = true) :
    Yields (Machine.thenRestoreS0 h s0 m) (t ++ writeRegScript h 8 s0) e P
      (e₁.withHart h (·.mirrored e₁.ses.dm.cacheEnabled 8 s0)) :=
  (bind (attempt hm) fun x hx => quiet_bind (attempt (writeReg h regS0 s0 hs)) fun y hy => by
    obtain ⟨a, ha, rfl⟩ := hx
    obtain ⟨_, _, rfl⟩ := hy
    exact (pure a _).weaken fun _ h => h ▸ ha).as rfl

end Yields

/-- A mirror that already holds s0 is not changed by it. -/
theorem mirrored_self (x : Hart) (on : Bool) : x.mirrored on 8 (x.gpr[8]) = x := by
  unfold Hart.mirrored; split
  · obtain ⟨_, _, _, ⟨g, hg⟩⟩ := x; simp
  · rfl

namespace Yields

variable {e : Engine}

/-- The read of s0 that a CSR access begins with. -/
theorem readS0 {hit : Bool} (h : HartId) (s0 : Word) (hs : e.ses.selectHit 0xA 0 = true)
    (hm : hit = e.ses.mirrorHit h) (h0 : hit = true → s0 = (e.ses.hart h).gpr[8]) :
    Yields (Machine.readReg h regS0) (maybeReadReg hit h 8 s0) e (· = s0)
      (e.withHart h (·.mirrored e.ses.dm.cacheEnabled 8 s0)) := by
  cases hit with
  | true =>
    have he : e.withHart h (·.mirrored e.ses.dm.cacheEnabled 8 s0) = e := by
      rw [h0 rfl, Engine.withHart, mirrored_self, setHart_hart]
    rw [he, h0 rfl]
    exact readRegHit h regS0 hm.symm
  | false => exact readRegMiss h regS0 s0 hs hm.symm

/-- The same after the halves are put together again. -/
theorem regroup {α : Type} {m n : Proc Unit} {k : Proc α} {t : Script} {P : α → Prop}
    {e' : Engine} (h : Yields (do (do m; n); k) t e P e') : Yields (do m; n; k) t e P e' := by
  rwa [bind_assoc] at h

/-- CsrRead (42_dm.md R132). -/
theorem csrRead {hit : Bool} (h : HartId) (c : BitVec 12) (s0 v : Word) (hs : e.ses.selectHit 0xA 0 = true)
    (hm : hit = e.ses.mirrorHit h) (h0 : hit = true → s0 = (e.ses.hart h).gpr[8]) :
    Yields (Machine.csrRead h c) (csrReadScript hit h c s0 v) e (· = v)
      (e.withHart h (·.afterCsr e.ses.dm.cacheEnabled s0)) := by
  have h₁ : Yields (do
        Machine.selectHart h
        Machine.runProgbuf h [insnCsrr c, Config.insnEbreak]
        Machine.readReg h regS0) (progbufScript h [insnCsrr c, Config.insnEbreak] ++ readRegScript h 8 v)
      (e.withHart h (·.mirrored e.ses.dm.cacheEnabled 8 s0)) (· = v) _ :=
    (bind (runProgbuf h _ (by simpa using hs)) fun _ _ =>
      readRegMiss h regS0 v (by simpa using hs) (by simp [Session.mirrorHit])).regroup
  have h₂ := thenRestoreS0 h s0 h₁ (by simpa using hs)
  exact ((bind_eq (readS0 h s0 hs hm h0) h₂).as (by simp [csrReadScript, Config.insnEbreak])).leaving
    (by
      simp only [withHart_withHart, withHart_dm]
      exact congrArg _ (funext fun x => by simp only [Hart.mirrored, Hart.afterCsr, regS0]; split <;> simp))

/-- CsrWrite (42_dm.md R132). -/
theorem csrWrite {hit : Bool} (h : HartId) (c : BitVec 12) (s0 v : Word) (hs : e.ses.selectHit 0xA 0 = true)
    (hm : hit = e.ses.mirrorHit h) (h0 : hit = true → s0 = (e.ses.hart h).gpr[8]) :
    Yields (Machine.csrWrite h c v) (csrWriteScript hit h c s0 v) e (fun _ => True)
      (e.withHart h (·.afterCsr e.ses.dm.cacheEnabled s0)) := by
  have h₁ : Yields (do
        Machine.writeReg h regS0 v
        Machine.selectHart h
        Machine.runProgbuf h [insnCsrw c, Config.insnEbreak])
      (writeRegScript h 8 v ++ progbufScript h [insnCsrw c, Config.insnEbreak])
      (e.withHart h (·.mirrored e.ses.dm.cacheEnabled 8 s0)) (fun _ => True) _ :=
    bind (writeReg h regS0 v (by simpa using hs)) fun _ _ => runProgbuf h _ (by simpa using hs)
  have h₂ := thenRestoreS0 h s0 h₁ (by simpa using hs)
  exact ((bind_eq (readS0 h s0 hs hm h0) h₂).as (by simp [csrWriteScript, Config.insnEbreak])).leaving
    (by
      simp only [withHart_withHart, withHart_dm]
      exact congrArg _ (funext fun x => by simp only [Hart.mirrored, Hart.afterCsr, regS0]; split <;> simp))

end Yields
end Sys2Proof.Machine
end

