-- ==== Sys2Proof/Laws/Sequences.lean ====
section
/-! SUPPORT. One lemma per longer procedure of the spec: halting and stepping, System Bus Access, memory, power-up and
initialisation (41_dap.md to 44_ops.md). -/

namespace Sys2Proof.Machine

@[simp] theorem withHart_mirrorHit_knownHalted (e : Engine) (h : HartId) :
    (e.withHart h Hart.knownHalted).ses.mirrorHit h = e.ses.mirrorHit h := by
  simp [Session.mirrorHit, Hart.knownHalted]

theorem knownHalted_of {x : Hart} (hk : x.known = true) (hh : x.halted = true) : x.knownHalted = x := by
  obtain ⟨_, _, _, _⟩ := x; simp_all [Hart.knownHalted]

namespace Yields

variable {e : Engine}

/-! ## Halt state -/

/-- RequireHalted on a hart that is halted. -/
theorem requireHalted (h : HartId) (hs : e.ses.selectHit 0xA 0 = true)
    (hk : (e.ses.hart h).known = true → (e.ses.hart h).halted = true) :
    Yields (Machine.requireHalted h) (requireHaltedScript (e.ses.hart h).known h) e
      (fun _ => True) (e.withHart h Hart.knownHalted) := by
  have hq : Yields (queryHalted h) (requireHaltedScript (e.ses.hart h).known h) e
      (· = true) (e.withHart h Hart.knownHalted) := by
    refine look (fun _ _ _ _ => rfl) ?_
    cases hc : (e.ses.hart h).known with
    | true =>
      have he : e.withHart h Hart.knownHalted = e := by
        rw [Engine.withHart, knownHalted_of hc (hk hc), setHart_hart]
      rw [if_pos rfl, he, hk hc]
      exact pure true e
    | false =>
      rw [if_neg (by simp)]
      refine (bind (selectHart h hs) fun _ _ => quiet_bind (dmRead .dmstatus allHalted hs) fun v hv => ?_).as rfl
      refine bind_quiet ((modifyHart h _).leaving (e₂ := e.withHart h Hart.knownHalted) ?_) fun _ _ => ?_
      · simp only [hv, Bool.and_true]; rfl
      · rw [hv]; exact pure true _
  exact quiet_bind hq fun b hb => by subst hb; exact require rfl

/-- Halt of a hart that is unknown or running. -/
theorem haltHart (h : HartId) (hs : e.ses.selectHit 0xA 0 = true)
    (hk : ((e.ses.hart h).known && (e.ses.hart h).halted) = false) :
    Yields (Machine.haltHart h) (haltScript h) e (· = false)
      (e.withHart h fun x => { x with known := true, halted := true, cacheValid := false }) := by
  refine look (fun _ _ _ _ => rfl) ?_
  rw [if_neg (by simp [hk])]
  exact ((bind_quiet (forgetHart h) fun _ _ => bind (dmWrite .dmcontrol _ (by simpa using hs)) fun _ _ =>
    quiet_bind (awaitStatus allHalted (by simpa using hs)) fun _ _ => bind_quiet (learnHart h true) fun _ _ =>
      pure false _).as rfl).leaving (by simp)

/-- Resume of a hart that is unknown or halted. -/
theorem resumeHart (h : HartId) (hs : e.ses.selectHit 0xA 0 = true)
    (hk : ((e.ses.hart h).known && !(e.ses.hart h).halted) = false) :
    Yields (Machine.resumeHart h) (resumeScript h) e (fun _ => True)
      (e.withHart h fun x => { x with known := true, halted := false, cacheValid := false }) := by
  refine look (fun _ _ _ _ => rfl) ?_
  rw [if_neg (by simpa using hk)]
  exact ((bind_quiet (forgetHart h) fun _ _ => bind (dmWrite .dmcontrol _ (by simpa using hs)) fun _ _ =>
    quiet_bind (awaitStatus allRunning (by simpa using hs)) fun _ _ => learnHart h false).as rfl).leaving (by simp)

/-- Step. -/
theorem stepHart {hit : Bool} (h : HartId) (dcsr s0 s0' s0'' : Word) (hs : e.ses.selectHit 0xA 0 = true)
    (hm : hit = e.ses.mirrorHit h) (h0 : hit = true → s0 = (e.ses.hart h).gpr[8]) :
    Yields (Machine.stepHart h) (stepScript hit h dcsr s0 s0' s0'') e (fun _ => True)
      (e.withHart h fun x => (x.afterCsr e.ses.dm.cacheEnabled s0'').knownHalted) :=
  ((bind_eq (csrRead h csrDcsr s0 dcsr hs hm h0)
    (bind (csrWrite (hit := false) h csrDcsr s0' _ (by simpa using hs) (by simp [Session.mirrorHit, Hart.afterCsr])
        (by simp)) fun _ _ =>
      bind_quiet (forgetHart h) fun _ _ =>
        bind (dmWrite .dmcontrol _ (by simpa using hs)) fun _ _ =>
          bind (dmWrite .dmcontrol _ (by simpa using hs)) fun _ _ =>
            bind (awaitStatus allHalted (by simpa using hs)) fun _ _ =>
              bind_quiet (learnHart h true) fun _ _ =>
                csrWrite (hit := false) h csrDcsr s0'' dcsr (by simpa using hs)
                  (by simp [Session.mirrorHit, Hart.afterCsr]) (by simp))).as (by simp [stepScript, csrDcsr])).leaving (by
      simp only [withHart_withHart, withHart_dm]
      exact congrArg _ (funext fun x => by
        simp only [Hart.afterCsr, Hart.knownHalted, Hart.mirrored]; split <;> simp))

/-! ## System Bus Access and memory -/

theorem sbaRead (a d : Word) (hs : e.ses.selectHit 0xA 0 = true) :
    Yields (Machine.sbaRead a) (sbaReadScript a d) e (· = d) e :=
  (bind (dmWrite _ _ hs) fun _ _ => exactly (dmRead .sbdata0 (· == d) hs)).as rfl

theorem sbaWrite (a w : Word) (hs : e.ses.selectHit 0xA 0 = true) :
    Yields (Machine.sbaWrite a w) (sbaWriteScript a w) e (fun _ => True) e :=
  (bind (dmWrite _ _ hs) fun _ _ => dmWrite _ _ hs).as rfl

theorem memRead {sba : Bool} {a : Word} (d : Word) (ha : aligned4 a = true) (hs : e.ses.selectHit 0xA 0 = true)
    (hb : sba = e.ses.dm.sbaInitialized) :
    Yields (Machine.memRead a) (memReadScript sba a d) e (· = d) e := by
  refine look (fun _ _ _ _ => rfl) ?_
  rw [← hb]
  cases sba
  · exact exactly (memApRead (· == d) ha hs)
  · exact sbaRead a d hs

theorem memWrite {sba : Bool} {a : Word} (w : Word) (ha : aligned4 a = true) (hs : e.ses.selectHit 0xA 0 = true)
    (hb : sba = e.ses.dm.sbaInitialized) :
    Yields (Machine.memWrite a w) (memWriteScript sba a w) e (fun _ => True) e := by
  refine look (fun _ _ _ _ => rfl) ?_
  rw [← hb]
  cases sba
  · exact memApWrite w ha hs
  · exact sbaWrite a w hs

/-- SbaInit on a target that has SBA. -/
theorem sbaInit (hs : e.ses.selectHit 0xA 0 = true) :
    Yields Machine.sbaInit sbaInitScript e (fun _ => True) { e with ses.dm.sbaInitialized := true } :=
  (bind_quiet (update (e := e) rfl fun _ _ _ _ => rfl) fun _ _ =>
    bind (dmRead .sbcs (fun v => sbasize v != 0) hs) fun _ hv => bind_quiet (require hv) fun _ _ =>
      quiet_bind (dmWrite .sbcs _ hs) fun _ _ => update rfl fun _ _ _ _ => rfl).as rfl

/-! ## Power-up and initialisation -/

/-- PowerUp. -/
theorem powerUp : Yields Machine.powerUp powerUpScript e (fun _ => True) { e with ses.dap.powered := true } :=
  (bind_quiet (update (e := e) rfl fun _ _ _ _ => rfl) fun _ _ => bind (dpWrite _ _) fun _ _ =>
    bind (dpWrite _ _) fun _ _ => quiet_bind (poll (hit := bothAcked) (miss := fun v => !bothAcked v)
        (fun p => dpRead _ p) (fun _ h => h) (fun _ h => by simpa using h) _) fun o ho => by
      obtain ⟨v, rfl, _⟩ := ho
      exact update rfl fun _ _ _ _ => rfl).as rfl

/-- A word of the handshake. -/
theorem handshakeWrite (w : Word) (h : e.ses.selectHit 0xA 1 = true) :
    Yields (Machine.handshakeWrite w) (apWriteScript apBank1 w ++ [pauses 50000]) e (fun _ => True) e :=
  (bind (apWriteHit w h) fun _ _ => sleep _).as rfl

/-- The status word of the handshake. -/
theorem handshakeStatus (h : e.ses.selectHit 0xA 1 = true) :
    Yields Machine.handshakeStatus (apReadScript apBank1 (· == 0x04010001)) e (· = 0x04010001) e :=
  (quiet_bind (apReadHit (· == 0x04010001) h) fun v hv => by
    have hv : v = 0x04010001 := by simpa using hv
    subst hv
    exact bind_quiet (require rfl) fun _ _ => pure _ e).as rfl

end Yields

/-- The engine after DmInit on a target that has SBA (42_dm.md R117). -/
def Engine.inited (e : Engine) : Engine :=
  { e.selecting 0xA 0 with
    ses.dm.initialized := true, ses.dm.sbaInitialized := true, ses.harts := Vector.replicate Config.harts Hart.reset }

/-- Every hart at its reset value (42_dm.md R117). -/
theorem map_reset {n : Nat} (v : Vector Hart n) :
    v.map (fun x => { x.forget with gpr := Vector.replicate Config.ngpr 0 }) = Vector.replicate n Hart.reset := by
  ext i hi : 1
  rw [Vector.getElem_map, Vector.getElem_replicate]; rfl

namespace Yields

variable {e : Engine}

/-- What DmInit does to the harts. -/
theorem resetHarts :
    Yields (modifyHarts fun x => { x.forget with gpr := Vector.replicate Config.ngpr 0 }) [] e (fun _ => True)
      { e with ses.harts := Vector.replicate Config.harts Hart.reset } :=
  (update (e := e) rfl fun _ _ _ _ => rfl).leaving (by rw [map_reset])

/-- DmInit on a target that has SBA. -/
theorem dmInit {hit : Bool} (hh : hit = e.ses.selectHit 0xA 0) :
    Yields Machine.dmInit (dmInitScript hit) e (fun _ => True) e.inited := by
  subst hh
  refine ((bind_quiet (update (e := e) rfl fun _ _ _ _ => rfl) fun _ _ =>
    bind (apWrite 0xA apCsw _) fun _ _ =>
    bind (apWriteHit (reg := apTar) _ (selecting_hit _ _ _)) fun _ _ =>
    bind (bind (apWrite 0xA apBank1 _) fun _ _ => sleep _) fun _ _ =>
    bind (handshakeWrite _ (selecting_hit _ _ _)) fun _ _ =>
    bind (handshakeWrite _ (selecting_hit _ _ _)) fun _ _ =>
    bind (handshakeStatus (selecting_hit _ _ _)) fun _ _ =>
    bind (selectAp 0xA 0) fun _ _ =>
    bind_quiet (update rfl fun _ _ _ _ => rfl) fun _ _ =>
    bind_quiet resetHarts fun _ _ =>
    tryCatch (sbaInit ?_)).as ?_).leaving ?_
  · rfl
  · simp only [List.append_assoc, dmInitScript, dmInitHead, handshakeScript]
    rfl
  · rfl

/-- Driven bits. -/
theorem sends (bs : List Bool) : Yields (driveBits bs) [Machine.sends bs] e (fun _ => True) e := by
  intro bits rest evs r fl ack ht
  obtain ⟨rfl, rfl⟩ := talk_singleton.1 ht
  refine ⟨rfl, (), fl, trivial, (driveBits_run _ _).trans ?_⟩
  simp [ackAfter, Engine.logged, Engine.on]

end Yields

namespace Yields

variable {e : Engine}

/-! ## Reset and the register file -/

/-- RESET's body. -/
theorem resetHart (h : HartId) (hr : Bool) (hs : e.ses.selectHit 0xA 0 = true) :
    Yields (Machine.resetHart h hr) (resetScript h hr) e (fun _ => True)
      (Engine.withHart { e with
        ses.harts := e.ses.harts.map fun x => { x with cacheValid := false, known := false } } h
        fun x => { x with halted := hr, known := true }) := by
  refine ((bind_quiet (update (e := e) rfl fun _ _ _ _ => rfl) fun _ _ =>
    bind (dmWrite .dmcontrol _ hs) fun _ _ => bind (sleep _) fun _ _ => bind (dmWrite .dmcontrol _ hs) fun _ _ =>
    bind (u := if hr then awaitStatusScript allHalted else []) (sleep _) fun _ _ => ?_)).as ?_
  · cases hr
    · exact learnHart h false
    · exact quiet_bind (awaitStatus allHalted hs) fun _ _ => learnHart h true
  · simp [resetScript, Config.resetAssertUs, Config.resetSettleUs]

end Yields

/-- The engine with words appended to DOUT. -/
def Engine.emitted (e : Engine) (ws : List Word) : Engine := { e with ses.port.dout := e.ses.port.dout ++ ws }

@[simp] theorem emitted_emitted (e : Engine) (a b : List Word) : (e.emitted a).emitted b = e.emitted (a ++ b) := by
  simp [Engine.emitted]
@[simp] theorem emitted_nil (e : Engine) : e.emitted [] = e := by simp [Engine.emitted]
@[simp] theorem emitted_selectHit (e : Engine) (ws : List Word) (a b : BitVec 4) :
    (e.emitted ws).ses.selectHit a b = e.ses.selectHit a b := rfl
@[simp] theorem emitted_dm (e : Engine) (ws : List Word) : (e.emitted ws).ses.dm = e.ses.dm := rfl
@[simp] theorem emitted_withHart (e : Engine) (ws : List Word) (h : HartId) (f : Hart → Hart) :
    (e.emitted ws).withHart h f = (e.withHart h f).emitted ws := rfl

namespace Yields

variable {e : Engine}

theorem out (w : Word) : Yields (Machine.out w) [] e (fun _ => True) (e.emitted [w]) := update rfl fun _ _ _ _ => rfl

theorem outs (ws : List Word) : Yields (Machine.outs ws) [] e (fun _ => True) (e.emitted ws) :=
  update rfl fun _ _ _ _ => rfl

theorem onlyIf {c : Bool} {m : Proc Unit} {e' : Engine} (h : Yields m [] e (fun _ => True) e') :
    Yields (Machine.onlyIf c m) [] e (fun _ => True) (if c then e' else e) := by
  cases c
  · exact (pure () e).weaken fun _ _ => trivial
  · exact h

/-- The registers of a list, one after the other. -/
theorem readRegs (h : HartId) (emit : Bool) (rs : List (BitVec 5 × Word)) :
    ∀ {e : Engine}, e.ses.selectHit 0xA 0 = true →
      Yields (Machine.readRegs h emit (rs.map Prod.fst)) (gprReadsScript rs) e (· = rs.map Prod.snd)
        ((e.withHart h (·.mirroredAll e.ses.dm.cacheEnabled rs)).emitted (if emit then rs.map Prod.snd else [])) := by
  induction rs with
  | nil => intro e _; exact (pure [] e).leaving (by simp [Hart.mirroredAll])
  | cons r rs ih =>
    intro e hs
    refine ((bind_eq (gprRead r.1 r.2 hs) <| bind_quiet (onlyIf (out r.2)) fun _ _ =>
      bind_quiet (mirror h r.1 r.2) fun _ _ => quiet_bind (ih (by cases emit <;> simpa using hs)) fun vs hv => by
        subst hv; exact pure _ _).as rfl).leaving ?_
    cases emit <;> simp [Hart.mirroredAll]

/-- ReadAllRegs. -/
theorem readAllRegs (h : HartId) (emit : Bool) (vs : List Word) (hv : vs.length = 32)
    (hs : e.ses.selectHit 0xA 0 = true) :
    Yields (Machine.readAllRegs h emit) (readAllRegsScript h vs) e (· = vs)
      ((e.withHart h (·.afterReadAll e.ses.dm.cacheEnabled vs)).emitted (if emit then vs else [])) := by
  have hl : vs.length = allRegs.length := hv
  have h₁ : (allRegs.zip vs).map Prod.fst = allRegs := List.map_fst_zip (le_of_eq hl.symm)
  have h₂ : (allRegs.zip vs).map Prod.snd = vs := List.map_snd_zip (le_of_eq hl)
  have h₃ := readRegs h emit (allRegs.zip vs) hs
  rw [h₁, h₂] at h₃
  refine ((bind (selectHart h hs) fun _ _ => quiet_bind h₃ fun regs hr =>
    look (fun _ _ _ _ => rfl) (bind_quiet (modifyHart h _) fun _ _ =>
      (pure regs _).weaken fun _ h => h.trans hr)).as rfl).leaving ?_
  simp [Hart.afterReadAll]

end Yields
end Sys2Proof.Machine
end

