-- ==== Sys2Proof/Laws/Blocks.lean ====
section
/-! SUPPORT. Block transfer, upload, launch and trace records (44_ops.md), and the step from a command's body to the
command. -/

namespace Sys2Proof.Machine

/-! ## Alignment -/

/-- The containing word's address is aligned. -/
theorem aligned4_wordAddr (a : Word) : aligned4 (wordAddr a) = true := by
  have : a &&& ~~~(3 : Word) &&& 3 = 0 := by
    rw [BitVec.and_assoc, show (~~~(3 : Word) &&& 3) = 0#32 by decide]; exact BitVec.and_zero
  simp only [aligned4, wordAddr, this, beq_self_eq_true]

/-! ## The engine with other DIN words -/

/-- The engine with the words left on DIN. -/
def Engine.withDin (e : Engine) (ws : List Word) : Engine := { e with ses.port.din := ws }

@[simp] theorem withDin_withDin (e : Engine) (a b : List Word) : (e.withDin a).withDin b = e.withDin b := rfl
@[simp] theorem withDin_selectHit (e : Engine) (ws : List Word) (a b : BitVec 4) :
    (e.withDin ws).ses.selectHit a b = e.ses.selectHit a b := rfl
@[simp] theorem withDin_dm (e : Engine) (ws : List Word) : (e.withDin ws).ses.dm = e.ses.dm := rfl
@[simp] theorem withDin_din (e : Engine) (ws : List Word) : (e.withDin ws).ses.port.din = ws := rfl

theorem popDin_cons {e : Engine} {w : Word} {ws : List Word} (hd : e.ses.port.din = w :: ws) :
    popDin e = .ok (some w) (e.withDin ws) := by
  unfold popDin
  refine (bind_ok (getSes_run e)).trans ?_
  rw [hd]; rfl

theorem popDin_nil {e : Engine} (hd : e.ses.port.din = []) : popDin e = .ok none e := by
  unfold popDin
  refine (bind_ok (getSes_run e)).trans ?_
  rw [hd]; rfl

namespace Yields

variable {e : Engine}

theorem popDin {w : Word} {ws : List Word} (hd : e.ses.port.din = w :: ws) :
    Yields Machine.popDin [] e (· = some w) (e.withDin ws) := by
  rintro bits rest evs r fl ack ⟨rfl, rfl⟩
  exact ⟨rfl, some w, fl, rfl, popDin_cons hd⟩

theorem popDinEmpty (hd : e.ses.port.din = []) : Yields Machine.popDin [] e (· = none) e := by
  rintro bits rest evs r fl ack ⟨rfl, rfl⟩
  exact ⟨rfl, none, fl, rfl, popDin_nil hd⟩

theorem atWord {α : Type} {i : Nat} {m : Proc α} {t : Script} {P : α → Prop} {e' : Engine} (h : Yields m t e P e') :
    Yields (Machine.atWord i m) t e P e' := tryCatch h

/-- All the words of a block command are on DIN. -/
theorem feedAll {f : Nat → Word → Proc Unit} {s : Nat → Word → Script} {more : List Word} (ws : List Word) :
    ∀ {e : Engine} {i : Nat},
      (∀ j w d, Yields (f j w) (s j w) (e.withDin d) (fun _ => True) (e.withDin d)) →
      e.ses.port.din = ws ++ more →
      Yields (feed f ws.length i) ((ws.zipIdx i).flatMap fun x => s x.2 x.1) e (· = none) (e.withDin more) := by
  induction ws with
  | nil => intro e i _ hd; exact (pure none e).leaving (by rw [List.nil_append] at hd; subst hd; rfl)
  | cons w ws ih =>
    intro e i hf hd
    exact bind_quiet (popDin hd) fun o ho => by
      subst ho
      exact (bind (atWord (hf i w _)) fun _ _ => ih (e := e.withDin (ws ++ more)) (fun j w d => hf j w d) rfl).as rfl

/-- DIN runs empty before the block is done: the command holds there. -/
theorem feedSome {f : Nat → Word → Proc Unit} {s : Nat → Word → Script} (ws : List Word) :
    ∀ {e : Engine} {i left : Nat},
      (∀ j w d, Yields (f j w) (s j w) (e.withDin d) (fun _ => True) (e.withDin d)) →
      e.ses.port.din = ws → ws.length < left →
      Yields (feed f left i) ((ws.zipIdx i).flatMap fun x => s x.2 x.1) e (· = some (i + ws.length))
        (e.withDin []) := by
  induction ws with
  | nil =>
    intro e i left _ hd hl
    obtain ⟨left, rfl⟩ : ∃ m, left = m + 1 := ⟨left - 1, by simp at hl; omega⟩
    exact bind_quiet (popDinEmpty hd) fun o ho => by
      subst ho
      exact (pure _ e).leaving (by rw [Engine.withDin, ← hd])
  | cons w ws ih =>
    intro e i left hf hd hl
    obtain ⟨left, rfl⟩ : ∃ m, left = m + 1 := ⟨left - 1, by simp at hl; omega⟩
    exact bind_quiet (popDin hd) fun o ho => by
      subst ho
      refine ((bind (atWord (hf i w _)) fun _ _ => ih (e := e.withDin ws) (fun j w d => hf j w d) rfl ?_).as
        rfl).weaken ?_
      · simpa using hl
      · rintro a rfl; simp; omega

/-- A block read. -/
theorem readBlock {sba : Bool} {a : Word} (ws : List Word) (ha : aligned4 a = true) :
    ∀ {e : Engine} {i : Nat}, e.ses.selectHit 0xA 0 = true → sba = e.ses.dm.sbaInitialized →
      Yields (Machine.readBlock a ws.length i)
        ((ws.zipIdx i).flatMap fun x => memReadScript sba (blockAddr a x.2) x.1) e (fun _ => True) (e.emitted ws) := by
  induction ws with
  | nil => intro e i _ _; exact ((pure () e).weaken fun _ _ => trivial).leaving (by simp)
  | cons w ws ih =>
    intro e i hs hb
    exact (bind_eq (atWord (memRead w (aligned4_blockAddr ha i) hs hb)) <| bind_quiet (out w) fun _ _ =>
      ih (by simpa using hs) (by simpa using hb)).as rfl |>.leaving (by simp)

/-- One word of an upload that reads back as written. -/
theorem uploadWord {sba : Bool} {a : Word} (i : Nat) (w : Word) (ha : aligned4 a = true)
    (hs : e.ses.selectHit 0xA 0 = true) (hb : sba = e.ses.dm.sbaInitialized) :
    Yields (Machine.uploadWord a i w)
      (memWriteScript sba (blockAddr a i) w ++ memReadScript sba (blockAddr a i) w) e (fun _ => True) e :=
  bind (memWrite w (aligned4_blockAddr ha i) hs hb) fun _ _ =>
    quiet_bind (memRead w (aligned4_blockAddr ha i) hs hb) fun r hr => by
      rw [if_pos hr]; exact (pure () e).weaken fun _ _ => trivial

/-- Halt of a hart known halted does nothing. -/
theorem haltHartKnown (h : HartId) (hk : ((e.ses.hart h).known && (e.ses.hart h).halted) = true) :
    Yields (Machine.haltHart h) [] e (· = true) e := by
  refine look (fun _ _ _ _ => rfl) ?_
  rw [if_pos (by simpa using hk)]
  exact pure true e

/-- A hart as Halt leaves it: known halted as it was, or found halted with its mirror given up. -/
theorem haltAny {known : Bool} (h : HartId) (hs : e.ses.selectHit 0xA 0 = true)
    (hk : known = ((e.ses.hart h).known && (e.ses.hart h).halted)) :
    Yields (Machine.haltHart h) (if known then [] else haltScript h) e (fun _ => True)
      (e.withHart h fun x => { x.knownHalted with cacheValid := x.cacheValid && known }) := by
  cases known with
  | true =>
    have hk' := hk.symm
    rw [Bool.and_eq_true] at hk'
    refine ((haltHartKnown h hk.symm).leaving ?_).weaken fun _ _ => trivial
    have : (fun x : Hart => { x.knownHalted with cacheValid := x.cacheValid && true }) = Hart.knownHalted := by
      funext x; simp [Hart.knownHalted]
    rw [this, Engine.withHart, knownHalted_of hk'.1 hk'.2, setHart_hart]
  | false =>
    refine ((haltHart h hs hk.symm).weaken fun _ _ => trivial).leaving (congrArg _ (funext fun x => ?_))
    simp [Hart.knownHalted]

/-- The mirror hits after Halt only when it hit before and the hart was known halted. -/
theorem mirrorHit_haltAny (h : HartId) (known : Bool) :
    (e.withHart h fun x => { x.knownHalted with cacheValid := x.cacheValid && known }).ses.mirrorHit h
      = (known && e.ses.mirrorHit h) := by
  simp only [Session.mirrorHit, withHart_hart, withHart_dm]
  cases known <;> simp

/-- The launch of an uploaded program: halt (unless known halted), pc written and read back, resume. -/
theorem launch {known hit : Bool} (h : HartId) (entry s0 s0' : Word) (hs : e.ses.selectHit 0xA 0 = true)
    (hk : known = ((e.ses.hart h).known && (e.ses.hart h).halted)) (hm : hit = (known && e.ses.mirrorHit h))
    (h0 : hit = true → s0 = (e.ses.hart h).gpr[8]) :
    Yields (Machine.launch h entry) (launchScript known hit h entry s0 s0') e (fun _ => True)
      (e.withHart h fun x =>
        { x.afterCsr e.ses.dm.cacheEnabled s0' with known := true, halted := false }) :=
  ((bind (haltAny h hs hk) fun _ _ =>
    bind (csrWrite (hit := hit) h csrDpc s0 entry (by simpa using hs) (hm.trans (mirrorHit_haltAny h known).symm)
        (by simpa [Hart.knownHalted] using h0))
      fun _ _ =>
    bind_eq (csrRead (hit := false) h csrDpc s0' entry (by simpa using hs)
      (by simp [Session.mirrorHit, Hart.afterCsr]) (by simp)) <|
    bind_quiet (require (beq_self_eq_true entry)) fun _ _ =>
    resumeHart h (by simpa using hs) (by simp [Hart.afterCsr, Hart.knownHalted])).as
      (by simp [launchScript, setPcScript, csrDpc])).leaving (by
      simp only [withHart_withHart, withHart_dm]
      exact congrArg _ (funext fun x => by
        simp only [Hart.afterCsr, Hart.mirrored, Hart.knownHalted]; split <;> simp))

end Yields
end Sys2Proof.Machine
end

