-- ==== Sys2Proof/Laws/Commands.lean ====
section
/-! SUPPORT. From a procedure to the command that runs it: the checks at its head, its answer or its raise, and the
state the command leaves. -/

namespace Sys2Proof.Machine

variable {α β : Type}

/-! ## Raising after a script -/

/-- Whatever the wire fields of `e` are, the procedure raises `x` after the script and leaves `e'` with its wire fields
moved on. -/
def Raises (m : Proc α) (t : Script) (e : Engine) (x : Raise) (e' : Engine) : Prop :=
  ∀ bits rest evs r fl ack, talk t e.ses.dap.retryCount.toNat bits evs rest →
    e'.ses.dap.retryCount = e.ses.dap.retryCount ∧
    ∃ fl', m (e.on bits r fl ack) = .error x (e'.on rest (evs.reverse ++ r) fl' (ackAfter evs ack))

namespace Raises

variable {m : Proc α} {f : α → Proc β} {t u : Script} {e e₁ e₂ : Engine} {P : α → Prop} {Q : β → Prop} {x : Raise}

/-- The second of two procedures raises. -/
theorem bind (hm : Yields m t e P e₁) (hf : ∀ a, P a → Raises (f a) u e₁ x e₂) :
    Raises (m >>= f) (t ++ u) e x e₂ := by
  intro bits rest evs r fl ack h
  obtain ⟨mid, e₃, e₄, h₁, h₂, rfl⟩ := talk_append.1 h
  obtain ⟨hr, a, fl', ha, hm'⟩ := hm _ _ _ r fl ack h₁
  rw [← hr] at h₂
  obtain ⟨hr', fl'', hf'⟩ := hf a ha _ _ _ (e₃.reverse ++ r) fl' (ackAfter e₃ ack) h₂
  refine ⟨hr'.trans hr, fl'', ?_⟩
  rw [bind_ok hm', hf', ackAfter_append]
  simp

/-- The same, the first without wire activity. -/
theorem bind_quiet (hm : Yields m [] e P e₁) (hf : ∀ a, P a → Raises (f a) u e₁ x e₂) :
    Raises (m >>= f) u e x e₂ := by simpa using bind hm hf

/-- The first of two procedures raises. -/
theorem head (hm : Raises m t e x e₁) : Raises (m >>= f) t e x e₁ := by
  intro bits rest evs r fl ack h
  obtain ⟨hr, fl', hm'⟩ := hm _ _ _ r fl ack h
  exact ⟨hr, fl', bind_error hm'⟩

theorem as (h : Raises m t e x e₁) {t' : Script} (ht : t = t') : Raises m t' e x e₁ := ht ▸ h

theorem leaving (h : Raises m t e x e₁) (he : e₁ = e₂) : Raises m t e x e₂ := he ▸ h

theorem throw (x : Raise) (e : Engine) : Raises (MonadExcept.throw x : Proc α) [] e x e := by
  rintro bits rest evs r fl ack ⟨rfl, rfl⟩
  exact ⟨rfl, fl, rfl⟩

theorem require {k : ErrorKind} {c : Bool} (h : c = false) : Raises (Machine.require c k) [] e ⟨k, 0⟩ e := by
  subst h; exact throw _ _

/-- A raise that is caught. -/
theorem caught {g : Raise → Proc α} (hm : Raises m t e x e₁) (hg : Yields (g x) u e₁ P e₂) :
    Yields (MonadExcept.tryCatch m g : Proc α) (t ++ u) e P e₂ := by
  intro bits rest evs r fl ack h
  obtain ⟨mid, e₃, e₄, h₁, h₂, rfl⟩ := talk_append.1 h
  obtain ⟨hr, fl', hm'⟩ := hm _ _ _ r fl ack h₁
  rw [← hr] at h₂
  obtain ⟨hr', a', fl'', ha', hf'⟩ := hg _ _ _ (e₃.reverse ++ r) fl' (ackAfter e₃ ack) h₂
  refine ⟨hr'.trans hr, a', fl'', ha', ?_⟩
  rw [tryCatch_error hm', hf', ackAfter_append]
  simp

/-- A raise that is kept as a value. -/
theorem attempt (hm : Raises m t e x e₁) : Yields (Machine.attempt m) t e (· = .error x) e₁ := by
  intro bits rest evs r fl ack h
  obtain ⟨hr, fl', hm'⟩ := hm _ _ _ r fl ack h
  exact ⟨hr, _, fl', rfl, attempt_error hm'⟩

/-- A procedure that looks at the session raises as it would at the session without its wire fields. -/
theorem look {f : Session → Proc β} (hf : ∀ bits r fl ack, f (e.on bits r fl ack).ses = f e.ses)
    (h : Raises (f e.ses) u e x e₂) : Raises (getSes >>= f) u e x e₂ := by
  intro bits rest evs r fl ack ht
  obtain ⟨hr, fl', hm⟩ := h _ _ _ r fl ack ht
  refine ⟨hr, fl', ?_⟩
  rw [bind_ok (getSes_run _), hf, hm]

/-- WaitAbstract finds an error, clears it and raises (42_dm.md R126). -/
theorem waitAbstract (hs : e.ses.selectHit 0xA 0 = true) :
    Raises Machine.waitAbstract abstractErrorScript e ⟨.abstractCmd, 0⟩ e :=
  (bind (Yields.poll (hit := fun v => !v[12] && v.extractLsb' 8 3 != 0) (miss := fun v => v[12])
      (fun q => Yields.dmRead .abstractcs q hs)
      (fun v h => by simp only [Bool.and_eq_true] at h; exact h.1) (fun v h => by simp [abstractBusy, h]) _)
    fun o ho => by
      obtain ⟨v, rfl, hv⟩ := ho
      have : cmderr v ≠ 0 := by
        simp only [Bool.and_eq_true, bne_iff_ne] at hv; exact hv.2
      simp only [this, if_false]
      exact (bind (Yields.dmWrite .abstractcs _ hs) fun _ _ => throw _ _).as (List.append_nil _)).as rfl

end Raises

/-! ## Initialisation and connection, with SBA or without -/

/-- The engine after DmInit (42_dm.md R117); `sba` says whether SbaInit succeeded. -/
def Engine.initedAs (e : Engine) (sba : Bool) : Engine := { e.inited with ses.dm.sbaInitialized := sba }

/-- The engine after CONNECT in the slot `x` (40_wire.md R91). -/
def Engine.joined (e : Engine) (x : Slot) (sba : Bool) : Engine :=
  { e.initedAs sba with
    tracker := e.tracker.setOwner x (some e.self), ses.connected := true, ses.wire.slot := some x,
    ses.wire.initialized := true, ses.wire.clkdiv := divider e.ses.wire.freqKhz, ses.dap.powered := true }

/-- SbaInit on a target whose SBCS says that it has no SBA (43_sba.md R141). -/
theorem Raises.sbaInit {e : Engine} (hs : e.ses.selectHit 0xA 0 = true) :
    Raises Machine.sbaInit (dmReadScript .sbcs fun v => sbasize v == 0) e ⟨.invalidState, 0⟩
      { e with ses.dm.sbaInitialized := false } :=
  (Raises.bind_quiet (Yields.update (e := e) rfl fun _ _ _ _ => rfl) fun _ _ =>
    Raises.bind (Yields.dmRead .sbcs (fun v => sbasize v == 0) hs) fun _ hv =>
      Raises.head (Raises.require (by simpa using hv))).as (List.append_nil _)

namespace Yields

variable {e : Engine}

/-- DmInit, on a target with SBA or without. -/
theorem dmInitAs {hit : Bool} (sba : Bool) (hh : hit = e.ses.selectHit 0xA 0) :
    Yields Machine.dmInit (if sba then dmInitScript hit else dmInitNoSbaScript hit) e (fun _ => True)
      (e.initedAs sba) := by
  cases sba with
  | true => exact dmInit hh
  | false =>
    subst hh
    refine ((bind_quiet (update (e := e) rfl fun _ _ _ _ => rfl) fun _ _ =>
      bind (apWrite 0xA apCsw _) fun _ _ =>
      bind (apWriteHit (reg := apTar) _ (selecting_hit _ _ _)) fun _ _ =>
      bind (bind (apWrite 0xA apBank1 _) fun _ _ => sleep _) fun _ _ =>
      bind (handshakeWrite _ (selecting_hit _ _ _)) fun _ _ =>
      bind (handshakeWrite _ (selecting_hit _ _ _)) fun _ _ =>
      bind (handshakeStatus (selecting_hit _ _ _)) fun _ _ =>
      bind (selectAp 0xA 0) fun _ _ =>
      bind_quiet (update rfl fun _ _ _ _ => rfl) fun _ _ =>
      bind_quiet resetHarts fun _ _ =>
      Raises.caught (Raises.sbaInit ?_) ((pure () _).weaken fun _ _ => trivial)).as ?_).leaving ?_
    · rfl
    · simp only [List.append_assoc, dmInitNoSbaScript, dmInitHead, handshakeScript, List.append_nil]
      rfl
    · rfl

/-- CONNECT when not connected, a slot is to be had and the target answers. -/
theorem connectSession {x : Slot} {id : Word} (sba : Bool) (hc : e.ses.connected = false)
    (hx : e.tracker.pick e.ses.cfg.slot = some x) (hid : designer id ≠ 0) :
    Yields Machine.connectSession (connectScript sba id) e (· = id) (e.joined x sba) := by
  refine look (fun _ _ _ _ => rfl) ?_
  rw [if_neg (by simp [hc])]
  have ha : Yields (acquire e.ses.cfg.slot) [] e (· = x)
      { e with tracker := e.tracker.setOwner x (some e.self) } := by
    rintro bits rest evs r fl ack ⟨rfl, rfl⟩
    refine ⟨rfl, x, fl, rfl, (bind_ok (get_run _)).trans ?_⟩
    change (match e.tracker.pick e.ses.cfg.slot with
      | some x => (do set { e.on bits r fl ack with tracker := e.tracker.setOwner x (some e.self) }; return x)
      | none => raise .resourceBusy : Proc Slot) _ = _
    rw [hx]; rfl
  refine (bind_eq ha (onRaise (t := connectScript sba id) ?_)).as (by simp)
  refine ((bind_quiet (update rfl fun _ _ _ _ => rfl) fun _ _ =>
    bind (quiet_bind (sends _) fun _ _ => update rfl fun _ _ _ _ => rfl) fun _ _ =>
    bind_eq (tryCatch (txnRead false 0 0 id)) <|
    bind_quiet (require (by simpa using hid)) fun _ _ =>
    bind_quiet (update rfl fun _ _ _ _ => rfl) fun _ _ =>
    bind powerUp fun _ _ =>
    quiet_bind (dmInitAs (hit := false) sba ?_) fun _ _ => pure id _).as ?_).leaving ?_
  · rfl
  · rfl
  · rfl

end Yields

/-! ## Checks -/

namespace Yields

variable {e : Engine}

theorem requireConnected (h : e.ses.connected = true) :
    Yields Machine.requireConnected [] e (fun _ => True) e := look (fun _ _ _ _ => rfl) (require h)

theorem requireInitialized (h : e.ses.dm.initialized = true) :
    Yields Machine.requireInitialized [] e (fun _ => True) e := look (fun _ _ _ _ => rfl) (require h)

theorem requireSba (h : e.ses.dm.initialized = true) (h' : e.ses.dm.sbaInitialized = true) :
    Yields Machine.requireSba [] e (fun _ => True) e :=
  look (fun _ _ _ _ => rfl) (require (by simp [h, h']))

theorem hartOperand {w : Word} {h : HartId} (hw : names w h) :
    Yields (Machine.hartOperand w) [] e (· = h) e := by
  rw [names] at hw; subst hw
  have hl : (BitVec.ofNat 32 h.val).toNat = h.val := by
    have := h.isLt; simp only [BitVec.toNat_ofNat, Config.harts] at *; omega
  unfold Machine.hartOperand
  rw [dif_pos (by rw [hl]; exact h.isLt)]
  exact (pure _ e).weaken fun a ha => ha.trans (Fin.ext hl)

theorem boolOperand {w : Word} {b : Bool} (hw : w = BitVec.ofNat 32 b.toNat) :
    Yields (Machine.boolOperand w) [] e (· = b) e := by
  subst hw; cases b <;> exact pure _ e

theorem regOperand {w : Word} {n : BitVec 5} (hw : w = n.setWidth 32) :
    Yields (Machine.regOperand w) [] e (· = n) e := by
  subst hw
  unfold Machine.regOperand
  have hn : (n.setWidth 32).toNat = n.toNat := by simp [BitVec.toNat_setWidth]; omega
  rw [if_pos (by rw [hn]; exact n.isLt)]
  exact (pure _ e).weaken fun a h => h.trans (BitVec.setWidth_setWidth_of_le n (by decide) |>.trans (by simp))

theorem csrOperand {w : Word} {n : BitVec 12} (hw : w = n.setWidth 32) :
    Yields (Machine.csrOperand w) [] e (· = n) e := by
  subst hw
  unfold Machine.csrOperand
  have hn : (n.setWidth 32).toNat = n.toNat := by simp [BitVec.toNat_setWidth]; omega
  rw [if_pos (by rw [hn]; have := n.isLt; omega)]
  exact (pure _ e).weaken fun a h => h.trans (BitVec.setWidth_setWidth_of_le n (by decide) |>.trans (by simp))

theorem returns {m : Proc Word} {t : Script} {e' : Engine} {v : Word} (h : Yields m t e (· = v) e') :
    Yields (Machine.returns m) t e (· = .done v) e' := quiet_bind h fun _ h => h ▸ pure _ e'

theorem returnsZero {m : Proc Unit} {t : Script} {e' : Engine} {P : Unit → Prop} (h : Yields m t e P e') :
    Yields (Machine.returnsZero m) t e (· = .done 0) e' := quiet_bind h fun _ _ => pure _ e'

end Yields

/-! ## Ends of commands -/

variable {body : Proc Progress} {s : State} {t : Script} {evs : List WireEvent} {rest : List Bool} {e' : Engine}

/-- A command that ends by `return`. -/
theorem runCommand_done {v : Word} (h : s.hears t evs rest) (hy : Yields body t s.eng.begin (· = .done v) e') :
    ∃ fl, runCommand body s = .next { s with
      eng := (e'.result .ok v).on rest evs.reverse fl (ackAfter evs s.eng.ses.dap.lastAck) } := by
  obtain ⟨-, a, fl, rfl, hb⟩ := hy _ _ _ [] s.eng.ses.txn s.eng.ses.dap.lastAck h
  have hb' : body s.eng.begin = _ := hb
  exact ⟨fl, by rw [runCommand, hb', List.append_nil]; rfl⟩

/-- A command that holds. -/
theorem runCommand_hold {h : Hold} (hh : s.hears t evs rest) (hy : Yields body t s.eng.begin (· = .hold h) e') :
    ∃ fl, runCommand body s = .next { s with
      eng := Engine.on { e' with ses.hold := h } rest evs.reverse fl (ackAfter evs s.eng.ses.dap.lastAck) } := by
  obtain ⟨-, a, fl, rfl, hb⟩ := hy _ _ _ [] s.eng.ses.txn s.eng.ses.dap.lastAck hh
  have hb' : body s.eng.begin = _ := hb
  exact ⟨fl, by rw [runCommand, hb', List.append_nil]; rfl⟩

/-- A command that raises. -/
theorem runCommand_raise {x : Raise} (hh : s.hears t evs rest) (hy : Raises body t s.eng.begin x e') :
    ∃ fl, runCommand body s = .next { s with
      eng := (e'.failed x).on rest evs.reverse fl (ackAfter evs s.eng.ses.dap.lastAck) } := by
  obtain ⟨-, fl, hb⟩ := hy _ _ _ [] s.eng.ses.txn s.eng.ses.dap.lastAck hh
  have hb' : body s.eng.begin = _ := hb
  refine ⟨fl, ?_⟩
  rw [runCommand, hb', List.append_nil]
  simp only [finish, Engine.failed]
  split <;> rfl

/-- `completes` from the state the command leaves. -/
theorem completes_of {i : Instr} {u : State} {eu : Engine} (hl : eu.ses.dap.lastAck = s.eng.ses.dap.lastAck)
    (h : ∃ fl, exec i s = .next { s with eng := eu.on rest evs.reverse fl (ackAfter evs s.eng.ses.dap.lastAck) })
    (hu : { s with eng := eu } = u) : completes i s u evs rest := by
  obtain ⟨fl, h⟩ := h
  refine ⟨fl, h.trans ?_⟩
  subst hu
  simp only [State.wired, ← on_wired, ackAfter_reverse, hl]

/-- A command that makes no wire activity. -/
theorem hears_nil : s.hears [] [] s.eng.ses.swdio := ⟨rfl, rfl⟩

/-- A command that returns after a script completes. -/
theorem completes_done {i : Instr} {u : State} {v : Word} (hx : exec i s = runCommand body s)
    (h : s.hears t evs rest) (hy : Yields body t s.eng.begin (· = .done v) e')
    (hl : e'.ses.dap.lastAck = s.eng.ses.dap.lastAck) (hu : { s with eng := e'.result .ok v } = u) :
    completes i s u evs rest :=
  completes_of (eu := e'.result .ok v) hl (by rw [hx]; exact runCommand_done h hy) hu

/-- A command that raises after a script completes with its error. -/
theorem completes_raise {i : Instr} {u : State} {x : Raise} (hx : exec i s = runCommand body s)
    (h : s.hears t evs rest) (hy : Raises body t s.eng.begin x e')
    (hl : e'.ses.dap.lastAck = s.eng.ses.dap.lastAck) (hu : { s with eng := e'.failed x } = u) :
    completes i s u evs rest :=
  completes_of (eu := e'.failed x) (by simp only [Engine.failed]; split <;> exact hl)
    (by rw [hx]; exact runCommand_raise h hy) hu

end Sys2Proof.Machine
end

