-- ==== Sys2Proof/Laws/Fields.lean ====
section
/-! SUPPORT. Operand arithmetic as arithmetic: a word and its bytes, the containing word's address, the shift of a
sub-word field, each bit of a word with one field replaced, and parity (20_memory.md R40; 44_ops.md R150 to R153). -/

namespace Sys2Proof.Machine

/-- The four bytes of a word make it (20_memory.md R40). -/
theorem wordOfBytes_wordBytes (w : Word) :
    wordOfBytes (w.extractLsb' 0 8) (w.extractLsb' 8 8) (w.extractLsb' 16 8) (w.extractLsb' 24 8) = w := by
  simp only [wordOfBytes, BitVec.setWidth_eq]
  refine BitVec.eq_of_getLsbD_eq fun i hi => ?_
  simp only [BitVec.getLsbD_append, BitVec.getLsbD_extractLsb']
  split_ifs
  all_goals rw [decide_eq_true (by omega), Bool.true_and]; congr 1; omega

theorem aligned2_iff (a : Word) : aligned2 a = true ↔ a.toNat % 2 = 0 := by
  have : (a &&& 1).toNat = a.toNat % 2 := by
    rw [BitVec.toNat_and]; exact Nat.and_two_pow_sub_one_eq_mod a.toNat 1
  rw [aligned2, beq_iff_eq, ← BitVec.toNat_inj, this]; rfl

theorem byteShift_eq (a : Word) : byteShift a = 8 * (a.toNat % 4) := by rw [byteShift, and_three]

theorem halfShift_eq (a : Word) (h : a.toNat % 2 = 0) : halfShift a = 8 * (a.toNat % 4) := by
  rw [halfShift, ← and_three]
  have h1 : (a &&& 1) = 0 := by simpa [aligned2] using (aligned2_iff a).2 h
  have h2 : a &&& 3 = (a &&& 2) ||| (a &&& 1) := by rw [← BitVec.and_or_distrib_left]; rfl
  rw [h2, h1]; simp

theorem getLsbD_three (i : Nat) (hi : i < 32) : (3 : Word).getLsbD i = decide (i < 2) := by revert i; decide
theorem getLsbD_ff (i : Nat) (hi : i < 32) : (0xFF : Word).getLsbD i = decide (i < 8) := by revert i; decide
theorem getLsbD_ffff (i : Nat) (hi : i < 32) : (0xFFFF : Word).getLsbD i = decide (i < 16) := by revert i; decide

theorem wordAddr_eq (a : Word) : wordAddr a = BitVec.ofNat 32 (a.toNat / 4 * 4) := by
  have h : wordAddr a = (a >>> 2) <<< 2 := by
    apply BitVec.eq_of_getLsbD_eq
    intro i hi
    rw [wordAddr, BitVec.getLsbD_and, BitVec.getLsbD_not, BitVec.getLsbD_shiftLeft, BitVec.getLsbD_ushiftRight,
      getLsbD_three i hi]
    by_cases h2 : i < 2
    · simp [h2]
    · simp [hi, h2, show 2 + (i - 2) = i by omega]
  rw [h, ← BitVec.toNat_inj]
  simp [BitVec.toNat_shiftLeft, Nat.shiftRight_eq_div_pow, Nat.shiftLeft_eq]

/-- The containing word of an aligned address is at that address. -/
theorem wordAddr_self {a : Word} (h : aligned4 a = true) : wordAddr a = a := by
  have := (aligned4_iff a).1 h
  have := word_lt a
  rw [wordAddr_eq, ← BitVec.toNat_inj]; simp; omega

theorem halfField_eq (d : Word) (sh : Nat) : (d >>> sh) &&& 0xFFFF = (d.extractLsb' sh 16).setWidth 32 := by
  apply BitVec.eq_of_getLsbD_eq
  intro i hi
  rw [BitVec.getLsbD_and, getLsbD_ffff i hi, BitVec.getLsbD_ushiftRight, BitVec.getLsbD_setWidth,
    BitVec.getLsbD_extractLsb']
  simp [hi, Bool.and_comm]

theorem byteField_eq (d : Word) (sh : Nat) : (d >>> sh) &&& 0xFF = (d.extractLsb' sh 8).setWidth 32 := by
  apply BitVec.eq_of_getLsbD_eq
  intro i hi
  rw [BitVec.getLsbD_and, getLsbD_ff i hi, BitVec.getLsbD_ushiftRight, BitVec.getLsbD_setWidth,
    BitVec.getLsbD_extractLsb']
  simp [hi, Bool.and_comm]

/-- A word with one field replaced, bit by bit. -/
theorem insertField_bit {mask v : Word} {n : Nat} (hm : ∀ i, i < 32 → mask.getLsbD i = decide (i < n))
    (hv : v.toNat < 2 ^ n) (d : Word) (sh k : Nat) (hk : k < 32) :
    (insertField d mask v sh)[k] = if sh ≤ k ∧ k < sh + n then v.getLsbD (k - sh) else d[k] := by
  have hz : ∀ i, n ≤ i → v.getLsbD i = false := fun i hi =>
    Nat.testBit_lt_two_pow (lt_of_lt_of_le hv (Nat.pow_le_pow_right (by decide) hi))
  rw [← BitVec.getLsbD_eq_getElem, insertField, BitVec.getLsbD_or, BitVec.getLsbD_and, BitVec.getLsbD_not,
    BitVec.getLsbD_shiftLeft, BitVec.getLsbD_shiftLeft, hm _ (by omega)]
  by_cases h1 : k < sh
  · rw [if_neg (by omega)]; simp [h1, hk]
  · by_cases h2 : k - sh < n
    · rw [if_pos (by omega)]; simp [h1, h2, hk]
    · rw [if_neg (by omega), hz _ (by omega)]; simp [h1, h2, hk]

/-- The exclusive or of a list of bits is 1 exactly when an odd number of them is 1 (00_scope.md R8). -/
theorem foldr_xor_eq_true (l : List Bool) : l.foldr xor false = true ↔ l.count true % 2 = 1 := by
  induction l with
  | nil => simp
  | cons b l ih =>
    cases b
    · simpa using ih
    · simp only [List.foldr_cons, List.count_cons_self]
      cases hx : List.foldr xor false l <;> simp [hx] at ih ⊢ <;> omega

end Sys2Proof.Machine
end

