-- ==== Sys2Proof/Laws/Frame.lean ====
section
/-! SUPPORT. What a procedure can change, whatever the target presents and however it ends: a relation that a
transaction respects is respected by every procedure that only makes transactions, and one that also allows a hart's
state, or the host data streams, to change by every procedure that acts on that hart and on them. -/

namespace Sys2Proof.Machine

variable {α β : Type} {R : Engine → Engine → Prop}

/-- The engine with one more event on the timeline, after the bits the target presents were taken up. -/
def Engine.clocked (e : Engine) (ev : WireEvent) (bits : List Bool) (free : Nat) : Engine :=
  { e with ses.record := ev :: e.ses.record, ses.swdio := bits, free := free }

/-- The engine with another transaction in flight and another `last_ack`. -/
def Engine.noted (e : Engine) (fl : InFlight) (ack : BitVec 3) : Engine :=
  { e with ses.txn := fl, ses.dap.lastAck := ack }

/-- The engine with the fields a transaction or a SELECT write touches as given (40_wire.md R82; 41_dap.md R96, R102). -/
def Engine.moved (e : Engine) (bits : List Bool) (r : List WireEvent) (free : Nat) (fl : InFlight) (ack : BitVec 3)
    (valid : Bool) (apsel bank ctrl : BitVec 4) : Engine :=
  { e with
    ses.swdio := bits, ses.record := r, free := free, ses.txn := fl, ses.dap.lastAck := ack,
    ses.dap.selValid := valid, ses.dap.currentApsel := apsel, ses.dap.currentBank := bank, ses.dap.ctrlsel := ctrl }

/-- A relation that a transaction respects. -/
structure WireClosed (R : Engine → Engine → Prop) : Prop extends Closed R where
  clocked : ∀ e ev bits free, R e (e.clocked ev bits free)
  noted : ∀ e fl ack, R e (e.noted fl ack)
  lineReset : Respects R Machine.lineResetSeq

/-- A relation that a SELECT write through the cache respects too (41_dap.md R102). -/
structure TalkClosed (R : Engine → Engine → Prop) : Prop extends WireClosed R where
  select : ∀ apsel bank, Respects R (Machine.writeSelect apsel bank)

/-- A relation that also allows the state of hart `h` to change, but not its mirror to become valid. -/
structure HartClosed (h : HartId) (R : Engine → Engine → Prop) : Prop extends TalkClosed R where
  hart : ∀ (e : Engine) (x : Hart), (x.cacheValid = true → (e.ses.hart h).cacheValid = true) →
    R e { e with ses := e.ses.setHart h x }

/-- A relation that also allows the host data streams to change. -/
structure PortClosed (h : HartId) (R : Engine → Engine → Prop) : Prop extends HartClosed h R where
  dout : ∀ (e : Engine) (ws : List Word), R e { e with ses.port.dout := ws }
  din : ∀ (e : Engine) (ws : List Word), R e { e with ses.port.din := ws }

/-- A relation that also allows the mirror of hart `h` to become valid while caching is on (42_dm.md R130, R140). -/
structure MirrorClosed (h : HartId) (R : Engine → Engine → Prop) : Prop extends PortClosed h R where
  fill : ∀ e : Engine, R e { e with ses := e.ses.setHart h { e.ses.hart h with cacheValid := e.ses.dm.cacheEnabled } }

theorem Respects.modifySes {f : Session → Session} (h : ∀ e : Engine, R e { e with ses := f e.ses }) :
    Respects R (Machine.modifySes f) := fun e => h e

namespace WireClosed

variable (C : WireClosed R)
include C

theorem logEvent (ev : WireEvent) : Respects R (Machine.logEvent ev) := fun e => C.clocked e ev e.ses.swdio e.free
theorem drive (b : Bool) : Respects R (Machine.drive b) := C.logEvent _
theorem release : Respects R Machine.release := C.logEvent _
theorem sleep (us : Nat) : Respects R (Machine.sleep us) := C.logEvent _
theorem track (q : Request) (n : Nat) : Respects R (Machine.track q n) := fun e => C.noted e _ e.ses.dap.lastAck
theorem turnaround : Respects R Machine.turnaround := C.bind C.release fun _ => C.pure _

theorem sample : Respects R Machine.sample := by
  intro e; unfold Machine.sample
  cases hs : e.ses.swdio with
  | nil =>
    have := C.clocked e (.sample (Config.targetBit e.free)) e.ses.swdio (e.free + 1)
    simpa only [endState, Engine.clocked, hs] using this
  | cons b bs => exact C.clocked e _ bs e.free

theorem driveBits : ∀ bs, Respects R (Machine.driveBits bs)
  | [] => C.pure _
  | b :: bs => C.bind (C.drive b) fun _ => driveBits bs

theorem driveRepeat (b : Bool) : ∀ n, Respects R (Machine.driveRepeat b n)
  | 0 => C.pure _
  | n + 1 => C.bind (C.drive b) fun _ => driveRepeat b n

theorem sampleBits : ∀ n, Respects R (Machine.sampleBits n)
  | 0 => C.pure _
  | n + 1 => C.bind C.sample fun _ => C.bind (sampleBits n) fun _ => C.pure _

theorem trailingIdle : Respects R Machine.trailingIdle := C.driveRepeat _ _

theorem activationSeq (hf : Respects R Machine.forgetSelect) : Respects R Machine.activationSeq :=
  C.bind (C.driveBits _) fun _ => hf

theorem dataIn : Respects R Machine.dataIn :=
  C.bind (C.sampleBits _) fun _ => C.bind C.sample fun _ => C.bind C.turnaround fun _ =>
    C.bind C.trailingIdle fun _ => C.bind (C.require _ _) fun _ => C.pure _

theorem dataOut (w : Word) : Respects R (Machine.dataOut w) :=
  C.bind C.turnaround fun _ => C.bind (C.driveBits _) fun _ => C.bind (C.drive _) fun _ =>
    C.bind C.trailingIdle fun _ => C.pure _

theorem afterAck (q : Request) (ack : BitVec 3) : Respects R (Machine.afterAck q ack) := by
  refine C.bind (Respects.modifySes fun e => C.noted e e.ses.txn _) fun _ => ?_
  cases ackMeaning ack with
  | ok => exact Closed.ite C.dataIn (C.dataOut _)
  | wait => exact C.bind C.turnaround fun _ => C.bind C.trailingIdle fun _ => C.pure _
  | fault => exact C.bind C.turnaround fun _ => C.bind C.trailingIdle fun _ => C.pure _
  | malformed =>
    exact C.bind C.turnaround fun _ => C.bind C.lineReset fun _ => C.bind C.trailingIdle fun _ => C.raise _

theorem txn (q : Request) : Respects R (Machine.txn q) :=
  C.bind (C.driveBits _) fun _ => C.bind C.turnaround fun _ =>
    C.bind (C.bind C.sample fun _ => C.bind C.sample fun _ => C.bind C.sample fun _ => C.pure _) fun _ =>
      C.afterAck q _

theorem settle {m : Proc Word} (hm : Respects R m) (a : Answer) : Respects R (Machine.settle m a) := by
  cases a with
  | ok d => exact C.pure d
  | wait => exact hm
  | fault => exact C.raise _

theorem retry (q : Request) : ∀ n, Respects R (Machine.retry q n)
  | 0 => C.bind (C.track _ _) fun _ => C.bind (C.txn q) fun a => C.settle (C.raise _) a
  | n + 1 => C.bind (C.track _ _) fun _ => C.bind (C.txn q) fun a =>
      C.settle (C.bind (C.sleep _) fun _ => retry q n) a

theorem onWait (q : Request) : ∀ n, Respects R (Machine.onWait q n)
  | 0 => C.raise _
  | n + 1 => C.bind (C.sleep _) fun _ => C.retry q n

theorem retryTxn (q : Request) : Respects R (Machine.retryTxn q) := C.bind C.getSes fun _ => C.retry q _

theorem dpRead (a : BitVec 4) : Respects R (Machine.dpRead a) := C.retryTxn _

theorem dpWrite (a : BitVec 4) (w : Word) : Respects R (Machine.dpWrite a w) :=
  C.bind (C.retryTxn _) fun _ => C.pure _

end WireClosed

/-- A relation that allows all the fields a transaction and a SELECT write touch to change. -/
theorem TalkClosed.of_moved (C : Closed R)
    (hm : ∀ e bits r free fl ack valid apsel bank ctrl, R e (e.moved bits r free fl ack valid apsel bank ctrl)) :
    TalkClosed R := by
  have W : WireClosed R :=
    { C with
      clocked := fun e _ _ _ => hm e _ _ _ e.ses.txn _ _ _ _ _
      noted := fun e _ _ => hm e _ _ e.free _ _ _ _ _ _
      lineReset := fun e => by rw [lineResetSeq_run]; exact hm e _ _ e.free e.ses.txn _ _ _ _ _ }
  refine { W with select := fun apsel bank => ?_ }
  exact C.bind (Respects.modifySes fun e => hm e _ _ e.free e.ses.txn _ _ _ _ _) fun _ =>
    C.bind (W.dpWrite _ _) fun _ => Respects.modifySes fun e => hm e _ _ e.free e.ses.txn _ _ _ _ _

namespace TalkClosed

variable (C : TalkClosed R)
include C

theorem selectAp (apsel bank : BitVec 4) : Respects R (Machine.selectAp apsel bank) :=
  C.bind C.getSes fun _ => Closed.ite (C.pure _) (C.select _ _)

theorem apRead (apsel : BitVec 4) (reg : Byte) : Respects R (Machine.apRead apsel reg) :=
  C.bind (C.selectAp _ _) fun _ => C.bind (C.retryTxn _) fun _ => C.dpRead _

theorem apWrite (apsel : BitVec 4) (reg : Byte) (w : Word) : Respects R (Machine.apWrite apsel reg w) :=
  C.bind (C.selectAp _ _) fun _ => C.bind (C.retryTxn _) fun _ => C.bind (C.dpRead _) fun _ => C.pure _

theorem memApRead (a : Word) : Respects R (Machine.memApRead a) :=
  C.bind (C.require _ _) fun _ => C.bind (C.apWrite _ _ _) fun _ => C.apRead _ _

theorem memApWrite (a w : Word) : Respects R (Machine.memApWrite a w) :=
  C.bind (C.require _ _) fun _ => C.bind (C.apWrite _ _ _) fun _ => C.apWrite _ _ _

theorem dmRead (r : DmReg) : Respects R (Machine.dmRead r) := C.memApRead _
theorem dmWrite (r : DmReg) (w : Word) : Respects R (Machine.dmWrite r w) := C.memApWrite _ _
theorem selectHart (h : HartId) : Respects R (Machine.selectHart h) := C.dmWrite _ _

theorem sbaRead (a : Word) : Respects R (Machine.sbaRead a) := C.bind (C.dmWrite _ _) fun _ => C.dmRead _
theorem sbaWrite (a w : Word) : Respects R (Machine.sbaWrite a w) := C.bind (C.dmWrite _ _) fun _ => C.dmWrite _ _

theorem memRead (a : Word) : Respects R (Machine.memRead a) :=
  C.bind C.getSes fun _ => Closed.ite (C.sbaRead _) (C.memApRead _)
theorem memWrite (a w : Word) : Respects R (Machine.memWrite a w) :=
  C.bind C.getSes fun _ => Closed.ite (C.sbaWrite _ _) (C.memApWrite _ _)

theorem handshakeWrite (w : Word) : Respects R (Machine.handshakeWrite w) :=
  C.bind (C.apWrite _ _ _) fun _ => C.sleep _
theorem handshakeStatus : Respects R Machine.handshakeStatus :=
  C.bind (C.apRead _ _) fun _ => C.bind (C.require _ _) fun _ => C.pure _

theorem pollDm (r : DmReg) (test : Word → Bool) (us n : Nat) : Respects R (Machine.poll (Machine.dmRead r) test us n) :=
  C.poll test us (C.dmRead r) (C.sleep us) n

theorem awaitStatus (test : Word → Bool) : Respects R (Machine.awaitStatus test) :=
  C.bind (C.pollDm _ _ _ _) fun o => by
    cases o
    · exact C.raise _
    · exact C.pure _

theorem waitAbstract : Respects R Machine.waitAbstract :=
  C.bind (C.pollDm _ _ _ _) fun o => by
    cases o
    · exact C.raise _
    · exact Closed.ite (C.pure _) (C.bind (C.dmWrite _ _) fun _ => C.raise _)

theorem gprRead (n : BitVec 5) : Respects R (Machine.gprRead n) :=
  C.bind (C.dmWrite _ _) fun _ => C.bind C.waitAbstract fun _ => C.dmRead _
theorem gprWrite (n : BitVec 5) (v : Word) : Respects R (Machine.gprWrite n v) :=
  C.bind (C.dmWrite _ _) fun _ => C.bind (C.dmWrite _ _) fun _ => C.waitAbstract

theorem writeProgbuf : ∀ l i, Respects R (Machine.writeProgbuf i l)
  | [], _ => C.pure _
  | _ :: ws, i => C.bind (C.dmWrite _ _) fun _ => writeProgbuf ws (i + 1)

theorem requireConnected : Respects R Machine.requireConnected := C.bind C.getSes fun _ => C.require _ _
theorem requireInitialized : Respects R Machine.requireInitialized := C.bind C.getSes fun _ => C.require _ _
theorem requireSba : Respects R Machine.requireSba := C.bind C.getSes fun _ => C.require _ _

theorem hartOperand (w : Word) : Respects R (Machine.hartOperand w) := by
  unfold Machine.hartOperand; split
  · exact C.pure _
  · exact C.raise _
theorem boolOperand (w : Word) : Respects R (Machine.boolOperand w) :=
  Closed.ite (C.pure _) (Closed.ite (C.pure _) (C.raise _))
theorem regOperand (w : Word) : Respects R (Machine.regOperand w) := Closed.ite (C.pure _) (C.raise _)
theorem csrOperand (w : Word) : Respects R (Machine.csrOperand w) := Closed.ite (C.pure _) (C.raise _)

theorem returns {m : Proc Word} (h : Respects R m) : Respects R (Machine.returns m) := C.bind h fun _ => C.pure _
theorem returnsZero {m : Proc Unit} (h : Respects R m) : Respects R (Machine.returnsZero m) :=
  C.bind h fun _ => C.pure _

theorem issueRequest (ap rnw : Bool) (a : BitVec 4) : Respects R (Machine.issueRequest ap rnw a) :=
  C.bind C.requireConnected fun _ => C.bind C.getSes fun _ => C.retryTxn _
theorem neverEmitted : Respects R Machine.neverEmitted := C.bind C.requireConnected fun _ => C.raise _

theorem answerAck (ack : BitVec 3) (hf : Respects R Machine.forgetSelect) : Respects R (Machine.answerAck ack) :=
  C.bind C.requireConnected fun _ => C.bind C.getSes fun _ => C.bind (C.onlyIf _ hf) fun _ =>
    C.bind (C.logEvent _) fun _ => C.bind (C.logEvent _) fun _ => C.bind (C.logEvent _) fun _ =>
      C.bind C.getSes fun _ => C.bind (C.afterAck _ _) fun a => C.settle (C.onWait _ _) a

theorem sendWord {m : Proc Unit} (h : Respects R m) : Respects R (Machine.sendWord m) :=
  C.returnsZero (C.bind C.requireConnected fun _ => h)

theorem atWord {i : Nat} {m : Proc α} (h : Respects R m) : Respects R (Machine.atWord i m) :=
  C.tryCatch h fun _ => C.throw _

theorem uploadWord (a : Word) (i : Nat) (w : Word) : Respects R (Machine.uploadWord a i w) :=
  C.bind (C.memWrite _ _) fun _ => C.bind (C.memRead _) fun _ => Closed.ite (C.pure _) (C.endWith _ _)

theorem blockChecks (a n : Word) : Respects R (Machine.blockChecks a n) :=
  C.bind C.requireConnected fun _ => C.bind (C.require _ _) fun _ => C.bind (C.require _ _) fun _ =>
    C.requireInitialized

theorem traceGuard {count : Nat} {m : Proc Progress} (h : Respects R m) : Respects R (Machine.traceGuard count m) :=
  C.tryCatch h fun _ => Closed.ite (C.pure _) (C.throw _)

end TalkClosed

namespace HartClosed

variable {h : HartId} (C : HartClosed h R)
include C

theorem modifyHart {f : Hart → Hart} (hf : ∀ x, (f x).cacheValid = true → x.cacheValid = true) :
    Respects R (Machine.modifyHart h f) := fun e => C.hart e _ (hf _)

/-- An update that clears the mirror's validity, or leaves it. -/
theorem clear {f : Hart → Hart} (hf : ∀ x, (f x).cacheValid = false) : Respects R (Machine.modifyHart h f) :=
  C.modifyHart fun x hx => by rw [hf x] at hx; cases hx

@[inherit_doc clear] theorem keep {f : Hart → Hart} (hf : ∀ x, (f x).cacheValid = x.cacheValid) :
    Respects R (Machine.modifyHart h f) := C.modifyHart fun x hx => by rwa [hf x] at hx

theorem mirror (n : BitVec 5) (v : Word) : Respects R (Machine.mirror h n v) :=
  C.bind C.getSes fun _ => Closed.ite (C.keep fun _ => rfl) (C.pure _)

theorem queryHalted : Respects R (Machine.queryHalted h) :=
  C.bind C.getSes fun _ => Closed.ite (C.pure _) <|
    C.bind (C.selectHart _) fun _ => C.bind (C.dmRead _) fun _ =>
      C.bind (C.modifyHart fun x hx => by simpa using (Bool.and_eq_true _ _ ▸ hx).1) fun _ => C.pure _

theorem requireHalted : Respects R (Machine.requireHalted h) := C.bind C.queryHalted fun _ => C.require _ _

theorem haltHart : Respects R (Machine.haltHart h) :=
  C.bind C.getSes fun _ => Closed.ite (C.pure _) <|
    C.bind (C.clear fun _ => rfl) fun _ => C.bind (C.dmWrite _ _) fun _ => C.bind (C.awaitStatus _) fun _ =>
      C.bind (C.keep fun _ => rfl) fun _ => C.pure _

theorem resumeHart : Respects R (Machine.resumeHart h) :=
  C.bind C.getSes fun _ => Closed.ite (C.pure _) <|
    C.bind (C.clear fun _ => rfl) fun _ => C.bind (C.dmWrite _ _) fun _ => C.bind (C.awaitStatus _) fun _ =>
      C.keep fun _ => rfl

theorem readReg (n : BitVec 5) : Respects R (Machine.readReg h n) :=
  C.bind C.getSes fun _ => Closed.ite (C.pure _) <|
    C.bind (C.selectHart _) fun _ => C.bind (C.gprRead _) fun _ => C.bind (C.mirror _ _) fun _ => C.pure _

theorem writeReg (n : BitVec 5) (v : Word) : Respects R (Machine.writeReg h n v) :=
  C.bind (C.onRaise (C.bind (C.selectHart _) fun _ => C.gprWrite _ _) (C.clear fun _ => rfl)) fun _ => C.mirror _ _

theorem runProgbuf (l : List Word) : Respects R (Machine.runProgbuf h l) :=
  C.bind (C.writeProgbuf l 0) fun _ => C.bind (C.clear fun _ => rfl) fun _ => C.bind (C.dmWrite _ _) fun _ =>
    C.waitAbstract

theorem thenRestoreS0 {m : Proc α} (s0 : Word) (hm : Respects R m) : Respects R (Machine.thenRestoreS0 h s0 m) :=
  C.bind (Closed.attempt hm) fun x => C.bind (Closed.attempt (C.writeReg _ _)) fun y => by
    cases x <;> cases y
    · exact C.throw _
    · exact C.throw _
    · exact C.throw _
    · exact C.pure _

theorem csrRead (c : BitVec 12) : Respects R (Machine.csrRead h c) :=
  C.bind (C.readReg _) fun _ => C.thenRestoreS0 _ <|
    C.bind (C.selectHart _) fun _ => C.bind (C.runProgbuf _) fun _ => C.readReg _

theorem csrWrite (c : BitVec 12) (v : Word) : Respects R (Machine.csrWrite h c v) :=
  C.bind (C.readReg _) fun _ => C.thenRestoreS0 _ <|
    C.bind (C.writeReg _ _) fun _ => C.bind (C.selectHart _) fun _ => C.runProgbuf _

theorem stepHart : Respects R (Machine.stepHart h) :=
  C.bind (C.csrRead _) fun _ => C.bind (C.csrWrite _ _) fun _ => C.bind (C.clear fun _ => rfl) fun _ =>
    C.bind (C.dmWrite _ _) fun _ => C.bind (C.dmWrite _ _) fun _ => C.bind (C.awaitStatus _) fun _ =>
      C.bind (C.keep fun _ => rfl) fun _ => C.csrWrite _ _

theorem readCsrChecked (c : BitVec 12) : Respects R (Machine.readCsrChecked h c) :=
  C.bind C.requireInitialized fun _ => C.bind C.requireHalted fun _ => C.csrRead _
theorem writeCsrChecked (c : BitVec 12) (v : Word) : Respects R (Machine.writeCsrChecked h c v) :=
  C.bind C.requireInitialized fun _ => C.bind C.requireHalted fun _ => C.csrWrite _ _

theorem executeWords (ws : List Word) : Respects R (Machine.executeWords h ws) := by
  unfold Machine.executeWords
  cases progbufList ws with
  | none => exact C.raise _
  | some l =>
    exact C.bind C.requireInitialized fun _ => C.bind C.requireHalted fun _ => C.bind (C.selectHart _) fun _ =>
      C.runProgbuf _

theorem launch (entry : Word) : Respects R (Machine.launch h entry) :=
  C.bind C.haltHart fun _ => C.bind (C.csrWrite _ _) fun _ => C.bind (C.csrRead _) fun _ =>
    C.bind (C.require _ _) fun _ => C.resumeHart

end HartClosed

namespace PortClosed

variable {h : HartId} (C : PortClosed h R)
include C

theorem out (w : Word) : Respects R (Machine.out w) := fun e => C.dout e _
theorem outs (ws : List Word) : Respects R (Machine.outs ws) := fun e => C.dout e _

theorem popDin : Respects R Machine.popDin :=
  C.bind C.getSes fun s => by
    cases s.port.din with
    | nil => exact C.pure _
    | cons w ws => exact C.bind (Respects.modifySes fun e => C.din e _) fun _ => C.pure _

theorem readRegs (emit : Bool) : ∀ ns, Respects R (Machine.readRegs h emit ns)
  | [] => C.pure _
  | n :: ns => C.bind (C.gprRead n) fun _ => C.bind (C.onlyIf _ (C.out _)) fun _ => C.bind (C.mirror _ _) fun _ =>
      C.bind (readRegs emit ns) fun _ => C.pure _

theorem readBlock (a : Word) : ∀ left i, Respects R (Machine.readBlock a left i)
  | 0, _ => C.pure _
  | left + 1, i => C.bind (C.atWord (C.memRead _)) fun _ => C.bind (C.out _) fun _ => readBlock a left (i + 1)

theorem feed {f : Nat → Word → Proc Unit} (hf : ∀ i w, Respects R (f i w)) :
    ∀ left i, Respects R (Machine.feed f left i)
  | 0, _ => C.pure _
  | left + 1, i => C.bind C.popDin fun o => by
      cases o with
      | none => exact C.pure _
      | some w => exact C.bind (C.atWord (hf i w)) fun _ => feed hf left (i + 1)

theorem collectDin : ∀ need got, Respects R (Machine.collectDin need got)
  | 0, _ => C.pure _
  | need + 1, got => C.bind C.popDin fun o => by
      cases o with
      | none => exact C.pure _
      | some w => exact collectDin need _

theorem continueProgbuf (n : Nat) (got : List Word) : Respects R (Machine.continueProgbuf h n got) :=
  C.bind (C.collectDin _ _) fun x => by
    obtain ⟨b, ws⟩ := x
    cases b
    · exact C.pure _
    · exact C.returnsZero (C.executeWords ws)

theorem continueWriteBlock (a : Word) (n i : Nat) : Respects R (Machine.continueWriteBlock a n i) :=
  C.bind (C.feed (fun _ _ => C.memWrite _ _) _ _) fun o => by cases o <;> exact C.pure _

theorem continueUpload (a : Word) (n i : Nat) : Respects R (Machine.continueUpload a n i) :=
  C.bind (C.feed (C.uploadWord a) _ _) fun o => by cases o <;> exact C.pure _

theorem continueExecuteCode (entry : Word) (n i : Nat) : Respects R (Machine.continueExecuteCode h entry n i) :=
  C.bind (C.feed (C.uploadWord entry) _ _) fun o => by
    cases o
    · exact C.returnsZero (C.launch _)
    · exact C.pure _

end PortClosed

namespace MirrorClosed

variable {h : HartId} (C : MirrorClosed h R)
include C

theorem readAllRegs (emit : Bool) : Respects R (Machine.readAllRegs h emit) :=
  C.bind (C.selectHart _) fun _ => C.bind (C.readRegs _ _) fun _ => fun e => C.fill e

theorem traceRecord (capture : Bool) (count : Nat) : Respects R (Machine.traceRecord h capture count) :=
  C.bind (C.csrRead _) fun _ => C.bind (C.require _ _) fun _ => C.bind (C.memRead _) fun _ =>
    C.bind (Closed.ite (C.readAllRegs _) (C.pure _)) fun _ => C.outs _

theorem traceNext (max : Word) (capture : Bool) (count : Nat) : Respects R (Machine.traceNext h max capture count) :=
  C.bind (C.traceRecord _ _) fun _ => C.pure _

theorem continueTrace (max : Word) (capture : Bool) (count : Nat) (reply : Bool) :
    Respects R (Machine.continueTrace h max capture count reply) :=
  Closed.ite (C.pure _) <| Closed.ite (C.pure _) <| C.traceGuard <|
    C.bind C.stepHart fun _ => C.traceNext _ _ _

end MirrorClosed

end Sys2Proof.Machine
end

