-- ==== Sys2Proof/Laws/Answers.lean ====
section
/-! SUPPORT. The bits a target presents that make each script happen, every transaction answered OK (or FAULT) at the
first attempt and every wait over at the first read (or never): with them a test shows that the hypotheses of a
statement can be met. -/

namespace Sys2Proof.Machine

/-- Presented these bits, the script happens, whatever follows them. -/
def Answerable (t : Script) (bits : List Bool) : Prop := ∀ n rest, ∃ evs, talk t n (bits ++ rest) evs rest

/-- A state that is presented the bits hears the script. -/
theorem Answerable.hears {t : Script} {bits : List Bool} (h : Answerable t bits) {s : State}
    (hs : s.eng.ses.swdio = bits) : ∃ evs, s.hears t evs [] := by
  obtain ⟨evs, h⟩ := h s.eng.ses.dap.retryCount.toNat []
  exact ⟨evs, by rw [State.hears, hs]; simpa using h⟩

/-! ## Bits -/

/-- A write through an AP register and its flush. -/
def apWriteBits : List Bool := okWriteBits ++ okReadBits 0
/-- A read of `d` through an AP register. -/
def apReadBits (d : Word) : List Bool := okReadBits 0 ++ okReadBits d
/-- A write over the MEM-AP path. -/
def memApWriteBits : List Bool := apWriteBits ++ apWriteBits
/-- A read of `d` over the MEM-AP path. -/
def memApReadBits (d : Word) : List Bool := apWriteBits ++ apReadBits d
/-- `GprRead` of `v`. -/
def gprReadBits (v : Word) : List Bool := memApWriteBits ++ memApReadBits 0 ++ memApReadBits v
/-- `GprWrite`. -/
def gprWriteBits : List Bool := memApWriteBits ++ memApWriteBits ++ memApReadBits 0
/-- `ReadReg` over the wire. -/
def readRegBits (v : Word) : List Bool := memApWriteBits ++ gprReadBits v
/-- `WriteReg`. -/
def writeRegBits : List Bool := memApWriteBits ++ gprWriteBits
/-- `RunProgbuf` of two words. -/
def progbufBits : List Bool :=
  memApWriteBits ++ (memApWriteBits ++ (memApWriteBits ++ [])) ++ memApWriteBits ++ memApReadBits 0
/-- `CsrRead` of `v`, s0 read over the wire. -/
def csrReadBits (s0 v : Word) : List Bool := readRegBits s0 ++ progbufBits ++ readRegBits v ++ writeRegBits
/-- `CsrWrite`, s0 read over the wire. -/
def csrWriteBits (s0 : Word) : List Bool := readRegBits s0 ++ writeRegBits ++ progbufBits ++ writeRegBits
/-- `Halt` or `Resume`, DMSTATUS being `v`. -/
def haltBits (v : Word) : List Bool := memApWriteBits ++ memApReadBits v
/-- A memory read of `d` over the selected path. -/
def memReadBits (sba : Bool) (d : Word) : List Bool :=
  if sba then memApWriteBits ++ memApReadBits d else memApReadBits d
/-- A memory write over the selected path. -/
def memWriteBits (sba : Bool) : List Bool := if sba then memApWriteBits ++ memApWriteBits else memApWriteBits
/-- `SbaInit`, SBCS being `v`. -/
def sbaInitBits (v : Word) : List Bool := memApReadBits v ++ memApWriteBits
/-- `DmInit` up to the read of the status word, the SELECT cache missing. -/
def handshakeBits : List Bool :=
  okWriteBits ++ apWriteBits ++ apWriteBits ++ okWriteBits ++ apWriteBits ++ [] ++ apWriteBits ++ [] ++ apWriteBits
    ++ []
/-- `DmInit` up to SbaInit, the SELECT cache missing. -/
def dmInitHeadBits : List Bool := handshakeBits ++ apReadBits 0x04010001 ++ okWriteBits
/-- `PowerUp`. -/
def powerUpBits : List Bool := okWriteBits ++ okWriteBits ++ okReadBits 0xF0000000
/-- CONNECT, IDCODE being `id`, with SBA or without. -/
def connectBits (sba : Bool) (id : Word) : List Bool :=
  [] ++ okReadBits id ++ powerUpBits ++ (dmInitHeadBits ++ if sba then sbaInitBits 0x20 else memApReadBits 0)

/-! ## Scripts -/

namespace Answerable

theorem nil : Answerable [] [] := fun _ rest => ⟨[], by simp [talk]⟩

theorem append {t u : Script} {a b : List Bool} (h : Answerable t a) (h' : Answerable u b) :
    Answerable (t ++ u) (a ++ b) := by
  intro n rest
  obtain ⟨e₁, h₁⟩ := h n (b ++ rest)
  obtain ⟨e₂, h₂⟩ := h' n rest
  exact ⟨e₁ ++ e₂, talk_append.2 ⟨_, _, _, by simpa using h₁, h₂, rfl⟩⟩

theorem cons {d : Dialogue} {u : Script} {a b : List Bool} (h : Answerable [d] a) (h' : Answerable u b) :
    Answerable (d :: u) (a ++ b) := append h h'

theorem writes (ap : Bool) (a : BitVec 4) (w : Word) : Answerable [Machine.writes ap a w] okWriteBits :=
  fun n rest => ⟨_, talk_singleton.2 ⟨0, Nat.zero_le n, by simp, rfl⟩⟩

theorem reads (ap : Bool) (a : BitVec 4) (d : Word) : Answerable [Machine.reads ap a d] (okReadBits d) :=
  fun n rest => ⟨_, talk_singleton.2 ⟨0, Nat.zero_le n, by simp, rfl⟩⟩

theorem readsSome (ap : Bool) (a : BitVec 4) {p : Word → Bool} {d : Word} (h : p d = true) :
    Answerable [Machine.readsSome ap a p] (okReadBits d) :=
  fun n rest => ⟨_, talk_singleton.2 ⟨d, h, 0, Nat.zero_le n, by simp, rfl⟩⟩

theorem faults (ap rnw : Bool) (a : BitVec 4) : Answerable [Machine.faults ap rnw a] faultBits :=
  fun n rest => ⟨_, talk_singleton.2 ⟨0, Nat.zero_le n, by simp, rfl⟩⟩

theorem pauses (us : Nat) : Answerable [Machine.pauses us] [] :=
  fun _ rest => ⟨_, talk_singleton.2 ⟨by simp, rfl⟩⟩

theorem sends (bs : List Bool) : Answerable [Machine.sends bs] [] :=
  fun _ rest => ⟨_, talk_singleton.2 ⟨by simp, rfl⟩⟩

section awaits
variable {read : (Word → Bool) → Script} {hit miss : Word → Bool} {us k : Nat} {a b : List Bool}

/-- A wait that is over at its first read. -/
theorem awaitsHit (h : Answerable (read hit) a) : Answerable [awaits read hit miss us (k + 1)] a := fun n rest => by
  obtain ⟨e, h⟩ := h n rest
  exact ⟨e, talk_singleton.2 (.inl h)⟩

/-- A wait whose first read misses. -/
theorem awaitsMiss (h : Answerable (read miss) a) (h' : Answerable [awaits read hit miss us k] b) :
    Answerable [awaits read hit miss us (k + 1)] (a ++ b) := fun n rest => by
  obtain ⟨e, h⟩ := append h (cons (pauses us) h') n rest
  exact ⟨e, talk_singleton.2 (.inr (by simpa using h))⟩

/-- A poll whose every read misses. -/
theorem givesUp (h : Answerable (read miss) a) (n : Nat) :
    Answerable (Machine.givesUp read miss us n) ((List.replicate (n - 1) (a ++ [])).flatten ++ a) := by
  refine append ?_ h
  induction n - 1 with
  | zero => exact nil
  | succ k ih => simpa only [List.replicate_succ, List.flatten_cons] using append (append h (pauses us)) ih

end awaits

theorem apWrite (reg : Byte) (w : Word) : Answerable (apWriteScript reg w) apWriteBits :=
  cons (writes _ _ _) (readsSome _ _ rfl)

theorem apRead (reg : Byte) {p : Word → Bool} {d : Word} (h : p d = true) :
    Answerable (apReadScript reg p) (apReadBits d) := cons (readsSome _ _ rfl) (readsSome _ _ h)

theorem memApWrite (a w : Word) : Answerable (memApWriteScript a w) memApWriteBits :=
  append (apWrite _ _) (apWrite _ _)

theorem memApRead (a : Word) {p : Word → Bool} {d : Word} (h : p d = true) :
    Answerable (memApReadScript a p) (memApReadBits d) := append (apWrite _ _) (apRead _ h)

theorem dmWrite (r : DmReg) (w : Word) : Answerable (dmWriteScript r w) memApWriteBits := memApWrite _ _

theorem dmRead (r : DmReg) {p : Word → Bool} {d : Word} (h : p d = true) :
    Answerable (dmReadScript r p) (memApReadBits d) := memApRead _ h

theorem selectHart (h : HartId) : Answerable (selectHartScript h) memApWriteBits := dmWrite _ _

theorem waitAbstract : Answerable waitAbstractScript (memApReadBits 0) := awaitsHit (dmRead _ (by decide))

theorem gprRead (n : BitVec 5) (v : Word) : Answerable (gprReadScript n v) (gprReadBits v) :=
  ((dmWrite _ _).append waitAbstract).append (dmRead _ (by simp))

theorem gprWrite (n : BitVec 5) (v : Word) : Answerable (gprWriteScript n v) gprWriteBits :=
  ((dmWrite _ _).append (dmWrite _ _)).append waitAbstract

theorem readReg (h : HartId) (n : BitVec 5) (v : Word) : Answerable (readRegScript h n v) (readRegBits v) :=
  (selectHart h).append (gprRead n v)

theorem writeReg (h : HartId) (n : BitVec 5) (v : Word) : Answerable (writeRegScript h n v) writeRegBits :=
  (selectHart h).append (gprWrite n v)

theorem progbuf (h : HartId) (i j : Word) : Answerable (progbufScript h [i, j]) progbufBits :=
  (((selectHart h).append ((dmWrite _ _).append ((dmWrite _ _).append nil))).append (dmWrite _ _)).append waitAbstract

theorem csrRead (h : HartId) (c : BitVec 12) (s0 v : Word) :
    Answerable (csrReadScript false h c s0 v) (csrReadBits s0 v) :=
  (((readReg h 8 s0).append (progbuf h _ _)).append (readReg h 8 v)).append (writeReg h 8 s0)

theorem csrWrite (h : HartId) (c : BitVec 12) (s0 v : Word) :
    Answerable (csrWriteScript false h c s0 v) (csrWriteBits s0) :=
  (((readReg h 8 s0).append (writeReg h 8 v)).append (progbuf h _ _)).append (writeReg h 8 s0)

theorem awaitStatus {p : Word → Bool} {v : Word} (h : p v = true) :
    Answerable (awaitStatusScript p) (memApReadBits v) := awaitsHit (dmRead _ h)

theorem halt (h : HartId) : Answerable (haltScript h) (haltBits 0x200) :=
  (dmWrite _ _).append (awaitStatus (by decide))

theorem resume (h : HartId) : Answerable (resumeScript h) (haltBits 0x800) :=
  (dmWrite _ _).append (awaitStatus (by decide))

theorem memRead (sba : Bool) (a d : Word) : Answerable (memReadScript sba a d) (memReadBits sba d) := by
  cases sba
  · exact memApRead _ (by simp)
  · exact (dmWrite _ _).append (dmRead _ (by simp))

theorem memWrite (sba : Bool) (a w : Word) : Answerable (memWriteScript sba a w) (memWriteBits sba) := by
  cases sba
  · exact memApWrite _ _
  · exact (dmWrite _ _).append (dmWrite _ _)

theorem sbaInit {v : Word} (h : (sbasize v != 0) = true) : Answerable sbaInitScript (sbaInitBits v) :=
  (dmRead _ h).append (dmWrite _ _)

theorem powerUp : Answerable powerUpScript powerUpBits :=
  ((writes _ _ _).append ((writes _ _ _).append (awaitsHit (readsSome _ _ (by decide)))))

theorem handshake : Answerable (handshakeScript false) handshakeBits :=
  (((((((((writes _ _ _).append (apWrite _ _)).append (apWrite _ _)).append (writes _ _ _)).append
    (apWrite _ _)).append (pauses _)).append (apWrite _ _)).append (pauses _)).append (apWrite _ _)).append (pauses _)

theorem dmInitHead : Answerable (dmInitHead false) dmInitHeadBits :=
  (handshake.append (apRead _ (by decide))).append (writes _ _ _)

theorem connect (sba : Bool) (id : Word) : Answerable (connectScript sba id) (connectBits sba id) := by
  cases sba
  · exact (((sends _).append (reads _ _ id)).append powerUp).append (dmInitHead.append (dmRead _ (by decide)))
  · exact (((sends _).append (reads _ _ id)).append powerUp).append (dmInitHead.append (sbaInit (by decide)))

end Answerable

end Sys2Proof.Machine
end

