-- ==== Sys2Proof/Laws/Args.lean ====
section
/-! SUPPORT. The operand registers and the block commands: a procedure of the memory path does the same whatever ARG0 and
ARG1 hold (30_encoding.md R72), and a loop over the words of a block that fails does so at one word, whatever number of
words it is asked for (44_ops.md R155 to R157). -/

namespace Sys2Proof.Machine

variable {α β : Type}

/-! ## Procedures that do not look at ARG0 and ARG1 -/

/-- The engine with other words in ARG0 and ARG1. -/
def Engine.withArgs (e : Engine) (a b : Word) : Engine := { e with ses.port.arg0 := a, ses.port.arg1 := b }

/-- A result with the engine it leaves changed. -/
def mapEngine (g : Engine → Engine) : EStateM.Result Raise Engine α → EStateM.Result Raise Engine α
  | .ok a e => .ok a (g e)
  | .error r e => .error r (g e)

/-- The procedure neither reads nor writes ARG0 and ARG1. -/
def Blind (m : Proc α) : Prop := ∀ e a b, m (e.withArgs a b) = mapEngine (·.withArgs a b) (m e)

namespace Blind

theorem pure (x : α) : Blind (Pure.pure x : Proc α) := fun _ _ _ => rfl
theorem raise (k : ErrorKind) : Blind (Machine.raise k : Proc α) := fun _ _ _ => rfl
theorem throw (r : Raise) : Blind (MonadExcept.throw r : Proc α) := fun _ _ _ => rfl
theorem endWith (k : ErrorKind) (v : Word) : Blind (Machine.endWith k v : Proc α) := fun _ _ _ => rfl

theorem require (c : Bool) (k : ErrorKind) : Blind (Machine.require c k) := by
  intro e a b; cases c <;> rfl

theorem modifySes {f : Session → Session}
    (h : ∀ (x : Session) a b, f { x with port.arg0 := a, port.arg1 := b }
      = { f x with port.arg0 := a, port.arg1 := b }) : Blind (Machine.modifySes f) := by
  intro e a b
  rw [modifySes_run, modifySes_run]
  exact congrArg (fun x => EStateM.Result.ok () { e with ses := x }) (h e.ses a b)

theorem bind {m : Proc α} {f : α → Proc β} (hm : Blind m) (hf : ∀ x, Blind (f x)) : Blind (m >>= f) := by
  intro e a b
  rw [bind_run, bind_run, hm e a b]
  cases m e with
  | ok x e' => exact hf x e' a b
  | error r e' => rfl

/-- A procedure that looks at the session, but not at those registers. -/
theorem look {f : Session → Proc β} (h : ∀ (e : Engine) a b, f (e.withArgs a b).ses = f e.ses) (hf : ∀ s, Blind (f s)) :
    Blind (getSes >>= f) := by
  intro e a b
  rw [bind_run, bind_run, getSes_run, getSes_run]
  exact (congrArg (· (e.withArgs a b)) (h e a b)).trans (hf e.ses e a b)

theorem tryCatch {m : Proc α} {f : Raise → Proc α} (hm : Blind m) (hf : ∀ r, Blind (f r)) :
    Blind (MonadExcept.tryCatch m f : Proc α) := by
  intro e a b
  rw [show (MonadExcept.tryCatch m f : Proc α) (e.withArgs a b) = _ from tryCatch_run m f _,
    show (MonadExcept.tryCatch m f : Proc α) e = _ from tryCatch_run m f e, hm e a b]
  cases m e with
  | ok x e' => rfl
  | error r e' => exact hf r e' a b

theorem ite {c : Prop} [Decidable c] {m n : Proc α} (hm : Blind m) (hn : Blind n) : Blind (if c then m else n) := by
  split <;> assumption

theorem logEvent (ev : WireEvent) : Blind (Machine.logEvent ev) := modifySes fun _ _ _ => rfl
theorem drive (b : Bool) : Blind (Machine.drive b) := logEvent _
theorem sleep (us : Nat) : Blind (Machine.sleep us) := logEvent _
theorem forgetSelect : Blind Machine.forgetSelect := modifySes fun _ _ _ => rfl
theorem track (q : Request) (n : Nat) : Blind (Machine.track q n) := modifySes fun _ _ _ => rfl

theorem sample : Blind Machine.sample := by
  intro e a b
  simp only [Machine.sample, Engine.withArgs]
  cases e.ses.swdio <;> rfl

theorem driveBits : ∀ bs, Blind (Machine.driveBits bs)
  | [] => pure _
  | _ :: bs => bind (drive _) fun _ => driveBits bs

theorem driveRepeat (b : Bool) : ∀ n, Blind (Machine.driveRepeat b n)
  | 0 => pure _
  | n + 1 => bind (drive b) fun _ => driveRepeat b n

theorem sampleBits : ∀ n, Blind (Machine.sampleBits n)
  | 0 => pure _
  | n + 1 => bind sample fun _ => bind (sampleBits n) fun _ => pure _

theorem releases : ∀ n, Blind (Machine.releases n)
  | 0 => pure _
  | n + 1 => bind (logEvent _) fun _ => releases n

theorem turnaround : Blind Machine.turnaround := releases _
theorem trailingIdle : Blind Machine.trailingIdle := driveRepeat _ _

theorem lineResetSeq : Blind Machine.lineResetSeq :=
  bind (driveRepeat _ _) fun _ => bind (driveRepeat _ _) fun _ => forgetSelect

theorem dataIn : Blind Machine.dataIn :=
  bind (sampleBits _) fun _ => bind sample fun _ => bind turnaround fun _ => bind trailingIdle fun _ =>
    bind (require _ _) fun _ => pure _

theorem dataOut (w : Word) : Blind (Machine.dataOut w) :=
  bind turnaround fun _ => bind (driveBits _) fun _ => bind (drive _) fun _ => bind trailingIdle fun _ => pure _

theorem afterAck (q : Request) (ack : BitVec 3) : Blind (Machine.afterAck q ack) :=
  bind (modifySes fun _ _ _ => rfl) fun _ => by
    cases ackMeaning ack with
    | ok => exact ite dataIn (dataOut _)
    | wait => exact bind turnaround fun _ => bind trailingIdle fun _ => pure _
    | fault => exact bind turnaround fun _ => bind trailingIdle fun _ => pure _
    | malformed => exact bind turnaround fun _ => bind lineResetSeq fun _ => bind trailingIdle fun _ => raise _

theorem txn (q : Request) : Blind (Machine.txn q) :=
  bind (driveBits _) fun _ => bind turnaround fun _ =>
    bind (bind sample fun _ => bind sample fun _ => bind sample fun _ => pure _) fun _ => afterAck q _

theorem settle {m : Proc Word} (hm : Blind m) : ∀ x, Blind (Machine.settle m x)
  | .ok _ => pure _
  | .wait => hm
  | .fault => raise _

theorem retry (q : Request) : ∀ n, Blind (Machine.retry q n)
  | 0 => bind (track _ _) fun _ => bind (txn q) fun x => settle (raise _) x
  | n + 1 => bind (track _ _) fun _ => bind (txn q) fun x => settle (bind (sleep _) fun _ => retry q n) x

theorem retryTxn (q : Request) : Blind (Machine.retryTxn q) := look (fun _ _ _ => rfl) fun _ => retry q _
theorem dpRead (a : BitVec 4) : Blind (Machine.dpRead a) := retryTxn _
theorem dpWrite (a : BitVec 4) (w : Word) : Blind (Machine.dpWrite a w) := bind (retryTxn _) fun _ => pure _

theorem selectAp (apsel bank : BitVec 4) : Blind (Machine.selectAp apsel bank) :=
  look (fun _ _ _ => rfl) fun _ => ite (pure _) <|
    bind forgetSelect fun _ => bind (dpWrite _ _) fun _ => modifySes fun _ _ _ => rfl

theorem apRead (apsel : BitVec 4) (reg : Byte) : Blind (Machine.apRead apsel reg) :=
  bind (selectAp _ _) fun _ => bind (retryTxn _) fun _ => dpRead _
theorem apWrite (apsel : BitVec 4) (reg : Byte) (w : Word) : Blind (Machine.apWrite apsel reg w) :=
  bind (selectAp _ _) fun _ => bind (retryTxn _) fun _ => bind (dpRead _) fun _ => pure _
theorem memApRead (a : Word) : Blind (Machine.memApRead a) :=
  bind (require _ _) fun _ => bind (apWrite _ _ _) fun _ => apRead _ _
theorem memApWrite (a w : Word) : Blind (Machine.memApWrite a w) :=
  bind (require _ _) fun _ => bind (apWrite _ _ _) fun _ => apWrite _ _ _

theorem memRead (a : Word) : Blind (Machine.memRead a) :=
  look (fun _ _ _ => rfl) fun _ => ite (bind (memApWrite _ _) fun _ => memApRead _) (memApRead _)
theorem memWrite (a w : Word) : Blind (Machine.memWrite a w) :=
  look (fun _ _ _ => rfl) fun _ => ite (bind (memApWrite _ _) fun _ => memApWrite _ _) (memApWrite _ _)

theorem popDin : Blind Machine.popDin := look (fun _ _ _ => rfl) fun s => by
  cases s.port.din with
  | nil => exact pure _
  | cons w ws => exact bind (modifySes fun _ _ _ => rfl) fun _ => pure _

theorem atWord {i : Nat} {m : Proc α} (h : Blind m) : Blind (Machine.atWord i m) := tryCatch h fun _ => throw _

theorem uploadWord (a : Word) (i : Nat) (w : Word) : Blind (Machine.uploadWord a i w) :=
  bind (memWrite _ _) fun _ => bind (memRead _) fun _ => ite (pure _) (endWith _ _)

theorem readBlock (a : Word) : ∀ left i, Blind (Machine.readBlock a left i)
  | 0, _ => pure _
  | left + 1, i => bind (atWord (memRead _)) fun _ => bind (modifySes fun _ _ _ => rfl) fun _ =>
      readBlock a left (i + 1)

theorem feed {f : Nat → Word → Proc Unit} (hf : ∀ i w, Blind (f i w)) : ∀ left i, Blind (Machine.feed f left i)
  | 0, _ => pure _
  | left + 1, i => bind popDin fun o => by
      cases o with
      | none => exact pure _
      | some w => exact bind (atWord (hf i w)) fun _ => feed hf left (i + 1)

end Blind

/-! ## Blocks that fail -/

/-- What a loop over the words of a block has in common whatever number of words it is asked for: asked for none it
answers at once, and what it does with its first word is the same. -/
structure Loop (run : Nat → Nat → Proc α) : Prop where
  none : ∀ i e, ∃ a, run 0 i e = .ok a e
  some : ∀ i e, (∃ r e', r.value = BitVec.ofNat Config.xlen i ∧ ∀ left, run (left + 1) i e = .error r e')
    ∨ (∃ e', ∀ left, run (left + 1) i e = run left (i + 1) e')
    ∨ ∃ a e', ∀ left, run (left + 1) i e = .ok a e'

/-- A block that fails does so at one word, and asked for more words than those before it, it fails in the same way. -/
theorem Loop.error {run : Nat → Nat → Proc α} (L : Loop run) {r : Raise} {e' : Engine} :
    ∀ {left i : Nat} {e : Engine}, run left i e = .error r e' →
      ∃ k, k < left ∧ r.value = BitVec.ofNat Config.xlen (i + k)
        ∧ ∀ m, (m ≤ k → ∃ a e₁, run m i e = .ok a e₁) ∧ (k < m → run m i e = .error r e') := by
  intro left
  induction left with
  | zero =>
    intro i e h
    obtain ⟨a, ha⟩ := L.none i e
    rw [ha] at h; cases h
  | succ left ih =>
    intro i e h
    rcases L.some i e with ⟨r₁, e₁, hv, he⟩ | ⟨e₁, he⟩ | ⟨a, e₁, he⟩
    · rw [he] at h; cases h
      refine ⟨0, left.succ_pos, hv, fun m => ⟨fun hm => ?_, fun hm => ?_⟩⟩
      · obtain rfl := Nat.le_zero.1 hm; obtain ⟨a, ha⟩ := L.none i e; exact ⟨a, e, ha⟩
      · obtain ⟨m, rfl⟩ := Nat.exists_eq_succ_of_ne_zero hm.ne'; exact he m
    · rw [he] at h
      obtain ⟨k, hk, hv, hm⟩ := ih h
      refine ⟨k + 1, by omega, by rw [hv]; congr 1; omega, fun m => ?_⟩
      cases m with
      | zero => exact ⟨fun _ => (L.none i e).imp fun a ha => ⟨e, ha⟩, fun h => absurd h (by omega)⟩
      | succ m => rw [he]; exact ⟨fun h => (hm m).1 (by omega), fun h => (hm m).2 (by omega)⟩
    · rw [he] at h; cases h

theorem atWord_error {i : Nat} {m : Proc α} {e e' : Engine} {r : Raise} (h : atWord i m e = .error r e') :
    r.value = BitVec.ofNat Config.xlen i := by
  rw [atWord, tryCatch_run] at h
  cases hm : m e with
  | ok a e₁ => simp [hm] at h
  | error r₁ e₁ => simp only [hm, throw_run] at h; cases h; rfl

theorem loop_feed (f : Nat → Word → Proc Unit) : Loop (feed f) where
  none i e := ⟨_, rfl⟩
  some i e := by
    cases hd : popDin e with
    | error r e₁ =>
      simp only [popDin, bind_run, getSes_run] at hd
      cases h : e.ses.port.din <;> simp [h, bind_run] at hd
    | ok o e₁ =>
      cases o with
      | none => exact .inr (.inr ⟨some i, e₁, fun left => by rw [feed, bind_ok hd]; rfl⟩)
      | some w =>
        cases hw : atWord i (f i w) e₁ with
        | error r e₂ =>
          exact .inl ⟨r, e₂, atWord_error hw, fun left => by rw [feed, bind_ok hd]; exact bind_error hw⟩
        | ok a e₂ => exact .inr (.inl ⟨e₂, fun left => by rw [feed, bind_ok hd]; exact bind_ok hw⟩)

theorem loop_readBlock (a : Word) : Loop (readBlock a) where
  none i e := ⟨_, rfl⟩
  some i e := by
    cases hw : atWord i (memRead (blockAddr a i)) e with
    | error r e₂ => exact .inl ⟨r, e₂, atWord_error hw, fun left => by rw [readBlock]; exact bind_error hw⟩
    | ok w e₂ =>
      exact .inr (.inl ⟨{ e₂ with ses.port.dout := e₂.ses.port.dout ++ [w] }, fun left => by
        rw [readBlock, bind_ok hw]; exact bind_ok rfl⟩)

end Sys2Proof.Machine
end

