-- ==== Sys2Proof/Laws/Slots.lean ====
section
/-! SUPPORT. The slot tracker (10_state.md R21; 40_wire.md R92): its owners after an update, and that `MAX_SESSIONS` bars
no free slot. -/

namespace Sys2Proof.Machine

theorem slotAt_index (x : Slot) : slotAt x.index = x := by
  obtain ⟨b, m⟩ := x; revert b m; decide

theorem index_slotAt (k : Fin Config.slots) : (slotAt k).index = k := by revert k; decide

theorem index_val (x : Slot) : x.index.val = 4 * x.block.val + x.sm.val := rfl

theorem index_inj {x y : Slot} : x.index = y.index ↔ x = y :=
  ⟨fun h => by rw [← slotAt_index x, h, slotAt_index], fun h => h ▸ rfl⟩

theorem ownerOf_setOwner (t : Tracker) (x y : Slot) (o : Option SessionId) :
    (t.setOwner x o).ownerOf y = if y = x then o else t.ownerOf y := by
  have : (x.index.val = y.index.val) ↔ y = x := by rw [← Fin.ext_iff, index_inj, eq_comm]
  simp only [Tracker.ownerOf, Tracker.setOwner, Fin.getElem_fin, Vector.getElem_set, this]

/-- With a slot free, fewer than `MAX_SESSIONS` sessions hold one. -/
theorem activeSessions_lt {t : Tracker} {x : Slot} (h : t.ownerOf x = none) :
    t.activeSessions < Config.maxSessions := by
  have : t.activeSessions < (List.finRange Config.slots).length :=
    List.length_filter_lt_length_iff_exists.2 ⟨x.index, List.mem_finRange _, by
      have : t.owner[x.index] = none := h
      simp [this]⟩
  rwa [List.length_finRange] at this

/-- `Acquire` of a fixed slot takes it when it is free. -/
theorem pick_some (t : Tracker) (x : Slot) : t.pick (some x) = if t.ownerOf x = none then some x else none := by
  by_cases h : t.ownerOf x = none
  · simp [Tracker.pick, activeSessions_lt h, h]
  · simp [Tracker.pick, h]

/-- `Acquire` of any slot takes the first free one. -/
theorem pick_none (t : Tracker) : t.pick none = t.firstFree := by
  cases hf : t.firstFree with
  | none => simp [Tracker.pick, hf]
  | some x =>
    obtain ⟨k, hk, rfl⟩ := Option.map_eq_some_iff.1 hf
    have h : t.ownerOf (slotAt k) = none := by
      have := List.find?_some hk
      simpa [Tracker.ownerOf, index_slotAt] using this
    simp [Tracker.pick, activeSessions_lt h, hf]

end Sys2Proof.Machine
end

