-- ==== Sys2Proof/Laws/Connect.lean ====
section
/-! SUPPORT. What CONNECT does with its slot (40_wire.md R91 to R93): its two parts are the whole, its rest keeps the slot
until it fails, and then gives it back. -/

namespace Sys2Proof.Machine

variable {e e' : Engine} {x : Slot}

/-- `Acquire` with a slot to be had takes it. -/
theorem acquire_some {c : Option Slot} (h : e.tracker.pick c = some x) :
    acquire c e = .ok x { e with tracker := e.tracker.setOwner x (some e.self) } := by
  simp only [acquire, bind_run, get_run, h, set_run, pure_run]

/-- `Acquire` with no slot to be had raises. -/
theorem acquire_none {c : Option Slot} (h : e.tracker.pick c = none) :
    acquire c e = .error ⟨.resourceBusy, 0⟩ e := by
  simp only [acquire, bind_run, get_run, h, raise_run]

/-- CONNECT with a slot to be had is `Acquire` and the rest. -/
theorem connectSession_acquired (hc : e.ses.connected = false) (h : e.tracker.pick e.ses.cfg.slot = some x) :
    connectSession e = connectFrom x { e with tracker := e.tracker.setOwner x (some e.self) } := by
  simp only [connectSession, bind_run, getSes_run, hc, Bool.false_eq_true, if_false, acquire_some h]

/-- CONNECT as far as `Acquire` takes the slot and is under way. -/
theorem beginConnect_acquired (hc : e.ses.connected = false) (h : e.tracker.pick e.ses.cfg.slot = some x) :
    beginConnect e = .ok (.hold (.connect x)) { e with tracker := e.tracker.setOwner x (some e.self) } := by
  simp only [beginConnect, bind_run, getSes_run, hc, Bool.false_eq_true, if_false, acquire_some h, pure_run]

/-- The tracker and the session's slot are as before. -/
def SlotKept (e e' : Engine) : Prop := (e'.tracker, e'.ses.wire.slot) = (e.tracker, e.ses.wire.slot)

/-- Transactions keep them. -/
theorem slotKept : TalkClosed SlotKept :=
  TalkClosed.of_moved (Closed.view fun e : Engine => (e.tracker, e.ses.wire.slot)) fun _ _ _ _ _ _ _ _ _ _ => rfl

/-- A change of the session's other fields keeps them. -/
theorem slotKept_modify {f : Session → Session} (h : ∀ s, (f s).wire.slot = s.wire.slot) :
    Respects SlotKept (modifySes f) := Respects.modifySes fun e => by rw [SlotKept, h]

/-- What comes after a change of the session finds the session so changed. -/
theorem Respects.after {α : Type} {R : Engine → Engine → Prop} {g : Session → Session} {k : Unit → Proc α}
    (h : ∀ a, Respects R (k a)) (e : Engine) :
    R { e with ses := g e.ses } (endState ((Machine.modifySes g >>= k) e)) := h () _

theorem slotKept_powerUp : Respects SlotKept powerUp :=
  slotKept.bind (slotKept_modify fun _ => rfl) fun _ => slotKept.bind (slotKept.dpWrite _ _) fun _ =>
    slotKept.bind (slotKept.dpWrite _ _) fun _ =>
      slotKept.bind (slotKept.poll _ _ (slotKept.dpRead _) (slotKept.sleep _) _) fun o => by
        cases o
        · exact slotKept.raise _
        · exact slotKept_modify fun _ => rfl

theorem slotKept_activationSeq : Respects SlotKept activationSeq :=
  slotKept.bind (slotKept.driveBits _) fun _ => slotKept_modify fun _ => rfl

theorem slotKept_readIdcode : Respects SlotKept readIdcode :=
  slotKept.tryCatch (slotKept.dpRead _) fun _ => slotKept.raise _

theorem slotKept_sbaInit : Respects SlotKept sbaInit :=
  slotKept.bind (slotKept_modify fun _ => rfl) fun _ => slotKept.bind (slotKept.dmRead _) fun _ =>
    slotKept.bind (slotKept.require _ _) fun _ => slotKept.bind (slotKept.dmWrite _ _) fun _ =>
      slotKept_modify fun _ => rfl

theorem slotKept_dmInit : Respects SlotKept dmInit :=
  slotKept.bind (slotKept_modify fun _ => rfl) fun _ => slotKept.bind (slotKept.apWrite _ _ _) fun _ =>
    slotKept.bind (slotKept.apWrite _ _ _) fun _ => slotKept.bind (slotKept.handshakeWrite _) fun _ =>
      slotKept.bind (slotKept.handshakeWrite _) fun _ => slotKept.bind (slotKept.handshakeWrite _) fun _ =>
        slotKept.bind slotKept.handshakeStatus fun _ => slotKept.bind (slotKept.selectAp _ _) fun _ =>
          slotKept.bind (slotKept_modify fun _ => rfl) fun _ => slotKept.bind (fun _ => rfl) fun _ =>
            slotKept.tryCatch slotKept_sbaInit fun _ => slotKept.pure _

/-- However CONNECT after `Acquire` ends before any unwinding, the session has the slot and the tracker stands still. -/
theorem connectWith_slot (x : Slot) (e : Engine) :
    (endState (connectWith x e)).tracker = e.tracker ∧ (endState (connectWith x e)).ses.wire.slot = some x := by
  have h : ∃ e₁ : Engine, SlotKept e₁ (endState (connectWith x e)) ∧ e₁.tracker = e.tracker
      ∧ e₁.ses.wire.slot = some x := by
    unfold connectWith
    refine ⟨_, Respects.after (fun _ => slotKept.bind slotKept_activationSeq fun _ => ?_) e, rfl, rfl⟩
    exact slotKept.bind slotKept_readIdcode fun _ => slotKept.bind (slotKept.require _ _) fun _ =>
      slotKept.bind (slotKept_modify fun _ => rfl) fun _ => slotKept.bind slotKept_powerUp fun _ =>
        slotKept.bind slotKept_dmInit fun _ => slotKept.pure _
  obtain ⟨e₁, h, ht, hs⟩ := h
  simp only [SlotKept, ht, hs, Prod.mk.injEq] at h
  exact h

/-- ConnectUnwind gives back the slot the session has and leaves the connection's fields disconnected (R91, R93). -/
theorem connectUnwind_spec (e : Engine) : ∃ e₁, connectUnwind e = .ok () e₁ ∧ e₁.ses.unwound
    ∧ (∀ y, e.ses.wire.slot = some y → e₁.tracker = e.tracker.setOwner y none)
    ∧ ∀ h, (e₁.ses.hart h).known = false ∧ (e₁.ses.hart h).halted = false ∧ (e₁.ses.hart h).cacheValid = false := by
  simp only [connectUnwind, releaseSlot, disconnectFields, bind_run, modify_run, modifySes_run]
  refine ⟨_, rfl, ⟨rfl, rfl, rfl, rfl, rfl, rfl, rfl⟩, fun y hy => ?_, fun h => ?_⟩
  · simp only [hy]
  · simp [Session.hart, Hart.forget]

/-- When the rest of CONNECT fails, however it fails, the slot is free again and the connection's fields are
disconnected (R91, R93). -/
theorem connectFrom_error {r : Raise} (h : connectFrom x e = .error r e') :
    e'.tracker = e.tracker.setOwner x none ∧ e'.ses.unwound
      ∧ ∀ h, (e'.ses.hart h).known = false ∧ (e'.ses.hart h).halted = false ∧ (e'.ses.hart h).cacheValid = false := by
  have hs := connectWith_slot x e
  rw [connectFrom, onRaise, tryCatch_run] at h
  cases hm : connectWith x e with
  | ok a e₁ => simp [hm] at h
  | error r₁ e₁ =>
    rw [hm] at hs
    obtain ⟨e₂, h₂, hu, ht, hh⟩ := connectUnwind_spec e₁
    simp only [hm, bind_ok h₂, throw_run] at h
    cases h
    exact ⟨(ht x hs.2).trans (congrArg (Tracker.setOwner · x none) hs.1), hu, hh⟩

/-- A slot that has an owner is no one's to acquire (R92). -/
theorem pick_ne_of_owned {t : Tracker} {o : SessionId} (h : t.ownerOf x = some o) (c : Option Slot) :
    t.pick c ≠ some x := by
  intro hp
  cases c with
  | none =>
    rw [pick_none] at hp
    obtain ⟨k, hk, rfl⟩ := Option.map_eq_some_iff.1 hp
    have := List.find?_some hk
    simp [Tracker.ownerOf, index_slotAt] at h
    simp [h] at this
  | some y =>
    rw [pick_some] at hp
    split at hp
    · rename_i hy; cases hp; rw [hy] at h; cases h
    · cases hp

end Sys2Proof.Machine
end

