-- ==== Sys2Proof/Laws/Failures.lean ====
section
/-! SUPPORT. One lemma per way a procedure fails: a poll that gives up (60_exceptions.md R169), a hart found running
(42_dm.md R120), a handshake with another status word (42_dm.md R117), and a transaction answered FAULT (41_dap.md
R96). -/

namespace Sys2Proof.Machine

variable {α β : Type}

namespace Yields

variable {e : Engine}

/-- The poll loop, when every read misses. -/
theorem pollNone {read : Proc Word} {script : (Word → Bool) → Script} {test miss : Word → Bool} {us : Nat}
    (hr : ∀ p, Yields read (script p) e (fun d => p d = true) e) (hmiss : ∀ v, miss v = true → test v = false) :
    ∀ n, Yields (Machine.poll read test us (n + 1)) (givesUp script miss us (n + 1)) e (· = none) e
  | 0 => (quiet_bind (hr miss) fun v hv => by rw [hmiss v hv]; exact pure none e).as (by simp [givesUp])
  | n + 1 => (bind (hr miss) fun v hv => by
      rw [hmiss v hv]
      exact bind (sleep us) fun _ _ => pollNone hr hmiss n).as
        (by simp [givesUp, List.replicate_succ])

end Yields

namespace Raises

variable {e : Engine}

/-- A wait for a DMSTATUS bit that gives up. -/
theorem awaitStatus (p : Word → Bool) (hs : e.ses.selectHit 0xA 0 = true) :
    Raises (Machine.awaitStatus p) (givesUp (dmReadScript .dmstatus) (fun v => !p v) 10000 10) e ⟨.timeout, 0⟩ e :=
  (bind (Yields.pollNone (miss := fun v => !p v) (fun q => Yields.dmRead .dmstatus q hs) (fun v h => by simpa using h)
      9) fun o ho => by subst ho; exact throw _ _).as (List.append_nil _)

/-- WaitAbstract that gives up (42_dm.md R126). -/
theorem waitAbstractTimeout (hs : e.ses.selectHit 0xA 0 = true) :
    Raises Machine.waitAbstract abstractTimeoutScript e ⟨.timeout, 0⟩ e :=
  (bind (Yields.pollNone (miss := fun v => v[12]) (fun q => Yields.dmRead .abstractcs q hs)
      (fun v h => by simp [abstractBusy, h]) 99)
    fun o ho => by subst ho; exact throw _ _).as (List.append_nil _)

/-- PowerUp that is not acknowledged (41_dap.md R107). -/
theorem powerUp : Raises Machine.powerUp powerUpTimeoutScript e ⟨.timeout, 0⟩ { e with ses.dap.powered := false } :=
  (bind_quiet (Yields.update (e := e) rfl fun _ _ _ _ => rfl) fun _ _ => bind (Yields.dpWrite _ _) fun _ _ =>
    bind (Yields.dpWrite _ _) fun _ _ => bind (Yields.pollNone (miss := fun v => !bothAcked v)
      (fun p => Yields.dpRead _ p) (fun v h => show bothAcked v = false by simpa using h) 9) fun o ho => by
        subst ho; exact throw _ _).as (by simp [powerUpTimeoutScript, Config.pwrupReq, dpCtrlStat, Config.pwrDelayUs])

/-- Halt of a hart that does not halt (42_dm.md R122). -/
theorem haltHart (h : HartId) (hs : e.ses.selectHit 0xA 0 = true)
    (hk : ((e.ses.hart h).known && (e.ses.hart h).halted) = false) :
    Raises (Machine.haltHart h) (haltTimeoutScript h) e ⟨.timeout, 0⟩
      (e.withHart h fun x => { x with cacheValid := false, known := false }) := by
  refine look (fun _ _ _ _ => rfl) ?_
  rw [if_neg (by simp [hk])]
  exact (bind_quiet (Yields.forgetHart h) fun _ _ => bind (Yields.dmWrite .dmcontrol _ (by simpa using hs)) fun _ _ =>
    head (awaitStatus allHalted (by simpa using hs))).as rfl

/-- Resume of a hart that does not run (42_dm.md R123). -/
theorem resumeHart (h : HartId) (hs : e.ses.selectHit 0xA 0 = true)
    (hk : ((e.ses.hart h).known && !(e.ses.hart h).halted) = false) :
    Raises (Machine.resumeHart h) (resumeTimeoutScript h) e ⟨.timeout, 0⟩
      (e.withHart h fun x => { x with cacheValid := false, known := false }) := by
  refine look (fun _ _ _ _ => rfl) ?_
  rw [if_neg (by simpa using hk)]
  exact (bind_quiet (Yields.forgetHart h) fun _ _ => bind (Yields.dmWrite .dmcontrol _ (by simpa using hs)) fun _ _ =>
    head (awaitStatus allRunning (by simpa using hs))).as rfl

/-- RESET of a hart that is to halt and does not (42_dm.md R125). -/
theorem resetHart (h : HartId) (hs : e.ses.selectHit 0xA 0 = true) :
    Raises (Machine.resetHart h true) (resetTimeoutScript h) e ⟨.timeout, 0⟩
      { e with ses.harts := e.ses.harts.map fun x => { x with cacheValid := false, known := false } } :=
  (bind_quiet (Yields.update (e := e) rfl fun _ _ _ _ => rfl) fun _ _ =>
    bind (Yields.dmWrite .dmcontrol _ hs) fun _ _ => bind (Yields.sleep _) fun _ _ =>
    bind (Yields.dmWrite .dmcontrol _ hs) fun _ _ => bind (Yields.sleep _) fun _ _ =>
    head (awaitStatus allHalted hs)).as (by simp [resetTimeoutScript, Config.resetAssertUs, Config.resetSettleUs,
      allHalted])

/-- Step whose hart does not halt (42_dm.md R124). -/
theorem stepHart {hit : Bool} (h : HartId) (dcsr s0 s0' : Word) (hs : e.ses.selectHit 0xA 0 = true)
    (hm : hit = e.ses.mirrorHit h) (h0 : hit = true → s0 = (e.ses.hart h).gpr[8]) :
    Raises (Machine.stepHart h) (stepTimeoutScript hit h dcsr s0 s0') e ⟨.timeout, 0⟩
      (e.withHart h fun x => { x.afterCsr e.ses.dm.cacheEnabled s0' with known := false }) :=
  ((bind (Yields.csrRead h csrDcsr s0 dcsr hs hm h0) fun v hv => by
    subst hv
    exact bind (Yields.csrWrite (hit := false) h csrDcsr s0' _ (by simpa using hs)
        (by simp [Session.mirrorHit, Hart.afterCsr]) (by simp)) fun _ _ =>
      bind_quiet (Yields.forgetHart h) fun _ _ =>
        bind (Yields.dmWrite .dmcontrol _ (by simpa using hs)) fun _ _ =>
          bind (Yields.dmWrite .dmcontrol _ (by simpa using hs)) fun _ _ =>
            head (awaitStatus allHalted (by simpa using hs))).as
              (by simp [stepTimeoutScript, csrDcsr, allHalted])).leaving (by
      simp only [withHart_withHart, withHart_dm]
      exact congrArg _ (funext fun x => by simp only [Hart.afterCsr, Hart.mirrored]; split <;> simp))

/-- DmInit that finds another status word (42_dm.md R117). -/
theorem dmInit {hit : Bool} (hh : hit = e.ses.selectHit 0xA 0) :
    Raises Machine.dmInit (dmInitFailScript hit) e ⟨.invalidState, 0⟩
      { e.selecting 0xA 1 with ses.dm.initialized := false, ses.dm.sbaInitialized := false } := by
  subst hh
  refine ((bind_quiet (Yields.update (e := e) rfl fun _ _ _ _ => rfl) fun _ _ =>
    bind (Yields.apWrite 0xA apCsw _) fun _ _ =>
    bind (Yields.apWriteHit (reg := apTar) _ (selecting_hit _ _ _)) fun _ _ =>
    bind (Yields.bind (Yields.apWrite 0xA apBank1 _) fun _ _ => Yields.sleep _) fun _ _ =>
    bind (Yields.handshakeWrite _ (selecting_hit _ _ _)) fun _ _ =>
    bind (Yields.handshakeWrite _ (selecting_hit _ _ _)) fun _ _ =>
    head (bind (Yields.apReadHit (reg := apBank1) (· != 0x04010001) (selecting_hit _ _ _)) fun v hv =>
      head (require (bne_iff_ne.1 hv |> beq_false_of_ne)))).as ?_).leaving ?_
  · simp only [List.append_assoc, dmInitFailScript, handshakeScript, List.append_nil]
    rfl
  · rfl

/-- RequireHalted of a hart not known, found running (42_dm.md R119, R120). -/
theorem requireHalted (h : HartId) (hs : e.ses.selectHit 0xA 0 = true) (hk : (e.ses.hart h).known = false) :
    Raises (Machine.requireHalted h) (selectHartScript h ++ dmReadScript .dmstatus fun v => v[9] == false) e
      ⟨.notHalted, 0⟩ (e.withHart h fun x => { x with known := true, halted := false, cacheValid := false }) := by
  have hq : Yields (Machine.queryHalted h) (selectHartScript h ++ dmReadScript .dmstatus fun v => v[9] == false) e
      (· = false) (e.withHart h fun x => { x with known := true, halted := false, cacheValid := false }) := by
    refine Yields.look (fun _ _ _ _ => rfl) ?_
    rw [if_neg (by simp [hk])]
    refine (Yields.bind (Yields.selectHart h hs) fun _ _ =>
      Yields.quiet_bind (Yields.dmRead .dmstatus (fun v => v[9] == false) hs) fun v hv => ?_).as rfl
    have hv : allHalted v = false := by simpa [allHalted] using hv
    refine Yields.bind_quiet ((Yields.modifyHart h _).leaving
      (e₂ := e.withHart h fun x => { x with known := true, halted := false, cacheValid := false }) ?_) fun _ _ => ?_
    · simp only [hv, Bool.and_false]
    · rw [hv]; exact Yields.pure false _
  exact (bind hq fun b hb => by subst hb; exact require rfl).as (List.append_nil _)

/-- The launch of a hart that does not halt (44_ops.md R158). -/
theorem launchHalt (h : HartId) (entry : Word) (hs : e.ses.selectHit 0xA 0 = true)
    (hk : ((e.ses.hart h).known && (e.ses.hart h).halted) = false) :
    Raises (Machine.launch h entry) (haltTimeoutScript h) e ⟨.timeout, 0⟩
      (e.withHart h fun x => { x with cacheValid := false, known := false }) := head (haltHart h hs hk)

/-- The launch whose pc reads back differently: the hart is left halted (44_ops.md R158). -/
theorem launchVerify {known hit : Bool} (h : HartId) (entry s0 s0' pc : Word) (hs : e.ses.selectHit 0xA 0 = true)
    (hk : known = ((e.ses.hart h).known && (e.ses.hart h).halted)) (hm : hit = (known && e.ses.mirrorHit h))
    (h0 : hit = true → s0 = (e.ses.hart h).gpr[8]) (hp : pc ≠ entry) :
    Raises (Machine.launch h entry) (setPcScript known hit h entry s0 s0' pc) e ⟨.verify, 0⟩
      (e.withHart h fun x => (x.afterCsr e.ses.dm.cacheEnabled s0').knownHalted) :=
  ((bind (Yields.haltAny h hs hk) fun _ _ =>
    bind (Yields.csrWrite (hit := hit) h csrDpc s0 entry (by simpa using hs)
        (hm.trans (Yields.mirrorHit_haltAny h known).symm) (by simpa [Hart.knownHalted] using h0))
      fun _ _ =>
    bind (Yields.csrRead (hit := false) h csrDpc s0' pc (by simpa using hs)
      (by simp [Session.mirrorHit, Hart.afterCsr]) (by simp)) fun v hv => by
        subst hv; exact head (require (beq_false_of_ne hp))).as (by simp [setPcScript, csrDpc])).leaving (by
      simp only [withHart_withHart, withHart_dm]
      exact congrArg _ (funext fun x => by
        simp only [Hart.afterCsr, Hart.mirrored, Hart.knownHalted]; split <;> simp))

/-- The launch of a hart that does not resume (44_ops.md R158). -/
theorem launchResume {known hit : Bool} (h : HartId) (entry s0 s0' : Word) (hs : e.ses.selectHit 0xA 0 = true)
    (hk : known = ((e.ses.hart h).known && (e.ses.hart h).halted)) (hm : hit = (known && e.ses.mirrorHit h))
    (h0 : hit = true → s0 = (e.ses.hart h).gpr[8]) :
    Raises (Machine.launch h entry) (setPcScript known hit h entry s0 s0' entry ++ resumeTimeoutScript h) e ⟨.timeout, 0⟩
      (e.withHart h fun x => { (x.afterCsr e.ses.dm.cacheEnabled s0').knownHalted with known := false }) :=
  ((bind (Yields.haltAny h hs hk) fun _ _ =>
    bind (Yields.csrWrite (hit := hit) h csrDpc s0 entry (by simpa using hs)
        (hm.trans (Yields.mirrorHit_haltAny h known).symm) (by simpa [Hart.knownHalted] using h0))
      fun _ _ =>
    bind (Yields.csrRead (hit := false) h csrDpc s0' entry (by simpa using hs)
      (by simp [Session.mirrorHit, Hart.afterCsr]) (by simp)) fun v hv => by
        subst hv
        exact bind_quiet (Yields.require (beq_self_eq_true _)) fun _ _ =>
          resumeHart h (by simpa using hs) (by simp [Hart.afterCsr, Hart.knownHalted])).as
            (by simp [setPcScript, csrDpc])).leaving (by
      simp only [withHart_withHart, withHart_dm]
      exact congrArg _ (funext fun x => by
        simp only [Hart.afterCsr, Hart.mirrored, Hart.knownHalted]; split <;> simp))

end Raises

/-! ## A FAULT in the middle of a script -/

/-- Whatever the wire fields of `e` are, the procedure raises `Fault` after the script, whose last transaction is
answered FAULT, and leaves `e'` with its wire fields moved on and `last_ack` at FAULT. -/
def Faults (m : Proc α) (t : Script) (e e' : Engine) : Prop :=
  ∀ bits rest evs r fl ack, talk t e.ses.dap.retryCount.toNat bits evs rest →
    e'.ses.dap.retryCount = e.ses.dap.retryCount ∧
    ∃ fl', m (e.on bits r fl ack) = .error ⟨.fault, 0⟩ (e'.on rest (evs.reverse ++ r) fl' 4)

/-- At most n WAITs, then FAULT (41_dap.md R96). -/
theorem retry_fault (q : Request) (rest : List Bool) (k : Nat) :
    ∀ {n : Nat} (e : Engine), k ≤ n → e.ses.swdio = (List.replicate k waitBits).flatten ++ (faultBits ++ rest) →
      ∃ fl, retry q n e = .error ⟨.fault, 0⟩ (e.on rest
        (((List.replicate k (waitEvents q.apndp q.rnw q.addr)).flatten
          ++ noDataEvents q.apndp q.rnw q.addr faultBits).reverse ++ e.ses.record) fl 4) := by
  induction k with
  | zero =>
    intro n e _ h
    exact ⟨⟨q, n⟩, (retry_eq q n e).trans ((bind_ok (txn_fault q (by simpa using h))).trans rfl)⟩
  | succ k ih =>
    intro n e hn h
    obtain ⟨n, rfl⟩ : ∃ m, n = m + 1 := ⟨n - 1, by omega⟩
    have h' : e.ses.swdio = waitBits ++ ((List.replicate k waitBits).flatten ++ (faultBits ++ rest)) := by
      simpa [List.replicate_succ] using h
    obtain ⟨fl, hr⟩ := ih (n := n)
      (((e.on e.ses.swdio e.ses.record ⟨q, n + 1⟩ e.ses.dap.lastAck).after
        (noDataEvents q.apndp q.rnw q.addr waitBits) ((List.replicate k waitBits).flatten ++ (faultBits ++ rest))
          2).logged [.sleep Config.retryDelayUs]) (by omega) rfl
    refine ⟨fl, (retry_eq q (n + 1) e).trans ((bind_ok (txn_wait q
      (e := e.on e.ses.swdio e.ses.record ⟨q, n + 1⟩ e.ses.dap.lastAck) h')).trans ((bind_ok (sleep_run _ _)).trans
      (hr.trans ?_)))⟩
    simp [Engine.on, Engine.after, Engine.logged, List.replicate_succ, waitEvents, Config.retryDelayUs]

namespace Faults

variable {m : Proc α} {f : α → Proc β} {t u : Script} {e e₁ e₂ : Engine} {P : α → Prop}

/-- The loop on a transaction the target answers FAULT. -/
theorem retryTxn (ap rnw : Bool) (a : BitVec 4) (w : Word) :
    Faults (Machine.retryTxn ⟨ap, rnw, a, w⟩) [faults ap rnw a] e e := by
  intro bits rest evs r fl ack h
  obtain ⟨k, hk, rfl, rfl⟩ := talk_singleton.1 h
  obtain ⟨fl', hr⟩ := retry_fault ⟨ap, rnw, a, w⟩ rest k
    (e.on ((List.replicate k waitBits).flatten ++ faultBits ++ rest) r fl ack) hk (by simp [Engine.on])
  exact ⟨rfl, fl', (bind_ok (getSes_run _)).trans hr⟩

/-- The second of two procedures ends in the FAULT. -/
theorem bind (hm : Yields m t e P e₁) (hf : ∀ a, P a → Faults (f a) u e₁ e₂) :
    Faults (m >>= f) (t ++ u) e e₂ := by
  intro bits rest evs r fl ack h
  obtain ⟨mid, e₃, e₄, h₁, h₂, rfl⟩ := talk_append.1 h
  obtain ⟨hr, a, fl', ha, hm'⟩ := hm _ _ _ r fl ack h₁
  rw [← hr] at h₂
  obtain ⟨hr', fl'', hf'⟩ := hf a ha _ _ _ (e₃.reverse ++ r) fl' (ackAfter e₃ ack) h₂
  refine ⟨hr'.trans hr, fl'', ?_⟩
  rw [bind_ok hm', hf']
  simp

/-- The same, the first without wire activity. -/
theorem bind_quiet (hm : Yields m [] e P e₁) (hf : ∀ a, P a → Faults (f a) u e₁ e₂) :
    Faults (m >>= f) u e e₂ := by simpa using bind hm hf

/-- The first of two procedures ends in the FAULT. -/
theorem head (hm : Faults m t e e₁) : Faults (m >>= f) t e e₁ := by
  intro bits rest evs r fl ack h
  obtain ⟨hr, fl', hm'⟩ := hm _ _ _ r fl ack h
  exact ⟨hr, fl', bind_error hm'⟩

/-- The first transaction of a write over the MEM-AP path, the SELECT cache hitting (41_dap.md R104, R110). -/
theorem memApWrite {a : Word} (w : Word) (ha : aligned4 a = true) (hs : e.ses.selectHit 0xA 0 = true) :
    Faults (Machine.memApWrite a w) [faults true false 0x4] e e :=
  bind_quiet (Yields.require ha) fun _ _ => head (bind_quiet (Yields.selectHit 0xA 0 hs) fun _ _ =>
    head (retryTxn true false 0x4 a))

/-- The first transaction of a read over the MEM-AP path, the SELECT cache hitting (41_dap.md R110). -/
theorem memApRead {a : Word} (ha : aligned4 a = true) (hs : e.ses.selectHit 0xA 0 = true) :
    Faults (Machine.memApRead a) [faults true false 0x4] e e :=
  bind_quiet (Yields.require ha) fun _ _ => head (bind_quiet (Yields.selectHit 0xA 0 hs) fun _ _ =>
    head (retryTxn true false 0x4 a))

theorem selectHart (h : HartId) (hs : e.ses.selectHit 0xA 0 = true) :
    Faults (Machine.selectHart h) [faults true false 0x4] e e := memApWrite _ (by decide) hs

/-- A memory read over the selected path (44_ops.md R146). -/
theorem memRead {a : Word} (ha : aligned4 a = true) (hs : e.ses.selectHit 0xA 0 = true) :
    Faults (Machine.memRead a) [faults true false 0x4] e e := by
  intro bits rest evs r fl ack ht
  rw [Machine.memRead, bind_ok (getSes_run _)]
  split
  · exact head (f := fun _ => Machine.dmRead .sbdata0) (memApWrite a (by decide) hs) bits rest evs r fl ack ht
  · exact memApRead ha hs bits rest evs r fl ack ht

/-- WriteReg whose selection fails: the mirror is invalid (42_dm.md R140; 70_reset_and_hazards.md R191). -/
theorem writeReg (h : HartId) (n : BitVec 5) (v : Word) (hs : e.ses.selectHit 0xA 0 = true) :
    Faults (Machine.writeReg h n v) [faults true false 0x4] e
      (e.withHart h fun x => { x with cacheValid := false }) := by
  intro bits rest evs r fl ack ht
  obtain ⟨hr, fl', hm⟩ := head (f := fun _ => Machine.gprWrite n v) (selectHart h hs) bits rest evs r fl ack ht
  refine ⟨hr, fl', bind_error (f := fun _ => Machine.mirror h n v) ?_⟩
  exact (tryCatch_error hm).trans rfl

/-- One procedure ends in a FAULT, and so does the restore of s0 after it (42_dm.md R132; 60_exceptions.md R164). -/
theorem thenRestoreS0 {h : HartId} {s0 : Word} (hm : Faults m t e e₁) (hw : Faults (Machine.writeReg h regS0 s0) u e₁ e₂) :
    Faults (Machine.thenRestoreS0 h s0 m) (t ++ u) e e₂ := by
  intro bits rest evs r fl ack ht
  obtain ⟨mid, e₃, e₄, h₁, h₂, rfl⟩ := talk_append.1 ht
  obtain ⟨hr, fl', hm'⟩ := hm _ _ _ r fl ack h₁
  rw [← hr] at h₂
  obtain ⟨hr', fl'', hw'⟩ := hw _ _ _ (e₃.reverse ++ r) fl' 4 h₂
  refine ⟨hr'.trans hr, fl'', ?_⟩
  rw [Machine.thenRestoreS0, bind_ok (attempt_error hm'), bind_ok (attempt_error hw')]
  simp

/-- CsrRead with s0 mirrored, both selections failing (70_reset_and_hazards.md R191). -/
theorem csrRead (h : HartId) (c : BitVec 12) (hs : e.ses.selectHit 0xA 0 = true) (hm : e.ses.mirrorHit h = true) :
    Faults (Machine.csrRead h c) [faults true false 0x4, faults true false 0x4] e
      (e.withHart h fun x => { x with cacheValid := false }) :=
  bind_quiet (Yields.readRegHit h regS0 hm) fun s0 _ =>
    thenRestoreS0 (t := [faults true false 0x4]) (head (selectHart h hs)) (writeReg h regS0 s0 hs)

end Faults
end Sys2Proof.Machine
end

