-- ==== Sys2Proof/Laws/PerInstr.lean ====
section
/-! SUPPORT. One lemma per constructor of the families of LAWS.json. `Encoding`: an instruction's encoding is as long as
an object of its space, one byte for a request, an acknowledge or a host opcode and four for a word (30_encoding.md R55,
R57, R64 to R71). -/

namespace Sys2Proof.Laws.Encoding

/-- The encoding has the length of its space. -/
def Statement (i : Instr) : Prop := (encode i).length = if i.space.oneByte then 1 else 4

theorem swdReqDpR0 : Statement .swdReqDpR0 := rfl
theorem swdReqDpR4 : Statement .swdReqDpR4 := rfl
theorem swdReqDpR8 : Statement .swdReqDpR8 := rfl
theorem swdReqDpRC : Statement .swdReqDpRC := rfl
theorem swdReqDpW0 : Statement .swdReqDpW0 := rfl
theorem swdReqDpW4 : Statement .swdReqDpW4 := rfl
theorem swdReqDpW8 : Statement .swdReqDpW8 := rfl
theorem swdReqDpWC : Statement .swdReqDpWC := rfl
theorem swdReqApR0 : Statement .swdReqApR0 := rfl
theorem swdReqApR4 : Statement .swdReqApR4 := rfl
theorem swdReqApR8 : Statement .swdReqApR8 := rfl
theorem swdReqApRC : Statement .swdReqApRC := rfl
theorem swdReqApW0 : Statement .swdReqApW0 := rfl
theorem swdReqApW4 : Statement .swdReqApW4 := rfl
theorem swdReqApW8 : Statement .swdReqApW8 := rfl
theorem swdReqApWC : Statement .swdReqApWC := rfl
theorem ackOk : Statement .ackOk := rfl
theorem ackWait : Statement .ackWait := rfl
theorem ackFault : Statement .ackFault := rfl
theorem ackProtocolError (v : BitVec 3) : Statement (.ackProtocolError v) := rfl
theorem connect : Statement .connect := rfl
theorem disconnect : Statement .disconnect := rfl
theorem isConnected : Statement .isConnected := rfl
theorem getFrequency : Statement .getFrequency := rfl
theorem setFrequency : Statement .setFrequency := rfl
theorem lineReset : Statement .lineReset := rfl
theorem sendIdleClocks : Statement .sendIdleClocks := rfl
theorem isPowered : Statement .isPowered := rfl
theorem powerUp : Statement .powerUp := rfl
theorem clearErrors : Statement .clearErrors := rfl
theorem readDp : Statement .readDp := rfl
theorem writeDp : Statement .writeDp := rfl
theorem readAp : Statement .readAp := rfl
theorem writeAp : Statement .writeAp := rfl
theorem dapReadMem32 : Statement .dapReadMem32 := rfl
theorem dapWriteMem32 : Statement .dapWriteMem32 := rfl
theorem init : Statement .init := rfl
theorem isInitialized : Statement .isInitialized := rfl
theorem halt : Statement .halt := rfl
theorem resume : Statement .resume := rfl
theorem step : Statement .step := rfl
theorem reset : Statement .reset := rfl
theorem isHalted : Statement .isHalted := rfl
theorem readReg : Statement .readReg := rfl
theorem writeReg : Statement .writeReg := rfl
theorem readAllRegs : Statement .readAllRegs := rfl
theorem readPc : Statement .readPc := rfl
theorem writePc : Statement .writePc := rfl
theorem readCsr : Statement .readCsr := rfl
theorem writeCsr : Statement .writeCsr := rfl
theorem executeProgbuf : Statement .executeProgbuf := rfl
theorem sbaInit : Statement .sbaInit := rfl
theorem sbaRead32 : Statement .sbaRead32 := rfl
theorem sbaWrite32 : Statement .sbaWrite32 := rfl
theorem sbaCheckErrors : Statement .sbaCheckErrors := rfl
theorem readMem8 : Statement .readMem8 := rfl
theorem readMem16 : Statement .readMem16 := rfl
theorem readMem32 : Statement .readMem32 := rfl
theorem writeMem8 : Statement .writeMem8 := rfl
theorem writeMem16 : Statement .writeMem16 := rfl
theorem writeMem32 : Statement .writeMem32 := rfl
theorem readMemBlock : Statement .readMemBlock := rfl
theorem writeMemBlock : Statement .writeMemBlock := rfl
theorem uploadCode : Statement .uploadCode := rfl
theorem executeCode : Statement .executeCode := rfl
theorem trace : Statement .trace := rfl
theorem enableCache : Statement .enableCache := rfl
theorem invalidateCache : Statement .invalidateCache := rfl
theorem resourceUsage : Statement .resourceUsage := rfl
theorem getErrorDetail : Statement .getErrorDetail := rfl
theorem reservedHostOpcode (op : BitVec 8) : Statement (.reservedHostOpcode op) := rfl
theorem selectWord (apsel : BitVec 4) (bank : BitVec 4) : Statement (.selectWord apsel bank) := rfl
theorem ctrlstatClear : Statement .ctrlstatClear := rfl
theorem ctrlstatPwrupReq : Statement .ctrlstatPwrupReq := rfl
theorem ctrlstatClearErrorsPowered : Statement .ctrlstatClearErrorsPowered := rfl
theorem ctrlstatClearErrorsUnpowered : Statement .ctrlstatClearErrorsUnpowered := rfl
theorem cswInit : Statement .cswInit := rfl
theorem dminitSeq1 : Statement .dminitSeq1 := rfl
theorem dminitSeq2 : Statement .dminitSeq2 := rfl
theorem dminitSeq3 : Statement .dminitSeq3 := rfl
theorem dminitExpected : Statement .dminitExpected := rfl
theorem dmcSel (h : HartId) : Statement (.dmcSel h) := rfl
theorem dmcHalt (h : HartId) : Statement (.dmcHalt h) := rfl
theorem dmcResume (h : HartId) : Statement (.dmcResume h) := rfl
theorem dmcReset (h : HartId) (hr : Bool) : Statement (.dmcReset h hr) := rfl
theorem dmcUnreset (h : HartId) (hr : Bool) : Statement (.dmcUnreset h hr) := rfl
theorem cmdGprRead (n : BitVec 5) : Statement (.cmdGprRead n) := rfl
theorem cmdGprWrite (n : BitVec 5) : Statement (.cmdGprWrite n) := rfl
theorem cmdPostexec : Statement .cmdPostexec := rfl
theorem abstractcsClearCmderr : Statement .abstractcsClearCmderr := rfl
theorem insnCsrr (c : BitVec 12) : Statement (.insnCsrr c) := rfl
theorem insnCsrw (c : BitVec 12) : Statement (.insnCsrw c) := rfl
theorem insnEbreak : Statement .insnEbreak := rfl
theorem sbcsCfg : Statement .sbcsCfg := rfl

end Sys2Proof.Laws.Encoding
end

