-- ==== Sys2Proof/Tests/Slice0.lean ====
section
/-! SUPPORT. Tests: what WellFormed refuses, a word written out from the spec for every constructor, runs of one command
whose expected results are the vectors of 95_test_vectors.md (the section is named at each), and for every statement
with hypotheses a state and operands that meet them. -/

namespace Sys2Proof.Tests

open Sys2Proof.Machine

/-! ## Well-formedness -/

/-- 30_encoding.md R57: 1, 2 and 4 are no protocol errors. -/
theorem test_wellFormed_refuses_good_ack :
    (Instr.ackProtocolError 1).wellFormed = false ∧ (Instr.ackProtocolError 2).wellFormed = false
      ∧ (Instr.ackProtocolError 4).wellFormed = false ∧ (Instr.ackProtocolError 7).wellFormed = true := by decide

/-- 30_encoding.md R71: CONNECT and GET_ERROR_DETAIL are not reserved, 0x72 is. -/
theorem test_wellFormed_refuses_assigned_opcode :
    (Instr.reservedHostOpcode 0x01).wellFormed = false ∧ (Instr.reservedHostOpcode 0x71).wellFormed = false
      ∧ (Instr.reservedHostOpcode 0x72).wellFormed = true := by decide

/-! ## Decoding: words written out from the spec -/

/-- 30_encoding.md R56. -/
theorem test_decode_requests :
    [0xA5, 0x8D, 0x95, 0xBD, 0x81, 0xA9, 0xB1, 0x99, 0x87, 0xAF, 0xB7, 0x9F, 0xA3, 0x8B, 0x93, 0xBB].map
        (fun b => decode .request [b])
      = ([.swdReqDpR0, .swdReqDpR4, .swdReqDpR8, .swdReqDpRC, .swdReqDpW0, .swdReqDpW4, .swdReqDpW8, .swdReqDpWC,
          .swdReqApR0, .swdReqApR4, .swdReqApR8, .swdReqApRC, .swdReqApW0, .swdReqApW4, .swdReqApW8,
          .swdReqApWC] : List Instr).map (fun i => some (i, [])) := by decide

/-- 30_encoding.md R76: a wrong parity bit, a wrong Stop bit and a wrong Park bit are no request. -/
theorem test_decode_no_request :
    decode .request [0x85] = none ∧ decode .request [0xE5] = none ∧ decode .request [0x25] = none := by decide

/-- 30_encoding.md R57. -/
theorem test_decode_acks :
    [0, 1, 2, 3, 4, 5, 6, 7, 8].map (fun b => decode .ack [b])
      = [some (.ackProtocolError 0, []), some (.ackOk, []), some (.ackWait, []), some (.ackProtocolError 3, []),
         some (.ackFault, []), some (.ackProtocolError 5, []), some (.ackProtocolError 6, []),
         some (.ackProtocolError 7, []), none] := by decide

/-- 30_encoding.md R71, opcodes 0x01 to 0x2E. -/
theorem test_decode_commands_low :
    [0x01, 0x02, 0x03, 0x04, 0x05, 0x06, 0x07, 0x10, 0x11, 0x12, 0x13, 0x14, 0x15, 0x16, 0x17, 0x18, 0x20, 0x21, 0x22,
      0x23, 0x24, 0x25, 0x26, 0x27, 0x28, 0x29, 0x2A, 0x2B, 0x2C, 0x2D, 0x2E].map (fun b => decode .command [b])
      = ([.connect, .disconnect, .isConnected, .getFrequency, .setFrequency, .lineReset, .sendIdleClocks, .isPowered,
          .powerUp, .clearErrors, .readDp, .writeDp, .readAp, .writeAp, .dapReadMem32, .dapWriteMem32, .init,
          .isInitialized, .halt, .resume, .step, .reset, .isHalted, .readReg, .writeReg, .readAllRegs, .readPc,
          .writePc, .readCsr, .writeCsr, .executeProgbuf] : List Instr).map (fun i => some (i, [])) := by decide

/-- 30_encoding.md R71, opcodes from 0x30 on, and the reserved opcodes at the ends of their ranges (R75). -/
theorem test_decode_commands_high :
    [0x30, 0x31, 0x32, 0x33, 0x40, 0x41, 0x42, 0x43, 0x44, 0x45, 0x46, 0x47, 0x50, 0x51, 0x52, 0x60, 0x61, 0x70,
      0x71, 0x00, 0x08, 0x0F, 0x19, 0x1F, 0x2F, 0x34, 0x3F, 0x48, 0x4F, 0x53, 0x5F, 0x62, 0x6F, 0x72, 0xFF].map
        (fun b => decode .command [b])
      = ([.sbaInit, .sbaRead32, .sbaWrite32, .sbaCheckErrors, .readMem8, .readMem16, .readMem32, .writeMem8,
          .writeMem16, .writeMem32, .readMemBlock, .writeMemBlock, .uploadCode, .executeCode, .trace, .enableCache,
          .invalidateCache, .resourceUsage, .getErrorDetail, .reservedHostOpcode 0x00, .reservedHostOpcode 0x08,
          .reservedHostOpcode 0x0F, .reservedHostOpcode 0x19, .reservedHostOpcode 0x1F, .reservedHostOpcode 0x2F,
          .reservedHostOpcode 0x34, .reservedHostOpcode 0x3F, .reservedHostOpcode 0x48, .reservedHostOpcode 0x4F,
          .reservedHostOpcode 0x53, .reservedHostOpcode 0x5F, .reservedHostOpcode 0x62, .reservedHostOpcode 0x6F,
          .reservedHostOpcode 0x72, .reservedHostOpcode 0xFF] : List Instr).map (fun i => some (i, [])) := by decide

/-- 30_encoding.md R64, R65; 41_dap.md R109. -/
theorem test_decode_dp_words :
    decode .dpSelect [0x01, 0xAD, 0x00, 0x00] = some (.selectWord 0xA 0, [])
      ∧ decode .dpSelect [0xF1, 0x2D, 0x00, 0x00] = some (.selectWord 0x2 0xF, [])
      ∧ decode .dpSelect [0x00, 0xAD, 0x00, 0x00] = none
      ∧ decode .ctrlStat [0x00, 0x00, 0x00, 0x00] = some (.ctrlstatClear, [])
      ∧ decode .ctrlStat [0x00, 0x00, 0x00, 0x50] = some (.ctrlstatPwrupReq, [])
      ∧ decode .ctrlStat [0xB2, 0x00, 0x00, 0x50] = some (.ctrlstatClearErrorsPowered, [])
      ∧ decode .ctrlStat [0xB2, 0x00, 0x00, 0x00] = some (.ctrlstatClearErrorsUnpowered, []) := by decide

/-- 42_dm.md R117; 30_encoding.md R69. -/
theorem test_decode_ap_words :
    decode .apCsw [0x02, 0x00, 0x00, 0xA2] = some (.cswInit, [])
      ∧ decode .handshake [0x00, 0x00, 0x00, 0x00] = some (.dminitSeq1, [])
      ∧ decode .handshake [0x01, 0x00, 0x00, 0x00] = some (.dminitSeq2, [])
      ∧ decode .handshake [0xC1, 0xFF, 0xFF, 0x07] = some (.dminitSeq3, [])
      ∧ decode .handshakeStatus [0x01, 0x00, 0x01, 0x04] = some (.dminitExpected, [])
      ∧ decode .abstractCs [0x00, 0x07, 0x00, 0x00] = some (.abstractcsClearCmderr, [])
      ∧ decode .sbcs [0x00, 0x70, 0x14, 0x00] = some (.sbcsCfg, []) := by decide

/-- 30_encoding.md R66. -/
theorem test_decode_dmcontrol_words :
    decode .dmControl [0x01, 0x00, 0x01, 0x00] = some (.dmcSel 1, [])
      ∧ decode .dmControl [0x01, 0x00, 0x00, 0x80] = some (.dmcHalt 0, [])
      ∧ decode .dmControl [0x01, 0x00, 0x01, 0x40] = some (.dmcResume 1, [])
      ∧ decode .dmControl [0x03, 0x00, 0x00, 0x80] = some (.dmcReset 0 true, [])
      ∧ decode .dmControl [0x03, 0x00, 0x01, 0x00] = some (.dmcReset 1 false, [])
      ∧ decode .dmControlRelease [0x01, 0x00, 0x01, 0x80] = some (.dmcUnreset 1 true, [])
      ∧ decode .dmControlRelease [0x01, 0x00, 0x00, 0x00] = some (.dmcUnreset 0 false, [])
      ∧ decode .dmControl [0x01, 0x00, 0x02, 0x00] = none := by decide

/-- 30_encoding.md R67, R68. -/
theorem test_decode_command_and_progbuf_words :
    decode .dmCommand [0x1F, 0x10, 0x22, 0x00] = some (.cmdGprRead 31, [])
      ∧ decode .dmCommand [0x08, 0x10, 0x23, 0x00] = some (.cmdGprWrite 8, [])
      ∧ decode .dmCommand [0x00, 0x00, 0x04, 0x00] = some (.cmdPostexec, [])
      ∧ decode .dmCommand [0x20, 0x10, 0x22, 0x00] = none
      ∧ decode .progbuf [0x73, 0x24, 0xF0, 0xFF] = some (.insnCsrr 0xFFF, [])
      ∧ decode .progbuf [0x73, 0x10, 0x14, 0x7B] = some (.insnCsrw 0x7B1, [])
      ∧ decode .progbuf [0x73, 0x00, 0x10, 0x00] = some (.insnEbreak, []) := by decide

/-- Rows of the opcode table read as the table numbers their bits. -/
theorem test_decodeTableWord :
    decodeTableWord 8 0xA5 = some .swdReqDpR0 ∧ decodeTableWord 3 1 = some .ackOk
      ∧ decodeTableWord 8 0x22 = some .halt ∧ decodeTableWord 32 0xA2000002 = some .cswInit
      ∧ decodeTableWord 32 0x80010001 = some (.dmcHalt 1) ∧ decodeTableWord 32 0x7B002473 = some (.insnCsrr 0x7B0) := by
  decide

/-! ## A probe to run a command on -/

/-- The session of 95_test_vectors.md section 3.1 at its end: connected, powered, initialised with SBA, the SELECT cache
at AP 0xA bank 0, both harts unknown. -/
def session (bits : List Bool) : Session :=
  { Session.fresh Cfg.default true with
    connected := true, wire.slot := some ⟨0, 0⟩, wire.initialized := true, dap.powered := true, dap.selValid := true
    dap.currentApsel := 0xA, dap.ctrlsel := 1, dm.initialized := true, dm.sbaInitialized := true, swdio := bits }

/-- The probe with one session, changed by `f`, that is presented the bits. -/
def probe (bits : List Bool) (f : Session → Session) : State :=
  { State.reset with
    eng.ses := f (session bits), eng.tracker := Tracker.reset.setOwner ⟨0, 0⟩ (some 0), nextId := 1 }

/-- Operand registers written. -/
def args (a b c : Word) (x : Session) : Session := { x with port.arg0 := a, port.arg1 := b, port.arg2 := c }

/-- A hart known halted or known running. -/
def knows (h : HartId) (b : Bool) (x : Session) : Session :=
  x.setHart h { x.hart h with known := true, halted := b }

/-- A hart whose mirror is valid. -/
def mirrored (h : HartId) (x : Session) : Session := x.setHart h { x.hart h with cacheValid := true }

/-- Caching on and a hart halted with its mirror valid: reads of its registers hit. -/
def warm (h : HartId) (x : Session) : Session := { mirrored h (knows h true x) with dm.cacheEnabled := true }

/-- Not connected. -/
def offline (x : Session) : Session := { x with connected := false }

/-- No SBA: the memory commands take the MEM-AP path. -/
def noSba (x : Session) : Session := { x with dm.sbaInitialized := false }

/-- A command ended with this status, value and DOUT after so many transactions and delays. -/
def ends (o : Host.Outcome State Fault Refusal) (k : ErrorKind) (v : Word) (dout : List Word) (txns sleeps : Nat) :
    Bool :=
  match o with
  | .next t =>
    t.eng.ses.port.resultStatus == k && t.eng.ses.port.resultValue == v && t.eng.ses.port.dout == dout
      && t.eng.ses.port.busy == false && t.eng.ses.record.countP (· == .release) == 2 * txns
      && t.eng.ses.record.countP (fun e => match e with | .sleep _ => true | _ => false) == sleeps
  | _ => false

/-- A test of the state a command left. -/
def leaves (o : Host.Outcome State Fault Refusal) (p : State → Bool) : Bool :=
  match o with
  | .next t => p t
  | _ => false

/-- The words driven and the requests made are read off the timeline: the events in time order. -/
def timeline (o : Host.Outcome State Fault Refusal) : List WireEvent :=
  match o with
  | .next t => t.eng.ses.record.reverse
  | _ => []

/-! ## The Wire Engine (95_test_vectors.md section 2.1) -/

/-- "OK read, full cycle trace". -/
theorem test_dp_read_trace :
    timeline (exec .swdReqDpR0 (probe (okReadBits 0x4C013477) id))
      = driven [true, false, true, false, false, true, false, true] ++ [.release] ++ sampled [true, false, false]
        ++ sampled [true, true, true, false, true, true, true, false, false, false, true, false, true, true, false,
          false, true, false, false, false, false, false, false, false, false, false, true, true, false, false, true,
          false, true] ++ [.release] := by decide +kernel

/-- "OK write, full cycle trace". -/
theorem test_dp_write_trace :
    timeline (exec .swdReqDpW4 (probe okWriteBits fun x => { x with txn.request.wdata := 0x50000000 }))
      = driven [true, false, false, true, false, true, false, true] ++ [.release] ++ sampled [true, false, false]
        ++ [.release] ++ driven (List.replicate 28 false ++ [true, false, true, false] ++ [false]) := by
  decide +kernel

/-- "Request bytes": each request row drives its byte and returns what it reads. -/
theorem test_request_rows :
    ([(.swdReqDpR4, 0x8D), (.swdReqDpRC, 0xBD), (.swdReqApR0, 0x87), (.swdReqApR4, 0xAF), (.swdReqApR8, 0xB7),
      (.swdReqApRC, 0x9F)] : List (Instr × Byte)).all (fun x =>
        ends (exec x.1 (probe (okReadBits 7) id)) .ok 7 [] 1 0
          && (timeline (exec x.1 (probe (okReadBits 7) id))).take 8 == driven (bitsOf x.2)) = true
      ∧ ([(.swdReqDpW8, 0xB1), (.swdReqApW0, 0xA3), (.swdReqApW4, 0x8B), (.swdReqApW8, 0x93),
        (.swdReqApWC, 0xBB)] : List (Instr × Byte)).all (fun x =>
          ends (exec x.1 (probe okWriteBits id)) .ok 0 [] 1 0
            && (timeline (exec x.1 (probe okWriteBits id))).take 8 == driven (bitsOf x.2)) = true := by
  decide +kernel

/-- 41_dap.md R99: requests never emitted are refused without a cycle. -/
theorem test_never_emitted :
    ([.swdReqDpR8, .swdReqDpW0, .swdReqDpWC] : List Instr).all (fun i =>
      ends (exec i (probe [] id)) .invalidParam 0 [] 0 0) = true := by decide +kernel

/-- "Malformed ACK": 77 cycles, `last_ack` is the value, the SELECT cache is invalid; "FAULT": 13 cycles. -/
theorem test_bad_answers :
    (timeline (exec .swdReqDpR0 (probe [true, true, false] id))).length = 77
      ∧ leaves (exec .swdReqDpR0 (probe [true, true, false] id)) (fun t => t.eng.ses.dap.lastAck == 3
        && !t.eng.ses.dap.selValid && t.eng.ses.port.resultStatus == .protocol) = true
      ∧ (timeline (exec .swdReqDpR0 (probe faultBits id))).length = 13
      ∧ ends (exec .swdReqDpR0 (probe faultBits id)) .fault 0 [] 1 0 = true := by decide +kernel

/-- The acknowledge rows, on a read in flight with no retry left (30_encoding.md R57; 40_wire.md R82). -/
theorem test_ack_rows :
    leaves (exec .ackOk (probe (bitsOf (5 : Word) ++ [false]) fun x => { x with txn.request.rnw := true }))
        (fun t => t.eng.ses.port.resultStatus == .ok && t.eng.ses.port.resultValue == 5) = true
      ∧ leaves (exec .ackWait (probe [] id)) (fun t => t.eng.ses.port.resultStatus == .timeout) = true
      ∧ leaves (exec .ackFault (probe [] id)) (fun t => t.eng.ses.port.resultStatus == .fault) = true
      ∧ leaves (exec (.ackProtocolError 7) (probe [] id)) (fun t => t.eng.ses.port.resultStatus == .protocol
        && t.eng.ses.dap.lastAck == 7 && t.eng.ses.record.length == 68) = true := by decide +kernel

/-- The same on a SELECT write in flight, whose data a request refused before left there: the SELECT cache is invalid
(10_state.md R17; logs 14 and 16). -/
theorem test_ack_of_a_select_write :
    ([.ackOk, .ackWait, .ackFault, .ackProtocolError 0] : List Instr).all (fun i => leaves (exec i (probe []
      fun x => { x with txn.request := ⟨false, false, 0x8, 0xAD01⟩ })) (fun t => !t.eng.ses.dap.selValid)) = true := by
  decide +kernel

/-- "Divider" for SYS_KHZ 150000 and 125000, and the upper clamp. -/
theorem test_divider :
    [1, 100, 500, 1000, 2000, 4000, 10000, 37500, 150000, 200000].map (dividerAt 150000)
        = [37501, 376, 76, 39, 20, 11, 5, 2, 1, 1]
      ∧ [1, 100, 500, 1000, 2000, 4000, 10000, 37500, 150000, 200000].map (dividerAt 125000)
        = [31251, 314, 64, 32, 17, 9, 4, 2, 1, 1]
      ∧ dividerAt 262138 1 = 65535 := by decide +kernel

/-- "Data parity". -/
theorem test_parity :
    [0x00000000, 0xFFFFFFFF, 0x00000001, 0x80000001, 0x12345678, 0xDEADBEEF, 0x0000AD11, 0x4C013477].map xorReduce
      = [false, false, true, false, true, false, true, true] := by decide +kernel

/-- SET_FREQUENCY, needing no connection, then GET_FREQUENCY. -/
theorem test_frequency :
    leaves (exec .setFrequency (probe [] (args 4000 0 0 ∘ offline))) (fun t => t.eng.ses.wire.freqKhz == 4000
        && ends (exec .getFrequency t) .ok 4000 [] 0 0) = true
      ∧ ends (exec .setFrequency (probe [] (args 0 0 0))) .invalidParam 0 [] 0 0 = true := by decide +kernel

/-- "Line sequences". -/
theorem test_line_sequences :
    timeline (exec .lineReset (probe [] id)) = driven (List.replicate 56 true ++ List.replicate 8 false)
      ∧ leaves (exec .lineReset (probe [] id)) (fun t => !t.eng.ses.dap.selValid) = true
      ∧ timeline (exec .sendIdleClocks (probe [] (args 3 0 0))) = driven [false, false, false]
      ∧ ends (exec .sendIdleClocks (probe [] (args 3 0 0 ∘ offline))) .notConnected 0 [] 0 0 = true := by
  decide +kernel

/-- The activation sequence: 304 cycles, bits 57 to 72 as 40_wire.md R87 has them. -/
theorem test_activation_bits :
    (byteListBits Config.activationBytes).length = 304
      ∧ ((byteListBits Config.activationBytes).drop 56).take 16
        = [false, false, true, true, true, true, false, true, true, true, false, false, false, true, true, true] := by
  decide +kernel

/-- Section 3.1, CONNECT: 27 transactions, 1546 cycles and 3 delays, and its end state; its variant whose handshake
status is 0x04010000 unwinds. -/
theorem test_connect :
    leaves (exec .connect (probe (connectBits true 0x4C013477) fun _ =>
        { Session.fresh Cfg.default true with swdio := connectBits true 0x4C013477 })) (fun t =>
          t.eng.ses.port.resultStatus == .ok && t.eng.ses.port.resultValue == 0x4C013477
            && t.eng.ses.record.length == 1546 + 3 && t.eng.ses.connected && t.eng.ses.dap.powered
            && t.eng.ses.dm.initialized && t.eng.ses.dm.sbaInitialized && t.eng.ses.selectHit 0xA 0
            && t.eng.ses.wire.slot == some ⟨0, 1⟩ && t.eng.tracker.activeSessions == 2) = true
      ∧ leaves (exec .connect (probe [] fun _ =>
        { Session.fresh Cfg.default true with
          swdio := okReadBits 0x4C013477 ++ powerUpBits ++ okWriteBits ++ apWriteBits ++ apWriteBits ++ okWriteBits
            ++ apWriteBits ++ apWriteBits ++ apWriteBits ++ apReadBits 0x04010000 })) (fun t =>
              t.eng.ses.port.resultStatus == .invalidState && !t.eng.ses.connected && !t.eng.ses.dap.powered
                && t.eng.ses.wire.slot == none && t.eng.tracker.activeSessions == 1) = true := by decide +kernel

/-- DISCONNECT, then IS_CONNECTED; a ninth CONNECT is refused (section 2.7). -/
theorem test_disconnect :
    leaves (exec .disconnect (probe [] id)) (fun t => !t.eng.ses.connected && t.eng.tracker.activeSessions == 0
        && !t.eng.ses.dm.initialized && ends (exec .isConnected t) .ok 0 [] 0 0) = true
      ∧ ends (exec .connect { probe [] offline with eng.tracker.owner := Vector.replicate 8 (some 3) }) .resourceBusy 0
        [] 0 0 = true := by decide +kernel

/-! ## The DAP Engine (section 2.2) -/

/-- "Retry": WAIT five times, then OK; WAIT six times; WAIT, then FAULT (section 3.3). -/
theorem test_retry :
    ends (exec .readDp (probe ((List.replicate 5 waitBits).flatten ++ okReadBits 0xF0000000) (args 4 0 0))) .ok
        0xF0000000 [] 6 5 = true
      ∧ ends (exec .readDp (probe (List.replicate 6 waitBits).flatten (args 4 0 0))) .timeout 0 [] 6 5 = true
      ∧ ends (exec .readDp (probe (waitBits ++ faultBits) (args 4 0 0))) .fault 0 [] 2 1 = true
      ∧ ends (exec .readDp (probe (okReadBits 0x4C013477 |>.set 35 false) (args 0 0 0))) .parity 0 [] 1 0 = true := by
  decide +kernel

/-- "SELECT cache": READ_AP hits, misses, and misses again after a raw SELECT write. -/
theorem test_read_ap :
    ends (exec .readAp (probe (apReadBits 5) (args 0xA 0x0C 0))) .ok 5 [] 2 0 = true
      ∧ ends (exec .readAp (probe (okWriteBits ++ apReadBits 5) (args 0x2 0xFC 0))) .ok 5 [] 3 0 = true
      ∧ leaves (exec .readAp (probe (okWriteBits ++ apReadBits 5) (args 0x2 0xFC 0))) (fun t =>
        t.eng.ses.selectHit 0x2 0xF) = true
      ∧ leaves (exec .writeDp (probe okWriteBits (args 8 0xAD01 0))) (fun t => !t.eng.ses.dap.selValid) = true := by
  decide +kernel

/-- "Operand checks". -/
theorem test_dap_operands :
    ([(.readDp, 8, 0), (.readDp, 2, 0), (.writeDp, 0, 0), (.writeDp, 0xC, 0), (.readAp, 16, 0), (.readAp, 0xA, 0x100),
      (.readAp, 0xA, 0x06), (.writeAp, 0xA, 0x06)] : List (Instr × Word × Word)).all (fun x =>
        ends (exec x.1 (probe [] (args x.2.1 x.2.2 0))) .invalidParam 0 [] 0 0) = true := by decide +kernel

/-- WRITE_AP, the last register of a bank. -/
theorem test_write_ap :
    ends (exec .writeAp (probe (okWriteBits ++ apWriteBits) (args 0xA 0xFC 9))) .ok 0 [] 3 0 = true := by decide +kernel

/-- "Power-up": acknowledged at the second read, and never. -/
theorem test_power_up :
    ends (exec .powerUp (probe (okWriteBits ++ okWriteBits ++ okReadBits 0x50000000 ++ okReadBits 0xF0000000) id)) .ok
        0 [] 4 1 = true
      ∧ ends (exec .powerUp (probe (okWriteBits ++ okWriteBits
        ++ (List.replicate 10 (okReadBits 0x70000000)).flatten) id)) .timeout 0 [] 12 9 = true := by decide +kernel

/-- "CLEAR_ERRORS": the word written follows `powered`, which IS_POWERED reads. -/
theorem test_clear_errors :
    (timeline (exec .clearErrors (probe okWriteBits id))).drop 13 = driven (bitsOf (0x500000B2 : Word) ++ [false])
      ∧ (timeline (exec .clearErrors (probe okWriteBits fun x => { x with dap.powered := false }))).drop 13
        = driven (bitsOf (0x000000B2 : Word) ++ [false])
      ∧ ends (exec .isPowered (probe [] id)) .ok 1 [] 0 0 = true := by decide +kernel

/-- "MEM-AP". -/
theorem test_mem_ap :
    ends (exec .dapReadMem32 (probe (memApReadBits 0x200) (args 0x44 0 0))) .ok 0x200 [] 4 0 = true
      ∧ ends (exec .dapWriteMem32 (probe memApWriteBits (args 0x40 0x80000001 0))) .ok 0 [] 4 0 = true
      ∧ ends (exec .dapReadMem32 (probe [] (args 0x42 0 0))) .alignment 0 [] 0 0 = true := by decide +kernel

/-! ## The DM driver (section 2.3) -/

/-- INIT without SBA: transactions 5 to 23 of section 3.1, the cache hitting at first. -/
theorem test_init :
    ends (exec .init (probe (dmInitHeadBits ++ memApReadBits 0x20000000) fun x => { x with dap.selValid := false })) .ok
        0 [] 19 3 = true
      ∧ leaves (exec .init (probe (dmInitHeadBits ++ memApReadBits 0x20000000) fun x =>
        { x with dap.selValid := false })) (fun t => !t.eng.ses.dm.sbaInitialized
          && ends (exec .isInitialized t) .ok 1 [] 0 0) = true := by decide +kernel

/-- "Halt": known halted; known running, halted at the second read; never. -/
theorem test_halt :
    ends (exec .halt (probe [] (knows 0 true))) .alreadyHalted 0 [] 0 0 = true
      ∧ ends (exec .halt (probe (haltBits 0x800 ++ memApReadBits 0x200) (knows 0 false))) .ok 0 [] 12 1 = true
      ∧ ends (exec .halt (probe (memApWriteBits ++ (List.replicate 10 (memApReadBits 0x800)).flatten) id)) .timeout 0
        [] 44 9 = true := by decide +kernel

/-- "Resume": known running; known halted. -/
theorem test_resume :
    ends (exec .resume (probe [] (knows 1 false ∘ args 1 0 0))) .ok 0 [] 0 0 = true
      ∧ leaves (exec .resume (probe (haltBits 0x800) (knows 0 true))) (fun t =>
        (t.eng.ses.hart 0).known && !(t.eng.ses.hart 0).halted) = true := by decide +kernel

/-- "QueryHalted". -/
theorem test_is_halted :
    leaves (exec .isHalted (probe (haltBits 0x200) (args 1 0 0))) (fun t => t.eng.ses.port.resultValue == 1
        && ends (exec .isHalted t) .ok 1 [] 0 0) = true
      ∧ ends (exec .isHalted (probe [] (args 2 0 0))) .invalidParam 0 [] 0 0 = true := by decide +kernel

/-- "Reset". -/
theorem test_reset :
    leaves (exec .reset (probe (memApWriteBits ++ haltBits 0x200) (args 0 1 0 ∘ knows 1 true))) (fun t =>
        (t.eng.ses.hart 0).known && (t.eng.ses.hart 0).halted && !(t.eng.ses.hart 1).known) = true
      ∧ ends (exec .reset (probe (memApWriteBits ++ memApWriteBits) (args 1 0 0))) .ok 0 [] 8 2 = true
      ∧ ends (exec .reset (probe [] (args 0 2 0))) .invalidParam 0 [] 0 0 = true := by decide +kernel

/-- "GPR access" and section 3.4. -/
theorem test_read_reg :
    ends (exec .readReg (probe (readRegBits 0x64) (args 0 5 0 ∘ knows 0 true))) .ok 0x64 [] 16 0 = true
      ∧ ends (exec .readReg (probe [] (args 0 32 0 ∘ knows 0 true))) .invalidParam 0 [] 0 0 = true
      ∧ ends (exec .readReg (probe [] (args 0 5 0 ∘ knows 0 false))) .notHalted 0 [] 0 0 = true
      ∧ ends (exec .readReg (probe [] fun x => ({ args 0 5 0 x with dm.cacheEnabled := true }).setHart 0
        { known := true, halted := true, cacheValid := true, gpr := (Vector.replicate 32 0).set 5 77 }))
          .ok 77 [] 0 0 = true := by decide +kernel

/-- WRITE_REG of x0 leaves the mirror's x0 at 0, of x14 does not (caching on); a FAULT at its selection of the hart
invalidates the mirror (70_reset_and_hazards.md R191). -/
theorem test_write_reg :
    leaves (exec .writeReg (probe writeRegBits fun x => { args 0 0 7 (knows 0 true x) with dm.cacheEnabled := true }))
        (fun t => (t.eng.ses.hart 0).gpr[0] == 0 && t.eng.ses.port.resultStatus == .ok) = true
      ∧ leaves (exec .writeReg (probe writeRegBits fun x =>
        { args 0 14 7 (knows 0 true x) with dm.cacheEnabled := true }))
        (fun t => (t.eng.ses.hart 0).gpr[14] == 7 && (t.eng.ses.hart 1).gpr[14] == 0) = true
      ∧ leaves (exec .writeReg (probe faultBits (args 0 14 7 ∘ warm 0)))
        (fun t => !(t.eng.ses.hart 0).cacheValid && t.eng.ses.port.resultStatus == .fault) = true := by decide +kernel

/-- "READ_ALL_REGS": x0 first; a fault at the second register leaves one word on DOUT (60_exceptions.md R163). -/
theorem test_read_all_regs :
    ends (exec .readAllRegs (probe (memApWriteBits ++ gprReadBits 7 ++ faultBits) (knows 0 true))) .fault 0 [7] 17 0
      = true := by decide +kernel

/-- "CSR access": 68 transactions. -/
theorem test_read_csr :
    ends (exec .readCsr (probe (csrReadBits 1 0x40000003) (args 0 0x7B0 0 ∘ knows 0 true))) .ok 0x40000003 [] 68 0
        = true
      ∧ ends (exec .readPc (probe (csrReadBits 1 0x20077000) (knows 0 true))) .ok 0x20077000 [] 68 0 = true
      ∧ ends (exec .readCsr (probe [] (args 0 0x1000 0 ∘ knows 0 true))) .invalidParam 0 [] 0 0 = true := by
  decide +kernel

@[inherit_doc test_read_csr] theorem test_write_csr :
    ends (exec .writeCsr (probe (csrWriteBits 1) (args 0 0x300 5 ∘ knows 0 true))) .ok 0 [] 68 0 = true
      ∧ ends (exec .writePc (probe (csrWriteBits 1) (args 0 0x20077000 0 ∘ knows 0 true))) .ok 0 [] 68 0 = true := by
  decide +kernel

/-- "STEP 0": 216 transactions. -/
theorem test_step :
    ends (exec .step (probe (csrReadBits 1 0x40000003 ++ csrWriteBits 1 ++ memApWriteBits ++ haltBits 0x200
      ++ csrWriteBits 1) (knows 0 true))) .ok 0 [] 216 0 = true := by decide +kernel

/-- "EXECUTE_PROGBUF" and section 3.6. -/
theorem test_execute_progbuf :
    ends (exec .executeProgbuf (probe progbufBits fun x =>
        { args 0 2 0 (knows 0 true x) with port.din := [0xFFF74793, 0x00100073] })) .ok 0 [] 20 0 = true
      ∧ ends (exec .executeProgbuf (probe [] fun x =>
        { args 0 2 0 (knows 0 true x) with port.din := [0x00000013, 0x00000013] })) .invalidParam 0 [] 0 0 = true
      ∧ ends (exec .executeProgbuf (probe (memApWriteBits ++ memApWriteBits ++ haltBits 0) fun x =>
        { args 0 1 0 (knows 0 true x) with port.din := [0x00100073] })) .ok 0 [] 16 0 = true
      ∧ ends (exec .executeProgbuf (probe [] (args 0 3 0))) .invalidParam 0 [] 0 0 = true := by decide +kernel

/-- "ENABLE_CACHE / INVALIDATE_CACHE". -/
theorem test_cache_control :
    leaves (exec .invalidateCache (probe [] (offline ∘ mirrored 0 ∘ mirrored 1)))
        (fun t => !(t.eng.ses.hart 0).cacheValid && (t.eng.ses.hart 1).cacheValid
          && leaves (exec .enableCache t) (fun u => !(u.eng.ses.hart 1).cacheValid)) = true
      ∧ ends (exec .enableCache (probe [] (args 2 0 0))) .invalidParam 0 [] 0 0 = true := by decide +kernel

/-! ## System Bus Access and memory (sections 2.4, 2.5) -/

theorem test_sba :
    ends (exec .sbaInit (probe (sbaInitBits 0x20000400) noSba)) .ok 0 [] 8 0 = true
      ∧ ends (exec .sbaInit (probe (memApReadBits 0x20000000) id)) .invalidState 0 [] 4 0 = true
      ∧ ends (exec .sbaRead32 (probe (memReadBits true 9) (args 0x20077000 0 0))) .ok 9 [] 8 0 = true
      ∧ ends (exec .sbaRead32 (probe [] (args 0x20077000 0 0 ∘ noSba))) .notInitialized 0 [] 0 0 = true
      ∧ ends (exec .sbaWrite32 (probe (memWriteBits true) (args 0x20077000 0xDEADBEEF 0))) .ok 0 [] 8 0 = true := by
  decide +kernel

theorem test_sba_check_errors :
    ends (exec .sbaCheckErrors (probe (memApReadBits 0x20140400) id)) .ok 0x20140400 [] 4 0 = true
      ∧ ends (exec .sbaCheckErrors (probe (memApReadBits 0x20142400 ++ memApWriteBits) id)) .fault 0x20142400 [] 8 0
        = true := by decide +kernel

/-- The word at 0x20077000 is 0x78563412. -/
theorem test_memory_reads :
    ([(0, 0x12), (1, 0x34), (2, 0x56), (3, 0x78)] : List (Word × Word)).all (fun x =>
        ends (exec .readMem8 (probe (memReadBits true 0x78563412) (args (0x20077000 + x.1) 0 0))) .ok x.2 [] 8 0) = true
      ∧ ends (exec .readMem16 (probe (memReadBits true 0x78563412) (args 0x20077002 0 0))) .ok 0x7856 [] 8 0 = true
      ∧ ends (exec .readMem16 (probe [] (args 0x20077001 0 0))) .alignment 0 [] 0 0 = true
      ∧ ends (exec .readMem32 (probe (memReadBits false 0x78563412) (args 0x20077000 0 0 ∘ noSba))) .ok 0x78563412 [] 4
        0 = true := by decide +kernel

/-- The word written back is the last data word driven. -/
theorem test_memory_writes :
    ([(.writeMem8, 0x20077001, 0xAB, 0x7856AB12), (.writeMem8, 0x20077003, 0x00, 0x00563412),
      (.writeMem16, 0x20077002, 0xBEEF, 0xBEEF3412)] : List (Instr × Word × Word × Word)).all (fun x =>
        ((timeline (exec x.1 (probe (memReadBits true 0x78563412 ++ memWriteBits true) (args x.2.1 x.2.2.1 0)))).drop
          (14 * 46 + 13)).take 32 == driven (bitsOf x.2.2.2)) = true
      ∧ ends (exec .writeMem8 (probe [] (args 0x20077000 0x100 0))) .invalidParam 0 [] 0 0 = true
      ∧ ends (exec .writeMem32 (probe (memWriteBits true) (args 0x20077000 5 0))) .ok 0 [] 8 0 = true := by
  decide +kernel

/-- "Block ranges". -/
theorem test_read_block :
    ends (exec .readMemBlock (probe (memReadBits false 1 ++ memReadBits false 2) (args 0x20077000 2 0 ∘ noSba))) .ok 2
        [1, 2] 8 0 = true
      ∧ ends (exec .readMemBlock (probe (memReadBits false 1 ++ memReadBits false 2 ++ faultBits)
        (args 0x20077000 4 0 ∘ noSba))) .fault 2 [1, 2] 9 0 = true
      ∧ ends (exec .readMemBlock (probe [] (args 0xFFFFFFFC 2 0))) .invalidParam 0 [] 0 0 = true
      ∧ ends (exec .readMemBlock (probe (memReadBits false 1) (args 0xFFFFFFFC 1 0 ∘ noSba))) .ok 1 [1] 4 0 = true := by
  decide +kernel

theorem test_write_block :
    ends (exec .writeMemBlock (probe [] (args 0x20077000 0 0))) .ok 0 [] 0 0 = true
      ∧ leaves (exec .writeMemBlock (probe (memWriteBits true) fun x =>
        { args 0x20077000 2 0 x with port.din := [1] })) (fun t =>
          t.eng.ses.port.busy && t.eng.ses.hold == .writeBlock 0x20077000 2 1) = true := by decide +kernel

/-- "UPLOAD_CODE": equal readbacks, and the second one different. -/
theorem test_upload :
    ends (exec .uploadCode (probe (memWriteBits true ++ memReadBits true 0x007302B3 ++ memWriteBits true
        ++ memReadBits true 0x0000006F) fun x =>
          { args 0x20077000 2 0 x with port.din := [0x007302B3, 0x0000006F] })) .ok 2 [] 32 0 = true
      ∧ ends (exec .uploadCode (probe (memWriteBits true ++ memReadBits true 0x007302B3 ++ memWriteBits true
        ++ memReadBits true 0x0000006E) fun x =>
          { args 0x20077000 2 0 x with port.din := [0x007302B3, 0x0000006F] })) .verify 1 [] 32 0 = true := by
  decide +kernel

/-- "EXECUTE_CODE": launched; a DPC readback that differs leaves the hart halted. -/
theorem test_execute_code :
    leaves (exec .executeCode (probe (memWriteBits true ++ memReadBits true 0x6F ++ haltBits 0x200 ++ csrWriteBits 1
        ++ csrReadBits 1 0x20077000 ++ haltBits 0x800) fun x =>
          { args 0 0x20077000 1 x with port.din := [0x6F] })) (fun t =>
            t.eng.ses.port.resultStatus == .ok && (t.eng.ses.hart 0).known && !(t.eng.ses.hart 0).halted) = true
      ∧ leaves (exec .executeCode (probe (memWriteBits true ++ memReadBits true 0x6F ++ haltBits 0x200 ++ csrWriteBits 1
        ++ csrReadBits 1 0x20077004) fun x =>
          { args 0 0x20077000 1 x with port.din := [0x6F] })) (fun t =>
            t.eng.ses.port.resultStatus == .verify && (t.eng.ses.hart 0).halted) = true
      ∧ ends (exec .executeCode (probe [] (args 0 0x20077000 0))) .invalidParam 0 [] 0 0 = true := by decide +kernel

/-- "TRACE": the first record and the hold; a DPC of 0x20077002; a first Halt that times out. -/
theorem test_trace :
    leaves (exec .trace (probe (haltBits 0x200 ++ csrReadBits 1 0x20077000 ++ memReadBits true 0x13) (args 0 2 0)))
        (fun t => t.eng.ses.port.busy && t.eng.ses.port.dout == [0, 0x20077000, 0x13]
          && t.eng.ses.hold == .trace 0 2 false 1) = true
      ∧ ends (exec .trace (probe (haltBits 0x200 ++ csrReadBits 1 0x20077002) (args 0 2 0))) .alignment 0xFFFFFFF4 [] 76
        0 = true
      ∧ ends (exec .trace (probe (memApWriteBits ++ (List.replicate 10 (memApReadBits 0)).flatten) (args 0 2 0)))
        .timeout 0xFFFFFFFF [] 44 9 = true
      ∧ ends (exec .trace (probe [] (args 0 2 2))) .invalidParam 0 [] 0 0 = true := by decide +kernel

/-- "RESOURCE_USAGE" and "GET_ERROR_DETAIL". -/
theorem test_queries :
    ends (exec .resourceUsage { probe [] id with
        eng.tracker := (Tracker.reset.setOwner ⟨0, 0⟩ (some 0)).setOwner ⟨0, 2⟩ (some 1) }) .ok 2 [5, 0] 0 0 = true
      ∧ ends (exec .getErrorDetail (probe [] fun x => { x with errDetail := [0x46, 0x61, 0x75, 0x6C, 0x74] })) .ok 5
        [0x6C756146, 0x00000074] 0 0 = true
      ∧ ends (exec (.reservedHostOpcode 0x08) (probe [] offline)) .invalidParam 0 [] 0 0 = true := by decide +kernel

/-- "Check order" (section 2.6). -/
theorem test_check_order :
    ends (exec .readReg (probe [] (args 2 40 0 ∘ offline))) .notConnected 0 [] 0 0 = true
      ∧ ends (exec .readReg (probe [] fun x => { args 2 5 0 x with dm.initialized := false })) .invalidParam 0 [] 0 0
        = true
      ∧ ends (exec .readMem16 (probe [] fun x => { args 1 0 0 x with dm.initialized := false })) .alignment 0 [] 0 0
        = true
      ∧ ends (exec .readMem16 (probe [] fun x => { args 2 0 0 x with dm.initialized := false })) .notInitialized 0 [] 0 0
        = true
      ∧ ends (exec .readReg (probe (haltBits 0x800) (args 0 5 0))) .notHalted 0 [] 8 0 = true := by decide +kernel

/-! ## Words -/

/-- The register a DM word goes to and the word, as TAR and DRW receive them (30_encoding.md R66 to R69). -/
theorem test_dm_words :
    ([(.dmcSel 1, 0x40, 0x00010001), (.dmcHalt 0, 0x40, 0x80000001), (.dmcResume 1, 0x40, 0x40010001),
      (.dmcReset 0 true, 0x40, 0x80000003), (.dmcUnreset 1 true, 0x40, 0x80010001), (.cmdGprRead 31, 0x5C, 0x0022101F),
      (.cmdGprWrite 8, 0x5C, 0x00231008), (.cmdPostexec, 0x5C, 0x00040000), (.abstractcsClearCmderr, 0x58, 0x00000700),
      (.insnCsrr 0x7B0, 0x80, 0x7B002473), (.insnCsrw 0x7B1, 0x80, 0x7B141073), (.insnEbreak, 0x84, 0x00100073),
      (.sbcsCfg, 0xE0, 0x00147000)] : List (Instr × Word × Word)).all (fun x =>
        let evs := timeline (exec x.1 (probe memApWriteBits id))
        (evs.drop 13).take 32 == driven (bitsOf x.2.1) && (evs.drop (2 * 46 + 13)).take 32 == driven (bitsOf x.2.2)
          && evs.length == 4 * 46) = true := by decide +kernel

/-- The words of the DP and of AP 0xA, as the first data word that is not SELECT (30_encoding.md R64, R65; 42_dm.md
R117). -/
theorem test_dp_and_ap_words :
    ([(.selectWord 0xA 1, 0, 0x0000AD11), (.ctrlstatClear, 0, 0), (.ctrlstatPwrupReq, 0, 0x50000000),
      (.ctrlstatClearErrorsPowered, 0, 0x500000B2), (.ctrlstatClearErrorsUnpowered, 0, 0x000000B2),
      (.cswInit, 0, 0xA2000002), (.dminitSeq1, 46, 0x00000000), (.dminitSeq2, 46, 0x00000001),
      (.dminitSeq3, 46, 0x07FFFFC1)] : List (Instr × Nat × Word)).all (fun x =>
        let skip := if x.2.1 = 0 then [] else okWriteBits
        let evs := timeline (exec x.1 (probe (skip ++ apWriteBits) id))
        (evs.drop (x.2.1 + 13)).take 32 == driven (bitsOf x.2.2)) = true
      ∧ ends (exec .dminitExpected (probe (okWriteBits ++ apReadBits 0x04010001) id)) .ok 0x04010001 [] 3 0 = true
      ∧ ends (exec .dminitExpected (probe (okWriteBits ++ apReadBits 0x04010000) id)) .invalidState 0 [] 3 0 = true := by
  decide +kernel

/-! ## Hypotheses that can be met

One theorem for each statement with hypotheses, or for each of its clauses: a state and operands that meet them all.
"hears" is met with the bits of Sys2Proof/Laws/Answers.lean. -/

/-- DecodeOfEncode, ExecKeepsTheRest, FieldsChangeOnlyByTheirCommands. -/
theorem test_meets_wellFormed : (Instr.insnCsrr 0xFFF).wellFormed = true ∧ Instr.insnCsrr 0xFFF ≠ .connect := by decide

/-- EncodeOfDecode. -/
theorem test_meets_EncodeOfDecode : decode .ack [7, 9] = some (.ackProtocolError 7, [9]) := by decide

/-- ComposedWords. -/
theorem test_meets_ComposedWords : dmWord (.dmcReset 1 true) = some (.dmcontrol, 0x80010003) := by decide

/-- The probe with a host action waiting. -/
def waiting (x : Input) (f : Session → Session) : State := { probe [] f with inbox := [x] }

/-- StepRunsAWrittenCommand. -/
theorem test_meets_StepRunsAWrittenCommand :
    (waiting (.writeCmd 0 0x21) id).inbox = [.writeCmd 0 0x21]
      ∧ State.focus { waiting (.writeCmd 0 0x21) id with inbox := [] } 0 = some (probe [] id)
      ∧ (probe [] id).eng.ses.port.busy = false ∧ decode .command [0x21] = some (.isInitialized, []) :=
  ⟨rfl, rfl, rfl, by decide⟩

/-- StepRunsAPresentedWord, a request and a word. -/
theorem test_meets_StepRunsAPresentedWord :
    (waiting (.issue 0 .request 0x8B 5) id).inbox = [.issue 0 .request 0x8B 5]
      ∧ State.focus { waiting (.issue 0 .request 0x8B 5) id with inbox := [] } 0 = some (probe [] id)
      ∧ decode .request (wordBytes 0x8B) = some (.swdReqApW4, [0, 0, 0])
      ∧ decode .sbcs (wordBytes 0x00147000) = some (.sbcsCfg, []) := ⟨rfl, rfl, by decide, by decide⟩

/-- A probe on which a TRACE holds. -/
def tracing : State := probe [] fun x => { x with port.busy := true, hold := .trace 0 1 false 1 }

/-- The session of a probe with two sessions satisfies rule R20. -/
theorem session_inv : SessionInv (session []) where
  offline h := by cases h
  sbaNeedsDm _ := rfl
  mirrorNeedsHalt h hv := by fin_cases h <;> cases hv
  x0IsZero h := by fin_cases h <;> rfl
  detailBound := by decide
  freqPositive := by decide
  dividerOfFreq := rfl
  busyIffHold := by decide
  holdConnected := trivial

/-- HostPortAccesses (last clause), DestructionReturnsTheSlot, StepKeepsTheInvariant: a probe with a session
satisfies the invariant. -/
theorem test_meets_ProbeInv (x : Input) : ProbeInv (waiting x id) where
  each p hp := by
    have : p = (0, session []) := by simpa [State.sessions, waiting, probe, session, Session.fresh, State.reset] using hp
    subst this; exact session_inv
  distinct := by simp [State.sessions, waiting, probe, session, Session.fresh, State.reset]
  numbered p hp := by
    have : p = (0, session []) := by simpa [State.sessions, waiting, probe, session, Session.fresh, State.reset] using hp
    subst this; exact Nat.zero_lt_one
  owns p hp y hy := by
    have : p = (0, session []) := by simpa [State.sessions, waiting, probe, session, Session.fresh, State.reset] using hp
    subst this
    have : y = ⟨0, 0⟩ := (Option.some.inj hy).symm
    subst this; rfl
  parkedLive p hp := by cases hp

/-- HostPortAccesses, a CMD write while BUSY is 1. -/
theorem test_meets_busy :
    State.focus { waiting (.writeCmd 0 1) (fun x => { x with port.busy := true }) with inbox := [] } 0
        = some (probe [] fun x => { x with port.busy := true })
      ∧ (probe [] fun x => { x with port.busy := true }).eng.ses.port.busy = true := ⟨rfl, rfl⟩

/-- HostPortAccesses, a TRACE_REPLY write with no trace. -/
theorem test_meets_no_trace :
    State.focus { waiting (.writeTraceReply 0 true) id with inbox := [] } 0 = some (probe [] id)
      ∧ ∀ h m c n, (probe [] id).eng.ses.hold ≠ .trace h m c n := ⟨rfl, fun _ _ _ _ h => by cases h⟩

/-- HostPortAccesses, the accesses that run nothing: any action on the port, on a session that holds nothing and on one that
holds for a trace answer, a DOUT with a word and one without, the last status code. -/
theorem test_meets_HostPortAccesses :
    (∀ x : Input, (waiting x id).inbox = [x]
        ∧ State.focus { waiting x id with inbox := [] } 0 = some (probe [] id)
        ∧ State.focus { waiting x (fun y => { y with port.busy := true, hold := .trace 0 1 false 1 }) with inbox := [] } 0
          = some tracing)
      ∧ (probe [] id).eng.ses.hold = .none ∧ (∃ h m c n, tracing.eng.ses.hold = .trace h m c n)
      ∧ (probe [] fun x => { x with port.dout := [7] }).eng.ses.port.dout = [7] ∧ (probe [] id).eng.ses.port.dout = []
      ∧ statusOrder[15]? = some (probe [] fun x => { x with port.resultStatus := .verify }).eng.ses.port.resultStatus :=
  ⟨fun _ => ⟨rfl, rfl, rfl⟩, rfl, ⟨_, _, _, _, rfl⟩, rfl, rfl, rfl⟩

/-- SessionCreation, both clauses at the boundary. -/
theorem test_meets_SessionCreation :
    (waiting (.create { Cfg.default with freqKhz := 0 }) id).inbox = [.create { Cfg.default with freqKhz := 0 }]
      ∧ (waiting (.create { Cfg.default with freqKhz := 1 }) id).inbox = [.create { Cfg.default with freqKhz := 1 }]
      ∧ (1 : Word) ≠ 0 := ⟨rfl, rfl, by decide⟩

/-- DestructionReturnsTheSlot, StepKeepsTheInvariant (with `test_meets_ProbeInv`). -/
theorem test_meets_destruction :
    State.focus { waiting (.destroy 0) id with inbox := [] } 0 = some (probe [] id)
      ∧ ∃ t, Machine.step (waiting (.destroy 0) id) = .next t := ⟨rfl, _, rfl⟩

/-- ExecKeepsTheRest, FieldsChangeOnlyByTheirCommands (each of its conditions: LINE_RESET is none of the commands
named). -/
theorem test_meets_exec_next : ∃ t, exec .lineReset (probe [] id) = .next t := ⟨_, rfl⟩

/-- A session whose hart 1 is mirrored satisfies rule R20. -/
theorem warm_inv : SessionInv (warm 1 (session [])) where
  offline h := by cases h
  sbaNeedsDm _ := rfl
  mirrorNeedsHalt h hv := by fin_cases h <;> first | cases hv; done | exact ⟨rfl, rfl, rfl⟩
  x0IsZero h := by fin_cases h <;> rfl
  detailBound := by decide
  freqPositive := by decide
  dividerOfFreq := rfl
  busyIffHold := by decide
  holdConnected := trivial

/-- FieldsChangeOnlyByTheirCommands: the SELECT cache lost and gained, a mirror kept, an end that is no failure. -/
theorem test_meets_FieldsChangeOnlyByTheirCommands :
    leaves (exec .lineReset (probe [] id)) (fun t => !t.eng.ses.dap.selValid) = true
      ∧ leaves (exec (.selectWord 0xF 0xF) (probe okWriteBits id)) (fun t => t.eng.ses.dap.selValid
        && t.eng.ses.dap.currentApsel == 0xF) = true
      ∧ SessionInv (probe [] (warm 1)).eng.ses ∧ losesMirror .isPowered = false
      ∧ ((probe [] (warm 1)).eng.ses.hart 1).cacheValid = true
      ∧ leaves (exec .isPowered (probe [] (warm 1))) (fun t => (t.eng.ses.hart 1).cacheValid
        && t.eng.ses.port.resultStatus == .ok) = true :=
  ⟨by decide +kernel, by decide +kernel, warm_inv, rfl, rfl, by decide +kernel⟩

/-- HartStateIsIsolated, both clauses. -/
theorem test_meets_HartStateIsIsolated :
    namesHart .writeReg = true ∧ names (probe [] (args 1 5 0)).eng.ses.port.arg0 1 ∧ (0 : HartId) ≠ 1
      ∧ memoryRow .uploadCode = true ∧ (∃ t, exec .writeReg (probe [] (args 1 5 0)) = .next t)
      ∧ ∃ t, exec .uploadCode (probe [] id) = .next t := ⟨rfl, rfl, by decide, rfl, ⟨_, rfl⟩, _, rfl⟩

/-- NoCycleUnlessConnected, NotConnectedComesFirst. -/
theorem test_meets_offline :
    (probe [] offline).eng.ses.connected = false ∧ Instr.halt ≠ .connect ∧ offlineRow .halt = false
      ∧ ∃ t, exec .halt (probe [] offline) = .next t := ⟨rfl, by decide, rfl, _, rfl⟩

/-- InvalidParamComesSecond: operands just past their range, on rows of each kind of check, offline and online. -/
theorem test_meets_InvalidParamComesSecond :
    offlineRow .setFrequency = true ∧ paramsOk .setFrequency (probe [] (args 0 0 0)).eng.ses.port = false
      ∧ (probe [] id).online = true ∧ paramsOk .swdReqDpR8 (probe [] id).eng.ses.port = false
      ∧ paramsOk .readDp (probe [] (args 8 0 0)).eng.ses.port = false
      ∧ paramsOk .readAp (probe [] (args 0xA 0xFD 0)).eng.ses.port = false
      ∧ paramsOk .halt (probe [] (args 2 0 0)).eng.ses.port = false
      ∧ paramsOk .reset (probe [] (args 1 2 0)).eng.ses.port = false
      ∧ paramsOk .readReg (probe [] (args 1 32 0)).eng.ses.port = false
      ∧ paramsOk .readCsr (probe [] (args 1 0x1000 0)).eng.ses.port = false
      ∧ paramsOk .executeProgbuf (probe [] (args 1 3 0)).eng.ses.port = false
      ∧ paramsOk .writeMem8 (probe [] (args 0 0x100 0)).eng.ses.port = false
      ∧ paramsOk .readMemBlock (probe [] (args 0xFFFFFFFC 2 0)).eng.ses.port = false
      ∧ paramsOk .executeCode (probe [] (args 1 0 0)).eng.ses.port = false
      ∧ paramsOk .trace (probe [] (args 1 0 2)).eng.ses.port = false := by decide +kernel

/-- LaterChecksFollowInOrder, its three clauses. -/
theorem test_meets_LaterChecksFollowInOrder :
    (probe [] (args 2 0 0)).online = true ∧ paramsOk .readMem32 (probe [] (args 2 0 0)).eng.ses.port = true
      ∧ addressAligned .readMem32 (probe [] (args 2 0 0)).eng.ses.port = false
      ∧ addressAligned .readMem16 (probe [] (args 2 0 0)).eng.ses.port = true
      ∧ initialisedFor .sbaRead32 (probe [] noSba).eng.ses = false
      ∧ initialisedFor .readReg (probe [] (knows 1 false ∘ args 1 31 0)).eng.ses = true ∧ needsHalted .readReg = true
      ∧ names (probe [] (knows 1 false ∘ args 1 31 0)).eng.ses.port.arg0 1
      ∧ ((probe [] (knows 1 false ∘ args 1 31 0)).eng.ses.hart 1).known = true
      ∧ ((probe [] (knows 1 false ∘ args 1 31 0)).eng.ses.hart 1).halted = false := by
  refine ⟨?_, ?_, ?_, ?_, ?_, ?_, ?_, rfl, ?_, ?_⟩ <;> decide +kernel

/-- LaterChecksFollowInOrder, a hart unknown that is found running, by READ_REG and by EXECUTE_PROGBUF, and the latter on a
DM not initialised. -/
theorem test_meets_later_checks_on_the_wire :
    needsHalted .readReg = true ∧ ((probe [] id).eng.ses.hart 1).known = false ∧ (probe [] id).eng.ses.selectHit 0xA 0 = true
      ∧ (∃ evs, (probe (memApWriteBits ++ memApReadBits 0) (args 1 31 0)).hears
        (selectHartScript 1 ++ dmReadScript .dmstatus fun v => v[9] == false) evs [])
      ∧ programOf [0x13] = some [0x13, 0x00100073] ∧ addressAligned .executeProgbuf (probe [] id).eng.ses.port = true
      ∧ (probe [] fun x => { args 1 1 0 x with port.din := [0x13] }).eng.ses.port.din = [0x13] ++ []
      ∧ paramsOk .executeProgbuf (probe [] (args 1 1 0)).eng.ses.port = true
      ∧ (probe [] fun x => { x with dm.initialized := false }).eng.ses.dm.initialized = false :=
  ⟨rfl, rfl, rfl, ((Answerable.selectHart 1).append (Answerable.dmRead _ (by decide))).hears rfl, by decide, rfl, rfl,
    by decide, rfl⟩

/-- OkReadRequest, at the last retry. -/
theorem test_meets_OkReadRequest :
    ∃ evs, (probe ((List.replicate 5 waitBits).flatten ++ okReadBits 9) id).hears [reads true 0xC 9] evs []
      ∧ requestRow .swdReqApRC = some (true, true, 0xC) :=
  ⟨_, talk_singleton.2 ⟨5, Nat.le_refl _, by simp [probe, session, State.reset], rfl⟩, rfl⟩

/-- OkWriteRequest. -/
theorem test_meets_OkWriteRequest :
    ∃ evs, (probe okWriteBits id).hears [writes false 0x8 (probe okWriteBits id).eng.ses.txn.request.wdata] evs []
      ∧ requestRow .swdReqDpW8 = some (false, false, 0x8) := by
  obtain ⟨evs, h⟩ := (Answerable.writes false 0x8 0).hears (s := probe okWriteBits id) rfl
  exact ⟨evs, h, rfl⟩

/-- WaitExhaustionTimesOut. -/
theorem test_meets_WaitExhaustionTimesOut :
    (probe (List.replicate 6 waitBits).flatten id).eng.ses.swdio
      = (List.replicate ((probe [] id).eng.ses.dap.retryCount.toNat + 1) waitBits).flatten ++ [] := by decide +kernel

/-- BadAnswersEndTheCommand, its three clauses. -/
theorem test_meets_BadAnswersEndTheCommand :
    (probe faultBits id).eng.ses.swdio = faultBits ++ []
      ∧ (probe ([true, false, false] ++ (List.replicate 32 false ++ [true])) id).eng.ses.swdio
        = [true, false, false] ++ (List.replicate 32 false ++ [true]) ++ []
      ∧ (List.replicate 32 false ++ [true]).length = 33 ∧ (List.replicate 32 false ++ [true]).count true % 2 = 1
      ∧ [true, true, true] ≠ okWriteBits ∧ [true, true, true] ≠ waitBits ∧ [true, true, true] ≠ faultBits := by
  decide +kernel

/-- AcknowledgeRows, its clauses: a read, a write and a SELECT write in flight, one retry left or none. -/
theorem test_meets_AcknowledgeRows :
    (probe (bitsOf (9 : Word) ++ [false]) fun x =>
        { x with txn := { request := ⟨true, true, 0xC, 0⟩, retriesLeft := 1 } }).eng.ses.swdio
        = bitsOf (9 : Word) ++ [xorReduce 9] ++ []
      ∧ (probe [] id).eng.ses.txn = { request := ⟨false, false, 0, 0⟩, retriesLeft := 0 }
      ∧ (∃ evs, reads true 0xC 9 (1 - 1) (okReadBits 9) evs [])
      ∧ (∃ evs, writes false 0x8 0xAD01 (1 - 1) okWriteBits evs []) ∧ malformedAck 0 = true ∧ malformedAck 7 = true :=
  ⟨by decide +kernel, rfl, ⟨_, 0, Nat.le_refl _, by simp, rfl⟩, ⟨_, 0, Nat.le_refl _, by simp, rfl⟩, rfl, rfl⟩

/-- TransactionCycleCounts, at the last retry, each answer. -/
theorem test_meets_TransactionCycleCounts :
    (∀ bits : List Bool, (probe ((List.replicate 5 waitBits).flatten ++ bits) id).eng.ses.swdio
        = (List.replicate 5 waitBits).flatten ++ bits)
      ∧ 5 = (probe [] id).eng.ses.dap.retryCount.toNat ∧ requestRow .swdReqApWC = some (true, false, 0xC)
      ∧ (List.replicate 33 true).length = 33
      ∧ okWriteBits ++ List.replicate 33 true <+: okWriteBits ++ List.replicate 33 true
      ∧ faultBits <+: faultBits ∧ waitBits <+: waitBits ∧ [true, true, true] <+: [true, true, true]
      ∧ leaves (exec .swdReqApWC (probe ((List.replicate 5 waitBits).flatten ++ okWriteBits) id))
        (fun t => t.cycles == 13 * 5 + 46) = true :=
  ⟨fun _ => rfl, rfl, rfl, by simp, ⟨[], rfl⟩, ⟨[], rfl⟩, ⟨[], rfl⟩, ⟨[], rfl⟩, by decide +kernel⟩

/-- LineSequences, DisconnectAndConnectWithoutWire: connected or not. -/
theorem test_meets_online : (probe [] id).online = true ∧ (probe [] offline).online = false := ⟨rfl, rfl⟩

/-- CommandsWithoutWire, SetFrequencySetsTheDivider. -/
theorem test_meets_CommandsWithoutWire :
    (probe [] (args 1 0 0)).eng.ses.port.arg0 = 1 ∧ (probe [] id).eng.ses.port.arg0 = 0
      ∧ names (probe [] (args 1 0 0)).eng.ses.port.arg0 1 ∧ (probe [] (args 1 0 0)).eng.ses.port.arg0 ≠ 0
      ∧ 1 < (probe [] (args 2 0 0)).eng.ses.port.arg0.toNat :=
  ⟨rfl, rfl, rfl, by decide, by decide⟩

/-- ResourceUsageAndErrorDetail, its last clause. -/
theorem test_meets_SessionInv : SessionInv (probe [] id).eng.ses := session_inv

/-- ConnectSucceeds, on a target with SBA and on one without. -/
theorem test_meets_ConnectSucceeds (sba : Bool) :
    ∃ evs, (probe (connectBits sba 0x4C013477) offline).hears (connectScript sba 0x4C013477) evs []
      ∧ (probe (connectBits sba 0x4C013477) offline).online = false
      ∧ (probe (connectBits sba 0x4C013477) offline).eng.tracker.pick
          (probe (connectBits sba 0x4C013477) offline).eng.ses.cfg.slot = some ⟨0, 1⟩
      ∧ (0x4C013477 : Word).extractLsb' 1 11 ≠ 0 := by
  obtain ⟨evs, h⟩ := (Answerable.connect sba 0x4C013477).hears
    (s := probe (connectBits sba 0x4C013477) offline) rfl
  exact ⟨evs, h, rfl, by cases sba <;> decide +kernel, by decide⟩

/-- DisconnectAndConnectWithoutWire (not connected, no slot to be had). -/
theorem test_meets_no_slot :
    (probe [] offline).online = false
      ∧ ({ probe [] offline with eng.tracker.owner := Vector.replicate 8 (some 3) } : State).eng.tracker.pick none
        = none := ⟨rfl, by decide +kernel⟩

/-- A probe on which session 0's CONNECT stands behind its `Acquire`, and session 1 exists. -/
def connecting (bits : List Bool) (c : Option Slot) (x : Input) : State :=
  { probe [] fun _ =>
      { Session.fresh Cfg.default true with port.busy := true, hold := .connect ⟨0, 0⟩, swdio := bits } with
    parked := [⟨1, Session.fresh { Cfg.default with slot := c } true⟩], nextId := 2, inbox := [x] }

/-- A session as it is created satisfies rule R20. -/
theorem fresh_inv : SessionInv (Session.fresh Cfg.default true) where
  offline _ := ⟨rfl, rfl, rfl, rfl, rfl, rfl⟩
  sbaNeedsDm h := by cases h
  mirrorNeedsHalt h hv := by fin_cases h <;> cases hv
  x0IsZero h := by fin_cases h <;> rfl
  detailBound := by decide
  freqPositive := by decide
  dividerOfFreq := rfl
  busyIffHold := by decide
  holdConnected := trivial

/-- FailedConnectUnwinds, CONNECT by one action: no designer in IDCODE. -/
theorem test_meets_FailedConnectUnwinds :
    SessionInv (Session.fresh Cfg.default true)
      ∧ leaves (exec .connect (probe [] fun _ => { Session.fresh Cfg.default true with swdio := okReadBits 1 }))
        (fun t => t.eng.ses.port.resultStatus == .protocol && t.eng.tracker.activeSessions == 1) = true :=
  ⟨fresh_inv, by decide +kernel⟩

/-- FailedConnectUnwinds, CONNECT by two actions: BUSY 1, connected, no slot to be had, a slot to be had; a session with no
CONNECT under way, and one whose CONNECT then fails. -/
theorem test_meets_connect_in_two :
    State.focus { tracing with inbox := [] } 0 = some tracing
      ∧ (∀ x, State.focus { waiting x id with inbox := [] } 0 = some (probe [] id)
        ∧ State.focus { waiting x offline with inbox := [] } 0 = some (probe [] offline))
      ∧ tracing.eng.ses.port.busy = true ∧ (probe [] id).eng.ses.port.busy = false ∧ (probe [] id).online = true
      ∧ (probe [] offline).online = false ∧ (probe [] offline).eng.tracker.pick none = some ⟨0, 1⟩
      ∧ (probe [] offline).eng.tracker.pick (some ⟨0, 0⟩) = none ∧ (probe [] offline).eng.ses.live = true
      ∧ (∀ x, (probe [] id).eng.ses.hold ≠ .connect x)
      ∧ State.focus { connecting (okReadBits 1) none (.goOn 0) with inbox := [] } 0
        = some { connecting (okReadBits 1) none (.goOn 0) with inbox := [] }
      ∧ (connecting (okReadBits 1) none (.goOn 0)).eng.ses.hold = .connect ⟨0, 0⟩
      ∧ leaves (step (connecting (okReadBits 1) none (.goOn 0))) (fun t => t.eng.ses.port.resultStatus == .protocol)
        = true :=
  ⟨rfl, fun _ => ⟨rfl, rfl⟩, rfl, rfl, rfl, rfl, by decide +kernel, by decide +kernel, rfl, fun _ h => (nomatch h), rfl, rfl,
    by decide +kernel⟩

/-- FailedConnectUnwinds (last clause), DestructionReturnsTheSlot, HostPortAccesses (a DIN write), StepKeepsTheInvariant: a
probe on which a CONNECT is under way satisfies the invariant. -/
theorem test_meets_connect_under_way (x : Input) :
    ProbeInv (connecting [] none x) ∧ (connecting [] none x).eng.ses.hold = .connect ⟨0, 0⟩ where
  left :=
    { each := by
        have h : SessionInv (connecting [] none x).eng.ses :=
          { fresh_inv with busyIffHold := ⟨fun _ h => (nomatch h), fun _ => rfl⟩, holdConnected := rfl }
        exact List.forall_mem_cons.2 ⟨h, List.forall_mem_cons.2 ⟨fresh_inv, fun p hp => by cases hp⟩⟩
      distinct := (by decide : ([0, 1] : List SessionId).Nodup)
      numbered := List.forall_mem_cons.2 ⟨Nat.zero_lt_two, List.forall_mem_cons.2 ⟨Nat.one_lt_two, fun p hp => by cases hp⟩⟩
      owns := List.forall_mem_cons.2 ⟨fun y hy => by cases hy; rfl, List.forall_mem_cons.2
        ⟨fun y hy => (by cases hy), fun p hp => by cases hp⟩⟩
      parkedLive := List.forall_mem_cons.2 ⟨rfl, fun p hp => by cases hp⟩ }
  right := rfl

/-- While session 0's CONNECT is under way its slot is taken for session 1: the next one is free, that one is not, it
is counted; and the CONNECT that fails frees it (20_memory.md R49; 40_wire.md R91 to R93; 44_ops.md R160). -/
theorem test_slot_of_a_connect_under_way :
    leaves (step (connecting [] none (.startConnect 1))) (fun t => t.eng.ses.hold == .connect ⟨0, 1⟩
        && t.eng.tracker.ownerOf ⟨0, 1⟩ == some 1 && t.eng.tracker.activeSessions == 2) = true
      ∧ leaves (step (connecting [] (some ⟨0, 0⟩) (.writeCmd 1 0x01)))
        (fun t => t.eng.ses.port.resultStatus == .resourceBusy && t.eng.self == 1) = true
      ∧ leaves (step (connecting [] none (.writeCmd 1 0x70)))
        (fun t => t.eng.ses.port.resultValue == 1 && t.eng.ses.port.dout == [1, 0]) = true
      ∧ leaves (step (connecting (okReadBits 1) none (.goOn 0)))
        (fun t => t.eng.tracker.activeSessions == 0 && !t.eng.ses.port.busy) = true
      ∧ leaves (step (connecting [] none (.destroy 0))) (fun t => t.eng.tracker.activeSessions == 0) = true := by
  decide +kernel

/-- PowerUpAndClearErrors, the acknowledges at the tenth read. -/
theorem test_meets_PowerUp :
    ∃ bits evs, (probe bits id).hears powerUpScript evs [] := by
  have miss {k : Nat} {b : List Bool} (h : Answerable [awaits (fun p => [readsSome false 0x4 p]) bothAcked
      (fun v => !bothAcked v) 20000 k] b) := Answerable.awaitsMiss (us := 20000)
        (Answerable.readsSome false 0x4 (p := fun v => !bothAcked v) (d := 0x20000000) (by decide)) h
  have h := ((Answerable.writes false 0x4 0).append ((Answerable.writes false 0x4 0x50000000).append
    (miss (miss (miss (miss (miss (miss (miss (miss (miss (Answerable.awaitsHit (k := 0)
      (Answerable.readsSome false 0x4 (d := 0xA0000000) (by decide))))))))))))))
  obtain ⟨evs, h⟩ := h.hears (s := probe _ id) rfl
  exact ⟨_, evs, h⟩

/-- PowerUpAndClearErrors, InitActivatesTheDm, HaltHaltsAHart, ResumeResumesAHart, ResetResetsTheHarts: the ends in
`Timeout` and, of INIT, in `InvalidState`. -/
theorem test_meets_failing_ends :
    (∃ bits evs, (probe bits id).hears powerUpTimeoutScript evs [])
      ∧ (∃ evs, (probe (handshakeBits ++ apReadBits 0x04010000) fun x => { x with dap.selValid := false }).hears
        (dmInitFailScript false) evs [])
      ∧ (∃ bits evs, (probe bits (args 1 0 0)).hears (haltTimeoutScript 1) evs [])
      ∧ (∃ bits evs, (probe bits (args 1 0 0)).hears (resumeTimeoutScript 1) evs [])
      ∧ ∃ bits evs, (probe bits (args 1 1 0)).hears (resetTimeoutScript 1) evs [] := by
  have never (us : Nat) {p : Word → Bool} (h : p 0 = true) :=
    Answerable.givesUp (us := us) (Answerable.dmRead .dmstatus h) 10
  obtain ⟨e₁, h₁⟩ := (((Answerable.writes false 0x4 0).append (Answerable.writes false 0x4 0x50000000)).append
    (Answerable.givesUp (read := fun p => [readsSome false 0x4 p]) (miss := fun v => !bothAcked v) (us := 20000)
      (Answerable.readsSome false 0x4 (d := 0xF) (by decide)) 10)).hears (s := probe _ id) rfl
  obtain ⟨e₂, h₂⟩ := ((Answerable.dmWrite .dmcontrol (dmcHalt 1)).append (never 10000 (p := fun v => !v[9]) (by decide))).hears
    (s := probe _ (args 1 0 0)) rfl
  obtain ⟨e₃, h₃⟩ := ((Answerable.dmWrite .dmcontrol (dmcResume 1)).append (never 10000 (p := fun v => !v[11]) (by decide))).hears
    (s := probe _ (args 1 0 0)) rfl
  obtain ⟨e₄, h₄⟩ := (((((Answerable.dmWrite .dmcontrol (dmcReset 1 true)).append (Answerable.pauses 10000)).append
    (Answerable.dmWrite .dmcontrol (dmcUnreset 1 true))).append (Answerable.pauses 50000)).append
      (never 10000 (p := fun v => !v[9]) (by decide))).hears (s := probe _ (args 1 1 0)) rfl
  exact ⟨⟨_, e₁, h₁⟩, (Answerable.handshake.append (Answerable.apRead _ (by decide))).hears rfl, ⟨_, e₂, h₂⟩,
    ⟨_, e₃, h₃⟩, _, e₄, h₄⟩

/-- PowerUpAndClearErrors, CLEAR_ERRORS; DpAndApWords, its first two clauses. -/
theorem test_meets_ClearErrors :
    (∃ evs, (probe okWriteBits id).hears
        [writes false 0x4 (if (probe okWriteBits id).eng.ses.dap.powered then 0x500000B2 else 0x000000B2)] evs [])
      ∧ (∃ evs, (probe okWriteBits id).hears (selectScript 0xF 0xF) evs [])
      ∧ ctrlStatWord .ctrlstatClearErrorsPowered = some 0x500000B2 :=
  ⟨(Answerable.writes false 0x4 0x500000B2).hears rfl, (Answerable.writes _ _ _).hears rfl, rfl⟩

/-- DpAccess, its three clauses. -/
theorem test_meets_DpAccess :
    (probe [] (args 0xC 0 0)).eng.ses.port.arg0 = (0xC : BitVec 4).setWidth 32
      ∧ (∃ evs, (probe (okReadBits 5) (args 0xC 0 0)).hears [reads false 0xC 5] evs [])
      ∧ (∃ evs, (probe okWriteBits (args 0x4 7 0)).hears [writes false 0x4 7] evs [])
      ∧ ∃ evs, (probe okWriteBits (args 0x8 7 0)).hears [writes false 0x8 7] evs [] :=
  ⟨rfl, (Answerable.reads _ _ _).hears rfl, (Answerable.writes _ _ _).hears rfl, (Answerable.writes _ _ _).hears rfl⟩

/-- ApAccess, both clauses: a miss on the last register. -/
theorem test_meets_ApAccess :
    (probe [] (args 0xF 0xFC 9)).eng.ses.port.arg0 = (0xF : BitVec 4).setWidth 32
      ∧ (probe [] (args 0xF 0xFC 9)).eng.ses.port.arg1 = (0xFC : Byte).setWidth 32
      ∧ (probe [] (args 0xF 0xFC 9)).eng.ses.selectHit 0xF 0xF = false
      ∧ (∃ evs, (probe (okWriteBits ++ apReadBits 5) (args 0xF 0xFC 9)).hears
        (maybeSelect false 0xF 0xF ++ apReadScript 0xFC (· == 5)) evs [])
      ∧ ∃ evs, (probe (okWriteBits ++ apWriteBits) (args 0xF 0xFC 9)).hears
        (maybeSelect false 0xF 0xF ++ apWriteScript 0xFC 9) evs [] :=
  ⟨rfl, rfl, rfl, ((Answerable.writes _ _ _).append (Answerable.apRead _ (by decide))).hears rfl,
    ((Answerable.writes _ _ _).append (Answerable.apWrite _ _)).hears rfl⟩

/-- MemApAccess, both clauses, the cache hitting. -/
theorem test_meets_MemApAccess :
    (probe [] (args 0xFFFFFFFC 7 0)).eng.ses.port.arg0.toNat % 4 = 0
      ∧ (probe [] (args 0xFFFFFFFC 7 0)).eng.ses.selectHit 0xA 0 = true
      ∧ (∃ evs, (probe (memApReadBits 5) (args 0xFFFFFFFC 7 0)).hears
        (maybeSelect true 0xA 0 ++ memApReadScript 0xFFFFFFFC (· == 5)) evs [])
      ∧ ∃ evs, (probe memApWriteBits (args 0xFFFFFFFC 7 0)).hears
        (maybeSelect true 0xA 0 ++ memApWriteScript 0xFFFFFFFC 7) evs [] :=
  ⟨by decide, rfl, (Answerable.nil.append (Answerable.memApRead _ (by decide))).hears rfl,
    (Answerable.nil.append (Answerable.memApWrite _ _)).hears rfl⟩

/-- InitActivatesTheDm, both clauses, the cache missing. -/
theorem test_meets_InitActivatesTheDm :
    (∃ evs, (probe (dmInitHeadBits ++ sbaInitBits 0x20) fun x => { x with dap.selValid := false }).hears
        (dmInitScript false) evs [])
      ∧ ∃ evs, (probe (dmInitHeadBits ++ memApReadBits 0) fun x => { x with dap.selValid := false }).hears
        (dmInitNoSbaScript false) evs [] :=
  ⟨(Answerable.dmInitHead.append (Answerable.sbaInit (by decide))).hears rfl,
    (Answerable.dmInitHead.append (Answerable.dmRead _ (by decide))).hears rfl⟩

/-- HaltHaltsAHart and ResumeResumesAHart: a hart unknown, known halted, known running. -/
theorem test_meets_halt_and_resume :
    (probe [] (args 1 0 0)).ready = true ∧ names (probe [] (args 1 0 0)).eng.ses.port.arg0 1
      ∧ (((probe [] (args 1 0 0)).eng.ses.hart 1).known && ((probe [] (args 1 0 0)).eng.ses.hart 1).halted) = false
      ∧ (∃ evs, (probe (haltBits 0x200) (args 1 0 0)).hears (haltScript 1) evs [])
      ∧ (((probe [] (knows 1 true)).eng.ses.hart 1).known && ((probe [] (knows 1 true)).eng.ses.hart 1).halted) = true
      ∧ (∃ evs, (probe (haltBits 0x800) (args 1 0 0)).hears (resumeScript 1) evs [])
      ∧ (((probe [] (knows 1 false)).eng.ses.hart 1).known && !((probe [] (knows 1 false)).eng.ses.hart 1).halted)
        = true :=
  ⟨rfl, rfl, rfl, (Answerable.halt 1).hears rfl, rfl, (Answerable.resume 1).hears rfl, rfl⟩

/-- IsHaltedAnswers, both clauses: a hart known, and one unknown that is found running. -/
theorem test_meets_IsHaltedAnswers :
    ((probe [] (knows 0 true)).eng.ses.hart 0).known = true ∧ ((probe [] id).eng.ses.hart 0).known = false
      ∧ ∃ evs, (probe (haltBits 0x800) id).hears (selectHartScript 0 ++ dmReadScript .dmstatus fun v => v[9] == false)
        evs [] :=
  ⟨rfl, rfl, ((Answerable.selectHart 0).append (Answerable.dmRead _ (by decide))).hears rfl⟩

/-- StepStepsAHart, on a hart not known to be halted, which halts again or does not. -/
theorem test_meets_StepStepsAHart :
    (probe [] id).ready = true ∧ ((probe [] id).eng.ses.hart 0).known = false
      ∧ (probe [] id).eng.ses.mirrorHit 0 = false
      ∧ (∃ bits evs, (probe bits id).hears (requireHaltedScript false 0 ++ stepTimeoutScript false 0 3 1 1) evs [])
      ∧ ∃ bits evs, (probe bits id).hears (requireHaltedScript false 0 ++ stepScript false 0 3 1 1 1) evs [] := by
  refine ⟨rfl, rfl, rfl, ?_, ?_⟩
  · obtain ⟨evs, h⟩ := (((Answerable.selectHart 0).append (Answerable.dmRead .dmstatus (p := allHalted) (d := 0x200)
      (by decide))).append (((((Answerable.csrRead 0 0x7B0 1 3).append
      (Answerable.csrWrite 0 0x7B0 1 (3 ||| 0x4))).append (Answerable.dmWrite .dmcontrol (dmcSel 0))).append
        (Answerable.dmWrite .dmcontrol (dmcResume 0))).append (Answerable.givesUp (us := 10000) (Answerable.dmRead .dmstatus
          (p := fun v => !v[9]) (d := 0) (by decide)) 10))).hears (s := probe _ id) rfl
    exact ⟨_, evs, h⟩
  have h := ((Answerable.selectHart 0).append (Answerable.dmRead .dmstatus (p := allHalted) (d := 0x200) (by decide))).append
    ((((((Answerable.csrRead 0 0x7B0 1 3).append (Answerable.csrWrite 0 0x7B0 1 (3 ||| 0x4))).append
      (Answerable.dmWrite .dmcontrol (dmcSel 0))).append (Answerable.dmWrite .dmcontrol (dmcResume 0))).append
        (Answerable.awaitStatus (p := allHalted) (v := 0x200) (by decide))).append (Answerable.csrWrite 0 0x7B0 1 3))
  obtain ⟨evs, h⟩ := h.hears (s := probe _ id) rfl
  exact ⟨_, evs, h⟩

/-- ResetResetsTheHarts, halting or not. -/
theorem test_meets_ResetResetsTheHarts :
    (probe [] (args 1 1 0)).eng.ses.port.arg1 = BitVec.ofNat 32 true.toNat
      ∧ (∃ bits evs, (probe bits (args 1 1 0)).hears (resetScript 1 true) evs [])
      ∧ ∃ bits evs, (probe bits (args 1 0 0)).hears (resetScript 1 false) evs [] := by
  have h (hr : Bool) := (((Answerable.dmWrite .dmcontrol (dmcReset 1 hr)).append (Answerable.pauses 10000)).append
    (Answerable.dmWrite .dmcontrol (dmcUnreset 1 hr))).append (Answerable.pauses 50000)
  obtain ⟨e₁, h₁⟩ := ((h true).append (Answerable.awaitStatus (p := allHalted) (v := 0x200) (by decide))).hears
    (s := probe _ (args 1 1 0)) rfl
  obtain ⟨e₂, h₂⟩ := ((h false).append Answerable.nil).hears (s := probe _ (args 1 0 0)) rfl
  exact ⟨rfl, ⟨_, e₁, h₁⟩, _, e₂, h₂⟩

/-- RegisterAccess: over the wire, from the mirror, and a write; the last register. A write that fails is
`test_write_reg`'s. -/
theorem test_meets_RegisterAccess :
    (probe [] (args 1 31 7)).eng.ses.port.arg1 = (31 : BitVec 5).setWidth 32
      ∧ (∃ evs, (probe (haltBits 0x200 ++ readRegBits 9) (args 1 31 7)).hears
        (requireHaltedScript false 1 ++ maybeReadReg false 1 31 9) evs [])
      ∧ (∃ evs, (probe [] (warm 1)).hears (requireHaltedScript true 1 ++ maybeReadReg true 1 31 0)
          evs [])
      ∧ ∃ evs, (probe (haltBits 0x200 ++ writeRegBits) (args 1 31 7)).hears
        (requireHaltedScript false 1 ++ writeRegScript 1 31 7) evs [] :=
  ⟨rfl, (((Answerable.selectHart 1).append (Answerable.dmRead .dmstatus (d := 0x200) (by decide))).append
      (Answerable.readReg 1 31 9)).hears rfl, (Answerable.nil.append Answerable.nil).hears rfl,
    (((Answerable.selectHart 1).append (Answerable.dmRead .dmstatus (d := 0x200) (by decide))).append
      (Answerable.writeReg 1 31 7)).hears rfl⟩

/-- Registers read one after the other. -/
theorem answerable_gprReads (rs : List (BitVec 5 × Word)) :
    Answerable (gprReadsScript rs) (rs.flatMap fun r => gprReadBits r.2) := by
  induction rs with
  | nil => exact Answerable.nil
  | cons r rs ih => exact (Answerable.gprRead r.1 r.2).append ih

/-- ReadAllRegsReadsAll. -/
theorem test_meets_ReadAllRegsReadsAll :
    (List.replicate 32 (7 : Word)).length = 32
      ∧ ∃ bits evs, (probe bits (knows 0 true)).hears
        (requireHaltedScript true 0 ++ readAllRegsScript 0 (List.replicate 32 7)) evs [] := by
  refine ⟨by simp, ?_⟩
  obtain ⟨evs, h⟩ := (Answerable.nil.append ((Answerable.selectHart 0).append
    (answerable_gprReads (allRegs.zip (List.replicate 32 7))))).hears (s := probe _ (knows 0 true)) rfl
  exact ⟨_, evs, h⟩

/-- CsrAccess, its four clauses. -/
theorem test_meets_CsrAccess :
    (probe [] (args 1 0xFFF 7 ∘ knows 1 true)).ready = true
      ∧ (probe [] (args 1 0xFFF 7 ∘ knows 1 true)).eng.ses.port.arg1 = (0xFFF : BitVec 12).setWidth 32
      ∧ (∃ evs, (probe (csrReadBits 1 9) (args 1 0xFFF 7 ∘ knows 1 true)).hears
        (requireHaltedScript true 1 ++ csrReadScript false 1 0xFFF 1 9) evs [])
      ∧ (∃ evs, (probe (csrWriteBits 1) (args 1 0xFFF 7 ∘ knows 1 true)).hears
        (requireHaltedScript true 1 ++ csrWriteScript false 1 0xFFF 1 7) evs [])
      ∧ (∃ evs, (probe (csrReadBits 1 9) (args 1 0 0 ∘ knows 1 true)).hears
        (requireHaltedScript true 1 ++ csrReadScript false 1 0x7B1 1 9) evs [])
      ∧ ∃ evs, (probe (csrWriteBits 1) (args 1 7 0 ∘ knows 1 true)).hears
        (requireHaltedScript true 1 ++ csrWriteScript false 1 0x7B1 1 7) evs [] :=
  ⟨rfl, rfl, (Answerable.nil.append (Answerable.csrRead 1 0xFFF 1 9)).hears rfl,
    (Answerable.nil.append (Answerable.csrWrite 1 0xFFF 1 7)).hears rfl,
    (Answerable.nil.append (Answerable.csrRead 1 0x7B1 1 9)).hears rfl,
    (Answerable.nil.append (Answerable.csrWrite 1 0x7B1 1 7)).hears rfl⟩

/-- ExecuteProgbufRunsAProgram, its three clauses. -/
theorem test_meets_ExecuteProgbuf :
    programOf [0x13] = some [0x13, 0x00100073] ∧ programOf [0x13, 0x13] = none
      ∧ (probe [] fun x => { args 0 1 0 x with port.din := [0x13, 5] }).eng.ses.port.din = [0x13] ++ [5]
      ∧ (∃ evs, (probe progbufBits fun x => { args 0 1 0 (knows 0 true x) with port.din := [0x13] }).hears
        (requireHaltedScript true 0 ++ progbufScript 0 [0x13, 0x00100073]) evs [])
      ∧ (probe [] fun x => { args 0 2 0 x with port.din := [0x13, 0x13] }).eng.ses.port.din = [0x13, 0x13] ++ []
      ∧ (probe [] fun x => { args 0 2 0 x with port.din := [0x13] }).eng.ses.port.arg1 = BitVec.ofNat 32 2 :=
  ⟨by decide, by decide, rfl, (Answerable.nil.append (Answerable.progbuf 0 _ _)).hears rfl, rfl, rfl⟩

/-- SbaCommands, its six clauses. -/
theorem test_meets_SbaCommands :
    (∃ evs, (probe (sbaInitBits 0x20) id).hears sbaInitScript evs [])
      ∧ (∃ evs, (probe (memApReadBits 0) id).hears (dmReadScript .sbcs fun v => v.extractLsb' 5 7 == 0) evs [])
      ∧ (probe [] id).eng.ses.dm.sbaInitialized = true
      ∧ (∃ evs, (probe (memReadBits true 9) id).hears (sbaReadScript 0 9) evs [])
      ∧ (∃ evs, (probe (memWriteBits true) id).hears (sbaWriteScript 0 0) evs [])
      ∧ (0x400 : Word).extractLsb' 12 3 = 0 ∧ (0x1400 : Word).extractLsb' 12 3 ≠ 0
      ∧ (∃ evs, (probe (memApReadBits 0x400) id).hears (dmReadScript .sbcs (· == 0x400)) evs [])
      ∧ ∃ evs, (probe (memApReadBits 0x1400 ++ memApWriteBits) id).hears
        (dmReadScript .sbcs (· == 0x1400) ++ dmWriteScript .sbcs 0x00147000) evs [] :=
  ⟨(Answerable.sbaInit (by decide)).hears rfl, (Answerable.dmRead _ (by decide)).hears rfl, rfl,
    (Answerable.memRead true 0 9).hears rfl, (Answerable.memWrite true 0 0).hears rfl, by decide, by decide,
    (Answerable.dmRead _ (by decide)).hears rfl,
    ((Answerable.dmRead _ (by decide)).append (Answerable.dmWrite _ _)).hears rfl⟩

/-- MemoryReads and MemoryWrites, at the last address of a word. -/
theorem test_meets_memory :
    (probe [] (args 0xFFFFFFFF 0xFF 0)).ready = true
      ∧ (∃ evs, (probe (memReadBits true 9) (args 0xFFFFFFFF 0xFF 0)).hears (memReadScript true 0xFFFFFFFC 9) evs [])
      ∧ BitVec.ofNat 32 ((0xFFFFFFFF : Word).toNat / 4 * 4) = 0xFFFFFFFC ∧ (0xFFFFFFFE : Word).toNat % 2 = 0
      ∧ (0xFFFF : Word).toNat < 2 ^ 16 ∧ (0xFF : Word).toNat < 2 ^ 8
      ∧ (∃ evs, (probe (memWriteBits true) (args 0xFFFFFFFC 5 0)).hears (memWriteScript true 0xFFFFFFFC 5) evs [])
      ∧ ∃ evs, (probe (memReadBits true 9 ++ memWriteBits true) (args 0xFFFFFFFF 0xFF 0)).hears
        (memReadScript true 0xFFFFFFFC 9 ++ memWriteScript true 0xFFFFFFFC 0xFF000009) evs [] :=
  ⟨rfl, (Answerable.memRead true _ 9).hears rfl, by decide, by decide, by decide, by decide,
    (Answerable.memWrite true _ 5).hears rfl,
    ((Answerable.memRead true _ 9).append (Answerable.memWrite true _ _)).hears rfl⟩

/-- MemoryWrites: the words its two sub-word clauses ask for, the halfword at address 2 and the byte at address 3. -/
theorem test_meets_subword_values :
    (∀ k : Nat, (hk : k < 32) → (0xFFFF0009 : Word)[k] = if 8 * (2 % 4) ≤ k ∧ k < 8 * (2 % 4) + 16
        then (0xFFFF : Word).getLsbD (k - 8 * (2 % 4)) else (9 : Word)[k])
      ∧ ∀ k : Nat, (hk : k < 32) → (0xFF000009 : Word)[k] = if 8 * (3 % 4) ≤ k ∧ k < 8 * (3 % 4) + 8
        then (0xFF : Word).getLsbD (k - 8 * (3 % 4)) else (9 : Word)[k] := by decide

/-- BlockTransfer, its clauses: two words that end at 2^32, DIN one word short, a second word that reads back wrong. -/
theorem test_meets_BlockTransfer :
    (0xFFFFFFF8 : Word).toNat % 4 = 0 ∧ (0xFFFFFFF8 : Word).toNat + 4 * (2 : Word).toNat ≤ 2 ^ 32
      ∧ (∃ evs, (probe (memReadBits true 1 ++ (memReadBits true 2 ++ [])) (args 0xFFFFFFF8 2 0)).hears
        (readBlockScript true 0xFFFFFFF8 [1, 2]) evs [])
      ∧ (∃ evs, (probe (memWriteBits true ++ (memWriteBits true ++ [])) (args 0xFFFFFFF8 2 0)).hears
        (writeBlockScript true 0xFFFFFFF8 [1, 2]) evs [])
      ∧ (∃ evs, (probe ((memWriteBits true ++ memReadBits true 1) ++ ((memWriteBits true ++ memReadBits true 2) ++ []))
        (args 0xFFFFFFF8 2 0)).hears (uploadScript true 0xFFFFFFF8 [1, 2]) evs [])
      ∧ (∃ evs, (probe (memWriteBits true ++ []) (args 0xFFFFFFF8 2 0)).hears
        (writeBlockScript true 0xFFFFFFF8 [1]) evs [])
      ∧ (∃ evs, (probe ((memWriteBits true ++ memReadBits true 1) ++ []) (args 0xFFFFFFF8 2 0)).hears
        (uploadScript true 0xFFFFFFF8 [1]) evs [])
      ∧ (∃ evs, (probe ((memWriteBits true ++ memReadBits true 1) ++ [] ++ memWriteBits true ++ memReadBits true 3)
        (args 0xFFFFFFF8 2 0)).hears (uploadScript true 0xFFFFFFF8 [1] ++ memWriteScript true
          (0xFFFFFFF8 + BitVec.ofNat 32 (4 * 1)) 2 ++ memReadScript true (0xFFFFFFF8 + BitVec.ofNat 32 (4 * 1)) 3) evs [])
      ∧ (probe [] fun x => { x with port.din := [1] }).eng.ses.port.din = [1] :=
  ⟨by decide, by decide,
    ((Answerable.memRead true _ 1).append ((Answerable.memRead true _ 2).append Answerable.nil)).hears rfl,
    ((Answerable.memWrite true _ 1).append ((Answerable.memWrite true _ 2).append Answerable.nil)).hears rfl,
    (((Answerable.memWrite true _ 1).append (Answerable.memRead true _ 1)).append
      (((Answerable.memWrite true _ 2).append (Answerable.memRead true _ 2)).append Answerable.nil)).hears rfl,
    ((Answerable.memWrite true _ 1).append Answerable.nil).hears rfl,
    (((Answerable.memWrite true _ 1).append (Answerable.memRead true _ 1)).append Answerable.nil).hears rfl,
    (((((Answerable.memWrite true _ 1).append (Answerable.memRead true _ 1)).append Answerable.nil).append
      (Answerable.memWrite true _ 2)).append (Answerable.memRead true _ 3)).hears rfl, rfl⟩

/-- BlockTransfer, a FAULT at the second of two words. -/
theorem test_meets_failing_blocks :
    (∃ evs, (probe ((memReadBits true 1 ++ []) ++ faultBits) (args 0xFFFFFFF8 2 0)).hears
        (readBlockScript true 0xFFFFFFF8 [1] ++ [faults true false 0x4]) evs [])
      ∧ (∃ evs, (probe ((memWriteBits true ++ []) ++ faultBits) (args 0xFFFFFFF8 2 0)).hears
        (writeBlockScript true 0xFFFFFFF8 [1] ++ [faults true false 0x4]) evs [])
      ∧ leaves (exec .readMemBlock (probe (memReadBits true 1 ++ faultBits) (args 0xFFFFFFF8 2 0)))
        (fun t => t.eng.ses.port.resultStatus == .fault && t.eng.ses.port.resultValue == 1) = true :=
  ⟨(((Answerable.memRead true _ 1).append Answerable.nil).append (Answerable.faults _ _ _)).hears rfl,
    (((Answerable.memWrite true _ 1).append Answerable.nil).append (Answerable.faults _ _ _)).hears rfl,
    by decide +kernel⟩

/-- BlockTransfer, a failure of each kind of block at the second of two words: a FAULT of a write's flush, of an upload's
readback and of a read. -/
theorem test_meets_failing_at_a_word :
    leaves (exec .writeMemBlock (probe (memWriteBits true ++ okWriteBits ++ faultBits) fun x =>
        { args 0xFFFFFFF8 2 0 x with port.din := [1, 2] })) (fun t => t.failed && t.eng.ses.port.resultValue == 1) = true
      ∧ leaves (exec .uploadCode (probe (memWriteBits true ++ memReadBits true 1 ++ memWriteBits true ++ faultBits) fun x =>
        { args 0xFFFFFFF8 2 0 x with port.din := [1, 2] })) (fun t => t.failed && t.eng.ses.port.resultValue == 1) = true
      ∧ leaves (exec .readMemBlock (probe (memReadBits true 1 ++ faultBits) (args 0xFFFFFFF8 2 0))) State.failed = true := by
  decide +kernel

/-- A probe on which a command holds for DIN. -/
def held (h : Hold) (bits : List Bool) : State := probe bits fun x => { x with port.busy := true, hold := h }

/-- Bits for a launch, hart 1 not known to be halted, s0 being 1. -/
def launchBits (entry : Word) : List Bool :=
  haltBits 0x200 ++ csrWriteBits 1 ++ csrReadBits 1 entry ++ haltBits 0x800

theorem answerable_launch (entry : Word) : Answerable (launchScript false false 1 entry 1 1) (launchBits entry) :=
  (((Answerable.halt 1).append (Answerable.csrWrite 1 0x7B1 1 entry)).append
    (Answerable.csrRead 1 0x7B1 1 entry)).append (Answerable.resume 1)

/-- HeldCommandsGoOn, a WRITE_MEM_BLOCK, an UPLOAD_CODE and an EXECUTE_CODE at the last word and at one before it. -/
theorem test_meets_HeldCommandsGoOn :
    (∀ h : Hold, (held h []).ready = true ∧ (held h []).eng.ses.port.din = [] ∧ State.focus
        { waiting (.writeDin 0 7) (fun x => { x with port.busy := true, hold := h }) with inbox := [] } 0
          = some (held h []))
      ∧ (∃ evs, (held (.writeBlock 0 2 1) (memWriteBits true)).hears
        (memWriteScript true (0 + BitVec.ofNat 32 (4 * 1)) 7) evs [])
      ∧ (∃ evs, (held (.upload 0 2 0) (memWriteBits true ++ memReadBits true 7)).hears
        (memWriteScript true (0 + BitVec.ofNat 32 (4 * 0)) 7 ++ memReadScript true (0 + BitVec.ofNat 32 (4 * 0)) 7)
          evs [])
      ∧ ∃ evs, (held (.executeCode 1 0 2 1) (memWriteBits true ++ memReadBits true 7 ++ launchBits 0)).hears
        (memWriteScript true (0 + BitVec.ofNat 32 (4 * 1)) 7 ++ memReadScript true (0 + BitVec.ofNat 32 (4 * 1)) 7
          ++ launchScript false false 1 0 1 1) evs [] :=
  ⟨fun _ => ⟨rfl, rfl, rfl⟩, (Answerable.memWrite true _ 7).hears rfl,
    ((Answerable.memWrite true _ 7).append (Answerable.memRead true _ 7)).hears rfl,
    (((Answerable.memWrite true _ 7).append (Answerable.memRead true _ 7)).append (answerable_launch 0)).hears rfl⟩

/-- HeldCommandsGoOn, an EXECUTE_PROGBUF with its last word to come. -/
theorem test_meets_held_progbuf :
    programOf ([0x13] ++ [0x00100073]) = some [0x13, 0x00100073] ∧ [(0x13 : Word)].length + 1 = 2
      ∧ ∃ evs, (held (.progbuf 0 2 [0x13]) (haltBits 0x200 ++ progbufBits)).hears
        (requireHaltedScript false 0 ++ progbufScript 0 [0x13, 0x00100073]) evs [] :=
  ⟨by decide, rfl, (((Answerable.selectHart 0).append (Answerable.dmRead .dmstatus (d := 0x200) (by decide))).append
    (Answerable.progbuf 0 _ _)).hears rfl⟩

/-- ExecuteCodeLaunches, its two clauses: hart 1 not known to be halted, and hart 1 known halted with its s0 mirrored. -/
theorem test_meets_ExecuteCodeLaunches :
    (probe [] fun x => { args 1 0xFFFFFFFC 1 x with port.din := [0x6F] }).ready = true
      ∧ (0xFFFFFFFC : Word).toNat + 4 * (1 : Word).toNat ≤ 2 ^ 32
      ∧ (∃ evs, (probe ((memWriteBits true ++ memReadBits true 0x6F ++ []) ++ launchBits 0xFFFFFFFC) fun x =>
          { args 1 0xFFFFFFFC 1 x with port.din := [0x6F] }).hears
            (uploadScript true 0xFFFFFFFC [0x6F] ++ launchScript false false 1 0xFFFFFFFC 1 1) evs [])
      ∧ (∃ evs, (probe ((memWriteBits true ++ memReadBits true 0x6F ++ []) ++ ([] ++ ([] ++ writeRegBits ++ progbufBits
        ++ writeRegBits) ++ csrReadBits 1 0xFFFFFFFC ++ haltBits 0x800)) fun x =>
          { warm 1 (args 1 0xFFFFFFFC 1 x) with port.din := [0x6F] }).hears
            (uploadScript true 0xFFFFFFFC [0x6F] ++ launchScript true true 1 0xFFFFFFFC 0 1) evs [])
      ∧ ∃ evs, (probe [] (args 1 0xFFFFFFFC 1)).hears (uploadScript true 0xFFFFFFFC []) evs [] :=
  ⟨rfl, by decide, ((((Answerable.memWrite true _ _).append (Answerable.memRead true _ _)).append Answerable.nil).append
    (answerable_launch 0xFFFFFFFC)).hears rfl,
    ((((Answerable.memWrite true _ _).append (Answerable.memRead true _ _)).append Answerable.nil).append
      (((Answerable.nil.append (((Answerable.nil.append (Answerable.writeReg 1 8 0xFFFFFFFC)).append
        (Answerable.progbuf 1 _ _)).append (Answerable.writeReg 1 8 0))).append
          (Answerable.csrRead 1 0x7B1 1 0xFFFFFFFC)).append (Answerable.resume 1))).hears rfl,
    Answerable.nil.hears rfl⟩

/-- ExecuteCodeLaunches, its failing ends: a word that reads back differently, an upload answered FAULT, a hart that does
not halt, a pc that reads back differently, a hart that does not resume. -/
theorem test_meets_failing_launches :
    (∃ evs, (probe ([] ++ memWriteBits true ++ memReadBits true 0x6E) fun x =>
        { args 1 0xFFFFFFFC 1 x with port.din := [0x6F] }).hears
          (uploadScript true 0xFFFFFFFC [] ++ memWriteScript true (0xFFFFFFFC + BitVec.ofNat 32 (4 * 0)) 0x6F
            ++ memReadScript true (0xFFFFFFFC + BitVec.ofNat 32 (4 * 0)) 0x6E) evs [])
      ∧ leaves (exec .uploadCode (probe faultBits fun x => { args 0xFFFFFFFC 1 1 x with port.din := [0x6F] })) State.failed
        = true
      ∧ (∃ bits evs, (probe bits fun x => { args 1 0xFFFFFFFC 1 x with port.din := [0x6F] }).hears
        (uploadScript true 0xFFFFFFFC [0x6F] ++ haltTimeoutScript 1) evs [])
      ∧ (∃ bits evs, (probe bits fun x => { args 1 0xFFFFFFFC 1 x with port.din := [0x6F] }).hears
        (uploadScript true 0xFFFFFFFC [0x6F] ++ setPcScript false false 1 0xFFFFFFFC 1 1 0xFFFFFFF8) evs [])
      ∧ ∃ bits evs, (probe bits fun x => { args 1 0xFFFFFFFC 1 x with port.din := [0x6F] }).hears
        (uploadScript true 0xFFFFFFFC [0x6F] ++ setPcScript false false 1 0xFFFFFFFC 1 1 0xFFFFFFFC
          ++ resumeTimeoutScript 1) evs [] := by
  have never {p : Word → Bool} (h : p 0 = true) :=
    Answerable.givesUp (us := 10000) (Answerable.dmRead .dmstatus h) 10
  have up : Answerable (uploadScript true 0xFFFFFFFC [0x6F]) _ :=
    ((Answerable.memWrite true _ _).append (Answerable.memRead true _ _)).append Answerable.nil
  have pc (v : Word) : Answerable (setPcScript false false 1 0xFFFFFFFC 1 1 v) _ :=
    ((Answerable.halt 1).append (Answerable.csrWrite 1 0x7B1 1 _)).append (Answerable.csrRead 1 0x7B1 1 v)
  obtain ⟨e₁, h₁⟩ := (up.append ((Answerable.dmWrite .dmcontrol (dmcHalt 1)).append
    (never (p := fun v => !v[9]) (by decide)))).hears
      (s := probe _ fun x => { args 1 0xFFFFFFFC 1 x with port.din := [0x6F] }) rfl
  obtain ⟨e₂, h₂⟩ := (up.append (pc 0xFFFFFFF8)).hears
    (s := probe _ fun x => { args 1 0xFFFFFFFC 1 x with port.din := [0x6F] }) rfl
  obtain ⟨e₃, h₃⟩ := ((up.append (pc 0xFFFFFFFC)).append ((Answerable.dmWrite .dmcontrol (dmcResume 1)).append
    (never (p := fun v => !v[11]) (by decide)))).hears
      (s := probe _ fun x => { args 1 0xFFFFFFFC 1 x with port.din := [0x6F] }) rfl
  exact ⟨((Answerable.nil.append (Answerable.memWrite true _ _)).append (Answerable.memRead true _ _)).hears rfl,
    by decide +kernel, ⟨_, e₁, h₁⟩, ⟨_, e₂, h₂⟩, _, e₃, h₃⟩

/-- A pc that reads back differently ends EXECUTE_CODE with `Verify`, the hart left halted (44_ops.md R158). -/
theorem test_execute_code_verify :
    leaves (exec .executeCode (probe (memWriteBits true ++ memReadBits true 0x6F ++ haltBits 0x200 ++ csrWriteBits 1
        ++ csrReadBits 1 0xFFFFFFF8) fun x => { args 1 0xFFFFFFFC 1 x with port.din := [0x6F] })) (fun t =>
          t.eng.ses.port.resultStatus == .verify && t.eng.ses.port.resultValue == 0
            && (t.eng.ses.hart 1).known && (t.eng.ses.hart 1).halted && !(t.eng.ses.hart 1).cacheValid) = true := by
  decide +kernel

/-- The registers of a trace record. -/
def regsBits : List Bool := memApWriteBits ++ (allRegs.zip (List.replicate 32 (7 : Word))).flatMap fun r => gprReadBits r.2

/-- TraceDeliversItsFirstRecord, its clauses: without registers on a hart not known to be halted, with registers on one
known halted, and a misaligned pc. -/
theorem test_meets_TraceDeliversItsFirstRecord :
    (probe [] (args 1 0 0)).ready = true ∧ (0x20077000 : Word).toNat % 4 = 0 ∧ (0x20077002 : Word).toNat % 4 ≠ 0
      ∧ (∃ evs, (probe (haltBits 0x200 ++ (csrReadBits 1 0x20077000 ++ memReadBits true 0x13 ++ [])) (args 1 0 0)).hears
        (haltScript 1 ++ recordScript false true false 1 1 0x20077000 0x13 []) evs [])
      ∧ (∃ evs, (probe ([] ++ (csrReadBits 1 0x20077000 ++ memReadBits true 0x13 ++ regsBits))
        (args 1 0 1 ∘ knows 1 true)).hears
          ([] ++ recordScript false true true 1 1 0x20077000 0x13 (List.replicate 32 7)) evs [])
      ∧ ∃ evs, (probe (haltBits 0x200 ++ csrReadBits 1 0x20077002) (args 1 0 0)).hears
        (haltScript 1 ++ csrReadScript false 1 0x7B1 1 0x20077002) evs [] :=
  ⟨rfl, by decide, by decide, ((Answerable.halt 1).append (((Answerable.csrRead 1 0x7B1 1 0x20077000).append
      (Answerable.memRead true _ _)).append Answerable.nil)).hears rfl,
    (Answerable.nil.append (((Answerable.csrRead 1 0x7B1 1 0x20077000).append (Answerable.memRead true _ _)).append
      ((Answerable.selectHart 1).append (answerable_gprReads _)))).hears rfl,
    ((Answerable.halt 1).append (Answerable.csrRead 1 0x7B1 1 0x20077002)).hears rfl⟩

/-- The bits of a step, DCSR being 3 and s0 1. -/
def stepBits : List Bool :=
  csrReadBits 1 3 ++ csrWriteBits 1 ++ memApWriteBits ++ memApWriteBits ++ memApReadBits 0x200 ++ csrWriteBits 1

theorem answerable_step : Answerable (stepScript false 0 3 1 1 1) stepBits :=
  (((((Answerable.csrRead 0 0x7B0 1 3).append (Answerable.csrWrite 0 0x7B0 1 (3 ||| 0x4))).append
    (Answerable.dmWrite .dmcontrol (dmcSel 0))).append (Answerable.dmWrite .dmcontrol (dmcResume 0))).append
      (Answerable.awaitStatus (p := allHalted) (v := 0x200) (by decide))).append (Answerable.csrWrite 0 0x7B0 1 3)

/-- TraceGoesOnWithTheAnswer: an answer of 0, an answer to the last record, and a next record, delivered or with a
misaligned pc. -/
theorem test_meets_TraceGoesOnWithTheAnswer :
    State.focus { tracing with inbox := [] } 0 = some tracing ∧ tracing.eng.ses.hold = .trace 0 1 false 1
      ∧ ((1 : Word) ≠ 0 ∧ 1 = (1 : Word).toNat) ∧ (held (.trace 0 0 false 1) []).ready = true
      ∧ (∃ evs, (held (.trace 0 0 false 1) (stepBits ++ (csrReadBits 1 0x20077000 ++ memReadBits true 0x13 ++ []))).hears
        (stepScript false 0 3 1 1 1 ++ recordScript false true false 0 1 0x20077000 0x13 []) evs [])
      ∧ ∃ evs, (held (.trace 0 0 false 1) (stepBits ++ csrReadBits 1 0x20077002)).hears
        (stepScript false 0 3 1 1 1 ++ csrReadScript false 0 0x7B1 1 0x20077002) evs [] :=
  ⟨rfl, rfl, ⟨by decide, by decide⟩, rfl,
    (answerable_step.append (((Answerable.csrRead 0 0x7B1 1 0x20077000).append (Answerable.memRead true _ _)).append
      Answerable.nil)).hears rfl,
    (answerable_step.append (Answerable.csrRead 0 0x7B1 1 0x20077002)).hears rfl⟩

/-- DpAndApWords, its last four clauses, on a probe whose cache holds bank 0, and DmWords. -/
theorem test_meets_words :
    (∃ evs, (probe apWriteBits id).hears (maybeSelect true 0xA 0 ++ apWriteScript apCsw 0xA2000002) evs [])
      ∧ handshakeWord .dminitSeq3 = some 0x07FFFFC1
      ∧ (∃ evs, (probe (okWriteBits ++ apWriteBits ++ []) id).hears
        (maybeSelect false 0xA 1 ++ apWriteScript apBank1 0x07FFFFC1 ++ [pauses 50000]) evs [])
      ∧ (∃ evs, (probe (okWriteBits ++ apReadBits 0x04010001) id).hears
        (maybeSelect false 0xA 1 ++ apReadScript apBank1 (· == 0x04010001)) evs [])
      ∧ (∃ evs, (probe (okWriteBits ++ apReadBits 0x04010000) id).hears
        (maybeSelect false 0xA 1 ++ apReadScript apBank1 (· != 0x04010001)) evs [])
      ∧ ∃ evs, (probe memApWriteBits id).hears
        (maybeSelect true 0xA 0 ++ dmWriteScript .dmcontrol (BitVec.ofNat 32 0x80010001)) evs [] :=
  ⟨(Answerable.nil.append (Answerable.apWrite _ _)).hears rfl, rfl,
    (((Answerable.writes _ _ _).append (Answerable.apWrite _ _)).append (Answerable.pauses _)).hears rfl,
    ((Answerable.writes _ _ _).append (Answerable.apRead _ (by decide))).hears rfl,
    ((Answerable.writes _ _ _).append (Answerable.apRead _ (by decide))).hears rfl,
    (Answerable.nil.append (Answerable.dmWrite _ _)).hears rfl⟩

/-- `WaitAbstract` that finds cmderr 7. -/
theorem answerable_abstractError : Answerable abstractErrorScript (memApReadBits 0x700 ++ memApWriteBits) :=
  (Answerable.awaitsHit (Answerable.dmRead _ (by decide))).append (Answerable.dmWrite _ _)

/-- FailedRegisterAccessCleansUp: an abstract error found by each of the two commands. -/
theorem test_meets_FailedRegisterAccessCleansUp :
    (probe [] (args 0 31 0 ∘ knows 0 true)).readyHalted 0 = true
      ∧ (probe [] (args 0 31 0 ∘ knows 0 true)).eng.ses.mirrorHit 0 = false
      ∧ (∃ evs, (probe (memApWriteBits ++ memApWriteBits ++ (memApReadBits 0x700 ++ memApWriteBits))
        (args 0 31 0 ∘ knows 0 true)).hears
          (selectHartScript 0 ++ dmWriteScript .command (cmdGprRead 31) ++ abstractErrorScript) evs [])
      ∧ ∃ evs, (probe (readRegBits 1 ++ memApWriteBits ++ memApWriteBits ++ memApWriteBits ++ memApWriteBits
        ++ (memApReadBits 0x700 ++ memApWriteBits) ++ writeRegBits) (args 0 0xFFF 0 ∘ knows 0 true)).hears
          (readRegScript 0 8 1 ++ selectHartScript 0 ++ dmWriteScript .progbuf0 (insnCsrr 0xFFF)
            ++ dmWriteScript .progbuf1 0x00100073 ++ dmWriteScript .command 0x00040000 ++ abstractErrorScript
            ++ writeRegScript 0 8 1) evs [] :=
  ⟨rfl, rfl, (((Answerable.selectHart 0).append (Answerable.dmWrite _ _)).append answerable_abstractError).hears rfl,
    (((((((Answerable.readReg 0 8 1).append (Answerable.selectHart 0)).append (Answerable.dmWrite _ _)).append
      (Answerable.dmWrite _ _)).append (Answerable.dmWrite _ _)).append answerable_abstractError).append
        (Answerable.writeReg 0 8 1)).hears rfl⟩

/-- FailedRegisterAccessCleansUp: an abstract command that stays busy, and a READ_CSR with s0 mirrored whose two
selections of the hart are answered FAULT. -/
theorem test_meets_failed_cleanup :
    (∃ bits evs, (probe bits (args 0 31 0 ∘ knows 0 true)).hears
        (selectHartScript 0 ++ dmWriteScript .command (cmdGprRead 31) ++ abstractTimeoutScript) evs [])
      ∧ (probe [] (args 0 0x7B0 0 ∘ warm 0)).readyHalted 0 = true
      ∧ (probe [] (args 0 0x7B0 0 ∘ warm 0)).eng.ses.mirrorHit 0 = true
      ∧ (∃ evs, (probe (faultBits ++ faultBits) (args 0 0x7B0 0 ∘ warm 0)).hears
        [faults true false 0x4, faults true false 0x4] evs [])
      ∧ leaves (exec .readCsr (probe (faultBits ++ faultBits) (args 0 0x7B0 0 ∘ warm 0)))
        (fun t => !(t.eng.ses.hart 0).cacheValid && t.eng.ses.port.resultStatus == .fault) = true := by
  obtain ⟨evs, h⟩ := (((Answerable.selectHart 0).append (Answerable.dmWrite .command (cmdGprRead 31))).append
    (Answerable.givesUp (us := 10) (Answerable.dmRead .abstractcs (p := fun v => v[12]) (d := 0x1000) (by decide)) 100)).hears
      (s := probe _ (args 0 31 0 ∘ knows 0 true)) rfl
  exact ⟨⟨_, evs, h⟩, rfl, rfl, ((Answerable.faults _ _ _).cons (Answerable.faults _ _ _)).hears rfl, by decide +kernel⟩

end Sys2Proof.Tests
end

section
/-! SUPPORT. The power-on state under the invariant (70_reset_and_hazards.md R177), and POWER_UP and CLEAR_ERRORS by the
rules of Laws/Procedures (41_dap.md R107, R109). -/

namespace Sys2Proof.Machine

/-- No session exists at power-on (70_reset_and_hazards.md R177). -/
theorem sessions_reset : State.reset.sessions = [] := rfl

@[inherit_doc sessions_reset]
theorem parked_reset : State.reset.parked = [] := rfl

/-- Settles O12: no session exists at reset, so each clause is about an empty list. -/
theorem resetSatisfiesTheInvariant : Obligations.ResetSatisfiesTheInvariant := by
  unfold Obligations.ResetSatisfiesTheInvariant
  refine ⟨?_, ?_, ?_, ?_, ?_⟩
  · simp only [sessions_reset, List.not_mem_nil, false_imp_iff, implies_true]
  · simp only [sessions_reset, List.map_nil, List.nodup_nil]
  · simp only [sessions_reset, List.not_mem_nil, false_imp_iff, implies_true]
  · simp only [sessions_reset, List.not_mem_nil, false_imp_iff, implies_true]
  · simp only [parked_reset, List.not_mem_nil, false_imp_iff, implies_true]

/-- The word of CLEAR_ERRORS in literals (41_dap.md R109). -/
theorem clearErrorsWord_eq (p : Bool) : clearErrorsWord p = if p then 0x500000B2 else 0x000000B2 := by
  cases p <;> rfl

/-- Settles O36: behind the check of the connection each command is one script that the target answers, or, when ten
reads do not show both acknowledges, one that ends in Timeout. -/
theorem powerUpAndClearErrors : Obligations.PowerUpAndClearErrors := by
  intro s evs rest hc
  have hc' : s.eng.begin.ses.connected = true := hc
  refine ⟨fun h => ?_, fun h => ?_, fun h => ?_⟩
  · exact completes_done rfl h
      (Yields.returnsZero (Yields.bind_quiet (Yields.requireConnected hc') fun _ _ => Yields.powerUp)) rfl rfl
  · exact completes_raise rfl h
      (Raises.head (Raises.bind_quiet (Yields.requireConnected hc') fun _ _ => Raises.powerUp)) rfl rfl
  · rw [← clearErrorsWord_eq] at h
    exact completes_done rfl h (Yields.returnsZero (Yields.bind_quiet (Yields.requireConnected hc') fun _ _ =>
      Yields.look (fun _ _ _ _ => rfl) (Yields.dpWrite _ _))) rfl rfl

end Sys2Proof.Machine
end

section
/-! SUPPORT. Frame rules for the procedures that Laws/Frame leaves out, and for a command that acts on the hart it
names. -/

namespace Sys2Proof.Machine

variable {α β : Type} {h : HartId} {i : Instr} {s t : State} {R : Engine → Engine → Prop}

/-- A procedure that respects every relation which allows transactions, SELECT writes through the cache, the data streams
and the state of one hart to change, whichever hart that is. -/
def Talks (m : Proc α) : Prop := ∀ (h : HartId) (R : Engine → Engine → Prop), PortClosed h R → Respects R m

/-! ## Procedures that change fields of the connection, the DAP or the DM -/

/-- The end of DmInit (42_dm.md R117). -/
def activateDm : Proc Unit := do
  modifySes fun s => { s with dm.initialized := true }
  modifyHarts fun x => { x.forget with gpr := Vector.replicate Config.ngpr 0 }
  tryCatch sbaInit fun _ => pure ()

theorem dmInit_eq : dmInit = (do
    modifySes fun s => { s with dm.initialized := false, dm.sbaInitialized := false }
    apWrite Config.riscvApsel apCsw Config.cswInit
    apWrite Config.riscvApsel apTar (Config.dmBase + dmOffset .dmcontrol)
    handshakeWrite Config.dminitSeq1
    handshakeWrite Config.dminitSeq2
    handshakeWrite Config.dminitSeq3
    let _ ← handshakeStatus
    selectAp Config.riscvApsel 0
    activateDm) := rfl

namespace TalkClosed

theorem powerUp (C : TalkClosed R) (h : ∀ b, Respects R (modifySes fun s => { s with dap.powered := b })) :
    Respects R Machine.powerUp :=
  C.bind (h _) fun _ => C.bind (C.dpWrite _ _) fun _ => C.bind (C.dpWrite _ _) fun _ =>
    C.bind (C.poll _ _ (C.dpRead _) (C.sleep _) _) fun o => by
      cases o
      · exact C.raise _
      · exact h _

theorem sbaInit (C : TalkClosed R) (h : ∀ b, Respects R (modifySes fun s => { s with dm.sbaInitialized := b })) :
    Respects R Machine.sbaInit :=
  C.bind (h _) fun _ => C.bind (C.dmRead _) fun _ => C.bind (C.require _ _) fun _ => C.bind (C.dmWrite _ _) fun _ => h _

theorem dmInit (C : TalkClosed R)
    (hc : Respects R (modifySes fun s => { s with dm.initialized := false, dm.sbaInitialized := false }))
    (ha : Respects R activateDm) : Respects R Machine.dmInit := by
  rw [dmInit_eq]
  exact C.bind hc fun _ => C.bind (C.apWrite _ _ _) fun _ => C.bind (C.apWrite _ _ _) fun _ =>
    C.bind (C.handshakeWrite _) fun _ => C.bind (C.handshakeWrite _) fun _ => C.bind (C.handshakeWrite _) fun _ =>
      C.bind C.handshakeStatus fun _ => C.bind (C.selectAp _ _) fun _ => ha

theorem connectWith (C : TalkClosed R) {x : Slot}
    (hj : Respects R (modifySes fun s =>
      { s with
        wire.slot := some x, wire.initialized := true, wire.clkdiv := divider s.wire.freqKhz,
        dap.powered := false, dap.selValid := false }))
    (hf : Respects R forgetSelect) (hc : Respects R (modifySes fun s => { s with connected := true }))
    (hp : Respects R Machine.powerUp) (hi : Respects R Machine.dmInit) : Respects R (Machine.connectWith x) :=
  C.bind hj fun _ => C.bind (C.activationSeq hf) fun _ =>
    C.bind (C.tryCatch (C.dpRead _) fun _ => C.raise _) fun _ => C.bind (C.require _ _) fun _ => C.bind hc fun _ =>
      C.bind hp fun _ => C.bind hi fun _ => C.pure _

theorem resetHart (C : TalkClosed R)
    (hf : Respects R (modifyHarts fun x => { x with cacheValid := false, known := false }))
    (hl : ∀ b, Respects R (learnHart h b)) (hr : Bool) : Respects R (Machine.resetHart h hr) :=
  C.bind hf fun _ => C.bind (C.dmWrite _ _) fun _ => C.bind (C.sleep _) fun _ => C.bind (C.dmWrite _ _) fun _ =>
    C.bind (C.sleep _) fun _ => Closed.ite (C.bind (C.awaitStatus _) fun _ => hl _) (hl _)

end TalkClosed

namespace Closed

variable (C : Closed R)
include C

theorem boolOperand (w : Word) : Respects R (Machine.boolOperand w) :=
  Closed.ite (C.pure _) (Closed.ite (C.pure _) (C.raise _))

theorem activateDm (hi : Respects R (modifySes fun s => { s with dm.initialized := true }))
    (hh : Respects R (modifyHarts fun x => { x.forget with gpr := Vector.replicate Config.ngpr 0 }))
    (hs : Respects R sbaInit) : Respects R Machine.activateDm :=
  C.bind hi fun _ => C.bind hh fun _ => C.tryCatch hs fun _ => C.pure _

theorem connectSession
    (ha : ∀ e x, R e { e with tracker := e.tracker.setOwner x (some e.self) })
    (hw : ∀ x, Respects R (connectWith x)) (hu : Respects R connectUnwind) : Respects R Machine.connectSession :=
  C.bind C.getSes fun s => Closed.ite (C.pure _) <| C.bind (fun e => by
    cases hp : e.tracker.pick s.cfg.slot with
    | none => rw [acquire_none hp]; exact C.refl e
    | some x => rw [acquire_some hp]; exact ha e x) fun x => C.onRaise (hw x) hu

theorem disconnectSession (hu : Respects R connectUnwind) : Respects R Machine.disconnectSession :=
  C.bind C.getSes fun _ => Closed.ite hu (C.pure _)

end Closed

/-! ## Procedures on the hart that ARG0 names -/

theorem names_of_hartOperand (w : Word) (h : w.toNat < Config.harts) : names w ⟨w.toNat, h⟩ := by
  simp [names]

/-- A relation that the procedures on hart `h` respect. -/
structure HartProcs (h : HartId) (R : Engine → Engine → Prop) : Prop extends TalkClosed R where
  queryHalted : Respects R (Machine.queryHalted h)
  haltHart : Respects R (Machine.haltHart h)
  resumeHart : Respects R (Machine.resumeHart h)
  stepHart : Respects R (Machine.stepHart h)
  readReg : ∀ n, Respects R (Machine.readReg h n)
  writeReg : ∀ n v, Respects R (Machine.writeReg h n v)
  csrRead : ∀ c, Respects R (Machine.csrRead h c)
  csrWrite : ∀ c v, Respects R (Machine.csrWrite h c v)
  continueProgbuf : ∀ n got, Respects R (Machine.continueProgbuf h n got)
  continueExecuteCode : ∀ entry n i, Respects R (Machine.continueExecuteCode h entry n i)
  dropMirror : Respects R (modifyHart h fun x => { x with cacheValid := false })

/-- A relation that the procedures which fill the mirror of hart `h` respect, each behind what makes sure that the hart
is halted (42_dm.md R130; 44_ops.md R159). -/
structure FillProcs (h : HartId) (R : Engine → Engine → Prop) : Prop extends HartProcs h R where
  readAllRegs : Respects R (do requireHalted h; let _ ← Machine.readAllRegs h true)
  trace : ∀ max capture, Respects R (do let _ ← Machine.haltHart h; traceNext h max capture 0)

theorem PortClosed.procs (C : PortClosed h R) : HartProcs h R :=
  { C.toTalkClosed with
    queryHalted := C.queryHalted
    haltHart := C.haltHart
    resumeHart := C.resumeHart
    stepHart := C.stepHart
    readReg := C.readReg
    writeReg := C.writeReg
    csrRead := C.csrRead
    csrWrite := C.csrWrite
    continueProgbuf := C.continueProgbuf
    continueExecuteCode := C.continueExecuteCode
    dropMirror := C.clear fun _ => rfl }

theorem MirrorClosed.fills (C : MirrorClosed h R) : FillProcs h R :=
  { C.toPortClosed.procs with
    readAllRegs := C.bind C.requireHalted fun _ => C.bind (C.readAllRegs _) fun _ => C.pure _
    trace := fun _ _ => C.bind C.haltHart fun _ => C.traceNext _ _ _ }

namespace HartProcs
variable (C : HartProcs h R)
include C

theorem requireHalted : Respects R (Machine.requireHalted h) := C.bind C.queryHalted fun _ => C.require _ _
theorem readCsrChecked (c : BitVec 12) : Respects R (Machine.readCsrChecked h c) :=
  C.bind C.requireInitialized fun _ => C.bind C.requireHalted fun _ => C.csrRead _
theorem writeCsrChecked (c : BitVec 12) (v : Word) : Respects R (Machine.writeCsrChecked h c v) :=
  C.bind C.requireInitialized fun _ => C.bind C.requireHalted fun _ => C.csrWrite _ _

end HartProcs

/-- `R` allows what `RN h` allows when ARG0 names hart `h`: a command that looks up its hart operand and goes on with that
hart respects `R` when what comes after respects `RN h`. -/
structure Named (RN : HartId → Engine → Engine → Prop) (R : Engine → Engine → Prop) : Prop extends Closed R where
  of : ∀ {e e' h}, names e.ses.port.arg0 h → RN h e e' → R e e'

theorem Closed.named (C : Closed R) : Named (fun _ => R) R := { C with of := fun _ h => h }

namespace Named
variable {RN : HartId → Engine → Engine → Prop} (N : Named RN R)
include N

theorem hart {f : Session → HartId → Proc α} (hf : ∀ s h, Respects (RN h) (f s h)) :
    Respects R (getSes >>= fun s => hartOperand s.port.arg0 >>= f s) := by
  intro e
  rw [bind_ok (getSes_run e)]
  by_cases h : e.ses.port.arg0.toNat < Config.harts
  · rw [hartOperand, dif_pos h, pure_bind]
    exact N.of (names_of_hartOperand _ h) (hf _ _ e)
  · rw [hartOperand, dif_neg h, bind_error (raise_run _ e)]
    exact N.refl e

theorem online {f : Session → HartId → Proc α} (hf : ∀ s h, Respects (RN h) (f s h)) :
    Respects R (requireConnected >>= fun _ => getSes >>= fun s => hartOperand s.port.arg0 >>= f s) :=
  N.bind (N.bind N.getSes fun _ => N.require _ _) fun _ => N.hart hf

theorem returns {m : Proc Word} (h : Respects R m) : Respects R (Machine.returns m) := N.bind h fun _ => N.pure _
theorem returnsZero {m : Proc Unit} (h : Respects R m) : Respects R (Machine.returnsZero m) :=
  N.bind h fun _ => N.pure _

end Named

end Sys2Proof.Machine
end

section
/-! SUPPORT. How procedures and commands end: a raise is a failure, and a hold waits for the host (30_encoding.md
R73; 60_exceptions.md R163). -/

namespace Sys2Proof.Machine

variable {α β : Type}

/-! ## Raises are failures -/

/-- The procedure raises no `Ok` (60_exceptions.md R163). -/
def Proper (m : Proc α) : Prop := ∀ e r e', m e = .error r e' → r.kind ≠ .ok

namespace Proper

theorem of_ok {m : Proc α} (h : ∀ e, ∃ a e', m e = .ok a e') : Proper m := fun e r e' he => by
  obtain ⟨a, e₁, h⟩ := h e
  rw [h] at he; cases he

theorem pure (a : α) : Proper (Pure.pure a : Proc α) := of_ok fun _ => ⟨_, _, rfl⟩
theorem getSes : Proper Machine.getSes := of_ok fun _ => ⟨_, _, rfl⟩
theorem get : Proper (MonadState.get : Proc Engine) := of_ok fun _ => ⟨_, _, rfl⟩
theorem modifySes {f : Session → Session} : Proper (Machine.modifySes f) := of_ok fun _ => ⟨_, _, rfl⟩
theorem modifyHart {h : HartId} {f : Hart → Hart} : Proper (Machine.modifyHart h f) := modifySes
theorem modifyHarts {f : Hart → Hart} : Proper (Machine.modifyHarts f) := modifySes
theorem logEvent {ev : WireEvent} : Proper (Machine.logEvent ev) := modifySes

theorem throw {r : Raise} (h : r.kind ≠ .ok) : Proper (MonadExcept.throw r : Proc α) := fun _ _ _ he => by
  cases he; exact h
theorem raise {k : ErrorKind} (h : k ≠ .ok := by decide) : Proper (Machine.raise k : Proc α) := throw h
theorem endWith {k : ErrorKind} {v : Word} (h : k ≠ .ok := by decide) : Proper (Machine.endWith k v : Proc α) := throw h

theorem bind {m : Proc α} {f : α → Proc β} (hm : Proper m) (hf : ∀ a, Proper (f a)) : Proper (m >>= f) := by
  intro e r e' h
  rw [bind_run] at h
  cases hc : m e with
  | ok a e₁ => rw [hc] at h; exact hf a e₁ r e' h
  | error r₁ e₁ => rw [hc] at h; cases h; exact hm e _ _ hc

theorem tryCatch {m : Proc α} {f : Raise → Proc α} (hf : ∀ r, r.kind ≠ .ok → Proper (f r)) (hm : Proper m) :
    Proper (MonadExcept.tryCatch m f : Proc α) := by
  intro e r e' h
  rw [show (MonadExcept.tryCatch m f : Proc α) e = _ from tryCatch_run m f e] at h
  cases hc : m e with
  | ok a e₁ => rw [hc] at h; cases h
  | error r₁ e₁ => rw [hc] at h; exact hf r₁ (hm e _ _ hc) e₁ r e' h

theorem onRaise {m : Proc α} {c : Proc Unit} (hm : Proper m) (hc : Proper c) : Proper (Machine.onRaise m c) :=
  tryCatch (fun _ hr => bind hc fun _ => throw hr) hm

theorem ite {c : Prop} [Decidable c] {m n : Proc α} (hm : Proper m) (hn : Proper n) : Proper (if c then m else n) := by
  split <;> assumption

theorem require {c : Bool} {k : ErrorKind} (h : k ≠ .ok := by decide) : Proper (Machine.require c k) :=
  ite (pure _) (raise h)

theorem onlyIf {c : Bool} {m : Proc Unit} (h : Proper m) : Proper (Machine.onlyIf c m) := ite h (pure _)

/-- Checks. -/
theorem requireConnected : Proper Machine.requireConnected := bind getSes fun _ => require
theorem requireInitialized : Proper Machine.requireInitialized := bind getSes fun _ => require
theorem requireSba : Proper Machine.requireSba := bind getSes fun _ => require
theorem hartOperand {w : Word} : Proper (Machine.hartOperand w) := by
  unfold Machine.hartOperand; split
  · exact pure _
  · exact raise
theorem boolOperand {w : Word} : Proper (Machine.boolOperand w) := ite (pure _) (ite (pure _) raise)
theorem regOperand {w : Word} : Proper (Machine.regOperand w) := ite (pure _) raise
theorem csrOperand {w : Word} : Proper (Machine.csrOperand w) := ite (pure _) raise
theorem blockChecks {a n : Word} : Proper (Machine.blockChecks a n) :=
  bind requireConnected fun _ => bind require fun _ => bind require fun _ => requireInitialized

theorem popDin : Proper Machine.popDin := bind getSes fun s => by
  cases s.port.din with
  | nil => exact pure _
  | cons w ws => exact bind modifySes fun _ => pure _

/-! The wire -/

theorem sample : Proper Machine.sample := fun e r e' h => by
  unfold Machine.sample at h
  split at h <;> cases h

theorem driveBits : ∀ bs, Proper (Machine.driveBits bs)
  | [] => pure _
  | _ :: bs => bind logEvent fun _ => driveBits bs

theorem driveRepeat (b : Bool) : ∀ n, Proper (Machine.driveRepeat b n)
  | 0 => pure _
  | n + 1 => bind logEvent fun _ => driveRepeat b n

theorem sampleBits : ∀ n, Proper (Machine.sampleBits n)
  | 0 => pure _
  | n + 1 => bind sample fun _ => bind (sampleBits n) fun _ => pure _

theorem turnaround : Proper Machine.turnaround := bind logEvent fun _ => pure _
theorem trailingIdle : Proper Machine.trailingIdle := driveRepeat _ _
theorem lineResetSeq : Proper Machine.lineResetSeq :=
  bind (driveRepeat _ _) fun _ => bind (driveRepeat _ _) fun _ => modifySes

theorem afterAck (q : Request) (ack : BitVec 3) : Proper (Machine.afterAck q ack) :=
  bind modifySes fun _ => by
    cases ackMeaning ack with
    | ok =>
      exact ite (bind (sampleBits _) fun _ => bind sample fun _ => bind turnaround fun _ => bind trailingIdle fun _ =>
          bind require fun _ => pure _)
        (bind turnaround fun _ => bind (driveBits _) fun _ => bind logEvent fun _ => bind trailingIdle fun _ => pure _)
    | wait => exact bind turnaround fun _ => bind trailingIdle fun _ => pure _
    | fault => exact bind turnaround fun _ => bind trailingIdle fun _ => pure _
    | malformed => exact bind turnaround fun _ => bind lineResetSeq fun _ => bind trailingIdle fun _ => raise

theorem txn (q : Request) : Proper (Machine.txn q) :=
  bind (driveBits _) fun _ => bind turnaround fun _ =>
    bind (bind sample fun _ => bind sample fun _ => bind sample fun _ => pure _) fun _ => afterAck q _

theorem settle {m : Proc Word} (hm : Proper m) : ∀ a, Proper (Machine.settle m a)
  | .ok _ => pure _
  | .wait => hm
  | .fault => raise

theorem retry (q : Request) : ∀ n, Proper (Machine.retry q n)
  | 0 => bind modifySes fun _ => bind (txn q) fun a => settle raise a
  | n + 1 => bind modifySes fun _ => bind (txn q) fun a => settle (bind logEvent fun _ => retry q n) a

theorem onWait (q : Request) : ∀ n, Proper (Machine.onWait q n)
  | 0 => raise
  | n + 1 => bind logEvent fun _ => retry q n

theorem retryTxn {q : Request} : Proper (Machine.retryTxn q) := bind getSes fun _ => retry q _

theorem poll {read : Proc Word} {test : Word → Bool} {us : Nat} (h : Proper read) :
    ∀ n, Proper (Machine.poll read test us n)
  | 0 => pure _
  | n + 1 => bind h fun _ => ite (pure _) (bind (onlyIf logEvent) fun _ => poll h n)

/-! DAP -/

theorem dpWrite {a : BitVec 4} {w : Word} : Proper (Machine.dpWrite a w) := bind retryTxn fun _ => pure _
theorem writeSelect {apsel bank : BitVec 4} : Proper (Machine.writeSelect apsel bank) :=
  bind modifySes fun _ => bind dpWrite fun _ => modifySes
theorem selectAp {apsel bank : BitVec 4} : Proper (Machine.selectAp apsel bank) :=
  bind getSes fun _ => ite (pure _) writeSelect
theorem apRead {apsel : BitVec 4} {reg : Byte} : Proper (Machine.apRead apsel reg) :=
  bind selectAp fun _ => bind retryTxn fun _ => retryTxn
theorem apWrite {apsel : BitVec 4} {reg : Byte} {w : Word} : Proper (Machine.apWrite apsel reg w) :=
  bind selectAp fun _ => bind retryTxn fun _ => bind retryTxn fun _ => pure _
theorem memApRead {a : Word} : Proper (Machine.memApRead a) := bind require fun _ => bind apWrite fun _ => apRead
theorem memApWrite {a w : Word} : Proper (Machine.memApWrite a w) := bind require fun _ => bind apWrite fun _ => apWrite
theorem powerUp : Proper Machine.powerUp :=
  bind modifySes fun _ => bind dpWrite fun _ => bind dpWrite fun _ => bind (poll retryTxn _) fun o => by
    cases o
    · exact raise
    · exact modifySes

theorem memRead {a : Word} : Proper (Machine.memRead a) :=
  bind getSes fun _ => ite (bind memApWrite fun _ => memApRead) memApRead
theorem memWrite {a w : Word} : Proper (Machine.memWrite a w) :=
  bind getSes fun _ => ite (bind memApWrite fun _ => memApWrite) memApWrite
theorem sbaInit : Proper Machine.sbaInit :=
  bind modifySes fun _ => bind memApRead fun _ => bind require fun _ => bind memApWrite fun _ => modifySes
theorem handshakeWrite {w : Word} : Proper (Machine.handshakeWrite w) := bind apWrite fun _ => logEvent
theorem handshakeStatus : Proper Machine.handshakeStatus := bind apRead fun _ => bind require fun _ => pure _
theorem dmInit : Proper Machine.dmInit :=
  bind modifySes fun _ => bind apWrite fun _ => bind apWrite fun _ => bind handshakeWrite fun _ =>
    bind handshakeWrite fun _ => bind handshakeWrite fun _ => bind handshakeStatus fun _ => bind selectAp fun _ =>
      bind modifySes fun _ => bind modifyHarts fun _ => tryCatch (fun _ _ => pure _) sbaInit

/-! Harts -/

section hart
variable {h : HartId}

theorem queryHalted : Proper (Machine.queryHalted h) :=
  bind getSes fun _ => ite (pure _) <| bind memApWrite fun _ => bind memApRead fun _ => bind modifyHart fun _ => pure _
theorem requireHalted : Proper (Machine.requireHalted h) := bind queryHalted fun _ => require
theorem awaitStatus {p : Word → Bool} : Proper (Machine.awaitStatus p) := bind (poll memApRead _) fun o => by
  cases o
  · exact raise
  · exact pure _
theorem haltHart : Proper (Machine.haltHart h) :=
  bind getSes fun _ => ite (pure _) <| bind modifyHart fun _ => bind memApWrite fun _ => bind awaitStatus fun _ =>
    bind modifyHart fun _ => pure _
theorem resumeHart : Proper (Machine.resumeHart h) :=
  bind getSes fun _ => ite (pure _) <| bind modifyHart fun _ => bind memApWrite fun _ => bind awaitStatus fun _ =>
    modifyHart
theorem resetHart {hr : Bool} : Proper (Machine.resetHart h hr) :=
  bind modifyHarts fun _ => bind memApWrite fun _ => bind logEvent fun _ => bind memApWrite fun _ =>
    bind logEvent fun _ => ite (bind awaitStatus fun _ => modifyHart) modifyHart
theorem waitAbstract : Proper Machine.waitAbstract := bind (poll memApRead _) fun o => by
  cases o
  · exact raise
  · exact ite (pure _) (bind memApWrite fun _ => raise)
theorem gprRead {n : BitVec 5} : Proper (Machine.gprRead n) :=
  bind memApWrite fun _ => bind waitAbstract fun _ => memApRead
theorem mirror {n : BitVec 5} {v : Word} : Proper (Machine.mirror h n v) := bind getSes fun _ => ite modifyHart (pure _)
theorem readReg {n : BitVec 5} : Proper (Machine.readReg h n) :=
  bind getSes fun _ => ite (pure _) <| bind memApWrite fun _ => bind gprRead fun _ => bind mirror fun _ => pure _
theorem writeReg {n : BitVec 5} {v : Word} : Proper (Machine.writeReg h n v) :=
  bind (onRaise (bind memApWrite fun _ => bind memApWrite fun _ => bind memApWrite fun _ => waitAbstract) modifyHart)
    fun _ => mirror
theorem readRegs {b : Bool} : ∀ ns, Proper (Machine.readRegs h b ns)
  | [] => pure _
  | _ :: ns => bind gprRead fun _ => bind (onlyIf modifySes) fun _ => bind mirror fun _ => bind (readRegs ns) fun _ =>
      pure _
theorem readAllRegs {b : Bool} : Proper (Machine.readAllRegs h b) :=
  bind memApWrite fun _ => bind (readRegs _) fun _ => bind getSes fun _ => bind modifyHart fun _ => pure _
theorem writeProgbuf : ∀ l i, Proper (Machine.writeProgbuf i l)
  | [], _ => pure _
  | _ :: ws, i => bind memApWrite fun _ => writeProgbuf ws (i + 1)
theorem runProgbuf {l : List Word} : Proper (Machine.runProgbuf h l) :=
  bind (writeProgbuf _ _) fun _ => bind modifyHart fun _ => bind memApWrite fun _ => waitAbstract

theorem thenRestoreS0 {m : Proc α} {s0 : Word} (hm : Proper m) : Proper (Machine.thenRestoreS0 h s0 m) := by
  intro e r e' he
  have hw := writeReg (h := h) (n := regS0) (v := s0)
  cases hc : m e with
  | error r₁ e₁ =>
    rw [Machine.thenRestoreS0, bind_ok (attempt_error hc)] at he
    cases hd : Machine.writeReg h regS0 s0 e₁ with
    | ok _ e₂ => rw [bind_ok (attempt_ok hd)] at he; cases he; exact hm e _ _ hc
    | error r₂ e₂ => rw [bind_ok (attempt_error hd)] at he; cases he; exact hm e _ _ hc
  | ok a e₁ =>
    rw [Machine.thenRestoreS0, bind_ok (attempt_ok hc)] at he
    cases hd : Machine.writeReg h regS0 s0 e₁ with
    | ok _ e₂ => rw [bind_ok (attempt_ok hd)] at he; cases he
    | error r₂ e₂ => rw [bind_ok (attempt_error hd)] at he; cases he; exact hw e₁ _ _ hd

theorem csrRead {c : BitVec 12} : Proper (Machine.csrRead h c) :=
  bind readReg fun _ => thenRestoreS0 (bind memApWrite fun _ => bind runProgbuf fun _ => readReg)
theorem csrWrite {c : BitVec 12} {v : Word} : Proper (Machine.csrWrite h c v) :=
  bind readReg fun _ => thenRestoreS0 (bind writeReg fun _ => bind memApWrite fun _ => runProgbuf)
theorem stepHart : Proper (Machine.stepHart h) :=
  bind csrRead fun _ => bind csrWrite fun _ => bind modifyHart fun _ => bind memApWrite fun _ => bind memApWrite fun _ =>
    bind awaitStatus fun _ => bind modifyHart fun _ => csrWrite
theorem readCsrChecked {c : BitVec 12} : Proper (Machine.readCsrChecked h c) :=
  bind requireInitialized fun _ => bind requireHalted fun _ => csrRead
theorem writeCsrChecked {c : BitVec 12} {v : Word} : Proper (Machine.writeCsrChecked h c v) :=
  bind requireInitialized fun _ => bind requireHalted fun _ => csrWrite
theorem executeWords {ws : List Word} : Proper (Machine.executeWords h ws) := by
  unfold Machine.executeWords
  cases progbufList ws with
  | none => exact raise
  | some l =>
    exact bind requireInitialized fun _ => bind requireHalted fun _ => bind memApWrite fun _ => runProgbuf
theorem launch {entry : Word} : Proper (Machine.launch h entry) :=
  bind haltHart fun _ => bind csrWrite fun _ => bind csrRead fun _ => bind require fun _ => resumeHart
theorem traceRecord {b : Bool} {n : Nat} : Proper (Machine.traceRecord h b n) :=
  bind csrRead fun _ => bind require fun _ => bind memRead fun _ => bind (ite readAllRegs (pure _)) fun _ => modifySes

end hart

/-! Blocks -/

theorem atWord {i : Nat} {m : Proc α} (h : Proper m) : Proper (Machine.atWord i m) := tryCatch (fun _ hr => throw hr) h
theorem uploadWord {a w : Word} {i : Nat} : Proper (Machine.uploadWord a i w) :=
  bind memWrite fun _ => bind memRead fun _ => ite (pure _) endWith
theorem readBlock {a : Word} : ∀ left i, Proper (Machine.readBlock a left i)
  | 0, _ => pure _
  | left + 1, i => bind (atWord memRead) fun _ => bind modifySes fun _ => readBlock left (i + 1)
theorem feed {f : Nat → Word → Proc Unit} (hf : ∀ i w, Proper (f i w)) : ∀ left i, Proper (Machine.feed f left i)
  | 0, _ => pure _
  | left + 1, i => bind popDin fun o => by
      cases o with
      | none => exact pure _
      | some w => exact bind (atWord (hf i w)) fun _ => feed hf left (i + 1)
theorem collectDin : ∀ need got, Proper (Machine.collectDin need got)
  | 0, _ => pure _
  | need + 1, got => bind popDin fun o => by
      cases o with
      | none => exact pure _
      | some w => exact collectDin need _

/-! Connection -/

theorem connectUnwind : Proper Machine.connectUnwind := of_ok fun _ => ⟨_, _, rfl⟩
theorem connectFrom {x : Slot} : Proper (Machine.connectFrom x) :=
  onRaise (bind modifySes fun _ => bind (bind (driveBits _) fun _ => modifySes) fun _ =>
    bind (tryCatch (fun _ _ => raise) retryTxn) fun _ => bind require fun _ => bind modifySes fun _ =>
      bind powerUp fun _ => bind dmInit fun _ => pure _) connectUnwind
theorem acquire {c : Option Slot} : Proper (Machine.acquire c) := fun e r e' h => by
  cases hp : e.tracker.pick c with
  | some x => rw [acquire_some hp] at h; cases h
  | none => rw [acquire_none hp] at h; cases h; decide

end Proper

/-! ## How a command's body ends -/

/-- The command waits for the host: it holds at `In()` or at a trace record (30_encoding.md R73; 44_ops.md R159). -/
def Hold.waits : Hold → Bool
  | .none | .connect _ => false
  | .progbuf _ _ _ | .writeBlock _ _ _ | .upload _ _ _ | .executeCode _ _ _ _ | .trace _ _ _ _ => true

/-- The body returns, fails, or holds for the host. -/
structure Ends (m : Proc Progress) : Prop where
  proper : Proper m
  waits : ∀ {e h e'}, m e = .ok (.hold h) e' → h.waits = true

namespace Ends

theorem done (v : Word) : Ends (pure (.done v)) := ⟨.pure _, fun h => by cases h⟩
theorem hold {h : Hold} (hw : h.waits = true) : Ends (pure (.hold h)) := ⟨.pure _, fun he => by cases he; exact hw⟩

theorem raise {k : ErrorKind} (h : k ≠ .ok := by decide) : Ends (Machine.raise k) := ⟨.raise h, fun h => by cases h⟩

theorem bind {m : Proc α} {f : α → Proc Progress} (hm : Proper m) (hf : ∀ a, Ends (f a)) : Ends (m >>= f) where
  proper := hm.bind fun a => (hf a).proper
  waits h := by
    obtain ⟨a, e₁, -, h⟩ := bind_eq_ok.1 h
    exact (hf a).waits h

theorem returns {m : Proc Word} (h : Proper m) : Ends (Machine.returns m) := bind h done
theorem returnsZero {m : Proc Unit} (h : Proper m) : Ends (Machine.returnsZero m) := bind h fun _ => done 0
theorem sendWord {m : Proc Unit} (h : Proper m) : Ends (Machine.sendWord m) :=
  returnsZero (Proper.requireConnected.bind fun _ => h)

theorem traceGuard {n : Nat} {m : Proc Progress} (h : Ends m) : Ends (Machine.traceGuard n m) where
  proper := Proper.tryCatch (fun _ hr => Proper.ite (.pure _) (.throw hr)) h.proper
  waits {e g e'} he := by
    rw [Machine.traceGuard, tryCatch_run] at he
    cases hm : m e with
    | ok a e₁ => rw [hm] at he; cases he; exact h.waits hm
    | error r e₁ =>
      simp only [hm] at he
      split at he <;> cases he

/-- A command that checks the connection and looks at its operands. -/
theorem online {f : Session → Proc Progress} (h : ∀ s, Ends (f s)) :
    Ends (requireConnected >>= fun _ => Machine.getSes >>= f) :=
  bind .requireConnected fun _ => bind .getSes h

theorem continueProgbuf (h : HartId) (n : Nat) (got : List Word) : Ends (Machine.continueProgbuf h n got) :=
  bind (.collectDin _ _) fun x => by
    obtain ⟨_ | _, ws⟩ := x
    · exact hold rfl
    · exact returnsZero .executeWords

theorem continueWriteBlock (a : Word) (n i : Nat) : Ends (Machine.continueWriteBlock a n i) :=
  bind (.feed (fun _ _ => .memWrite) _ _) fun o => by
    cases o
    · exact done _
    · exact hold rfl

theorem continueUpload (a : Word) (n i : Nat) : Ends (Machine.continueUpload a n i) :=
  bind (.feed (fun _ _ => .uploadWord) _ _) fun o => by
    cases o
    · exact done _
    · exact hold rfl

theorem continueExecuteCode (h : HartId) (entry : Word) (n i : Nat) : Ends (Machine.continueExecuteCode h entry n i) :=
  bind (.feed (fun _ _ => .uploadWord) _ _) fun o => by
    cases o
    · exact returnsZero .launch
    · exact hold rfl

theorem traceNext (h : HartId) (max : Word) (capture : Bool) (n : Nat) : Ends (Machine.traceNext h max capture n) :=
  bind .traceRecord fun _ => hold rfl

theorem continueTrace (h : HartId) (max : Word) (capture : Bool) (n : Nat) (reply : Bool) :
    Ends (Machine.continueTrace h max capture n reply) := by
  unfold Machine.continueTrace
  split
  · exact done _
  split
  · exact done _
  · exact traceGuard (bind .stepHart fun _ => traceNext _ _ _ _)

end Ends

/-! Bodies that begin with the check of the connection and a look at the operands. -/

namespace Proper

theorem online {f : Session → Proc α} (h : ∀ s, Proper (f s)) :
    Proper (Machine.requireConnected >>= fun _ => Machine.getSes >>= f) :=
  Proper.requireConnected.bind fun _ => Proper.getSes.bind h

theorem answerAck {ack : BitVec 3} : Proper (Machine.answerAck ack) :=
  online fun _ => bind (onlyIf modifySes) fun _ => bind logEvent fun _ => bind logEvent fun _ => bind logEvent fun _ =>
    bind getSes fun _ => bind (afterAck _ _) fun a => settle (onWait _ _) a

theorem connectSession : Proper Machine.connectSession :=
  bind getSes fun _ => ite (pure _) (bind acquire fun _ => connectFrom)

end Proper

end Sys2Proof.Machine
end

section
/-! SUPPORT. What a command does without a connection (10_state.md R20, invariant 5; 60_exceptions.md R167). -/

namespace Sys2Proof.Machine

variable {α β : Type}

/-! ## Commands that need a connection -/

/-- Not connected, the procedure raises `NotConnected` before it does anything (60_exceptions.md R167). -/
def NeedsLink (m : Proc α) : Prop := ∀ e : Engine, e.ses.connected = false → m e = .error ⟨.notConnected, 0⟩ e

namespace NeedsLink

theorem connected : NeedsLink requireConnected := fun e h => by
  rw [Machine.requireConnected, bind_ok (getSes_run e), h, require_false]

theorem bind {m : Proc α} {f : α → Proc β} (h : NeedsLink m) : NeedsLink (m >>= f) := fun e he => bind_error (h e he)

theorem look {f : Session → Proc α} (h : ∀ s, NeedsLink (f s)) : NeedsLink (getSes >>= f) := fun e he =>
  (bind_ok (getSes_run e)).trans (h e.ses e he)

theorem online {m : Unit → Proc Word} : NeedsLink (returns (requireConnected >>= m)) := connected.bind.bind
theorem onlineZero {m : Unit → Proc Unit} : NeedsLink (returnsZero (requireConnected >>= m)) := connected.bind.bind
theorem word {m : Proc Unit} : NeedsLink (sendWord m) := onlineZero
theorem block {f : Session → Unit → Proc α} {a n : Session → Word} :
    NeedsLink (getSes >>= fun s => blockChecks (a s) (n s) >>= f s) := look fun _ => connected.bind.bind

end NeedsLink

/-! ## What happens without a connection -/

/-- The connection's fields of rule R20, invariant 1, and the wire's own. -/
def Engine.wireSide (e : Engine) :=
  (e.ses.connected, e.ses.record, e.ses.swdio, e.ses.txn, e.ses.dap, e.ses.wire.initialized, e.ses.wire.slot,
    e.ses.dm.initialized, e.ses.dm.sbaInitialized)

/-- Not connected, they are as before. -/
def QuietOffline (e e' : Engine) : Prop := e.ses.connected = false → e'.wireSide = e.wireSide

theorem quietOffline : Closed QuietOffline where
  refl _ _ := rfl
  trans h k he := (k (by rw [(Prod.mk.inj (h he)).1, he])).trans (h he)

/-- Not connected, a command leaves the wire and the connection's fields as they are, and ends. -/
structure Quiet (m : Proc Progress) : Prop where
  respects : Respects QuietOffline m
  ends : ∀ {e h e'}, e.ses.connected = false → m e ≠ .ok (.hold h) e'

theorem NeedsLink.quiet {m : Proc Progress} (h : NeedsLink m) : Quiet m where
  respects e he := by rw [h e he]; rfl
  ends he hm := by rw [h _ he] at hm; cases hm

theorem Quiet.returns {m : Proc Word} (h : Respects QuietOffline m) : Quiet (Machine.returns m) where
  respects := quietOffline.bind h fun _ => quietOffline.pure _
  ends _ hm := by obtain ⟨_, _, -, hm⟩ := bind_eq_ok.1 hm; cases hm

theorem Quiet.returnsZero {m : Proc Unit} (h : Respects QuietOffline m) : Quiet (Machine.returnsZero m) where
  respects := quietOffline.bind h fun _ => quietOffline.pure _
  ends _ hm := by obtain ⟨_, _, -, hm⟩ := bind_eq_ok.1 hm; cases hm

theorem Quiet.raise (k : ErrorKind) : Quiet (Machine.raise k) := ⟨quietOffline.raise k, fun _ h => by cases h⟩

theorem quiet_disconnectSession : Respects QuietOffline disconnectSession := fun e he => by
  rw [disconnectSession, bind_ok (getSes_run e), he]; rfl

end Sys2Proof.Machine
end

section
/-! SUPPORT. One entry per row of spec/opcode_table.json: the command's body, how it ends, what it does without a
connection, and which relations it respects. -/

namespace Sys2Proof.Machine

variable {i : Instr} {m : Proc Progress} {s t : State}

/-! ## Bodies of the rows that change fields of their own -/

/-- SET_FREQUENCY's body after it has read its operand (40_wire.md R89). -/
def setFrequency (f : Word) : Proc Unit := do
  require (f != 0) .invalidParam
  modifySes fun s => { s with wire.freqKhz := f, wire.clkdiv := divider f }

/-- ENABLE_CACHE's body after it has read its operand (42_dm.md R138). -/
def setCaching (on : Bool) : Proc Unit := do
  modifySes fun s => { s with dm.cacheEnabled := on }
  onlyIf (!on) (modifyHarts fun x => { x with cacheValid := false })

/-- WRITE_DP's body after its checks (41_dap.md R101). -/
def writeDpChecked (a v : Word) : Proc Unit := do
  onlyIf (a == 0x8) forgetSelect
  dpWrite (a.setWidth 4) v

/-- The body of the request row that writes SELECT (log 14). -/
def requestSelect : Proc Word := do requireConnected; forgetSelect; issueRequest false false dpSelect

theorem Proper.setFrequency {f : Word} : Proper (Machine.setFrequency f) := .bind .require fun _ => .modifySes
theorem Proper.setCaching {on : Bool} : Proper (Machine.setCaching on) :=
  .bind .modifySes fun _ => .onlyIf .modifyHarts
theorem Proper.writeDpChecked {a v : Word} : Proper (Machine.writeDpChecked a v) :=
  .bind (.onlyIf .modifySes) fun _ => .dpWrite
theorem Proper.requestSelect : Proper Machine.requestSelect :=
  .bind .requireConnected fun _ => .bind .modifySes fun _ => .online fun _ => .retryTxn

theorem quiet_setFrequency (f : Word) : Respects QuietOffline (setFrequency f) :=
  quietOffline.bind (quietOffline.require _ _) fun _ _ _ => rfl

theorem quiet_setCaching (on : Bool) : Respects QuietOffline (setCaching on) := by
  cases on <;> exact fun _ _ => rfl

/-- The procedure of a row that changes fields of its own, or the SELECT cache outside its path, respects `R`. -/
def OwnProcs (i : Instr) (R : Engine → Engine → Prop) : Prop :=
  match i with
  | .connect => Respects R connectSession
  | .disconnect => Respects R disconnectSession
  | .setFrequency => ∀ f, Respects R (setFrequency f)
  | .powerUp => Respects R powerUp
  | .init => Respects R dmInit
  | .sbaInit => Respects R (do requireInitialized; sbaInit)
  | .enableCache => ∀ on, Respects R (setCaching on)
  | .reset => ∀ h hr, Respects R (resetHart h hr)
  | .writeDp => ∀ a v, Respects R (writeDpChecked a v)
  | .swdReqDpW8 => Respects R requestSelect
  | .ackOk => Respects R (answerAck 1)
  | .ackWait => Respects R (answerAck 2)
  | .ackFault => Respects R (answerAck 4)
  | .ackProtocolError v => Respects R (answerAck v)
  | _ => True

/-! ## Rows that send SELECT outside the cache's path (41_dap.md R101; log 14) -/

section
variable {R : Engine → Engine → Prop} (C : TalkClosed R) (hf : Respects R forgetSelect)
include C hf

theorem ownProcs_writeDp : OwnProcs .writeDp R := fun _ _ => C.bind (C.onlyIf _ hf) fun _ => C.dpWrite _ _

theorem ownProcs_swdReqDpW8 : OwnProcs .swdReqDpW8 R :=
  C.bind C.requireConnected fun _ => C.bind hf fun _ => C.issueRequest _ _ _

theorem ownProcs_ackRow (hi : ackRow i = true) : OwnProcs i R := by
  cases i
  case ackOk | ackWait | ackFault | ackProtocolError => exact C.answerAck _ hf
  all_goals cases hi

end

/-! ## Rows -/

/-- Which relations the body of a row respects. -/
inductive Kind (i : Instr) (m : Proc Progress) : Prop
  /-- The row only talks to the target and to the host. -/
  | talks (h : Talks m)
  /-- The row acts on the hart that ARG0 names. -/
  | onHart (hi : namesHart i = true) (h : ∀ RN R, Named RN R → (∀ h, HartProcs h (RN h)) → Respects R m)
  /-- The row fills the mirror of the hart that ARG0 names. -/
  | fills (hi : i = .readAllRegs ∨ i = .trace) (h : ∀ RN R, Named RN R → (∀ h, FillProcs h (RN h)) → Respects R m)
  /-- The row has a procedure of its own. -/
  | own (h : ∀ R, TalkClosed R → OwnProcs i R → Respects R m)

/-- What is known of the body of a row. -/
structure Row (i : Instr) (m : Proc Progress) : Prop where
  ends : Ends m
  quiet : i ≠ .connect → Quiet m
  kind : Kind i m

/-- A row that needs a connection. -/
theorem Row.online (he : Ends m) (hn : NeedsLink m) (hk : Kind i m) : Row i m := ⟨he, fun _ => hn.quiet, hk⟩

/-- An instruction is the run of a body that is known so well. -/
def Runs (i : Instr) : Prop := ∃ m, (∀ s, exec i s = runCommand m s) ∧ Row i m

theorem Runs.next (h : Runs i) (ht : exec i s = .next t) :
    ∃ m, Row i m ∧ t = { s with eng := finish (m s.eng.begin) } := by
  obtain ⟨m, hm, hr⟩ := h
  rw [hm, runCommand] at ht
  injection ht with ht
  exact ⟨m, hr, ht.symm⟩

/-- Every row of the table, rows whose bodies have one form together. -/
theorem runs (i : Instr) : Runs i := by
  cases i
  -- requests
  case swdReqDpR8 | swdReqDpW0 | swdReqDpWC =>
    exact ⟨_, fun _ => rfl, .online (.returns (.bind .requireConnected fun _ => .raise)) .online
      (.talks fun _ _ C => C.returns C.neverEmitted)⟩
  case swdReqDpR0 | swdReqDpR4 | swdReqDpRC | swdReqDpW4 | swdReqApR0 | swdReqApR4 | swdReqApR8 | swdReqApRC
      | swdReqApW0 | swdReqApW4 | swdReqApW8 | swdReqApWC =>
    exact ⟨_, fun _ => rfl, .online (.returns (.online fun _ => .retryTxn)) .online
      (.talks fun _ _ C => C.returns (C.issueRequest _ _ _))⟩
  case swdReqDpW8 =>
    exact ⟨_, fun _ => rfl, .online (.returns .requestSelect) .online (.own fun _ C h => C.returns h)⟩
  -- acknowledges
  case ackOk | ackWait | ackFault | ackProtocolError =>
    exact ⟨_, fun _ => rfl, .online (.returns .answerAck) .online (.own fun _ C h => C.returns h)⟩
  -- the Wire Engine
  case connect =>
    exact ⟨_, fun _ => rfl, .returns .connectSession, fun h => absurd rfl h, .own fun _ C h => C.returns h⟩
  case disconnect =>
    exact ⟨_, fun _ => rfl, .returnsZero (.bind .getSes fun _ => .ite .connectUnwind (.pure _)),
      fun _ => .returnsZero quiet_disconnectSession, .own fun _ C h => C.returnsZero h⟩
  case isConnected | getFrequency | isPowered | isInitialized =>
    exact ⟨_, fun _ => rfl, .returns (.bind .getSes fun _ => .pure _), fun _ => .returns fun _ _ => rfl,
      .talks fun _ _ C => C.returns (C.bind C.getSes fun _ => C.pure _)⟩
  case setFrequency =>
    exact ⟨_, fun _ => rfl, .returnsZero (.bind .getSes fun _ => .setFrequency), fun _ => .returnsZero
      (quietOffline.bind quietOffline.getSes fun _ => quiet_setFrequency _),
      .own fun _ C h => C.returnsZero (C.bind C.getSes fun _ => h _)⟩
  case lineReset =>
    exact ⟨_, fun _ => rfl, .online (.returnsZero (.bind .requireConnected fun _ => .lineResetSeq)) .onlineZero
      (.talks fun _ _ C => C.returnsZero (C.bind C.requireConnected fun _ => C.lineReset))⟩
  case sendIdleClocks =>
    exact ⟨_, fun _ => rfl, .online (.returnsZero (.online fun _ => .driveRepeat _ _)) .onlineZero
      (.talks fun _ _ C => C.returnsZero (C.bind C.requireConnected fun _ => C.bind C.getSes fun _ =>
        C.driveRepeat _ _))⟩
  -- the DAP Engine
  case powerUp =>
    exact ⟨_, fun _ => rfl, .online (.returnsZero (.bind .requireConnected fun _ => .powerUp)) .onlineZero
      (.own fun _ C h => C.returnsZero (C.bind C.requireConnected fun _ => h))⟩
  case clearErrors =>
    exact ⟨_, fun _ => rfl, .online (.returnsZero (.online fun _ => .dpWrite)) .onlineZero
      (.talks fun _ _ C => C.returnsZero (C.bind C.requireConnected fun _ => C.bind C.getSes fun _ => C.dpWrite _ _))⟩
  case readDp =>
    exact ⟨_, fun _ => rfl, .online (.returns (.online fun _ => .bind .require fun _ => .retryTxn)) .online
      (.talks fun _ _ C => C.returns (C.bind C.requireConnected fun _ => C.bind C.getSes fun _ =>
        C.bind (C.require _ _) fun _ => C.dpRead _))⟩
  case writeDp =>
    exact ⟨_, fun _ => rfl, .online (.returnsZero (.online fun _ => .bind .require fun _ => .writeDpChecked)) .onlineZero
      (.own fun _ C h => C.returnsZero (C.bind C.requireConnected fun _ => C.bind C.getSes fun _ =>
        C.bind (C.require _ _) fun _ => h _ _))⟩
  case readAp =>
    exact ⟨_, fun _ => rfl, .online (.returns (.online fun _ => .bind .require fun _ => .apRead)) .online
      (.talks fun _ _ C => C.returns (C.bind C.requireConnected fun _ => C.bind C.getSes fun _ =>
        C.bind (C.require _ _) fun _ => C.apRead _ _))⟩
  case writeAp =>
    exact ⟨_, fun _ => rfl, .online (.returnsZero (.online fun _ => .bind .require fun _ => .apWrite)) .onlineZero
      (.talks fun _ _ C => C.returnsZero (C.bind C.requireConnected fun _ => C.bind C.getSes fun _ =>
        C.bind (C.require _ _) fun _ => C.apWrite _ _ _))⟩
  case dapReadMem32 =>
    exact ⟨_, fun _ => rfl, .online (.returns (.online fun _ => .bind .require fun _ => .memApRead)) .online
      (.talks fun _ _ C => C.returns (C.bind C.requireConnected fun _ => C.bind C.getSes fun _ =>
        C.bind (C.require _ _) fun _ => C.memApRead _))⟩
  case dapWriteMem32 =>
    exact ⟨_, fun _ => rfl, .online (.returnsZero (.online fun _ => .bind .require fun _ => .memApWrite)) .onlineZero
      (.talks fun _ _ C => C.returnsZero (C.bind C.requireConnected fun _ => C.bind C.getSes fun _ =>
        C.bind (C.require _ _) fun _ => C.memApWrite _ _))⟩
  -- the DM driver
  case init =>
    exact ⟨_, fun _ => rfl, .online (.returnsZero (.bind .requireConnected fun _ => .dmInit)) .onlineZero
      (.own fun _ C h => C.returnsZero (C.bind C.requireConnected fun _ => h))⟩
  case halt =>
    exact ⟨_, fun _ => rfl, .online (.returnsZero (.online fun _ => .bind .hartOperand fun _ =>
        .bind .requireInitialized fun _ => .bind .haltHart fun _ => .onlyIf .endWith)) .onlineZero
      (.onHart rfl fun _ _ N C => N.returnsZero (N.online fun _ h => (C h).bind (C h).requireInitialized fun _ =>
        (C h).bind (C h).haltHart fun _ => (C h).onlyIf _ ((C h).endWith _ _)))⟩
  case resume =>
    exact ⟨_, fun _ => rfl, .online (.returnsZero (.online fun _ => .bind .hartOperand fun _ =>
        .bind .requireInitialized fun _ => .resumeHart)) .onlineZero
      (.onHart rfl fun _ _ N C => N.returnsZero (N.online fun _ h => (C h).bind (C h).requireInitialized fun _ =>
        (C h).resumeHart))⟩
  case step =>
    exact ⟨_, fun _ => rfl, .online (.returnsZero (.online fun _ => .bind .hartOperand fun _ =>
        .bind .requireInitialized fun _ => .bind .requireHalted fun _ => .stepHart)) .onlineZero
      (.onHart rfl fun _ _ N C => N.returnsZero (N.online fun _ h => (C h).bind (C h).requireInitialized fun _ =>
        (C h).bind (C h).requireHalted fun _ => (C h).stepHart))⟩
  case reset =>
    exact ⟨_, fun _ => rfl, .online (.returnsZero (.online fun _ => .bind .hartOperand fun _ =>
        .bind .boolOperand fun _ => .bind .requireInitialized fun _ => .resetHart)) .onlineZero
      (.own fun _ C h => C.returnsZero (C.bind C.requireConnected fun _ => C.bind C.getSes fun _ =>
        C.bind (C.hartOperand _) fun _ => C.bind (C.boolOperand _) fun _ => C.bind C.requireInitialized fun _ => h _ _))⟩
  case isHalted =>
    exact ⟨_, fun _ => rfl, .online (.returns (.online fun _ => .bind .hartOperand fun _ =>
        .bind .requireInitialized fun _ => .bind .queryHalted fun _ => .pure _)) .online
      (.onHart rfl fun _ _ N C => N.returns (N.online fun _ h => (C h).bind (C h).requireInitialized fun _ =>
        (C h).bind (C h).queryHalted fun _ => (C h).pure _))⟩
  case readReg =>
    exact ⟨_, fun _ => rfl, .online (.returns (.online fun _ => .bind .hartOperand fun _ => .bind .regOperand fun _ =>
        .bind .requireInitialized fun _ => .bind .requireHalted fun _ => .readReg)) .online
      (.onHart rfl fun _ _ N C => N.returns (N.online fun _ h => (C h).bind ((C h).regOperand _) fun _ =>
        (C h).bind (C h).requireInitialized fun _ => (C h).bind (C h).requireHalted fun _ => (C h).readReg _))⟩
  case writeReg =>
    exact ⟨_, fun _ => rfl, .online (.returnsZero (.online fun _ => .bind .hartOperand fun _ => .bind .regOperand fun _ =>
        .bind .requireInitialized fun _ => .bind .requireHalted fun _ => .writeReg)) .onlineZero
      (.onHart rfl fun _ _ N C => N.returnsZero (N.online fun _ h => (C h).bind ((C h).regOperand _) fun _ =>
        (C h).bind (C h).requireInitialized fun _ => (C h).bind (C h).requireHalted fun _ => (C h).writeReg _ _))⟩
  case readAllRegs =>
    exact ⟨_, fun _ => rfl, .online (.returnsZero (.online fun _ => .bind .hartOperand fun _ =>
        .bind .requireInitialized fun _ => .bind .requireHalted fun _ => .bind .readAllRegs fun _ => .pure _)) .onlineZero
      (.fills (.inl rfl) fun _ _ N C => N.returnsZero (N.online fun _ h => (C h).bind (C h).requireInitialized fun _ =>
        (C h).readAllRegs))⟩
  case readPc =>
    exact ⟨_, fun _ => rfl, .online (.returns (.online fun _ => .bind .hartOperand fun _ => .readCsrChecked)) .online
      (.onHart rfl fun _ _ N C => N.returns (N.online fun _ h => (C h).readCsrChecked _))⟩
  case writePc =>
    exact ⟨_, fun _ => rfl, .online (.returnsZero (.online fun _ => .bind .hartOperand fun _ => .writeCsrChecked))
      .onlineZero (.onHart rfl fun _ _ N C => N.returnsZero (N.online fun _ h => (C h).writeCsrChecked _ _))⟩
  case readCsr =>
    exact ⟨_, fun _ => rfl, .online (.returns (.online fun _ => .bind .hartOperand fun _ => .bind .csrOperand fun _ =>
        .readCsrChecked)) .online
      (.onHart rfl fun _ _ N C => N.returns (N.online fun _ h => (C h).bind ((C h).csrOperand _) fun _ =>
        (C h).readCsrChecked _))⟩
  case writeCsr =>
    exact ⟨_, fun _ => rfl, .online (.returnsZero (.online fun _ => .bind .hartOperand fun _ => .bind .csrOperand fun _ =>
        .writeCsrChecked)) .onlineZero
      (.onHart rfl fun _ _ N C => N.returnsZero (N.online fun _ h => (C h).bind ((C h).csrOperand _) fun _ =>
        (C h).writeCsrChecked _ _))⟩
  case executeProgbuf =>
    exact ⟨_, fun _ => rfl, .online (.online fun _ => .bind .hartOperand fun _ => .bind .require fun _ =>
        .continueProgbuf _ _ _) NeedsLink.connected.bind
      (.onHart rfl fun _ _ N C => N.online fun _ h => (C h).bind ((C h).require _ _) fun _ =>
        (C h).continueProgbuf _ _)⟩
  -- System Bus Access
  case sbaInit =>
    exact ⟨_, fun _ => rfl, .online (.returnsZero (.bind .requireConnected fun _ => .bind .requireInitialized fun _ =>
        .sbaInit)) .onlineZero (.own fun _ C h => C.returnsZero (C.bind C.requireConnected fun _ => h))⟩
  case sbaRead32 =>
    exact ⟨_, fun _ => rfl, .online (.returns (.online fun _ => .bind .require fun _ => .bind .requireSba fun _ =>
        .bind .memApWrite fun _ => .memApRead)) .online
      (.talks fun _ _ C => C.returns (C.bind C.requireConnected fun _ => C.bind C.getSes fun _ =>
        C.bind (C.require _ _) fun _ => C.bind C.requireSba fun _ => C.sbaRead _))⟩
  case sbaWrite32 =>
    exact ⟨_, fun _ => rfl, .online (.returnsZero (.online fun _ => .bind .require fun _ => .bind .requireSba fun _ =>
        .bind .memApWrite fun _ => .memApWrite)) .onlineZero
      (.talks fun _ _ C => C.returnsZero (C.bind C.requireConnected fun _ => C.bind C.getSes fun _ =>
        C.bind (C.require _ _) fun _ => C.bind C.requireSba fun _ => C.sbaWrite _ _))⟩
  case sbaCheckErrors =>
    exact ⟨_, fun _ => rfl, .online (.returns (.bind .requireConnected fun _ => .bind .requireSba fun _ =>
        .bind .memApRead fun _ => .ite (.pure _) (.bind .memApWrite fun _ => .endWith))) .online
      (.talks fun _ _ C => C.returns (C.bind C.requireConnected fun _ => C.bind C.requireSba fun _ =>
        C.bind (C.dmRead _) fun _ => Closed.ite (C.pure _) (C.bind (C.dmWrite _ _) fun _ => C.endWith _ _)))⟩
  -- memory
  case readMem8 =>
    exact ⟨_, fun _ => rfl, .online (.returns (.online fun _ => .bind .requireInitialized fun _ =>
        .bind .memRead fun _ => .pure _)) .online
      (.talks fun _ _ C => C.returns (C.bind C.requireConnected fun _ => C.bind C.getSes fun _ =>
        C.bind C.requireInitialized fun _ => C.bind (C.memRead _) fun _ => C.pure _))⟩
  case readMem16 =>
    exact ⟨_, fun _ => rfl, .online (.returns (.online fun _ => .bind .require fun _ => .bind .requireInitialized fun _ =>
        .bind .memRead fun _ => .pure _)) .online
      (.talks fun _ _ C => C.returns (C.bind C.requireConnected fun _ => C.bind C.getSes fun _ =>
        C.bind (C.require _ _) fun _ => C.bind C.requireInitialized fun _ => C.bind (C.memRead _) fun _ => C.pure _))⟩
  case readMem32 =>
    exact ⟨_, fun _ => rfl, .online (.returns (.online fun _ => .bind .require fun _ => .bind .requireInitialized fun _ =>
        .memRead)) .online
      (.talks fun _ _ C => C.returns (C.bind C.requireConnected fun _ => C.bind C.getSes fun _ =>
        C.bind (C.require _ _) fun _ => C.bind C.requireInitialized fun _ => C.memRead _))⟩
  case writeMem8 =>
    exact ⟨_, fun _ => rfl, .online (.returnsZero (.online fun _ => .bind .require fun _ =>
        .bind .requireInitialized fun _ => .bind .memRead fun _ => .memWrite)) .onlineZero
      (.talks fun _ _ C => C.returnsZero (C.bind C.requireConnected fun _ => C.bind C.getSes fun _ =>
        C.bind (C.require _ _) fun _ => C.bind C.requireInitialized fun _ => C.bind (C.memRead _) fun _ =>
          C.memWrite _ _))⟩
  case writeMem16 =>
    exact ⟨_, fun _ => rfl, .online (.returnsZero (.online fun _ => .bind .require fun _ => .bind .require fun _ =>
        .bind .requireInitialized fun _ => .bind .memRead fun _ => .memWrite)) .onlineZero
      (.talks fun _ _ C => C.returnsZero (C.bind C.requireConnected fun _ => C.bind C.getSes fun _ =>
        C.bind (C.require _ _) fun _ => C.bind (C.require _ _) fun _ => C.bind C.requireInitialized fun _ =>
          C.bind (C.memRead _) fun _ => C.memWrite _ _))⟩
  case writeMem32 =>
    exact ⟨_, fun _ => rfl, .online (.returnsZero (.online fun _ => .bind .require fun _ =>
        .bind .requireInitialized fun _ => .memWrite)) .onlineZero
      (.talks fun _ _ C => C.returnsZero (C.bind C.requireConnected fun _ => C.bind C.getSes fun _ =>
        C.bind (C.require _ _) fun _ => C.bind C.requireInitialized fun _ => C.memWrite _ _))⟩
  case readMemBlock =>
    exact ⟨_, fun _ => rfl, .online (.returns (.bind .getSes fun _ => .bind .blockChecks fun _ =>
        .bind (.readBlock _ _) fun _ => .pure _)) NeedsLink.block.bind
      (.talks fun _ _ C => C.returns (C.bind C.getSes fun _ => C.bind (C.blockChecks _ _) fun _ =>
        C.bind (C.readBlock _ _ _) fun _ => C.pure _))⟩
  case writeMemBlock =>
    exact ⟨_, fun _ => rfl, .online (.bind .getSes fun _ => .bind .blockChecks fun _ => .continueWriteBlock _ _ _) .block
      (.talks fun _ _ C => C.bind C.getSes fun _ => C.bind (C.blockChecks _ _) fun _ => C.continueWriteBlock _ _ _)⟩
  case uploadCode =>
    exact ⟨_, fun _ => rfl, .online (.bind .getSes fun _ => .bind .blockChecks fun _ => .continueUpload _ _ _) .block
      (.talks fun _ _ C => C.bind C.getSes fun _ => C.bind (C.blockChecks _ _) fun _ => C.continueUpload _ _ _)⟩
  case executeCode =>
    exact ⟨_, fun _ => rfl, .online (.online fun _ => .bind .hartOperand fun _ => .bind .require fun _ =>
        .bind .require fun _ => .bind .requireInitialized fun _ => .continueExecuteCode _ _ _ _) NeedsLink.connected.bind
      (.onHart rfl fun _ _ N C => N.online fun _ h => (C h).bind ((C h).require _ _) fun _ =>
        (C h).bind ((C h).require _ _) fun _ => (C h).bind (C h).requireInitialized fun _ =>
          (C h).continueExecuteCode _ _ _)⟩
  case trace =>
    exact ⟨_, fun _ => rfl, .online (.online fun _ => .bind .hartOperand fun _ => .bind .boolOperand fun _ =>
        .bind .requireInitialized fun _ => .traceGuard (.bind .haltHart fun _ => .traceNext _ _ _ _))
          NeedsLink.connected.bind
      (.fills (.inr rfl) fun _ _ N C => N.online fun _ h => (C h).bind ((C h).boolOperand _) fun _ =>
        (C h).bind (C h).requireInitialized fun _ => (C h).traceGuard ((C h).trace _ _))⟩
  -- cache control and queries
  case enableCache =>
    exact ⟨_, fun _ => rfl, .returnsZero (.bind .getSes fun _ => .bind .boolOperand fun _ => .setCaching), fun _ =>
      .returnsZero (quietOffline.bind quietOffline.getSes fun _ =>
        quietOffline.bind (quietOffline.boolOperand _) quiet_setCaching),
      .own fun _ C h => C.returnsZero (C.bind C.getSes fun _ => C.bind (C.boolOperand _) fun _ => h _)⟩
  case invalidateCache =>
    exact ⟨_, fun _ => rfl, .returnsZero (.bind .getSes fun _ => .bind .hartOperand fun _ => .modifyHart),
      fun _ => .returnsZero (quietOffline.named.hart fun _ _ _ _ => rfl),
      .onHart rfl fun _ _ N C => N.returnsZero (N.hart fun _ h => (C h).dropMirror)⟩
  case resourceUsage =>
    exact ⟨_, fun _ => rfl, .returns (.bind .get fun _ => .bind .modifySes fun _ => .pure _),
      fun _ => .returns fun _ _ => rfl, .talks fun _ _ C => C.returns (C.bind C.get fun _ => C.bind (C.outs _) fun _ =>
        C.pure _)⟩
  case getErrorDetail =>
    exact ⟨_, fun _ => rfl, .returns (.bind .getSes fun _ => .bind .modifySes fun _ => .pure _),
      fun _ => .returns fun _ _ => rfl, .talks fun _ _ C => C.returns (C.bind C.getSes fun _ => C.bind (C.outs _) fun _ =>
        C.pure _)⟩
  case reservedHostOpcode =>
    exact ⟨_, fun _ => rfl, .raise, fun _ => .raise _, .talks fun _ _ C => C.raise _⟩
  -- words for target registers
  case selectWord => exact ⟨_, fun _ => rfl, .online (.sendWord .writeSelect) .word (.talks fun _ _ C =>
      C.sendWord (C.select _ _))⟩
  case ctrlstatClear | ctrlstatPwrupReq | ctrlstatClearErrorsPowered | ctrlstatClearErrorsUnpowered =>
    exact ⟨_, fun _ => rfl, .online (.sendWord .dpWrite) .word (.talks fun _ _ C => C.sendWord (C.dpWrite _ _))⟩
  case cswInit =>
    exact ⟨_, fun _ => rfl, .online (.sendWord .apWrite) .word (.talks fun _ _ C => C.sendWord (C.apWrite _ _ _))⟩
  case dminitSeq1 | dminitSeq2 | dminitSeq3 =>
    exact ⟨_, fun _ => rfl, .online (.sendWord .handshakeWrite) .word (.talks fun _ _ C =>
      C.sendWord (C.handshakeWrite _))⟩
  case dminitExpected =>
    exact ⟨_, fun _ => rfl, .online (.returns (.bind .requireConnected fun _ => .handshakeStatus)) .online
      (.talks fun _ _ C => C.returns (C.bind C.requireConnected fun _ => C.handshakeStatus))⟩
  case dmcSel | dmcHalt | dmcResume | dmcReset | dmcUnreset | cmdGprRead | cmdGprWrite | cmdPostexec
      | abstractcsClearCmderr | insnCsrr | insnCsrw | insnEbreak | sbcsCfg =>
    exact ⟨_, fun _ => rfl, .online (.sendWord .memApWrite) .word (.talks fun _ _ C => C.sendWord (C.dmWrite _ _))⟩

end Sys2Proof.Machine
end

section
/-! SUPPORT. What a command keeps, whatever happens on the wire: each field changes only by the rows that own it
(10_state.md R14 to R18, R21). -/

namespace Sys2Proof.Machine

variable {α β : Type} {h : HartId} {i : Instr} {m : Proc Progress} {s t : State} {R : Engine → Engine → Prop}

/-! ## The end of a command -/

/-- The end of a command changes the results, DIN, BUSY, the hold, the error detail and the count of free values only. -/
theorem finish_view {γ : Type} {f : Engine → γ}
    (hf : ∀ (e : Engine) k v din b hold d n, f { e with
      ses.port.resultStatus := k, ses.port.resultValue := v, ses.port.din := din, ses.port.busy := b,
      ses.hold := hold, ses.errDetail := d, free := n } = f e)
    (r : EStateM.Result Raise Engine Progress) : f (finish r) = f (endState r) := by
  rcases r with ⟨_ | h, e⟩ | ⟨r, e⟩
  · exact hf e _ _ _ _ _ e.ses.errDetail e.free
  · exact hf e e.ses.port.resultStatus e.ses.port.resultValue e.ses.port.din e.ses.port.busy h e.ses.errDetail e.free
  · by_cases hk : r.kind = .alreadyHalted
    · simp only [finish, Engine.failed, hk, if_true]
      exact hf e _ _ _ _ _ e.ses.errDetail e.free
    · simp only [finish, Engine.failed, hk, if_false]
      exact hf e _ _ _ _ _ _ _

section finish
variable (r : EStateM.Result Raise Engine Progress)

@[simp] theorem finish_self : (finish r).self = (endState r).self :=
  finish_view (f := (·.self)) (fun _ _ _ _ _ _ _ _ => rfl) r
@[simp] theorem finish_tracker : (finish r).tracker = (endState r).tracker :=
  finish_view (f := (·.tracker)) (fun _ _ _ _ _ _ _ _ => rfl) r
@[simp] theorem finish_live : (finish r).ses.live = (endState r).ses.live :=
  finish_view (f := (·.ses.live)) (fun _ _ _ _ _ _ _ _ => rfl) r
@[simp] theorem finish_connected : (finish r).ses.connected = (endState r).ses.connected :=
  finish_view (f := (·.ses.connected)) (fun _ _ _ _ _ _ _ _ => rfl) r
@[simp] theorem finish_cfg : (finish r).ses.cfg = (endState r).ses.cfg :=
  finish_view (f := (·.ses.cfg)) (fun _ _ _ _ _ _ _ _ => rfl) r
@[simp] theorem finish_wire : (finish r).ses.wire = (endState r).ses.wire :=
  finish_view (f := (·.ses.wire)) (fun _ _ _ _ _ _ _ _ => rfl) r
@[simp] theorem finish_dap : (finish r).ses.dap = (endState r).ses.dap :=
  finish_view (f := (·.ses.dap)) (fun _ _ _ _ _ _ _ _ => rfl) r
@[simp] theorem finish_dm : (finish r).ses.dm = (endState r).ses.dm :=
  finish_view (f := (·.ses.dm)) (fun _ _ _ _ _ _ _ _ => rfl) r
@[simp] theorem finish_harts : (finish r).ses.harts = (endState r).ses.harts :=
  finish_view (f := (·.ses.harts)) (fun _ _ _ _ _ _ _ _ => rfl) r
@[simp] theorem finish_txn : (finish r).ses.txn = (endState r).ses.txn :=
  finish_view (f := (·.ses.txn)) (fun _ _ _ _ _ _ _ _ => rfl) r
@[simp] theorem finish_swdio : (finish r).ses.swdio = (endState r).ses.swdio :=
  finish_view (f := (·.ses.swdio)) (fun _ _ _ _ _ _ _ _ => rfl) r
@[simp] theorem finish_record : (finish r).ses.record = (endState r).ses.record :=
  finish_view (f := (·.ses.record)) (fun _ _ _ _ _ _ _ _ => rfl) r
@[simp] theorem finish_cmd : (finish r).ses.port.cmd = (endState r).ses.port.cmd :=
  finish_view (f := (·.ses.port.cmd)) (fun _ _ _ _ _ _ _ _ => rfl) r
@[simp] theorem finish_arg0 : (finish r).ses.port.arg0 = (endState r).ses.port.arg0 :=
  finish_view (f := (·.ses.port.arg0)) (fun _ _ _ _ _ _ _ _ => rfl) r
@[simp] theorem finish_arg1 : (finish r).ses.port.arg1 = (endState r).ses.port.arg1 :=
  finish_view (f := (·.ses.port.arg1)) (fun _ _ _ _ _ _ _ _ => rfl) r
@[simp] theorem finish_arg2 : (finish r).ses.port.arg2 = (endState r).ses.port.arg2 :=
  finish_view (f := (·.ses.port.arg2)) (fun _ _ _ _ _ _ _ _ => rfl) r
@[simp] theorem finish_arg3 : (finish r).ses.port.arg3 = (endState r).ses.port.arg3 :=
  finish_view (f := (·.ses.port.arg3)) (fun _ _ _ _ _ _ _ _ => rfl) r
@[simp] theorem finish_traceReply : (finish r).ses.port.traceReply = (endState r).ses.port.traceReply :=
  finish_view (f := (·.ses.port.traceReply)) (fun _ _ _ _ _ _ _ _ => rfl) r
@[simp] theorem finish_hart (h : HartId) : (finish r).ses.hart h = (endState r).ses.hart h :=
  finish_view (f := (·.ses.hart h)) (fun _ _ _ _ _ _ _ _ => rfl) r

end finish

/-! ## What a row keeps -/

/-- The fields no command changes while it runs. -/
def Engine.fixed (e : Engine) :=
  (e.self, e.ses.live, e.ses.cfg, e.ses.dap.retryCount, e.ses.wire.pioProgramOffset, e.ses.port.cmd, e.ses.port.arg0,
    e.ses.port.arg1, e.ses.port.arg2, e.ses.port.arg3, e.ses.port.traceReply, e.ses.port.busy, e.ses.hold,
    e.ses.errDetail)

/-- The connection, the slot and the tracker. -/
def Engine.link (e : Engine) := (e.ses.connected, e.tracker, e.ses.wire.slot, e.ses.wire.initialized)

/-- Each field changes only by the rows that own it (10_state.md R14, R16 to R18, R21). -/
structure Kept (i : Instr) (e e' : Engine) : Prop where
  fixed : e'.fixed = e.fixed
  link : i ≠ .connect → i ≠ .disconnect → e'.link = e.link
  freqKhz : i ≠ .setFrequency → e'.ses.wire.freqKhz = e.ses.wire.freqKhz
  clkdiv : i ≠ .setFrequency → i ≠ .connect → e'.ses.wire.clkdiv = e.ses.wire.clkdiv
  powered : i ≠ .connect → i ≠ .disconnect → i ≠ .powerUp → e'.ses.dap.powered = e.ses.dap.powered
  initialized : i ≠ .connect → i ≠ .disconnect → i ≠ .init → e'.ses.dm.initialized = e.ses.dm.initialized
  sbaInitialized : i ≠ .connect → i ≠ .disconnect → i ≠ .init → i ≠ .sbaInit →
    e'.ses.dm.sbaInitialized = e.ses.dm.sbaInitialized
  cacheEnabled : i ≠ .enableCache → e'.ses.dm.cacheEnabled = e.ses.dm.cacheEnabled

section
variable {e e' : Engine} (hk : Kept i e e')
include hk

/-- What the state between commands and the end of a command look at. -/
theorem Kept.while_running : e'.self = e.self ∧ e'.ses.live = e.ses.live ∧ e'.ses.port.busy = e.ses.port.busy
    ∧ e'.ses.errDetail = e.ses.errDetail := by
  have hf := hk.fixed
  simp only [Engine.fixed, Prod.mk.injEq] at hf
  simp only [hf, and_self]

theorem Kept.self : e'.self = e.self := hk.while_running.1
theorem Kept.live : e'.ses.live = e.ses.live := hk.while_running.2.1
theorem Kept.busy : e'.ses.port.busy = e.ses.port.busy := hk.while_running.2.2.1
theorem Kept.errDetail : e'.ses.errDetail = e.ses.errDetail := hk.while_running.2.2.2

end

/-- The engine without the fields that a transaction, a hart's state or a data stream moves. -/
def Engine.steady (e : Engine) : Engine :=
  { e.moved [] [] 0 ⟨⟨false, false, 0, 0⟩, 0⟩ 0 false 0 0 0 with
    ses.harts := Vector.replicate Config.harts Hart.reset, ses.port.din := [], ses.port.dout := [] }

/-- The steady fields are as before. -/
def Steady (e e' : Engine) : Prop := e'.steady = e.steady

theorem Kept.of_steady {e e' : Engine} (h : Steady e e') : Kept i e e' where
  fixed := (congrArg Engine.fixed h :)
  link _ _ := (congrArg Engine.link h :)
  freqKhz _ := (congrArg (·.ses.wire.freqKhz) h :)
  clkdiv _ _ := (congrArg (·.ses.wire.clkdiv) h :)
  powered _ _ _ := (congrArg (·.ses.dap.powered) h :)
  initialized _ _ _ := (congrArg (·.ses.dm.initialized) h :)
  sbaInitialized _ _ _ _ := (congrArg (·.ses.dm.sbaInitialized) h :)
  cacheEnabled _ := (congrArg (·.ses.dm.cacheEnabled) h :)

theorem closed_kept (i : Instr) : Closed (Kept i) where
  refl _ := Kept.of_steady rfl
  trans h k :=
    { fixed := k.fixed.trans h.fixed
      link := fun a b => (k.link a b).trans (h.link a b)
      freqKhz := fun a => (k.freqKhz a).trans (h.freqKhz a)
      clkdiv := fun a b => (k.clkdiv a b).trans (h.clkdiv a b)
      powered := fun a b c => (k.powered a b c).trans (h.powered a b c)
      initialized := fun a b c => (k.initialized a b c).trans (h.initialized a b c)
      sbaInitialized := fun a b c d => (k.sbaInitialized a b c d).trans (h.sbaInitialized a b c d)
      cacheEnabled := fun a => (k.cacheEnabled a).trans (h.cacheEnabled a) }

theorem kept : MirrorClosed h (Kept i) :=
  { TalkClosed.of_moved (closed_kept i) fun _ _ _ _ _ _ _ _ _ _ => Kept.of_steady rfl with
    hart := fun _ _ _ => Kept.of_steady rfl
    dout := fun _ _ => Kept.of_steady rfl
    din := fun _ _ => Kept.of_steady rfl
    fill := fun _ => Kept.of_steady rfl }

/-- An update of the session that moves no steady field. -/
theorem kept_modifySes {f : Session → Session} (h : ∀ e : Engine, Steady e { e with ses := f e.ses }) :
    Respects (Kept i) (modifySes f) := Respects.modifySes fun e => Kept.of_steady (h e)

theorem kept_forgetSelect : Respects (Kept i) forgetSelect := kept_modifySes fun _ => rfl

theorem kept_resetHart (h : HartId) (hr : Bool) : Respects (Kept i) (resetHart h hr) := by
  have C : MirrorClosed h (Kept i) := kept
  exact C.toTalkClosed.resetHart (kept_modifySes fun _ => rfl) (fun _ => C.keep fun _ => rfl) hr

theorem kept_powerUp (hi : i = .connect ∨ i = .powerUp) : Respects (Kept i) powerUp :=
  (kept (h := 0)).powerUp fun b => Respects.modifySes fun e => by
    obtain rfl | rfl := hi <;> constructor <;> simp [Engine.fixed, Engine.link]

theorem kept_sbaInit (hi : i = .connect ∨ i = .init ∨ i = .sbaInit) : Respects (Kept i) sbaInit :=
  (kept (h := 0)).sbaInit fun b => Respects.modifySes fun e => by
    obtain rfl | rfl | rfl := hi <;> constructor <;> simp [Engine.fixed, Engine.link]

theorem kept_dmInit (hi : i = .connect ∨ i = .init) : Respects (Kept i) dmInit := by
  have C : MirrorClosed 0 (Kept i) := kept
  refine C.dmInit (Respects.modifySes fun e => ?_) <|
    C.activateDm (Respects.modifySes fun e => ?_) (fun e => Kept.of_steady rfl) (kept_sbaInit (hi.imp_right .inl))
  all_goals obtain rfl | rfl := hi <;> constructor <;> simp [Engine.fixed, Engine.link]

theorem kept_connectUnwind (hi : i = .connect ∨ i = .disconnect) : Respects (Kept i) connectUnwind := fun e => by
  obtain rfl | rfl := hi <;> constructor <;>
    simp [connectUnwind, releaseSlot, disconnectFields, bind_run, endState, Engine.fixed, Engine.link]

theorem kept_connectWith (x : Slot) : Respects (Kept .connect) (connectWith x) := by
  have C : MirrorClosed 0 (Kept .connect) := kept
  refine C.connectWith (Respects.modifySes fun e => ?_) kept_forgetSelect (Respects.modifySes fun e => ?_)
    (kept_powerUp (.inl rfl)) (kept_dmInit (.inl rfl))
  all_goals constructor <;> simp [Engine.fixed, Engine.link]

theorem kept_connectSession : Respects (Kept .connect) connectSession :=
  (kept (h := 0)).connectSession (fun e x => by constructor <;> simp [Engine.fixed, Engine.link]) kept_connectWith
    (kept_connectUnwind (.inl rfl))

theorem kept_own (i : Instr) : OwnProcs i (Kept i) := by
  have C : MirrorClosed 0 (Kept i) := kept
  cases i
  case connect => exact kept_connectSession
  case disconnect => exact C.disconnectSession (kept_connectUnwind (.inr rfl))
  case setFrequency =>
    exact fun f => C.bind (C.require _ _) fun _ => Respects.modifySes fun e => by
      constructor <;> simp [Engine.fixed, Engine.link]
  case powerUp => exact kept_powerUp (.inr rfl)
  case init => exact kept_dmInit (.inr rfl)
  case sbaInit => exact C.bind C.requireInitialized fun _ => kept_sbaInit (.inr (.inr rfl))
  case enableCache =>
    exact fun on => C.bind (Respects.modifySes fun e => by constructor <;> simp [Engine.fixed, Engine.link]) fun _ =>
      C.onlyIf _ (kept_modifySes fun _ => rfl)
  case reset => exact fun h hr => kept_resetHart h hr
  case writeDp => exact ownProcs_writeDp C.toTalkClosed kept_forgetSelect
  case swdReqDpW8 => exact ownProcs_swdReqDpW8 C.toTalkClosed kept_forgetSelect
  case ackOk | ackWait | ackFault | ackProtocolError => exact ownProcs_ackRow C.toTalkClosed kept_forgetSelect rfl
  all_goals trivial

theorem Row.kept (r : Row i m) : Respects (Kept i) m := by
  obtain h | ⟨-, h⟩ | ⟨-, h⟩ | h := r.kind
  · exact h 0 _ Machine.kept.toPortClosed
  · exact h _ _ (closed_kept i).named fun _ => Machine.kept.procs
  · exact h _ _ (closed_kept i).named fun _ => Machine.kept.fills
  · exact h _ (Machine.kept (h := 0)).toTalkClosed (kept_own i)

/-- Settles O14: no row changes a field of `Engine.fixed` while it runs, and the end of a command writes none of the
fields the statement lists. -/
theorem execKeepsTheRest : Obligations.ExecKeepsTheRest := by
  intro i s t ht
  obtain ⟨m, r, rfl⟩ := (runs i).next ht
  have hf := (r.kept s.eng.begin).fixed
  simp only [Engine.fixed, Prod.mk.injEq, begin_self, begin_live, begin_cfg, begin_dap, begin_wire, begin_arg0,
    begin_arg1, begin_arg2, begin_arg3] at hf
  obtain ⟨hself, hlive, hcfg, hretry, hpio, hcmd, h0, h1, h2, h3, htrace, -⟩ := hf
  simp only [finish_self, finish_live, finish_cfg, finish_dap, finish_wire, finish_cmd, finish_arg0, finish_arg1,
    finish_arg2, finish_arg3, finish_traceReply, true_and]
  exact ⟨hself, hlive, hcfg, hretry, hpio, hcmd, h0, h1, h2, h3, htrace⟩

end Sys2Proof.Machine
end

section
/-! SUPPORT. What a command does to the harts' state (10_state.md R19; 43_sba.md R145). -/

namespace Sys2Proof.Machine

variable {α β : Type} {h : HartId} {i : Instr} {m : Proc Progress} {s t : State} {R : Engine → Engine → Prop}

/-! ## One hart at a time -/

/-- No hart but `h` has changed, and neither the DM's nor the wire's fields nor ARG0. -/
def HartsBut (h : HartId) (e e' : Engine) : Prop :=
  (e'.ses.dm, e'.ses.wire, e'.ses.port.arg0) = (e.ses.dm, e.ses.wire, e.ses.port.arg0)
    ∧ ∀ g ≠ h, e'.ses.hart g = e.ses.hart g

theorem HartsBut.arg0 {e e' : Engine} (hb : HartsBut h e e') : e'.ses.port.arg0 = e.ses.port.arg0 :=
  (congrArg (fun x => x.2.2) hb.1 :)

theorem hartsBut (h : HartId) : MirrorClosed h (HartsBut h) :=
  have C : Closed (HartsBut h) :=
    { refl := fun _ => ⟨rfl, fun _ _ => rfl⟩
      trans := fun a b => ⟨b.1.trans a.1, fun g hg => (b.2 g hg).trans (a.2 g hg)⟩ }
  { TalkClosed.of_moved C fun _ _ _ _ _ _ _ _ _ _ => ⟨rfl, fun _ _ => rfl⟩ with
    hart := fun e x _ => ⟨rfl, fun _ hg => hart_setHart_other e.ses _ _ x hg⟩
    dout := fun _ _ => ⟨rfl, fun _ _ => rfl⟩
    din := fun _ _ => ⟨rfl, fun _ _ => rfl⟩
    fill := fun e => ⟨rfl, fun _ hg => hart_setHart_other e.ses _ _ _ hg⟩ }

/-- The harts' state and the DM's and the wire's fields are as before. -/
def HartsKept (e e' : Engine) : Prop :=
  (e'.ses.dm, e'.ses.wire, e'.ses.harts) = (e.ses.dm, e.ses.wire, e.ses.harts)

theorem HartsKept.harts {e e' : Engine} (hk : HartsKept e e') : e'.ses.harts = e.ses.harts :=
  (congrArg (fun x => x.2.2) hk :)

theorem toNat_of_names {w : Word} {g : HartId} (h : names w g) : w.toNat = g.val := by
  subst h; revert g; decide

theorem names_inj {w : Word} {g h : HartId} (hg : names w g) (hh : names w h) : g = h :=
  Fin.ext ((toNat_of_names hg).symm.trans (toNat_of_names hh))

theorem harts_ext {x y : Session} (h : ∀ g, x.hart g = y.hart g) : x.harts = y.harts :=
  Vector.ext fun k hk => h ⟨k, hk⟩

/-- What may change hart 0 only and may change hart 1 only changes none. -/
theorem hartsKept_of {m : Proc α} (h : ∀ g, Respects (HartsBut g) m) : Respects HartsKept m := by
  intro e
  have hh : ∀ g, (endState (m e)).ses.hart g = e.ses.hart g := fun g =>
    (h (g + 1) e).2 g (by revert g; decide)
  have h0 := (h 0 e).1
  simp only [Prod.mk.injEq] at h0
  exact Prod.ext h0.1 (Prod.ext h0.2.1 (harts_ext hh))

theorem Talks.hartsKept {m : Proc α} (h : Talks m) : Respects HartsKept m :=
  hartsKept_of fun g => h g _ (hartsBut g).toPortClosed

/-- No hart but the one that ARG0 names has changed, and ARG0 has not. -/
def NamedHartOnly (e e' : Engine) : Prop :=
  e'.ses.port.arg0 = e.ses.port.arg0 ∧ ∀ h, names e.ses.port.arg0 h → ∀ g ≠ h, e'.ses.hart g = e.ses.hart g

theorem namedHartOnly : Named HartsBut NamedHartOnly where
  refl _ := ⟨rfl, fun _ _ _ _ => rfl⟩
  trans a b := ⟨b.1.trans a.1, fun h hh g hg => (b.2 h (a.1 ▸ hh) g hg).trans (a.2 h hh g hg)⟩
  of hn hb := ⟨hb.arg0, fun _ hh g hg => hb.2 g (names_inj hh hn ▸ hg)⟩

theorem namedHartOnly_talk : TalkClosed NamedHartOnly :=
  TalkClosed.of_moved namedHartOnly.toClosed fun _ _ _ _ _ _ _ _ _ _ => ⟨rfl, fun _ _ _ _ => rfl⟩

theorem Talks.namedHartOnly {m : Proc α} (hm : Talks m) : Respects NamedHartOnly m := fun e =>
  ⟨(hm 0 _ (hartsBut 0).toPortClosed e).arg0, fun g _ => (hm g _ (hartsBut g).toPortClosed e).2⟩

/-- A row that names a hart changes no other one (10_state.md R19). -/
theorem Row.namedHartOnly (r : Row i m) (hi : namesHart i = true) : Respects NamedHartOnly m := by
  obtain h | ⟨-, h⟩ | ⟨-, h⟩ | h := r.kind
  · exact h.namedHartOnly
  · exact h _ _ Machine.namedHartOnly fun g => (hartsBut g).procs
  · exact h _ _ Machine.namedHartOnly fun g => (hartsBut g).fills
  · exact h _ namedHartOnly_talk (by revert hi; cases i <;> simp [namesHart, OwnProcs])

/-- The harts are as before. -/
def SameHarts (e e' : Engine) : Prop := e'.ses.harts = e.ses.harts

theorem sameHarts_talk : TalkClosed SameHarts :=
  TalkClosed.of_moved (Closed.view _) fun _ _ _ _ _ _ _ _ _ _ => rfl

/-- The rows whose own procedures change the harts' state. -/
def movesHarts : Instr → Bool
  | .connect | .disconnect | .init | .enableCache | .reset => true
  | _ => false

theorem sameHarts_own (hi : movesHarts i = false) : OwnProcs i SameHarts := by
  have C := sameHarts_talk
  have hf : Respects SameHarts forgetSelect := fun _ => rfl
  cases i
  case setFrequency => exact fun _ => C.bind (C.require _ _) fun _ _ => rfl
  case powerUp => exact C.powerUp fun _ _ => rfl
  case sbaInit => exact C.bind C.requireInitialized fun _ => C.sbaInit fun _ _ => rfl
  case writeDp => exact ownProcs_writeDp C hf
  case swdReqDpW8 => exact ownProcs_swdReqDpW8 C hf
  case ackOk | ackWait | ackFault | ackProtocolError => exact ownProcs_ackRow C hf rfl
  case connect | disconnect | init | enableCache | reset => cases hi
  all_goals trivial

/-- A row that names no hart changes none, but for the rows that change them all. -/
theorem Row.sameHarts (r : Row i m) (hn : namesHart i = false) (hi : movesHarts i = false) : Respects SameHarts m := by
  obtain h | ⟨hy, -⟩ | ⟨rfl | rfl, -⟩ | h := r.kind
  · exact fun e => (h.hartsKept e).harts
  · exact absurd (hy.symm.trans hn) (by decide)
  · cases hn
  · cases hn
  · exact h _ sameHarts_talk (sameHarts_own hi)

theorem no_hart_of_memoryRow (hi : memoryRow i = true) : namesHart i = false ∧ movesHarts i = false := by
  revert hi; cases i <;> simp [memoryRow, namesHart, movesHarts]

/-- Settles O16: a row that names a hart goes on with procedures on that hart only; the memory rows name none and are
none of the rows that change all harts. -/
theorem hartStateIsIsolated : Obligations.HartStateIsIsolated := by
  refine ⟨fun i s t h g hi hn hg ht => ?_, fun i s t hi ht => ?_⟩
  · obtain ⟨m, r, rfl⟩ := (runs i).next ht
    rw [finish_hart]
    exact (r.namedHartOnly hi s.eng.begin).2 h hn g hg
  · obtain ⟨m, r, rfl⟩ := (runs i).next ht
    rw [finish_harts]
    obtain ⟨hn, hm⟩ := no_hart_of_memoryRow hi
    exact r.sameHarts hn hm s.eng.begin

end Sys2Proof.Machine
end

section
/-! SUPPORT. Rule R20's invariant 5. -/

namespace Sys2Proof.Machine

/-- Settles O17: every row but CONNECT is `Quiet`; without a connection it raises before it does anything, or it does
not talk to the target. -/
theorem noCycleUnlessConnected : Obligations.NoCycleUnlessConnected := by
  intro i s t hi hc ht
  obtain ⟨m, r, rfl⟩ := (runs i).next ht
  have hq := (r.quiet hi).respects s.eng.begin hc
  simp only [Engine.wireSide, Prod.mk.injEq] at hq
  obtain ⟨-, hrec, hbits, htxn, hdap, -⟩ := hq
  simp only [finish_record, finish_swdio, finish_txn, finish_dap]
  exact ⟨hrec, hbits, htxn, congrArg Dap.lastAck hdap⟩

end Sys2Proof.Machine
end

section
/-! SUPPORT. The rules of R20 about the harts, the DM and the frequency, kept by every procedure at each of its ends
(10_state.md R16, R20). -/

namespace Sys2Proof.Machine

variable {α β : Type} {h : HartId} {i : Instr} {m : Proc Progress} {s t : State} {R : Engine → Engine → Prop}
  {I P : Engine → Prop}

/-! ## Invariants of procedures -/

/-- What held before holds after. -/
def Keeps (I : Engine → Prop) (e e' : Engine) : Prop := I e → I e'

theorem closed_keeps (I : Engine → Prop) : Closed (Keeps I) := ⟨fun _ h => h, fun h k hi => k (h hi)⟩

/-- A predicate that is not about what transactions move. -/
theorem talkClosed_keeps (hI : ∀ e bits r free fl ack valid apsel bank ctrl,
    I e → I (e.moved bits r free fl ack valid apsel bank ctrl)) : TalkClosed (Keeps I) :=
  TalkClosed.of_moved (closed_keeps I) fun e _ _ _ _ _ _ _ _ _ => hI e _ _ _ _ _ _ _ _ _

theorem Respects.keeps_and {m : Proc α} (hi : Respects (Keeps I) m) (hp : Respects (Keeps P) m) :
    Respects (Keeps fun e => I e ∧ P e) m := fun e he => ⟨hi e he.1, hp e he.2⟩

/-- When the procedure answers, `P` holds. -/
def Leaves (P : Engine → Prop) (m : Proc α) : Prop := ∀ e a e', m e = .ok a e' → P e'

namespace Leaves

theorem last {m : Proc α} {f : α → Proc β} (h : ∀ a, Leaves P (f a)) : Leaves P (m >>= f) := fun _ _ _ he => by
  obtain ⟨a, e₁, -, he⟩ := bind_eq_ok.1 he
  exact h a e₁ _ _ he

theorem kept {m : Proc α} {f : α → Proc β} (hm : Leaves P m) (hf : ∀ a, Respects (Keeps P) (f a)) :
    Leaves P (m >>= f) := fun e b e' he => by
  obtain ⟨a, e₁, h₁, h₂⟩ := bind_eq_ok.1 he
  have := hf a e₁ (hm e a e₁ h₁)
  rwa [h₂] at this

theorem modifySes {f : Session → Session} (h : ∀ e : Engine, P { e with ses := f e.ses }) :
    Leaves P (Machine.modifySes f) := fun e _ _ he => by cases he; exact h e

theorem modifyHart {f : Hart → Hart} (h' : ∀ e : Engine, P { e with ses := e.ses.setHart h (f (e.ses.hart h)) }) :
    Leaves P (Machine.modifyHart h f) := fun e _ _ he => by cases he; exact h' e

/-- What the first part leaves, the second may use. -/
theorem then_keeps {m : Proc α} {f : α → Proc β} (hm : Respects (Keeps I) m) (hp : Leaves P m)
    (hf : ∀ a, Respects (Keeps fun e => I e ∧ P e) (f a)) : Respects (Keeps I) (m >>= f) := by
  intro e he
  have hi := hm e he
  rw [bind_run]
  cases hc : m e with
  | ok a e₁ => rw [hc] at hi; exact (hf a e₁ ⟨hi, hp e a e₁ hc⟩).1
  | error r e₁ => rw [hc] at hi; exact hi

end Leaves

/-! ## Procedures on a hart that stays as it is believed to be -/

/-- A relation that allows the mirror of hart `h` to be dropped, and its registers but x0 to change. -/
structure RegClosed (h : HartId) (R : Engine → Engine → Prop) : Prop extends TalkClosed R where
  drop : Respects R (modifyHart h fun x => { x with cacheValid := false })
  reg : ∀ n v, n ≠ 0 → Respects R (modifyHart h fun x => x.setReg n v)

namespace RegClosed
variable (C : RegClosed h R)
include C

theorem mirror (n : BitVec 5) (v : Word) : Respects R (Machine.mirror h n v) :=
  C.bind C.getSes fun s => by
    by_cases hc : (s.dm.cacheEnabled && n != 0) = true
    · simp only [hc, if_true]
      exact C.reg n v (by simp only [Bool.and_eq_true, bne_iff_ne] at hc; exact hc.2)
    · simp only [hc]
      exact C.pure _

theorem readReg (n : BitVec 5) : Respects R (Machine.readReg h n) :=
  C.bind C.getSes fun _ => Closed.ite (C.pure _) <|
    C.bind (C.selectHart _) fun _ => C.bind (C.gprRead _) fun _ => C.bind (C.mirror _ _) fun _ => C.pure _

theorem writeReg (n : BitVec 5) (v : Word) : Respects R (Machine.writeReg h n v) :=
  C.bind (C.onRaise (C.bind (C.selectHart _) fun _ => C.gprWrite _ _) C.drop) fun _ => C.mirror _ _

theorem runProgbuf (l : List Word) : Respects R (Machine.runProgbuf h l) :=
  C.bind (C.writeProgbuf l 0) fun _ => C.bind C.drop fun _ => C.bind (C.dmWrite _ _) fun _ => C.waitAbstract

theorem thenRestoreS0 {m : Proc α} (s0 : Word) (hm : Respects R m) : Respects R (Machine.thenRestoreS0 h s0 m) :=
  C.bind (Closed.attempt hm) fun x => C.bind (Closed.attempt (C.writeReg _ _)) fun y => by
    cases x <;> cases y
    · exact C.throw _
    · exact C.throw _
    · exact C.throw _
    · exact C.pure _

theorem csrRead (c : BitVec 12) : Respects R (Machine.csrRead h c) :=
  C.bind (C.readReg _) fun _ => C.thenRestoreS0 _ <|
    C.bind (C.selectHart _) fun _ => C.bind (C.runProgbuf _) fun _ => C.readReg _

theorem csrWrite (c : BitVec 12) (v : Word) : Respects R (Machine.csrWrite h c v) :=
  C.bind (C.readReg _) fun _ => C.thenRestoreS0 _ <|
    C.bind (C.writeReg _ _) fun _ => C.bind (C.selectHart _) fun _ => C.runProgbuf _

theorem readRegs (ho : ∀ w, Respects R (out w)) (emit : Bool) : ∀ ns, Respects R (Machine.readRegs h emit ns)
  | [] => C.pure _
  | n :: ns => C.bind (C.gprRead n) fun _ => C.bind (C.onlyIf _ (ho _)) fun _ => C.bind (C.mirror _ _) fun _ =>
      C.bind (readRegs ho emit ns) fun _ => C.pure _

end RegClosed

/-! ## The state between commands -/

/-- A hart's state under rule R20, invariants 3 and 4; `caching` is the session's `cache_enabled`. -/
structure Hart.Ok (caching : Bool) (x : Hart) : Prop where
  mirrorNeedsHalt : x.cacheValid = true → x.known = true ∧ x.halted = true ∧ caching = true
  x0IsZero : x.gpr[0] = 0

theorem Hart.Ok.drop {c : Bool} {x : Hart} (hx : x.Ok c) (k b : Bool) :
    Hart.Ok c { x with known := k, halted := b, cacheValid := false } := ⟨nofun, hx.x0IsZero⟩

theorem Hart.Ok.learn {c : Bool} {x : Hart} (hx : x.Ok c) : Hart.Ok c { x with known := true, halted := true } :=
  ⟨fun h => ⟨rfl, rfl, (hx.mirrorNeedsHalt h).2.2⟩, hx.x0IsZero⟩

theorem Hart.Ok.setReg {c : Bool} {x : Hart} (hx : x.Ok c) {n : BitVec 5} (hn : n ≠ 0) (v : Word) :
    Hart.Ok c (x.setReg n v) := by
  refine ⟨hx.mirrorNeedsHalt, ?_⟩
  have : n.toNat ≠ 0 := fun h => hn (BitVec.eq_of_toNat_eq h)
  rw [Hart.setReg, Vector.getElem_setIfInBounds, if_neg this]
  exact hx.x0IsZero

/-- Rule R20, invariants 2 to 4, and R16's frequency and divider: what every procedure keeps at each of its ends. -/
structure Settled (e : Engine) : Prop where
  sbaNeedsDm : e.ses.dm.sbaInitialized = true → e.ses.dm.initialized = true
  harts : ∀ h, (e.ses.hart h).Ok e.ses.dm.cacheEnabled
  freqPositive : e.ses.wire.freqKhz ≠ 0
  dividerOfFreq : e.ses.wire.clkdiv = divider e.ses.wire.freqKhz

theorem Settled.of_hartsKept {e e' : Engine} (he : Settled e) (hk : HartsKept e e') : Settled e' := by
  obtain ⟨hdm, hwire, hharts⟩ : _ ∧ _ ∧ _ := by simpa only [HartsKept, Prod.mk.injEq] using hk
  have hh (g) : e'.ses.hart g = e.ses.hart g := by rw [Session.hart, Session.hart, hharts]
  exact ⟨hdm ▸ he.sbaNeedsDm, fun g => by rw [hh, hdm]; exact he.harts g, hwire ▸ he.freqPositive,
    hwire ▸ he.dividerOfFreq⟩

theorem Settled.setHart {e : Engine} (he : Settled e) {x : Hart} (hx : x.Ok e.ses.dm.cacheEnabled) :
    Settled { e with ses := e.ses.setHart h x } where
  sbaNeedsDm := he.sbaNeedsDm
  harts g := by
    rw [hart_setHart]
    split
    · exact hx
    · exact he.harts g
  freqPositive := he.freqPositive
  dividerOfFreq := he.dividerOfFreq

/-- An update of hart `h` that keeps its state in order. -/
theorem settled_modifyHart {f : Hart → Hart} (hf : ∀ c x, Hart.Ok c x → (f x).Ok c) :
    Respects (Keeps Settled) (modifyHart h f) := fun _ he => he.setHart (hf _ _ (he.harts h))

theorem settled_talk : TalkClosed (Keeps Settled) := talkClosed_keeps fun _ _ _ _ _ _ _ _ _ _ h => h.of_hartsKept rfl

theorem settled_reg : RegClosed h (Keeps Settled) :=
  { settled_talk with
    drop := settled_modifyHart fun _ x hx => hx.drop x.known x.halted
    reg := fun _ v hn => settled_modifyHart fun _ _ hx => hx.setReg hn v }

/-- Hart `h` is known to be halted. -/
def Halted (h : HartId) (e : Engine) : Prop := (e.ses.hart h).known = true ∧ (e.ses.hart h).halted = true

theorem halted_reg : RegClosed h (Keeps (Halted h)) :=
  { talkClosed_keeps fun _ _ _ _ _ _ _ _ _ _ h => h with
    drop := fun e he => by simpa [Halted, endState] using he
    reg := fun n v _ e he => by simpa [Halted, endState, Hart.setReg] using he }

/-- The mirror of hart `h` is not valid. -/
def Unmirrored (h : HartId) (e : Engine) : Prop := (e.ses.hart h).cacheValid = false

/-- The DM is initialised. -/
def DmReady (e : Engine) : Prop := e.ses.dm.initialized = true

/-- What moves no hart and no field of the DM and the wire. -/
theorem Talks.settled {m : Proc α} (hm : Talks m) : Respects (Keeps Settled) m := fun e he =>
  he.of_hartsKept (hm.hartsKept e)

/-! ### Harts -/

theorem settled_learn : Respects (Keeps Settled) (learnHart h true) := settled_modifyHart fun _ _ hx => hx.learn

theorem settled_forgetHart : Respects (Keeps Settled) (forgetHart h) :=
  settled_modifyHart fun _ x hx => hx.drop false x.halted

/-- Any belief goes with a mirror that is not valid. -/
theorem settled_learn_unmirrored (b : Bool) :
    Respects (Keeps fun e => Settled e ∧ Unmirrored h e) (learnHart h b) := by
  intro e ⟨he, hu⟩
  refine ⟨he.setHart ⟨fun hv => ?_, (he.harts h).x0IsZero⟩, by simpa [Unmirrored, learnHart, endState] using hu⟩
  exact absurd (hv.symm.trans hu) (by decide)

theorem settled_unmirrored_talk : TalkClosed (Keeps fun e => Settled e ∧ Unmirrored h e) :=
  talkClosed_keeps fun _ _ _ _ _ _ _ _ _ _ h => ⟨h.1.of_hartsKept rfl, h.2⟩

theorem settled_queryHalted : Respects (Keeps Settled) (queryHalted h) := by
  have C := settled_talk
  refine C.bind C.getSes fun _ => Closed.ite (C.pure _) <| C.bind (C.selectHart _) fun _ => C.bind (C.dmRead _) fun v =>
    C.bind (settled_modifyHart fun c x hx => ?_) fun _ => C.pure _
  cases allHalted v with
  | true => simpa using hx.learn
  | false => simpa using hx.drop true false

theorem settled_haltHart : Respects (Keeps Settled) (haltHart h) := by
  have C := settled_talk
  exact C.bind C.getSes fun _ => Closed.ite (C.pure _) <| C.bind settled_forgetHart fun _ => C.bind (C.dmWrite _ _) fun _ =>
    C.bind (C.awaitStatus _) fun _ => C.bind settled_learn fun _ => C.pure _

theorem settled_resumeHart : Respects (Keeps Settled) (resumeHart h) := by
  have C := settled_talk
  have D : TalkClosed (Keeps fun e => Settled e ∧ Unmirrored h e) := settled_unmirrored_talk
  exact C.bind C.getSes fun _ => Closed.ite (C.pure _) <|
    Leaves.then_keeps settled_forgetHart (Leaves.modifyHart fun e => by simp [Unmirrored]) fun _ =>
      D.bind (D.dmWrite _ _) fun _ => D.bind (D.awaitStatus _) fun _ => settled_learn_unmirrored false

theorem hart_map (x : Session) (f : Hart → Hart) (g : HartId) :
    ({ x with harts := x.harts.map f } : Session).hart g = f (x.hart g) := by simp [Session.hart]

theorem settled_modifyHarts {f : Hart → Hart} (hf : ∀ c x, Hart.Ok c x → (f x).Ok c) :
    Respects (Keeps Settled) (modifyHarts f) := fun e he =>
  ⟨he.1, fun g => (hart_map e.ses f g).symm ▸ hf _ _ (he.2 g), he.3, he.4⟩

theorem settled_resetHart (hr : Bool) : Respects (Keeps Settled) (resetHart h hr) := by
  have D : TalkClosed (Keeps fun e => Settled e ∧ Unmirrored h e) := settled_unmirrored_talk
  refine Leaves.then_keeps (P := Unmirrored h) (settled_modifyHarts fun c x hx => hx.drop false x.halted)
    (Leaves.modifySes fun e => by simp [Unmirrored, hart_map]) fun _ => ?_
  exact D.bind (D.dmWrite _ _) fun _ => D.bind (D.sleep _) fun _ => D.bind (D.dmWrite _ _) fun _ =>
    D.bind (D.sleep _) fun _ => Closed.ite (D.bind (D.awaitStatus _) fun _ => settled_learn_unmirrored true)
      (settled_learn_unmirrored false)

theorem settled_stepHart : Respects (Keeps Settled) (stepHart h) := by
  have C : RegClosed h (Keeps Settled) := settled_reg
  exact C.bind (C.csrRead _) fun _ => C.bind (C.csrWrite _ _) fun _ => C.bind settled_forgetHart fun _ =>
    C.bind (C.dmWrite _ _) fun _ => C.bind (C.dmWrite _ _) fun _ => C.bind (C.awaitStatus _) fun _ =>
      C.bind settled_learn fun _ => C.csrWrite _ _

theorem settled_launch (entry : Word) : Respects (Keeps Settled) (launch h entry) := by
  have C : RegClosed h (Keeps Settled) := settled_reg
  exact C.bind settled_haltHart fun _ => C.bind (C.csrWrite _ _) fun _ => C.bind (C.csrRead _) fun _ =>
    C.bind (C.require _ _) fun _ => settled_resumeHart

theorem settled_continueProgbuf (n : Nat) (got : List Word) : Respects (Keeps Settled) (continueProgbuf h n got) := by
  have C : RegClosed h (Keeps Settled) := settled_reg
  refine C.bind (Talks.settled fun _ _ P => P.collectDin _ _) fun x => ?_
  obtain ⟨_ | _, ws⟩ := x
  · exact C.pure _
  · refine C.returnsZero ?_
    unfold executeWords
    cases progbufList ws with
    | none => exact C.raise _
    | some l =>
      exact C.bind C.requireInitialized fun _ => C.bind (C.bind settled_queryHalted fun _ => C.require _ _) fun _ =>
        C.bind (C.selectHart _) fun _ => C.runProgbuf _

theorem settled_continueExecuteCode (entry : Word) (n i : Nat) :
    Respects (Keeps Settled) (continueExecuteCode h entry n i) := by
  have C := settled_talk
  refine C.bind (Talks.settled fun _ _ P => P.feed (P.uploadWord entry) _ _) fun o => ?_
  cases o
  · exact C.returnsZero (settled_launch _)
  · exact C.pure _

theorem settled_procs : HartProcs h (Keeps Settled) :=
  have C : RegClosed h (Keeps Settled) := settled_reg
  { settled_talk with
    queryHalted := settled_queryHalted
    haltHart := settled_haltHart
    resumeHart := settled_resumeHart
    stepHart := settled_stepHart
    readReg := C.readReg
    writeReg := C.writeReg
    csrRead := C.csrRead
    csrWrite := C.csrWrite
    continueProgbuf := settled_continueProgbuf
    continueExecuteCode := settled_continueExecuteCode
    dropMirror := C.drop }

/-! ### Filling a mirror -/

theorem requireHalted_halted : Leaves (Halted h) (requireHalted h) := by
  intro e a e' he
  obtain ⟨b, e₁, hq, hr⟩ := bind_eq_ok.1 he
  obtain ⟨rfl, rfl⟩ : b = true ∧ e₁ = e' := by
    cases b
    · cases hr
    · cases hr; exact ⟨rfl, rfl⟩
  rw [queryHalted, bind_ok (getSes_run e)] at hq
  by_cases hk : (e.ses.hart h).known = true
  · rw [if_pos hk, pure_run] at hq
    injection hq with hb he
    exact he ▸ ⟨hk, hb⟩
  · rw [if_neg hk] at hq
    obtain ⟨_, e₂, -, hq⟩ := bind_eq_ok.1 hq
    obtain ⟨v, e₃, -, hq⟩ := bind_eq_ok.1 hq
    rw [bind_ok (modifyHart_run _ _ _), pure_run] at hq
    injection hq with hb he
    subst he
    simpa [Halted] using hb

theorem haltHart_halted : Leaves (Halted h) (haltHart h) := by
  intro e a e' he
  rw [haltHart, bind_ok (getSes_run e)] at he
  by_cases hk : ((e.ses.hart h).known && (e.ses.hart h).halted) = true
  · rw [if_pos hk] at he
    cases he
    exact (Bool.and_eq_true _ _).mp hk
  · rw [if_neg hk] at he
    exact Leaves.last (fun _ => Leaves.last fun _ => Leaves.last fun _ =>
      Leaves.kept (Leaves.modifyHart fun e => by simp [Halted]) fun _ => (closed_keeps _).pure _) e a e' he

theorem stepHart_halted : Leaves (Halted h) (stepHart h) :=
  Leaves.last fun _ => Leaves.last fun _ => Leaves.last fun _ => Leaves.last fun _ => Leaves.last fun _ =>
    Leaves.last fun _ => Leaves.kept (Leaves.modifyHart fun e => by simp [Halted]) fun _ => halted_reg.csrWrite _ _

theorem settled_halted_reg : RegClosed h (Keeps fun e => Settled e ∧ Halted h e) :=
  { talkClosed_keeps fun _ _ _ _ _ _ _ _ _ _ h => ⟨h.1.of_hartsKept rfl, h.2⟩ with
    drop := settled_reg.drop.keeps_and halted_reg.drop
    reg := fun n v hn => (settled_reg.reg n v hn).keeps_and (halted_reg.reg n v hn) }

/-- The registers are read from a hart that is known to be halted, so its mirror may become valid. -/
theorem settled_readAllRegs (emit : Bool) :
    Respects (Keeps fun e => Settled e ∧ Halted h e) (readAllRegs h emit) := by
  have C : RegClosed h (Keeps fun e => Settled e ∧ Halted h e) := settled_halted_reg
  refine C.bind (C.selectHart _) fun _ => 
    C.bind (C.readRegs (fun _ _ he => ⟨he.1.of_hartsKept rfl, he.2⟩) _ _) fun regs => ?_
  intro e ⟨he, hh⟩
  refine ⟨he.setHart ⟨fun hv => ⟨hh.1, hh.2, hv⟩, (he.harts h).x0IsZero⟩, ?_⟩
  change Halted h { e with ses := e.ses.setHart h { e.ses.hart h with cacheValid := e.ses.dm.cacheEnabled } }
  simpa [Halted] using hh

theorem settled_traceNext (max : Word) (capture : Bool) (n : Nat) :
    Respects (Keeps fun e => Settled e ∧ Halted h e) (traceNext h max capture n) := by
  have C : RegClosed h (Keeps fun e => Settled e ∧ Halted h e) := settled_halted_reg
  exact C.bind (C.bind (C.csrRead _) fun _ => C.bind (C.require _ _) fun _ => C.bind (C.memRead _) fun _ =>
    C.bind (Closed.ite (settled_readAllRegs _) (C.pure _)) fun _ => fun e he => ⟨he.1.of_hartsKept rfl, he.2⟩)
    fun _ => C.pure _

theorem settled_continueTrace (max : Word) (capture : Bool) (n : Nat) (reply : Bool) :
    Respects (Keeps Settled) (continueTrace h max capture n reply) := by
  have C := settled_talk
  exact Closed.ite (C.pure _) <| Closed.ite (C.pure _) <| C.traceGuard <|
    Leaves.then_keeps settled_stepHart stepHart_halted fun _ => settled_traceNext _ _ _

theorem settled_fills : FillProcs h (Keeps Settled) :=
  { settled_procs with
    readAllRegs := Leaves.then_keeps settled_procs.requireHalted requireHalted_halted fun _ =>
      settled_halted_reg.bind (settled_readAllRegs _) fun _ => settled_halted_reg.pure _
    trace := fun _ _ => Leaves.then_keeps settled_haltHart haltHart_halted fun _ => settled_traceNext _ _ _ }

/-! ### The DM and the connection -/

theorem settled_ready_talk : TalkClosed (Keeps fun e => Settled e ∧ DmReady e) :=
  talkClosed_keeps fun _ _ _ _ _ _ _ _ _ _ h => ⟨h.1.of_hartsKept rfl, h.2⟩

/-- SbaInit on an initialised DM. -/
theorem settled_sbaInit : Respects (Keeps fun e => Settled e ∧ DmReady e) sbaInit :=
  settled_ready_talk.sbaInit fun _ _ he => ⟨⟨fun _ => he.2, he.1.2, he.1.3, he.1.4⟩, he.2⟩

theorem requireInitialized_ready : Leaves DmReady requireInitialized := by
  intro e a e' he
  rw [requireInitialized, bind_ok (getSes_run e), require_run] at he
  by_cases hi : e.ses.dm.initialized = true
  · rw [if_pos hi] at he; cases he; exact hi
  · rw [if_neg hi] at he; cases he

theorem settled_activateDm : Respects (Keeps Settled) activateDm := by
  have C := settled_ready_talk
  refine Leaves.then_keeps (P := DmReady) (Respects.modifySes fun _ he => ⟨fun _ => rfl, he.2, he.3, he.4⟩)
    (Leaves.modifySes fun _ => rfl) fun _ => C.bind (Respects.keeps_and (settled_modifyHarts fun c x _ => ?_) fun _ h => h)
      fun _ => C.tryCatch settled_sbaInit fun _ => C.pure _
  exact ⟨nofun, by simp⟩

theorem settled_dmInit : Respects (Keeps Settled) dmInit :=
  settled_talk.dmInit (Respects.modifySes fun _ he => ⟨nofun, he.2, he.3, he.4⟩) settled_activateDm

theorem settled_powerUp : Respects (Keeps Settled) powerUp :=
  settled_talk.powerUp fun _ _ he => he.of_hartsKept rfl

theorem settled_forgetSelect : Respects (Keeps Settled) forgetSelect := fun _ he => he.of_hartsKept rfl

theorem settled_connectWith (x : Slot) : Respects (Keeps Settled) (connectWith x) :=
  settled_talk.connectWith (Respects.modifySes fun _ he => ⟨he.1, he.2, he.3, rfl⟩) settled_forgetSelect
    (fun _ he => he.of_hartsKept rfl) settled_powerUp settled_dmInit

theorem settled_connectUnwind : Respects (Keeps Settled) connectUnwind := by
  intro e he
  refine ⟨nofun, fun g => ?_, he.3, he.4⟩
  have : (endState (connectUnwind e)).ses.hart g = (e.ses.hart g).forget := hart_map e.ses Hart.forget g
  rw [this]
  exact ⟨nofun, (he.2 g).x0IsZero⟩

theorem settled_connectFrom (x : Slot) : Respects (Keeps Settled) (connectFrom x) :=
  (closed_keeps _).onRaise (settled_connectWith x) settled_connectUnwind

/-- A frequency is set with its divider, and only one that is not 0 (40_wire.md R89). -/
theorem settled_setFrequency (f : Word) : Respects (Keeps Settled) (setFrequency f) := by
  intro e he
  unfold setFrequency
  by_cases hf : f = 0
  · subst hf; exact he
  · rw [bind_ok (by rw [bne_iff_ne.2 hf]; exact require_true _ _)]
    exact ⟨he.1, he.2, hf, rfl⟩

/-- Caching goes off with every mirror (42_dm.md R138). -/
theorem settled_setCaching (on : Bool) : Respects (Keeps Settled) (setCaching on) := by
  intro e he
  rw [setCaching, bind_ok (modifySes_run _ _)]
  cases on with
  | true =>
    refine ⟨he.1, fun g => ⟨fun hv => ?_, (he.2 g).x0IsZero⟩, he.3, he.4⟩
    obtain ⟨hk, hh, -⟩ := (he.2 g).mirrorNeedsHalt hv
    exact ⟨hk, hh, rfl⟩
  | false =>
    refine ⟨he.1, fun g => ?_, he.3, he.4⟩
    change Hart.Ok false (({ e.ses with harts := e.ses.harts.map _ } : Session).hart g)
    rw [hart_map]
    exact ⟨nofun, (he.2 g).x0IsZero⟩

theorem settled_own (i : Instr) : OwnProcs i (Keeps Settled) := by
  have C := settled_talk
  cases i
  case connect =>
    exact C.connectSession (fun _ _ he => he.of_hartsKept rfl) settled_connectWith settled_connectUnwind
  case disconnect => exact C.disconnectSession settled_connectUnwind
  case setFrequency => exact settled_setFrequency
  case powerUp => exact settled_powerUp
  case init => exact settled_dmInit
  case sbaInit => exact Leaves.then_keeps C.requireInitialized requireInitialized_ready fun _ => settled_sbaInit
  case enableCache => exact settled_setCaching
  case reset => exact fun _ hr => settled_resetHart hr
  case writeDp => exact ownProcs_writeDp C settled_forgetSelect
  case swdReqDpW8 => exact ownProcs_swdReqDpW8 C settled_forgetSelect
  case ackOk | ackWait | ackFault | ackProtocolError => exact ownProcs_ackRow C settled_forgetSelect rfl
  all_goals trivial

/-- Every row keeps the rules of the state between commands. -/
theorem Row.settled (r : Row i m) : Respects (Keeps Settled) m := by
  obtain h | ⟨-, h⟩ | ⟨-, h⟩ | h := r.kind
  · exact h.settled
  · exact h _ _ (closed_keeps _).named fun _ => settled_procs
  · exact h _ _ (closed_keeps _).named fun _ => settled_fills
  · exact h _ settled_talk (settled_own i)

end Sys2Proof.Machine
end

section
/-! SUPPORT. What the invariant of the probe asks of one session, while its command runs and between commands
(10_state.md R20 to R22; 40_wire.md R91 to R94). -/

namespace Sys2Proof.Machine

variable {i : Instr} {m : Proc Progress} {s s' t : State} {e e' : Engine} {x : Slot} {c : Option Slot}

/-! ## A command under way -/

/-- Rule R20, invariant 1. -/
def Offline (e : Engine) : Prop :=
  e.ses.connected = false →
    e.ses.wire.initialized = false ∧ e.ses.wire.slot = none ∧ e.ses.dap.powered = false
      ∧ e.ses.dap.selValid = false ∧ e.ses.dm.initialized = false ∧ e.ses.dm.sbaInitialized = false

/-- The slots of the other sessions stay theirs (10_state.md R21). -/
def OthersKeep (e e' : Engine) : Prop :=
  ∀ y o, o ≠ e.self → e.tracker.ownerOf y = some o → e'.tracker.ownerOf y = some o

/-- The slot of the session's connection is its own in the tracker. -/
def Owned (e : Engine) : Prop := ∀ y, e.ses.wire.slot = some y → e.tracker.ownerOf y = some e.self

/-- What holds while a command runs. -/
structure Runnable (e : Engine) : Prop where
  settled : Settled e
  offline : Offline e
  detailBound : e.ses.errDetail.length ≤ Config.errDetailMax - 1
  busy : e.ses.port.busy = true
  owned : Owned e

/-- A hold that a command may leave: one for the host, while connected, or that of a CONNECT which has its slot. -/
def Holds (e : Engine) (h : Hold) : Prop :=
  (h.waits = true ∧ e.ses.connected = true)
    ∨ ∃ y, h = .connect y ∧ e.ses.connected = false ∧ e.tracker.ownerOf y = some e.self

/-- A command's body ran from `e` to the result `r`. -/
structure Ran (e : Engine) (r : EStateM.Result Raise Engine Progress) : Prop where
  runnable : Runnable (endState r)
  self : (endState r).self = e.self
  live : (endState r).ses.live = e.ses.live
  others : OthersKeep e (endState r)
  holds : ∀ {h e'}, r = .ok (.hold h) e' → Holds e' h

/-- What the invariant of the probe says of a session in focus: rule R20, and that the slot it has is its own. -/
structure Sound (e : Engine) : Prop where
  inv : SessionInv e.ses
  owns : ∀ y, e.ses.takenSlot = some y → e.tracker.ownerOf y = some e.self

/-- What an action on the session in focus leaves. -/
structure Advances (e e' : Engine) : Prop where
  self : e'.self = e.self
  live : e'.ses.live = e.ses.live
  others : OthersKeep e e'
  sound : Sound e'

theorem SessionInv.settled (h : SessionInv e.ses) : Settled e :=
  ⟨h.sbaNeedsDm, fun g => ⟨h.mirrorNeedsHalt g, h.x0IsZero g⟩, h.freqPositive, h.dividerOfFreq⟩

theorem takenSlot_of_waits {y : Session} (h : y.hold.waits = true ∨ y.hold = .none) : y.takenSlot = y.wire.slot := by
  unfold Session.takenSlot
  split
  · next hc => rw [hc] at h; simp [Hold.waits] at h
  · rfl

/-- The end of a command without a hold. -/
theorem Runnable.ended (he : Runnable e) {k : ErrorKind} {v : Word} {d : List Byte}
    (hd : d.length ≤ Config.errDetailMax - 1) : SessionInv { (e.result k v).ses with errDetail := d } where
  offline := he.offline
  sbaNeedsDm := he.settled.sbaNeedsDm
  mirrorNeedsHalt g := (he.settled.harts g).mirrorNeedsHalt
  x0IsZero g := (he.settled.harts g).x0IsZero
  detailBound := hd
  freqPositive := he.settled.freqPositive
  dividerOfFreq := he.settled.dividerOfFreq
  busyIffHold := by simp
  holdConnected := trivial

theorem Runnable.held (he : Runnable e) {h : Hold} (hh : Holds e h) : SessionInv { e.ses with hold := h } where
  offline := he.offline
  sbaNeedsDm := he.settled.sbaNeedsDm
  mirrorNeedsHalt g := (he.settled.harts g).mirrorNeedsHalt
  x0IsZero g := (he.settled.harts g).x0IsZero
  detailBound := he.detailBound
  freqPositive := he.settled.freqPositive
  dividerOfFreq := he.settled.dividerOfFreq
  busyIffHold := by
    have : h ≠ .none := by
      rintro rfl
      rcases hh with ⟨hw, -⟩ | ⟨y, hy, -⟩
      · cases hw
      · cases hy
    simp [he.busy, this]
  holdConnected := by
    rcases hh with ⟨hw, hc⟩ | ⟨y, rfl, hc, -⟩
    · cases h <;> simp_all [Hold.waits]
    · exact hc

theorem Ran.sound {r : EStateM.Result Raise Engine Progress} (h : Ran e r) : Sound (finish r) where
  inv := by
    rcases r with ⟨_ | g, e₁⟩ | ⟨r, e₁⟩
    · exact h.runnable.ended h.runnable.detailBound
    · exact h.runnable.held (h.holds rfl)
    · by_cases hk : r.kind = .alreadyHalted
      · simp only [finish, Engine.failed, hk, if_true]
        exact h.runnable.ended h.runnable.detailBound
      · simp only [finish, Engine.failed, hk, if_false]
        exact h.runnable.ended (List.length_take_le _ _)
  owns := by
    rcases r with ⟨_ | g, e₁⟩ | ⟨r, e₁⟩
    · exact h.runnable.owned
    · rcases h.holds rfl with ⟨hw, -⟩ | ⟨y, rfl, -, hy⟩
      · intro y
        rw [takenSlot_of_waits (.inl hw)]
        exact h.runnable.owned y
      · rintro _ ⟨⟩; exact hy
    · rw [finish_self, finish_tracker]
      intro y hy
      refine h.runnable.owned y ?_
      rw [← hy, takenSlot_of_waits (.inr ?_), finish_wire]
      simp only [finish, Engine.failed]; split <;> rfl

theorem Ran.advances {r : EStateM.Result Raise Engine Progress} (h : Ran e r) : Advances e (finish r) where
  self := by rw [finish_self, h.self]
  live := by rw [finish_live, h.live]
  others := by intro y o; rw [finish_tracker]; exact h.others y o
  sound := h.sound

/-! ## From the state between commands to a command under way -/

theorem Sound.runnable (h : Sound e) (hb : e.ses.port.busy = false) : Runnable e.begin where
  settled := h.inv.settled.of_hartsKept rfl
  offline := h.inv.offline
  detailBound := h.inv.detailBound
  busy := rfl
  owned y hy := h.owns y (by
    have hn : e.ses.hold = .none := by
      by_contra hc
      rw [h.inv.busyIffHold.2 hc] at hb
      cases hb
    rw [takenSlot_of_waits (.inr hn)]; exact hy)

/-- A held command goes on. -/
theorem Sound.resumable (h : Sound e) (hh : e.ses.hold ≠ .none) (ho : Owned e) :
    Runnable { e with ses.hold := .none } where
  settled := h.inv.settled.of_hartsKept rfl
  offline := h.inv.offline
  detailBound := h.inv.detailBound
  busy := h.inv.busyIffHold.2 hh
  owned := ho

/-- A command held for the host goes on; it has found the session connected. -/
theorem Sound.resumable_waits (h : Sound e) (hw : e.ses.hold.waits = true) :
    Runnable { e with ses.hold := .none } ∧ e.ses.connected = true := by
  have hc := h.inv.holdConnected
  refine ⟨h.resumable (fun hn => ?_) fun y hy => h.owns y ?_, ?_⟩
  · rw [hn] at hw; cases hw
  · rwa [takenSlot_of_waits (.inl hw)]
  · cases hh : e.ses.hold <;> simp_all [Hold.waits]

/-- A CONNECT under way goes on; it is disconnected and has no slot in its own record. -/
theorem Sound.resumable_connect (h : Sound e) (hx : e.ses.hold = .connect x) :
    Runnable { e with ses.hold := .none } := by
  have hc := h.inv.holdConnected
  rw [hx] at hc
  refine h.resumable (by rw [hx]; exact nofun) fun y hy => ?_
  rw [(h.inv.offline hc).2.1] at hy
  cases hy

/-- A body that leaves the connection, the slot and the tracker as they are. -/
theorem Runnable.ran (he : Runnable e) (hc : i ≠ .connect) (hd : i ≠ .disconnect) (hk : Respects (Kept i) m)
    (hs : Respects (Keeps Settled) m) (hw : Ends m) (hq : e.ses.connected = false → Quiet m) : Ran e (m e) := by
  have hk := hk e
  obtain ⟨hconn, htrack, hslot, hinit⟩ : _ ∧ _ ∧ _ ∧ _ := by
    simpa only [Engine.link, Prod.mk.injEq] using hk.link hc hd
  refine ⟨⟨hs e he.settled, fun hc => ?_, by rw [hk.errDetail]; exact he.detailBound, by rw [hk.busy]; exact he.busy,
    ?_⟩, hk.self, hk.live, fun y o _ => by rw [htrack]; exact id, fun {h e'} hm => .inl ⟨hw.waits hm, ?_⟩⟩
  · rw [hconn] at hc
    obtain ⟨-, -, -, -, hdap, hinit, hslot, hdm, hsba⟩ : _ ∧ _ ∧ _ ∧ _ ∧ _ ∧ _ ∧ _ ∧ _ ∧ _ := by
      simpa only [Engine.wireSide, Prod.mk.injEq] using (hq hc).respects e hc
    rw [hinit, hslot, hdap, hdm, hsba]
    exact he.offline hc
  · intro y
    rw [hslot, htrack, hk.self]
    exact he.owned y
  · rw [hm] at hconn
    by_contra hn
    exact (hq (hconn.symm.trans (Bool.eq_false_iff.2 hn))).ends (hconn.symm.trans (Bool.eq_false_iff.2 hn)) hm

/-! ## CONNECT and DISCONNECT -/

/-- The session is connected. -/
def Connected (e : Engine) : Prop := e.ses.connected = true

theorem connected_talk : TalkClosed (Keeps Connected) := talkClosed_keeps fun _ _ _ _ _ _ _ _ _ _ h => h

theorem connected_powerUp : Respects (Keeps Connected) powerUp := connected_talk.powerUp fun _ _ h => h

theorem connected_dmInit : Respects (Keeps Connected) dmInit :=
  connected_talk.dmInit (fun _ h => h) <| connected_talk.activateDm (fun _ h => h) (fun _ h => h)
    (connected_talk.sbaInit fun _ _ h => h)

/-- CONNECT that answers has connected. -/
theorem connectWith_connected (x : Slot) : Leaves Connected (connectWith x) :=
  Leaves.last fun _ => Leaves.last fun _ => Leaves.last fun _ => Leaves.last fun _ =>
    Leaves.kept (Leaves.modifySes fun _ => rfl) fun _ => connected_talk.bind connected_powerUp fun _ =>
      connected_talk.bind connected_dmInit fun _ => connected_talk.pure _

theorem kept_connectFrom (x : Slot) : Respects (Kept .connect) (connectFrom x) :=
  (closed_kept _).onRaise (kept_connectWith x) (kept_connectUnwind (.inl rfl))

theorem othersKeep_setOwner_none (h : e.tracker.ownerOf x = some e.self) (ht : e'.tracker = e.tracker.setOwner x none) :
    OthersKeep e e' := by
  intro y o ho hy
  rw [ht, ownerOf_setOwner, if_neg]
  · exact hy
  · rintro rfl; rw [h] at hy; cases hy; exact ho rfl

/-- `Acquire` takes a slot that no one has (40_wire.md R92). -/
theorem othersKeep_setOwner_self (h : e.tracker.pick c = some x)
    (ht : e'.tracker = e.tracker.setOwner x (some e.self)) :
    OthersKeep e e' := by
  intro y o _ hy
  rw [ht, ownerOf_setOwner, if_neg]
  · exact hy
  · rintro rfl; exact pick_ne_of_owned hy _ h

theorem onRaise_eq_ok {α : Type} {m : Proc α} {c : Proc Unit} {a : α} (h : onRaise m c e = .ok a e') :
    m e = .ok a e' := by
  rw [onRaise, tryCatch_run] at h
  cases hm : m e with
  | ok b e₁ => rw [hm] at h; exact h
  | error r e₁ =>
    simp only [hm] at h
    obtain ⟨_, e₂, -, h⟩ := bind_eq_ok.1 h
    cases h

/-- The rest of CONNECT keeps the slot it has, or gives it back when it fails (40_wire.md R91, R93). -/
theorem connectFrom_slot (hx : e.tracker.ownerOf x = some e.self) :
    Offline (endState (connectFrom x e)) ∧ OthersKeep e (endState (connectFrom x e))
      ∧ Owned (endState (connectFrom x e)) := by
  have hself : (endState (connectFrom x e)).self = e.self := (kept_connectFrom x e).self
  cases hf : connectFrom x e with
  | ok a e₁ =>
    have hw : connectWith x e = .ok a e₁ := onRaise_eq_ok hf
    have hs := connectWith_slot x e
    rw [hw] at hs
    rw [hf] at hself
    exact ⟨fun hc => absurd (hc.symm.trans (connectWith_connected x e a e₁ hw)) (by decide),
      fun y o _ hy => hs.1 ▸ hy, fun y hy => by
        cases hs.2.symm.trans hy
        exact (congrArg (Tracker.ownerOf · x) hs.1).trans (hx.trans (congrArg some hself.symm))⟩
  | error r e₁ =>
    obtain ⟨ht, ⟨hc, hslot, hi, hp, hv, hd, hsba⟩, -⟩ := connectFrom_error hf
    exact ⟨fun _ => ⟨hi, hslot, hp, hv, hd, hsba⟩, othersKeep_setOwner_none hx ht, fun y hy => by
      cases hslot.symm.trans hy⟩

theorem endState_returns (m : Proc Word) (e : Engine) : endState (returns m e) = endState (m e) := by
  rw [returns, bind_run]; cases m e <;> rfl

theorem endState_returnsZero (m : Proc Unit) (e : Engine) : endState (returnsZero m e) = endState (m e) := by
  rw [returnsZero, bind_run]; cases m e <;> rfl

theorem returns_not_hold {m : Proc Word} {h : Hold} : returns m e ≠ .ok (.hold h) e' := fun hm => by
  obtain ⟨_, _, -, hm⟩ := bind_eq_ok.1 hm; cases hm

theorem returnsZero_not_hold {m : Proc Unit} {h : Hold} : returnsZero m e ≠ .ok (.hold h) e' := fun hm => by
  obtain ⟨_, _, -, hm⟩ := bind_eq_ok.1 hm; cases hm

/-- A body that ends without a hold, by what it does with the connection and its slot. -/
theorem Runnable.ran_link (he : Runnable e) {e₁ : Engine} {r : EStateM.Result Raise Engine Progress}
    (hr : endState r = e₁) (hh : ∀ {h e'}, r ≠ .ok (.hold h) e') (hk : Kept i e e₁) (hs : Settled e₁)
    (hx : Offline e₁ ∧ OthersKeep e e₁ ∧ Owned e₁) : Ran e r := by
  subst hr
  obtain ⟨ho, hothers, howned⟩ := hx
  exact ⟨⟨hs, ho, by rw [hk.errDetail]; exact he.detailBound, by rw [hk.busy]; exact he.busy, howned⟩, hk.self,
    hk.live, hothers, fun h => absurd h hh⟩

theorem Runnable.ran_connectFrom (he : Runnable e) (hx : e.tracker.ownerOf x = some e.self) :
    Ran e (continueConnect x e) :=
  he.ran_link (endState_returns _ _) returns_not_hold (kept_connectFrom x e) (settled_connectFrom x e he.settled)
    (connectFrom_slot hx)

theorem ownerOf_acquired : (e.tracker.setOwner x (some e.self)).ownerOf x = some e.self := by
  rw [ownerOf_setOwner, if_pos rfl]

theorem Runnable.ran_connectSession (he : Runnable e) : Ran e (returns connectSession e) := by
  refine he.ran_link (endState_returns _ _) returns_not_hold (kept_connectSession e)
    (settled_own .connect e he.settled) ?_
  by_cases hc : e.ses.connected = true
  · rw [connectSession, bind_ok (getSes_run e), if_pos hc]
    exact ⟨he.offline, fun _ _ _ => id, he.owned⟩
  cases hp : e.tracker.pick e.ses.cfg.slot with
  | none =>
    rw [connectSession, bind_ok (getSes_run e), if_neg hc, bind_error (acquire_none hp)]
    exact ⟨he.offline, fun _ _ _ => id, he.owned⟩
  | some x =>
    rw [connectSession_acquired (Bool.eq_false_iff.2 hc) hp]
    obtain ⟨ho, hothers, howned⟩ := connectFrom_slot (e := { e with tracker := e.tracker.setOwner x (some e.self) })
      ownerOf_acquired
    have htaken : OthersKeep e { e with tracker := e.tracker.setOwner x (some e.self) } :=
      othersKeep_setOwner_self hp rfl
    exact ⟨ho, fun y o hne hy => hothers y o hne (htaken y o hne hy), howned⟩

theorem Runnable.ran_beginConnect (he : Runnable e) : Ran e (beginConnect e) := by
  by_cases hc : e.ses.connected = true
  · rw [beginConnect, bind_ok (getSes_run e), if_pos hc]
    exact ⟨he, rfl, rfl, fun _ _ _ => id, fun h => by cases h⟩
  cases hp : e.tracker.pick e.ses.cfg.slot with
  | none =>
    rw [beginConnect, bind_ok (getSes_run e), if_neg hc, bind_error (acquire_none hp)]
    exact ⟨he, rfl, rfl, fun _ _ _ => id, fun h => by cases h⟩
  | some x =>
    rw [beginConnect_acquired (Bool.eq_false_iff.2 hc) hp]
    have hslot := (he.offline (Bool.eq_false_iff.2 hc)).2.1
    refine ⟨⟨he.settled.of_hartsKept rfl, he.offline, he.detailBound, he.busy, fun y hy => ?_⟩, rfl, rfl,
      othersKeep_setOwner_self hp rfl, fun h => ?_⟩
    · cases hslot.symm.trans hy
    · cases h; exact .inr ⟨x, rfl, Bool.eq_false_iff.2 hc, ownerOf_acquired⟩

/-- ConnectUnwind gives the session's slot back and nobody else's. -/
theorem connectUnwind_slot (hx : Owned e) : ∃ e₁, connectUnwind e = .ok () e₁
    ∧ Offline e₁ ∧ OthersKeep e e₁ ∧ Owned e₁ := by
  obtain ⟨e₁, h, ⟨hc, hslot, hi, hp, hv, hd, hsba⟩, ht, -⟩ := connectUnwind_spec e
  refine ⟨e₁, h, fun _ => ⟨hi, hslot, hp, hv, hd, hsba⟩, ?_, fun y hy => by rw [hslot] at hy; cases hy⟩
  cases hs : e.ses.wire.slot with
  | some x => exact othersKeep_setOwner_none (hx x hs) (ht x hs)
  | none =>
    have hkeep : e₁.tracker = e.tracker := by
      simp only [connectUnwind, releaseSlot, disconnectFields, bind_run, modify_run, modifySes_run, hs] at h
      cases h; rfl
    intro y o _ hy; rwa [hkeep]

theorem disconnectSession_connected (hc : e.ses.connected = true) : disconnectSession e = connectUnwind e := by
  rw [disconnectSession, bind_ok (getSes_run e), if_pos hc]; rfl

theorem disconnectSession_offline (hc : e.ses.connected = false) : disconnectSession e = .ok () e := by
  rw [disconnectSession, bind_ok (getSes_run e), hc]; rfl

theorem disconnectSession_slot (he : Runnable e) : Offline (endState (disconnectSession e))
    ∧ OthersKeep e (endState (disconnectSession e)) ∧ Owned (endState (disconnectSession e)) := by
  cases hc : e.ses.connected with
  | true =>
    obtain ⟨e₁, h, hx⟩ := connectUnwind_slot he.owned
    rw [disconnectSession_connected hc, h]
    exact hx
  | false =>
    rw [disconnectSession_offline hc]
    exact ⟨he.offline, fun _ _ _ => id, he.owned⟩

theorem Runnable.ran_disconnect (he : Runnable e) : Ran e (returnsZero disconnectSession e) :=
  he.ran_link (endState_returnsZero _ _) returnsZero_not_hold (kept_own .disconnect e)
    (settled_own .disconnect e he.settled) (disconnectSession_slot he)

/-! ## The host's actions on the session in focus -/

/-- A CMD write's row ran. -/
theorem Runnable.ran_row (he : Runnable e) (r : Row i m) (hc : i ≠ .connect) (hd : i ≠ .disconnect) : Ran e (m e) :=
  he.ran hc hd r.kept r.settled r.ends fun _ => r.quiet hc

/-- A held command goes on while connected. -/
theorem Runnable.ran_held (he : Runnable e) (hc : e.ses.connected = true) (hk : Respects (Kept .halt) m)
    (hs : Respects (Keeps Settled) m) (hw : Ends m) : Ran e (m e) :=
  he.ran (by decide) (by decide) hk hs hw fun h => absurd (hc.symm.trans h) (by decide)

end Sys2Proof.Machine
end

section
/-! SUPPORT. The invariant of the whole probe, kept by each action of the outside world (10_state.md R20 to R22;
70_reset_and_hazards.md R178, R179). -/

namespace Sys2Proof.Machine

variable {i : Instr} {m : Proc Progress} {s s' t : State} {e e' e'' : Engine} {x : Slot} {id : SessionId}

/-! ## Actions on the session in focus -/

theorem Advances.refl (h : Sound e) : Advances e e := ⟨rfl, rfl, fun _ _ _ h => h, h⟩

theorem Advances.trans (h : Advances e e') (k : Advances e' e'') : Advances e e'' where
  self := k.self.trans h.self
  live := k.live.trans h.live
  others y o ho hy := k.others y o (h.self.symm ▸ ho) (h.others y o ho hy)
  sound := k.sound

/-- A change of the port's registers, without BUSY, of the transaction in flight and of the count of free values. -/
theorem Advances.port (h : Sound e) {p : Port} (hp : p.busy = e.ses.port.busy) (x : InFlight) (n : Nat) :
    Advances e { e with ses.port := p, ses.txn := x, free := n } where
  self := rfl
  live := rfl
  others _ _ _ h := h
  sound :=
    { inv := ⟨h.inv.1, h.inv.2, h.inv.3, h.inv.4, h.inv.5, h.inv.6, h.inv.7, hp ▸ h.inv.8, h.inv.9⟩
      owns := h.owns }

/-- The action changed the session in focus and the tracker, and left the other sessions alone. -/
structure Served (s t : State) : Prop where
  parked : t.parked = s.parked
  nextId : t.nextId = s.nextId
  eng : Advances s.eng t.eng

theorem Served.refl (h : Sound s.eng) : Served s s := ⟨rfl, rfl, .refl h⟩

theorem Served.trans (h : Served s s') (k : Served s' t) : Served s t :=
  ⟨k.parked.trans h.parked, k.nextId.trans h.nextId, h.eng.trans k.eng⟩

/-- A change of the port's registers and of the transaction in flight. -/
theorem Served.port (h : Sound s.eng) {f : Session → Session}
    (hf : f s.eng.ses = { s.eng.ses with port := (f s.eng.ses).port, txn := (f s.eng.ses).txn })
    (hb : (f s.eng.ses).port.busy = s.eng.ses.port.busy) : Served s (s.modifySes f) := by
  refine ⟨rfl, rfl, ?_⟩
  rw [State.modifySes, hf]
  exact .port h hb _ _

theorem served_runCommand (h : Ran s.eng.begin (m s.eng.begin)) (ht : runCommand m s = .next t) : Served s t := by
  cases ht
  obtain ⟨hself, hlive, hothers, hsound⟩ := h.advances
  exact ⟨rfl, rfl, hself, hlive, hothers, hsound⟩

theorem served_resumeCommand (h : Ran { s.eng with ses.hold := .none } (m { s.eng with ses.hold := .none }))
    (ht : resumeCommand m s = .next t) : Served s t := by
  cases ht
  obtain ⟨hself, hlive, hothers, hsound⟩ := h.advances
  exact ⟨rfl, rfl, hself, hlive, hothers, hsound⟩

/-- An instruction on a session that is not busy. -/
theorem served_exec (h : Sound s.eng) (hb : s.eng.ses.port.busy = false) (ht : exec i s = .next t) : Served s t := by
  by_cases hc : i = .connect
  · subst hc
    exact served_runCommand (h.runnable hb).ran_connectSession ht
  by_cases hd : i = .disconnect
  · subst hd
    exact served_runCommand (h.runnable hb).ran_disconnect ht
  obtain ⟨m, r, rfl⟩ := (runs i).next ht
  exact served_runCommand ((h.runnable hb).ran_row r hc hd) rfl

theorem served_fetchRun {sp : Space} {w : Word} (h : Sound s.eng) (hb : s.eng.ses.port.busy = false)
    (ht : fetchRun sp w s = .next t) : Served s t := by
  unfold fetchRun at ht
  split at ht
  · exact served_exec h hb ht
  · cases ht

theorem served_writeCmd {op : Byte} (h : Sound s.eng) (ht : writeCmd op s = .next t) : Served s t := by
  unfold writeCmd at ht
  split at ht
  · cases ht; exact .refl h
  · next hb =>
    have hp : Served s (s.modifySes fun x => { x with port.cmd := op }) :=
      .port h rfl rfl
    exact hp.trans (served_fetchRun hp.eng.sound (Bool.eq_false_iff.2 hb) ht)

theorem served_startConnect (h : Sound s.eng) (ht : startConnect s = .next t) : Served s t := by
  unfold startConnect at ht
  split at ht
  · cases ht; exact .refl h
  · next hb =>
    have hp : Served s (s.modifySes fun x => { x with port.cmd := 0x01 }) :=
      .port h rfl rfl
    exact hp.trans (served_runCommand (hp.eng.sound.runnable (Bool.eq_false_iff.2 hb)).ran_beginConnect ht)

theorem served_issueWord {sp : Space} {w data : Word} (h : Sound s.eng) (ht : issueWord sp w data s = .next t) :
    Served s t := by
  unfold issueWord at ht
  split at ht
  · cases ht; exact .refl h
  · next hb =>
    cases sp
    case request =>
      have hp : Served s (s.modifySes fun x => { x with txn.request.wdata := data }) :=
      .port h rfl rfl
      exact hp.trans (served_fetchRun hp.eng.sound (Bool.eq_false_iff.2 hb) ht)
    all_goals exact served_fetchRun h (Bool.eq_false_iff.2 hb) ht

theorem served_writeArg (h : Sound s.eng) (k : Fin 4) (v : Word) : Served s (s.modifySes fun x => x.writeArg k v) := by
  match k with
  | 0 | 1 | 2 | 3 => exact .port h rfl rfl

theorem served_readPort (h : Sound s.eng) (r : PortReg) : Served s (s.readPort r) := by
  cases r
  case dout =>
    cases hd : s.eng.ses.port.dout with
    | nil =>
      simp only [State.readPort, Session.readPort, hd]
      exact ⟨rfl, rfl, .port h rfl s.eng.ses.txn _⟩
    | cons w rest =>
      simp only [State.readPort, Session.readPort, hd]
      exact ⟨rfl, rfl, (Served.port (f := fun x => { x with port.dout := rest }) h rfl rfl).eng⟩
  all_goals exact ⟨rfl, rfl, .refl h⟩

/-! ## Commands under way -/

theorem served_held (h : Sound s.eng) (hw : s.eng.ses.hold.waits = true) (hk : Respects (Kept .halt) m)
    (hs : Respects (Keeps Settled) m) (he : Ends m) (ht : resumeCommand m s = .next t) : Served s t := by
  obtain ⟨hr, hc⟩ := h.resumable_waits hw
  exact served_resumeCommand (hr.ran_held hc hk hs he) ht

/-- A hold of the block transfers only talks to the target. -/
theorem served_talks (h : Sound s.eng) (hw : s.eng.ses.hold.waits = true) (hm : Talks m) (he : Ends m)
    (ht : resumeCommand m s = .next t) : Served s t :=
  served_held h hw (hm 0 _ kept.toPortClosed) hm.settled he ht

theorem served_resumeDin (h : Sound s.eng) (ht : resumeDin s = .next t) : Served s t := by
  unfold resumeDin at ht
  split at ht
  case h_1 g n got hh =>
    exact served_held h (by rw [hh]; rfl) ((kept (h := g)).continueProgbuf n got) (settled_continueProgbuf n got)
      (.continueProgbuf _ _ _) ht
  case h_2 a n i hh =>
    exact served_talks h (by rw [hh]; rfl) (fun _ _ C => C.continueWriteBlock a n i) (.continueWriteBlock _ _ _) ht
  case h_3 a n i hh =>
    exact served_talks h (by rw [hh]; rfl) (fun _ _ C => C.continueUpload a n i) (.continueUpload _ _ _) ht
  case h_4 g entry n i hh =>
    exact served_held h (by rw [hh]; rfl) ((kept (h := g)).continueExecuteCode entry n i)
      (settled_continueExecuteCode entry n i) (.continueExecuteCode _ _ _ _) ht
  all_goals cases ht; exact .refl h

theorem served_replyTrace {b : Bool} (h : Sound s.eng) (ht : replyTrace b s = .next t) : Served s t := by
  unfold replyTrace at ht
  split at ht
  case h_1 g max capture n hh =>
    have hp : Served s (s.modifySes fun x => { x with port.traceReply := b }) :=
      .port h rfl rfl
    refine hp.trans (served_held hp.eng.sound ?_ ((kept (h := g)).continueTrace max capture n b)
      (settled_continueTrace max capture n b) (.continueTrace _ _ _ _ _) ht)
    rw [show (s.modifySes fun x => { x with port.traceReply := b }).eng.ses.hold = _ from hh]; rfl
  all_goals cases ht; exact .refl h

theorem served_goOn (h : Sound s.eng) (ht : goOn s = .next t) : Served s t := by
  unfold goOn at ht
  split at ht
  case h_1 x hh =>
    exact served_resumeCommand ((h.resumable_connect hh).ran_connectFrom (h.owns x (by rw [Session.takenSlot, hh]))) ht
  all_goals cases ht; exact .refl h

/-! ## Sessions -/

theorem sessions_eq_parkFocus (s : State) : s.sessions = s.parkFocus.map fun p => (p.id, p.ses) := by
  rw [State.sessions, State.parkFocus]
  split <;> rfl

theorem sessions_of_live (h : s.eng.ses.live = true) :
    s.sessions = (s.eng.self, s.eng.ses) :: s.parked.map fun p => (p.id, p.ses) := by
  rw [State.sessions, if_pos h]; rfl

theorem sessions_of_not_live (h : s.eng.ses.live = false) : s.sessions = s.parked.map fun p => (p.id, p.ses) := by
  rw [State.sessions, h]; rfl

theorem ProbeInv.sound (h : ProbeInv s) (hl : s.eng.ses.live = true) : Sound s.eng := by
  have hmem : (s.eng.self, s.eng.ses) ∈ s.sessions := by rw [sessions_of_live hl]; exact List.mem_cons_self
  exact ⟨h.each _ hmem, h.owns _ hmem⟩

theorem ProbeInv.parkFocus_live (h : ProbeInv s) : ∀ p ∈ s.parkFocus, p.ses.live = true := by
  unfold State.parkFocus
  split
  · next hl => exact List.forall_mem_cons.2 ⟨hl, h.parkedLive⟩
  · exact h.parkedLive

/-- The sessions of `t` are among those of `s`, and what `t` does to the tracker leaves them their slots. -/
theorem ProbeInv.of_sublist (h : ProbeInv s) (hsub : t.sessions ⊆ s.sessions) (hn : (t.sessions.map Prod.fst).Nodup)
    (hid : t.nextId = s.nextId)
    (hown : ∀ p ∈ t.sessions, ∀ y, s.eng.tracker.ownerOf y = some p.1 → t.eng.tracker.ownerOf y = some p.1)
    (hlive : ∀ p ∈ t.parked, p.ses.live = true) : ProbeInv t where
  each p hp := h.each p (hsub hp)
  distinct := hn
  numbered p hp := hid ▸ h.numbered p (hsub hp)
  owns p hp y hy := hown p hp y (h.owns p (hsub hp) y hy)
  parkedLive := hlive

theorem ProbeInv.parked_ne_self (h : ProbeInv s) (hl : s.eng.ses.live = true) {p : Parked} (hp : p ∈ s.parked) :
    p.id ≠ s.eng.self := by
  have hd := h.distinct
  rw [sessions_of_live hl, List.map_cons, List.nodup_cons] at hd
  rintro hc
  exact hd.1 (List.mem_map.2 ⟨_, List.mem_map_of_mem (f := fun p : Parked => (p.id, p.ses)) hp, hc⟩)

theorem ProbeInv.served (h : ProbeInv s) (hl : s.eng.ses.live = true) (hs : Served s t) : ProbeInv t := by
  have hs' := sessions_of_live hl
  have ht' := sessions_of_live (hs.eng.live.trans hl)
  rw [hs.parked, hs.eng.self] at ht'
  have hmem {p : Parked} (hp : p ∈ s.parked) : (p.id, p.ses) ∈ s.sessions := by
    rw [hs']; exact List.mem_cons_of_mem _ (List.mem_map_of_mem hp)
  have hself : (s.eng.self, s.eng.ses) ∈ s.sessions := by rw [hs']; exact List.mem_cons_self
  constructor
  · rw [ht', List.forall_mem_cons, List.forall_mem_map]
    exact ⟨hs.eng.sound.inv, fun p hp => h.each _ (hmem hp)⟩
  · have hd := h.distinct
    rw [hs'] at hd
    rwa [ht']
  · rw [ht', List.forall_mem_cons, List.forall_mem_map, hs.nextId]
    exact ⟨(h.numbered _ hself :), fun p hp => h.numbered _ (hmem hp)⟩
  · rw [ht', List.forall_mem_cons, List.forall_mem_map]
    exact ⟨hs.eng.self ▸ hs.eng.sound.owns, fun p hp y hy =>
      hs.eng.others y _ (h.parked_ne_self hl hp) (h.owns _ (hmem hp) y hy)⟩
  · rw [hs.parked]; exact h.parkedLive

/-- Bringing a session into focus moves the sessions and changes none. -/
theorem ProbeInv.focus (h : ProbeInv s) (hf : s.focus id = some s') : ProbeInv s' ∧ s'.eng.ses.live = true := by
  unfold State.focus at hf
  split at hf
  · next hl => cases hf; exact ⟨h, by simpa using (Bool.and_eq_true_iff.1 hl).1⟩
  split at hf
  · cases hf
  next p hp =>
  cases hf
  have hpm : p ∈ s.parked := List.mem_of_find?_eq_some hp
  have hpid : p.id = id := by simpa using List.find?_some hp
  have hlive := h.parkedLive p hpm
  refine ⟨h.of_sublist ?_ ?_ rfl (fun _ _ _ hy => hy) fun q hq => h.parkFocus_live q (List.mem_filter.1 hq).1, hlive⟩
  · rw [sessions_of_live hlive, sessions_eq_parkFocus]
    refine List.cons_subset.2 ⟨List.mem_map_of_mem (f := fun p : Parked => (p.id, p.ses)) ?_,
      List.map_subset _ List.filter_sublist.subset⟩
    unfold State.parkFocus
    split
    · exact List.mem_cons_of_mem _ hpm
    · exact hpm
  · rw [sessions_of_live hlive, List.map_cons, List.nodup_cons, List.map_map]
    constructor
    · simp [hpid]
    · have hd := h.distinct
      rw [sessions_eq_parkFocus, List.map_map] at hd
      exact hd.sublist (List.filter_sublist.map _)

theorem ProbeInv.onSession {f : State → Host.Outcome State Fault Refusal} (h : ProbeInv s)
    (hf : ∀ s', Sound s'.eng → f s' = .next t → Served s' t) (ht : Machine.onSession id s f = .next t) :
    ProbeInv t := by
  unfold Machine.onSession at ht
  split at ht
  · next s' hs =>
    obtain ⟨hinv, hl⟩ := h.focus hs
    exact hinv.served hl (hf s' (hinv.sound hl) ht)
  · cases ht; exact h

theorem sessionInv_fresh {cfg : Cfg} (h : cfg.freqKhz ≠ 0) (live : Bool) : SessionInv (Session.fresh cfg live) where
  offline _ := ⟨rfl, rfl, rfl, rfl, rfl, rfl⟩
  sbaNeedsDm := nofun
  mirrorNeedsHalt g hg := by simp [Session.fresh, Session.hart, Hart.reset] at hg
  x0IsZero g := by simp [Session.fresh, Session.hart, Hart.reset]
  detailBound := Nat.zero_le _
  freqPositive := h
  dividerOfFreq := rfl
  busyIffHold := by simp [Session.fresh, Port.reset]
  holdConnected := trivial

theorem ProbeInv.createSession (h : ProbeInv s) (cfg : Cfg) : ProbeInv (s.createSession cfg) := by
  unfold State.createSession
  split
  · exact h
  next hf =>
  have hsessions : State.sessions
      { s with
        eng := { s.eng with ses := Session.fresh cfg true, self := s.nextId }
        parked := s.parkFocus
        nextId := s.nextId + 1 } = (s.nextId, Session.fresh cfg true) :: s.sessions := by
    rw [sessions_of_live rfl, ← sessions_eq_parkFocus]
  constructor
  · rw [hsessions, List.forall_mem_cons]
    exact ⟨sessionInv_fresh hf true, h.each⟩
  · rw [hsessions, List.map_cons, List.nodup_cons, List.mem_map]
    refine ⟨?_, h.distinct⟩
    rintro ⟨p, hp, hc⟩
    exact Nat.lt_irrefl _ (hc ▸ h.numbered p hp)
  · rw [hsessions, List.forall_mem_cons]
    exact ⟨Nat.lt_succ_self _, fun p hp => Nat.lt_succ_of_lt (h.numbered p hp)⟩
  · rw [hsessions, List.forall_mem_cons]
    exact ⟨nofun, h.owns⟩
  · exact h.parkFocus_live

/-- Destruction gives back the slot the session has taken and nobody else's. -/
theorem othersKeep_disconnected (h : Sound e) : OthersKeep e e.disconnected := by
  unfold Engine.disconnected
  split
  · next x hx =>
    obtain ⟨e₁, he, -, hothers, -⟩ := connectUnwind_slot (e := { e with ses.wire.slot := some x })
      (fun y hy => by cases hy; exact h.owns x (by rw [Session.takenSlot, hx]))
    rw [he]; exact hothers
  · next hx =>
    split
    · obtain ⟨e₁, he, -, hothers, -⟩ := connectUnwind_slot (e := e) (fun y hy => h.owns y (by
        rw [Session.takenSlot]; split
        · next hc => exact absurd hc (hx _)
        · exact hy))
      rw [he]; exact hothers
    · exact fun _ _ _ hy => hy

theorem ProbeInv.destroyFocus (h : ProbeInv s) (hl : s.eng.ses.live = true) : ProbeInv s.destroyFocus := by
  have hs := sessions_of_live hl
  have ht : s.destroyFocus.sessions = s.parked.map fun p => (p.id, p.ses) := sessions_of_not_live rfl
  have hd := h.distinct
  rw [hs, List.map_cons, List.nodup_cons] at hd
  refine h.of_sublist ?_ (ht ▸ hd.2) rfl ?_ h.parkedLive
  · rw [ht, hs]; exact List.subset_cons_self _ _
  · rw [ht, List.forall_mem_map]
    exact fun p hp y hy => othersKeep_disconnected (h.sound hl) y _ (h.parked_ne_self hl hp) hy

/-! ## One step -/

theorem ProbeInv.serve {x : Input} (h : ProbeInv s) (ht : Machine.serve x s = .next t) : ProbeInv t := by
  cases x
  case create cfg => cases ht; exact h.createSession cfg
  case destroy id =>
    simp only [Machine.serve, Machine.onSession] at ht
    split at ht <;> cases ht
    · next hf => exact (h.focus hf).1.destroyFocus (h.focus hf).2
    · exact h
  case writeCmd => exact h.onSession (fun _ hs => served_writeCmd hs) ht
  case writeArg => exact h.onSession (fun _ hs hn => by cases hn; exact served_writeArg hs _ _) ht
  case writeDin _ w =>
    refine h.onSession (fun s' hs hn => ?_) ht
    have hp : Served s' (s'.modifySes fun x => { x with port.din := x.port.din ++ [w] }) :=
      .port hs rfl rfl
    exact hp.trans (served_resumeDin hp.eng.sound hn)
  case writeTraceReply => exact h.onSession (fun _ hs => served_replyTrace hs) ht
  case readPort => exact h.onSession (fun _ hs hn => by cases hn; exact served_readPort hs _) ht
  case issue => exact h.onSession (fun _ hs => served_issueWord hs) ht
  case startConnect => exact h.onSession (fun _ hs => served_startConnect hs) ht
  case goOn => exact h.onSession (fun _ hs => served_goOn hs) ht

/-- Settles O13: a step serves one action; it moves sessions in and out of focus, which changes none of them, or acts
on the one in focus, whose command keeps R20 and takes or releases only that session's own slot. -/
theorem stepKeepsTheInvariant : Obligations.StepKeepsTheInvariant := by
  intro s t h ht
  unfold step serveNext at ht
  split at ht
  · cases ht; exact h
  · next rest _ =>
    have h' : ProbeInv { s with inbox := rest } :=
      ⟨h.each, h.distinct, h.numbered, h.owns, h.parkedLive⟩
    exact h'.serve ht

end Sys2Proof.Machine
end

section
/-! SUPPORT. What the timeline shows of a write to SELECT, and what it says of the SELECT cache (10_state.md R17;
41_dap.md R102). -/

namespace Sys2Proof.Machine

variable {α β : Type} {h : HartId} {i : Instr} {m : Proc Progress} {q : Request} {e e' : Engine}
  {evs : List WireEvent}

/-! ## The timeline -/

/-- The timeline holds these events, one after the other. -/
def Engine.saw (e : Engine) (evs : List WireEvent) : Prop := evs <:+: e.ses.record.reverse

/-- Events were added to the timeline and none was lost. -/
def Grows (e e' : Engine) : Prop := e.ses.record <:+ e'.ses.record

theorem Grows.saw (h : Grows e e') (hs : e.saw evs) : e'.saw evs := hs.trans (List.reverse_prefix.2 h).isInfix

theorem grows : WireClosed Grows where
  refl _ := List.suffix_rfl
  trans := List.IsSuffix.trans
  clocked _ ev _ _ := List.suffix_cons ev _
  noted _ _ _ := List.suffix_rfl
  lineReset e := by rw [lineResetSeq_run]; exact List.suffix_append _ _

theorem saw_logged (e : Engine) (evs : List WireEvent) : (e.logged evs).saw evs := by
  rw [Engine.saw, Engine.logged, List.reverse_append, List.reverse_reverse]
  exact (List.suffix_append _ _).isInfix

/-- However the procedure ends, its timeline holds these events. -/
def Saw (evs : List WireEvent) (m : Proc α) : Prop := ∀ e, (endState (m e)).saw evs

theorem Saw.bind {m : Proc α} {f : α → Proc β} (hm : Saw evs m) (hf : ∀ a, Respects Grows (f a)) :
    Saw evs (m >>= f) := fun e => by
  have h := hm e
  rw [bind_run]
  cases hc : m e with
  | ok a e₁ => rw [hc] at h; exact (hf a e₁).saw h
  | error r e₁ => rw [hc] at h; exact h

theorem grows_modifySes {f : Session → Session} (h : ∀ x, (f x).record = x.record) : Respects Grows (modifySes f) :=
  fun e => by rw [Grows, modifySes_run, endState, h]

theorem Saw.after {f : Session → Session} {k : Unit → Proc β} (hk : Saw evs (k ())) :
    Saw evs (Machine.modifySes f >>= k) := fun _ => hk _

/-! ## A transaction -/

theorem sampleAck_any (e : Engine) : ∃ a0 a1 a2 bits free, sampleAck e = .ok (ackOfBits a0 a1 a2)
    { e with ses.swdio := bits, ses.record := (sampled [a0, a1, a2]).reverse ++ e.ses.record, free := free } := by
  have hs (e : Engine) : ∃ b bits free, sample e = .ok b
      { e with ses.swdio := bits, ses.record := .sample b :: e.ses.record, free := free } := by
    cases hb : e.ses.swdio with
    | cons b rest => exact ⟨b, rest, e.free, sample_run hb⟩
    | nil => exact ⟨Config.targetBit e.free, [], e.free + 1, by unfold sample; simp only [hb]⟩
  obtain ⟨a0, _, _, h0⟩ := hs e
  obtain ⟨a1, _, _, h1⟩ := hs _
  obtain ⟨a2, bits, free, h2⟩ := hs _
  exact ⟨a0, a1, a2, bits, free, by rw [sampleAck, bind_ok h0, bind_ok h1, bind_ok h2]; rfl⟩

/-- A transaction after its request. -/
theorem txn_requested (q : Request) (e : Engine) :
    txn q e = (sampleAck >>= afterAck q) (e.logged (requestEvents q.apndp q.rnw q.addr)) := by
  rw [txn, bind_ok (driveBits_run _ e), bind_ok (turnaround_run _), logged_logged, bitsOf_requestByte]
  rfl

theorem grows_sampleAck : Respects Grows sampleAck :=
  grows.bind grows.sample fun _ => grows.bind grows.sample fun _ => grows.bind grows.sample fun _ => grows.pure _

/-- Every transaction begins with its request. -/
theorem saw_txn (q : Request) : Saw (requestEvents q.apndp q.rnw q.addr) (txn q) := fun e => by
  rw [txn_requested]
  exact (grows.bind grows_sampleAck (grows.afterAck q) _).saw (saw_logged e _)

theorem ackMeaning_ok {a0 a1 a2 : Bool} : ackMeaning (ackOfBits a0 a1 a2) = .ok → [a0, a1, a2] = okWriteBits := by
  revert a0 a1 a2; decide

/-- A write that is answered OK has sent its request and its data. -/
theorem txn_ok_saw {d : Word} (hq : q.rnw = false) (h : txn q e = .ok (.ok d) e') :
    e'.saw (okWriteEvents q.apndp q.addr q.wdata) := by
  obtain ⟨a0, a1, a2, bits, free, ha⟩ := sampleAck_any (e.logged (requestEvents q.apndp q.rnw q.addr))
  rw [txn_requested, bind_ok ha, afterAck_run] at h
  cases hm : ackMeaning (ackOfBits a0 a1 a2) with
  | ok =>
    rw [hm, afterMeaning, if_neg (by simp [hq]), dataOut_run] at h
    cases h
    refine ⟨e.ses.record.reverse, [], ?_⟩
    simp only [Engine.logged, okWriteEvents, hq, ← ackMeaning_ok hm]
    simp
  | wait => rw [hm] at h; cases h
  | fault => rw [hm] at h; cases h
  | malformed => rw [hm] at h; cases h

/-! ## Its retries -/

theorem saw_retry (q : Request) (n : Nat) : Saw (requestEvents q.apndp q.rnw q.addr) (retry q n) := fun e => by
  rw [retry_eq]
  exact (saw_txn q).bind (fun a => grows.settle (grows.onWait q n) a) _

theorem retry_ok_saw {d : Word} {n : Nat} (hq : q.rnw = false) (h : retry q n e = .ok d e') :
    e'.saw (okWriteEvents q.apndp q.addr q.wdata) := by
  induction n generalizing e with
  | zero =>
    obtain ⟨a, e₁, ha, h⟩ := bind_eq_ok.1 h
    obtain ⟨a, e₂, ht, h⟩ := bind_eq_ok.1 h
    cases a with
    | ok d => cases h; exact txn_ok_saw hq ht
    | wait => cases h
    | fault => cases h
  | succ n ih =>
    obtain ⟨a, e₁, ha, h⟩ := bind_eq_ok.1 h
    obtain ⟨a, e₂, ht, h⟩ := bind_eq_ok.1 h
    cases a with
    | ok d => cases h; exact txn_ok_saw hq ht
    | wait => exact ih h
    | fault => cases h

theorem saw_retryTxn (q : Request) : Saw (requestEvents q.apndp q.rnw q.addr) (retryTxn q) := fun e =>
  saw_retry q _ e

theorem saw_dpWrite (a : BitVec 4) (w : Word) : Saw (requestEvents false false a) (dpWrite a w) :=
  (saw_retryTxn _).bind fun _ => grows.pure _

theorem dpWrite_ok_saw {a : BitVec 4} {w : Word} {u : Unit} (h : dpWrite a w e = .ok u e') :
    e'.saw (okWriteEvents false a w) := by
  obtain ⟨d, e₁, hd, h⟩ := bind_eq_ok.1 h
  cases h
  exact retry_ok_saw (q := ⟨false, false, a, w⟩) rfl hd

/-! ## The SELECT cache -/

/-- The SELECT cache: whether it is valid, and what it holds. -/
def Engine.select (e : Engine) : Bool × BitVec 4 × BitVec 4 × BitVec 4 :=
  (e.ses.dap.selValid, e.ses.dap.currentApsel, e.ses.dap.currentBank, e.ses.dap.ctrlsel)

/-- What the cache holds was written in the timeline. -/
def Engine.selectWritten (e : Engine) : Prop :=
  e.ses.dap.ctrlsel = 1
    ∧ e.saw (okWriteEvents false 0x8 (selectWord e.ses.dap.currentApsel e.ses.dap.currentBank 1))

/-- A cache that is valid is as before or was written in the timeline (41_dap.md R102). -/
structure SelectHolds (e e' : Engine) : Prop where
  grows : Grows e e'
  holds : e'.ses.dap.selValid = true → e'.select = e.select ∨ e'.selectWritten

/-- A cache that has become invalid did so by a line reset or a SELECT write in the timeline (10_state.md R17). -/
structure SelectLost (e e' : Engine) : Prop where
  grows : Grows e e'
  lost : e.ses.dap.selValid = true → e'.ses.dap.selValid = false →
    e'.saw lineResetEvents ∨ e'.saw (requestEvents false false 0x8)

theorem Engine.selectWritten.of_grows (h : e.selectWritten) (hg : Grows e e') (hs : e'.select = e.select) :
    e'.selectWritten := by
  obtain ⟨-, ha, hb, hc⟩ : _ ∧ _ ∧ _ ∧ _ := by simpa only [Engine.select, Prod.mk.injEq] using hs
  obtain ⟨h1, hw⟩ := h
  rw [Engine.selectWritten, ha, hb, hc]
  exact ⟨h1, hg.saw hw⟩

theorem SelectHolds.of_select (hg : Grows e e') (h : e'.select = e.select) : SelectHolds e e' := ⟨hg, fun _ => .inl h⟩
theorem SelectHolds.of_invalid (hg : Grows e e') (h : e'.ses.dap.selValid = false) : SelectHolds e e' :=
  ⟨hg, fun hv => absurd (hv.symm.trans h) (by decide)⟩

theorem SelectLost.of_select (hg : Grows e e') (h : e'.select = e.select) : SelectLost e e' :=
  ⟨hg, fun hv hn => absurd (hv.symm.trans ((congrArg (·.1) h).symm.trans hn)) (by decide)⟩

theorem closed_selectHolds : Closed SelectHolds where
  refl _ := .of_select List.suffix_rfl rfl
  trans h k :=
    { grows := h.grows.trans k.grows
      holds := fun hv => (k.holds hv).elim (fun hs => (h.holds ((congrArg (·.1) hs).symm.trans hv)).imp hs.trans
        fun hw => hw.of_grows k.grows hs) .inr }

theorem closed_selectLost : Closed SelectLost where
  refl _ := .of_select List.suffix_rfl rfl
  trans {_ e₁ _} h k :=
    { grows := h.grows.trans k.grows
      lost := fun hv hn => by
        cases hm : e₁.ses.dap.selValid with
        | true => exact k.lost hm hn
        | false => exact (h.lost hv hm).imp k.grows.saw k.grows.saw }

theorem wire_selectHolds : WireClosed SelectHolds :=
  { closed_selectHolds with
    clocked := fun _ ev _ _ => .of_select (List.suffix_cons ev _) rfl
    noted := fun _ _ _ => .of_select List.suffix_rfl rfl
    lineReset := fun e => .of_invalid (grows.lineReset e) (by rw [lineResetSeq_run]; rfl) }

theorem saw_lineReset : Saw lineResetEvents lineResetSeq := fun e => by
  rw [lineResetSeq_run]; exact saw_logged e lineResetEvents

theorem wire_selectLost : WireClosed SelectLost :=
  { closed_selectLost with
    clocked := fun _ ev _ _ => .of_select (List.suffix_cons ev _) rfl
    noted := fun _ _ _ => .of_select List.suffix_rfl rfl
    lineReset := fun e' => ⟨grows.lineReset e', fun _ _ => .inl (saw_lineReset e')⟩ }

theorem grows_forgetSelect : Respects Grows forgetSelect := grows_modifySes fun _ => rfl

theorem selectHolds_forgetSelect : Respects SelectHolds forgetSelect := fun _ => .of_invalid List.suffix_rfl rfl

theorem grows_writeSelect (apsel bank : BitVec 4) : Respects Grows (writeSelect apsel bank) :=
  grows.bind grows_forgetSelect fun _ => grows.bind (grows.dpWrite _ _) fun _ => grows_modifySes fun _ => rfl

theorem saw_writeSelect (apsel bank : BitVec 4) : Saw (requestEvents false false 0x8) (writeSelect apsel bank) :=
  Saw.after <| Saw.bind (saw_dpWrite _ _) fun _ => grows_modifySes fun _ => rfl

/-- A SELECT write through the cache: after it the cache is invalid, or holds what the write wrote. -/
theorem talk_selectHolds : TalkClosed SelectHolds :=
  { wire_selectHolds with
    select := fun apsel bank e => by
      refine ⟨grows_writeSelect apsel bank e, ?_⟩
      have hd := wire_selectHolds.dpWrite dpSelect (selectWord apsel bank Config.apCtrlsel)
        { e with ses.dap.selValid := false }
      rw [writeSelect, bind_ok (show forgetSelect e = .ok () { e with ses.dap.selValid := false } from rfl)]
      cases hw : dpWrite dpSelect (selectWord apsel bank Config.apCtrlsel) { e with ses.dap.selValid := false } with
      | ok u e₁ =>
        rw [bind_ok hw]
        exact fun _ => .inr ⟨rfl, (dpWrite_ok_saw hw :)⟩
      | error r e₁ =>
        rw [bind_error hw]
        rw [hw] at hd
        exact fun hv => (hd.holds hv).imp_left fun hs => absurd ((congrArg (·.1) hs).symm.trans hv) Bool.false_ne_true }

theorem talk_selectLost : TalkClosed SelectLost :=
  { wire_selectLost with
    select := fun apsel bank e => ⟨grows_writeSelect apsel bank e, fun _ _ => .inr (saw_writeSelect apsel bank e)⟩ }

end Sys2Proof.Machine
end

section
/-! SUPPORT. What each row does to the SELECT cache (10_state.md R17; 41_dap.md R101, R102; logs 14 and 16). -/

namespace Sys2Proof.Machine

variable {α β : Type} {h : HartId} {i : Instr} {m : Proc Progress} {e e' : Engine} {s t : State}
  {R : Engine → Engine → Prop}

/-- The rows that touch the SELECT cache outside its path. -/
def touchesSelect : Instr → Bool
  | .connect | .disconnect | .writeDp | .swdReqDpW8 | .ackOk | .ackWait | .ackFault | .ackProtocolError _ => true
  | _ => false

/-- The timeline and the SELECT cache. -/
def Session.selectSide (x : Session) : List WireEvent × Bool × BitVec 4 × BitVec 4 × BitVec 4 :=
  (x.record, x.dap.selValid, x.dap.currentApsel, x.dap.currentBank, x.dap.ctrlsel)

section
variable (C : TalkClosed R) (hs : ∀ {f : Session → Session}, (∀ x, (f x).selectSide = x.selectSide) →
  Respects R (modifySes f))
include C hs

theorem side_sbaInit : Respects R sbaInit := C.sbaInit fun _ => hs fun _ => rfl
theorem side_powerUp : Respects R powerUp := C.powerUp fun _ => hs fun _ => rfl
theorem side_dmInit : Respects R dmInit :=
  C.dmInit (hs fun _ => rfl) <| C.activateDm (hs fun _ => rfl) (hs fun _ => rfl) (side_sbaInit C hs)

/-- The other rows change the timeline and the cache by transactions only. -/
theorem own_of_side (hi : touchesSelect i = false) : OwnProcs i R := by
  cases i
  case setFrequency => exact fun _ => C.bind (C.require _ _) fun _ => hs fun _ => rfl
  case powerUp => exact side_powerUp C hs
  case init => exact side_dmInit C hs
  case sbaInit => exact C.bind C.requireInitialized fun _ => side_sbaInit C hs
  case enableCache => exact fun _ => C.bind (hs fun _ => rfl) fun _ => C.onlyIf _ (hs fun _ => rfl)
  case reset =>
    exact fun h => C.resetHart (h := h) (hs fun _ => rfl) fun b =>
      hs (f := fun s => s.setHart h { s.hart h with halted := b, known := true }) fun _ => rfl
  case connect | disconnect | writeDp | swdReqDpW8 | ackOk | ackWait | ackFault | ackProtocolError => cases hi
  all_goals trivial

end

theorem mirror_selectHolds : MirrorClosed h SelectHolds :=
  { talk_selectHolds with
    hart := fun _ _ _ => .of_select List.suffix_rfl rfl
    dout := fun _ _ => .of_select List.suffix_rfl rfl
    din := fun _ _ => .of_select List.suffix_rfl rfl
    fill := fun _ => .of_select List.suffix_rfl rfl }

theorem mirror_selectLost : MirrorClosed h SelectLost :=
  { talk_selectLost with
    hart := fun _ _ _ => .of_select List.suffix_rfl rfl
    dout := fun _ _ => .of_select List.suffix_rfl rfl
    din := fun _ _ => .of_select List.suffix_rfl rfl
    fill := fun _ => .of_select List.suffix_rfl rfl }

theorem grows_of_side {f : Session → Session} (hf : ∀ x, (f x).selectSide = x.selectSide) :
    Grows e { e with ses := f e.ses } := by
  have hr : (f e.ses).record = e.ses.record := congrArg (·.1) (hf e.ses)
  rw [Grows, hr]

theorem selectHolds_side {f : Session → Session} (hf : ∀ x, (f x).selectSide = x.selectSide) :
    Respects SelectHolds (modifySes f) := fun e => .of_select (grows_of_side hf) (congrArg (·.2) (hf e.ses))

theorem selectLost_side {f : Session → Session} (hf : ∀ x, (f x).selectSide = x.selectSide) :
    Respects SelectLost (modifySes f) := fun e => .of_select (grows_of_side hf) (congrArg (·.2) (hf e.ses))

theorem selectHolds_connectUnwind : Respects SelectHolds connectUnwind := fun _ => .of_invalid List.suffix_rfl rfl

theorem selectHolds_connectWith (x : Slot) : Respects SelectHolds (connectWith x) :=
  talk_selectHolds.connectWith (fun _ => .of_invalid List.suffix_rfl rfl) selectHolds_forgetSelect
    (selectHolds_side fun _ => rfl) (side_powerUp talk_selectHolds selectHolds_side)
    (side_dmInit talk_selectHolds selectHolds_side)

theorem selectHolds_own (i : Instr) : OwnProcs i SelectHolds := by
  have C := talk_selectHolds
  cases hi : touchesSelect i with
  | false => exact own_of_side C selectHolds_side hi
  | true =>
    cases i
    case connect =>
      exact C.connectSession (fun _ _ => .of_select List.suffix_rfl rfl) selectHolds_connectWith
        selectHolds_connectUnwind
    case disconnect => exact C.disconnectSession selectHolds_connectUnwind
    case writeDp => exact ownProcs_writeDp C selectHolds_forgetSelect
    case swdReqDpW8 => exact ownProcs_swdReqDpW8 C selectHolds_forgetSelect
    case ackOk | ackWait | ackFault | ackProtocolError => exact ownProcs_ackRow C selectHolds_forgetSelect rfl
    all_goals cases hi

/-- A relation that allows what transactions, harts' states, the data streams and the mirrors need, and the row's own
procedure, allows the row. -/
theorem Row.respects (r : Row i m) (C : ∀ h, MirrorClosed h R) (ho : OwnProcs i R) : Respects R m := by
  obtain h | ⟨-, h⟩ | ⟨-, h⟩ | h := r.kind
  · exact h 0 _ (C 0).toPortClosed
  · exact h _ _ (C 0).named fun g => (C g).procs
  · exact h _ _ (C 0).named fun g => (C g).fills
  · exact h _ (C 0).toTalkClosed ho

theorem selectLost_writeDpChecked (a v : Word) : Respects SelectLost (writeDpChecked a v) := by
  unfold writeDpChecked
  cases ha : a == 0x8 with
  | false => exact talk_selectLost.bind (talk_selectLost.pure ()) fun _ => talk_selectLost.dpWrite _ _
  | true =>
    rw [eq_of_beq ha]
    exact fun e => ⟨grows.bind grows_forgetSelect (fun _ => grows.dpWrite _ _) e, fun _ _ => .inr (saw_dpWrite 0x8 v _)⟩

theorem requireConnected_online (hc : e.ses.connected = true) : requireConnected e = .ok () e := by
  rw [requireConnected, bind_ok (getSes_run e), hc]; rfl

/-- A procedure that needs a connection does nothing without one. -/
theorem respects_online (C : Closed R) {m : Proc α}
    (h : ∀ e : Engine, e.ses.connected = true → R e (endState (m e))) :
    Respects R (requireConnected >>= fun _ => m) := fun e => by
  cases hc : e.ses.connected with
  | false => rw [NeedsLink.connected.bind e hc]; exact C.refl e
  | true => rw [bind_ok (requireConnected_online hc)]; exact h e hc

theorem saw_issueRequest {ap rnw : Bool} {a : BitVec 4} (hc : e.ses.connected = true) :
    (endState (issueRequest ap rnw a e)).saw (requestEvents ap rnw a) := by
  rw [issueRequest, bind_ok (requireConnected_online hc)]
  exact saw_retryTxn _ e

theorem selectLost_requestSelect : Respects SelectLost requestSelect :=
  respects_online closed_selectLost fun e hc =>
    ⟨grows.bind grows_forgetSelect (fun _ => grows.bind (grows.bind grows.getSes fun _ => grows.require _ _)
      fun _ => grows.bind grows.getSes fun _ => grows.retryTxn _) e, fun _ _ => 
      .inr (saw_issueRequest (e := { e with ses.dap.selValid := false }) hc)⟩

theorem selectLost_own (hc : i ≠ .connect) (hd : i ≠ .disconnect) (ha : ackRow i = false) :
    OwnProcs i SelectLost := by
  cases hi : touchesSelect i with
  | false => exact own_of_side talk_selectLost selectLost_side hi
  | true =>
    cases i
    case connect => exact absurd rfl hc
    case disconnect => exact absurd rfl hd
    case writeDp => exact selectLost_writeDpChecked
    case swdReqDpW8 => exact selectLost_requestSelect
    case ackOk | ackWait | ackFault | ackProtocolError => cases ha
    all_goals cases hi

/-- An acknowledge goes on with the transaction in flight; one that is no SELECT write leaves the cache to the wire. -/
theorem selectLost_answerAck (ack : BitVec 3) (hq : e.ses.txn.request.writesSelect = false) :
    SelectLost e (endState (answerAck ack e)) := by
  have C := wire_selectLost
  cases hc : e.ses.connected with
  | false => rw [answerAck, NeedsLink.connected.bind e hc]; exact C.refl e
  | true =>
    rw [answerAck, bind_ok (requireConnected_online hc), bind_ok (getSes_run e), hq]
    exact C.bind (C.pure ()) (fun _ => C.bind (C.logEvent _) fun _ => C.bind (C.logEvent _) fun _ =>
      C.bind (C.logEvent _) fun _ => C.bind C.getSes fun _ => C.bind (C.afterAck _ _) fun a =>
        C.settle (C.onWait _ _) a) e

theorem exec_ackRow (hi : ackRow i = true) : ∃ ack, ∀ s, exec i s = runCommand (returns (answerAck ack)) s := by
  cases i
  case ackOk | ackWait | ackFault | ackProtocolError => exact ⟨_, fun _ => rfl⟩
  all_goals cases hi

end Sys2Proof.Machine
end

section
/-! SUPPORT. The validity of the mirrors (42_dm.md R130, R138 to R140) and the error detail (60_exceptions.md R163). -/

namespace Sys2Proof.Machine

variable {α β : Type} {g h : HartId} {i : Instr} {m : Proc Progress} {e e' : Engine} {s t : State}
  {R : Engine → Engine → Prop}

/-! ## No mirror becomes valid -/

/-- No mirror has become valid. -/
def Fades (e e' : Engine) : Prop := ∀ g, (e'.ses.hart g).cacheValid = true → (e.ses.hart g).cacheValid = true

theorem fades : PortClosed h Fades :=
  have C : Closed Fades := ⟨fun _ _ h => h, fun a b g hg => a g (b g hg)⟩
  { TalkClosed.of_moved C fun _ _ _ _ _ _ _ _ _ _ _ hg => hg with
    hart := fun e x hx g hg => by
      by_cases h' : g = h
      · subst h'; exact hx (by simpa using hg)
      · simpa [hart_setHart_other _ _ _ _ h'] using hg
    dout := fun _ _ _ hg => hg
    din := fun _ _ _ hg => hg }

theorem fades_modifyHarts {f : Hart → Hart} (hf : ∀ x, (f x).cacheValid = true → x.cacheValid = true) :
    Respects Fades (modifyHarts f) := fun e g hg => by
  refine hf _ ?_
  simpa [endState, Session.hart] using hg

theorem fades_powerUp : Respects Fades powerUp := (fades (h := 0)).powerUp fun _ _ _ hg => hg

theorem fades_sbaInit : Respects Fades sbaInit := (fades (h := 0)).sbaInit fun _ _ _ hg => hg

theorem fades_dmInit : Respects Fades dmInit :=
  (fades (h := 0)).dmInit (fun _ _ hg => hg) <|
    (fades (h := 0)).activateDm (fun _ _ hg => hg) (fades_modifyHarts fun _ => nofun) fades_sbaInit

theorem fades_connectUnwind : Respects Fades connectUnwind := fun e g hg => by
  obtain ⟨e₁, h, -, -, hh⟩ := connectUnwind_spec e
  rw [h] at hg
  exact absurd ((hh g).2.2.symm.trans hg) Bool.false_ne_true

theorem fades_connectWith (x : Slot) : Respects Fades (connectWith x) :=
  (fades (h := 0)).connectWith (fun _ _ hg => hg) (fun _ _ hg => hg) (fun _ _ hg => hg) fades_powerUp fades_dmInit

theorem fades_own (i : Instr) : OwnProcs i Fades := by
  have C : PortClosed 0 Fades := fades
  have hf : Respects Fades forgetSelect := fun _ _ hg => hg
  cases i
  case connect => exact C.connectSession (fun _ _ _ hg => hg) fades_connectWith fades_connectUnwind
  case disconnect => exact C.disconnectSession fades_connectUnwind
  case setFrequency => exact fun _ => C.bind (C.require _ _) fun _ _ _ hg => hg
  case powerUp => exact fades_powerUp
  case init => exact fades_dmInit
  case sbaInit => exact C.bind C.requireInitialized fun _ => fades_sbaInit
  case enableCache => exact fun _ => C.bind (fun _ _ hg => hg) fun _ => C.onlyIf _ (fades_modifyHarts fun _ => nofun)
  case reset =>
    exact fun h => C.resetHart (h := h) (fades_modifyHarts fun _ => nofun) fun _ => (fades (h := h)).keep fun _ => rfl
  case writeDp => exact ownProcs_writeDp C.toTalkClosed hf
  case swdReqDpW8 => exact ownProcs_swdReqDpW8 C.toTalkClosed hf
  case ackOk | ackWait | ackFault | ackProtocolError => exact ownProcs_ackRow C.toTalkClosed hf rfl
  all_goals trivial

/-- Only READ_ALL_REGS and TRACE fill a mirror. -/
theorem Row.fades (r : Row i m) (hr : i ≠ .readAllRegs) (ht : i ≠ .trace) : Respects Fades m := by
  obtain h | ⟨-, h⟩ | ⟨rfl | rfl, -⟩ | h := r.kind
  · exact h 0 _ Machine.fades
  · exact h _ _ (Machine.fades (h := 0)).named fun _ => Machine.fades.procs
  · exact absurd rfl hr
  · exact absurd rfl ht
  · exact h _ (Machine.fades (h := 0)).toTalkClosed (fades_own i)

/-! ## A mirror that becomes valid -/

/-- A mirror that has become valid is that of the hart ARG0 names, and caching is on. -/
structure Filled (e e' : Engine) : Prop where
  arg0 : e'.ses.port.arg0 = e.ses.port.arg0
  caching : e'.ses.dm.cacheEnabled = e.ses.dm.cacheEnabled
  named : ∀ g, (e'.ses.hart g).cacheValid = true →
    (e.ses.hart g).cacheValid = true ∨ (e.ses.dm.cacheEnabled = true ∧ names e.ses.port.arg0 g)

theorem Filled.of_fades (h0 : e'.ses.port.arg0 = e.ses.port.arg0)
    (hc : e'.ses.dm.cacheEnabled = e.ses.dm.cacheEnabled) (hf : Fades e e') : Filled e e' :=
  ⟨h0, hc, fun g hg => .inl (hf g hg)⟩

theorem closed_filled : Closed Filled where
  refl _ := .of_fades rfl rfl fun _ hg => hg
  trans a b :=
    { arg0 := b.arg0.trans a.arg0
      caching := b.caching.trans a.caching
      named := fun g hg => (b.named g hg).elim (a.named g) fun ⟨hc, hn⟩ => .inr ⟨a.caching ▸ hc, a.arg0 ▸ hn⟩ }

theorem filled : PortClosed h Filled :=
  { TalkClosed.of_moved closed_filled fun _ _ _ _ _ _ _ _ _ _ => .of_fades rfl rfl fun _ hg => hg with
    hart := fun e x hx => .of_fades rfl rfl (fades.hart e x hx)
    dout := fun _ _ => .of_fades rfl rfl fun _ hg => hg
    din := fun _ _ => .of_fades rfl rfl fun _ hg => hg }

/-- The procedures that fill the mirror of the hart that ARG0 names. -/
theorem filled_named : MirrorClosed h fun e e' => names e.ses.port.arg0 h → Filled e e' :=
  have C : Closed fun e e' => names e.ses.port.arg0 h → Filled e e' :=
    { refl := fun e _ => closed_filled.refl e
      trans := fun a b hn => closed_filled.trans (a hn) (b ((a hn).arg0 ▸ hn)) }
  { TalkClosed.of_moved C fun _ _ _ _ _ _ _ _ _ _ _ => .of_fades rfl rfl fun _ hg => hg with
    hart := fun e x hx _ => .of_fades rfl rfl (fades.hart e x hx)
    dout := fun _ _ _ => .of_fades rfl rfl fun _ hg => hg
    din := fun _ _ _ => .of_fades rfl rfl fun _ hg => hg
    fill := fun e hn => by
      refine ⟨rfl, rfl, fun g hg => ?_⟩
      by_cases h' : g = h
      · subst h'; exact .inr ⟨by simpa using hg, hn⟩
      · exact .inl (by simpa [hart_setHart_other _ _ _ _ h'] using hg) }

theorem Row.filled (r : Row i m) (hi : i = .readAllRegs ∨ i = .trace) : Respects Filled m := by
  have C : PortClosed 0 Filled := Machine.filled
  obtain h | ⟨-, h⟩ | ⟨-, h⟩ | h := r.kind
  · exact h 0 _ C
  · exact h _ _ C.named fun _ => Machine.filled.procs
  · exact h _ _ { closed_filled with of := fun hn h => h hn } fun _ => filled_named.fills
  · exact h _ C.toTalkClosed (by obtain rfl | rfl := hi <;> trivial)

/-! ## READ_ALL_REGS that raises -/

/-- What a procedure leaves when it raises. -/
def OnError (R : Engine → Engine → Prop) (m : Proc α) : Prop := ∀ e r e', m e = .error r e' → R e e'

theorem OnError.bind {m : Proc α} {f : α → Proc β} (C : Closed R) (hm : Respects R m)
    (hf : ∀ a, OnError R (f a)) : OnError R (m >>= f) := fun e r e' he => by
  rw [bind_run] at he
  have h := hm e
  cases hc : m e with
  | ok a e₁ =>
    rw [hc] at he h
    exact C.trans h (hf a e₁ r e' he)
  | error r₁ e₁ =>
    rw [hc] at he h
    cases he
    exact h

theorem OnError.then_pure {m : Proc α} {f : α → β} (hm : OnError R m) : OnError R (m >>= fun a => pure (f a)) :=
  fun e r e' he => by
    rw [bind_run] at he
    cases hc : m e with
    | ok a e₁ => rw [hc] at he; cases he
    | error r₁ e₁ => rw [hc] at he; cases he; exact hm e r e' hc

/-- READ_ALL_REGS's body (42_dm.md R130). -/
def readAllRegsRow : Proc Unit := do
  requireConnected
  let h ← hartOperand (← getSes).port.arg0
  requireInitialized
  requireHalted h
  let _ ← readAllRegs h true

theorem exec_readAllRegs (s : State) : exec .readAllRegs s = runCommand (returnsZero readAllRegsRow) s := rfl

/-- The mirror is filled at the very end, after all that can raise. -/
theorem onError_readAllRegs : OnError Fades (readAllRegs h true) :=
  have C : PortClosed h Fades := fades
  .bind C.toClosed (C.selectHart _) fun _ => .bind C.toClosed (C.readRegs _ _) fun _ _ _ _ he => by cases he

theorem onError_readAllRegsRow : OnError Fades (returnsZero readAllRegsRow) :=
  have C : PortClosed 0 Fades := fades
  .then_pure <| .bind C.toClosed C.requireConnected fun _ => .bind C.toClosed C.getSes fun _ =>
    .bind C.toClosed (C.hartOperand _) fun _ => .bind C.toClosed C.requireInitialized fun _ =>
      .bind C.toClosed fades.requireHalted fun _ => .then_pure onError_readAllRegs

/-- READ_ALL_REGS that fills a mirror succeeds. -/
theorem finish_readAllRegs (e : Engine) :
    (finish (returnsZero readAllRegsRow e)).ses.port.resultStatus = .ok
      ∨ Fades e (finish (returnsZero readAllRegsRow e)) := by
  cases hr : returnsZero readAllRegsRow e with
  | ok p e' =>
    cases p with
    | done v => exact .inl rfl
    | hold h => exact absurd hr returnsZero_not_hold
  | error r e' =>
    refine .inr fun g hg => onError_readAllRegsRow e r e' hr g ?_
    rwa [finish_hart] at hg

/-! ## A mirror that stays valid -/

/-- Hart `g` has a valid mirror, as a session that meets rule R20 may have one. -/
def Mirrored (g : HartId) (e : Engine) : Prop :=
  (e.ses.hart g).cacheValid = true ∧ (e.ses.hart g).known = true ∧ e.ses.dm.cacheEnabled = true

theorem mirrored_talk : TalkClosed (Keeps (Mirrored g)) := talkClosed_keeps fun _ _ _ _ _ _ _ _ _ _ h => h

/-- A hart whose validity, belief and caching are as they were stays mirrored. -/
theorem Mirrored.setHart (he : Mirrored g e) {x : Hart}
    (hx : g = h → x.cacheValid = true ∧ x.known = true) : Mirrored g { e with ses := e.ses.setHart h x } := by
  obtain ⟨hv, hk, hc⟩ := he
  by_cases h' : g = h
  · subst h'
    obtain ⟨hv', hk'⟩ := hx rfl
    exact ⟨by simpa using hv', by simpa using hk', hc⟩
  · exact ⟨by simpa [hart_setHart_other _ _ _ _ h'] using hv, by simpa [hart_setHart_other _ _ _ _ h'] using hk, hc⟩

theorem mirrored_modifyHart {f : Hart → Hart}
    (hf : g = h → ∀ x, x.cacheValid = true → x.known = true → (f x).cacheValid = true ∧ (f x).known = true) :
    Respects (Keeps (Mirrored g)) (modifyHart h f) := fun _ he =>
  he.setHart (h := h) fun hg => hf hg _ (hg ▸ he.1) (hg ▸ he.2.1)

theorem mirrored_mirror (n : BitVec 5) (v : Word) : Respects (Keeps (Mirrored g)) (mirror h n v) :=
  mirrored_talk.bind mirrored_talk.getSes fun _ => 
    Closed.ite (mirrored_modifyHart fun _ _ hv hk => ⟨hv, hk⟩) (mirrored_talk.pure _)

/-- A hart whose mirror is valid is known, so that no query is made of it. -/
theorem mirrored_queryHalted : Respects (Keeps (Mirrored g)) (queryHalted h) := by
  have C : TalkClosed (Keeps (Mirrored g)) := mirrored_talk
  intro e he
  by_cases hk : (e.ses.hart h).known = true
  · rw [queryHalted, bind_ok (getSes_run e), if_pos hk]; exact he
  · rw [queryHalted, bind_ok (getSes_run e), if_neg hk]
    have hg : g ≠ h := by rintro rfl; exact hk he.2.1
    exact C.bind (C.selectHart _) (fun _ => C.bind (C.dmRead _) fun _ =>
      C.bind (mirrored_modifyHart fun hc => absurd hc hg) fun _ => C.pure _) e he

theorem mirrored_requireHalted : Respects (Keeps (Mirrored g)) (requireHalted h) :=
  mirrored_talk.bind mirrored_queryHalted fun _ => mirrored_talk.require _ _

theorem mirrored_readReg (n : BitVec 5) : Respects (Keeps (Mirrored g)) (readReg h n) := by
  have C : TalkClosed (Keeps (Mirrored g)) := mirrored_talk
  exact C.bind C.getSes fun _ => Closed.ite (C.pure _) <|
    C.bind (C.selectHart _) fun _ => C.bind (C.gprRead _) fun _ => C.bind (mirrored_mirror _ _) fun _ => C.pure _

theorem mirrored_readRegs (emit : Bool) : ∀ ns, Respects (Keeps (Mirrored g)) (readRegs h emit ns) := by
  have C : TalkClosed (Keeps (Mirrored g)) := mirrored_talk
  intro ns
  induction ns with
  | nil => exact C.pure _
  | cons n ns ih =>
    exact C.bind (C.gprRead n) fun _ => C.bind (C.onlyIf _ fun _ he => he) fun _ =>
      C.bind (mirrored_mirror _ _) fun _ => C.bind ih fun _ => C.pure _

/-- READ_ALL_REGS marks the mirror valid as caching is on. -/
theorem mirrored_readAllRegs (emit : Bool) : Respects (Keeps (Mirrored g)) (readAllRegs h emit) := by
  have C : TalkClosed (Keeps (Mirrored g)) := mirrored_talk
  exact C.bind (C.selectHart _) fun _ => C.bind (mirrored_readRegs _ _) fun _ => fun e he =>
    he.setHart (h := h) fun hg => by subst hg; exact ⟨he.2.2, he.2.1⟩

/-- The rows that name a hart and are none of 42_dm.md R140's keep every valid mirror. -/
theorem mirrored_named (hn : namesHart i = true) (hl : losesMirror i = false) :
    ∃ m, (∀ s, exec i s = runCommand m s) ∧ ∀ g, Respects (Keeps (Mirrored g)) m := by
  have C (g : HartId) : TalkClosed (Keeps (Mirrored g)) := mirrored_talk
  have N (g : HartId) := (C g).named
  cases i
  case isHalted =>
    exact ⟨_, fun _ => rfl, fun g => (N g).returns <| (N g).online fun _ _ => (C g).bind (C g).requireInitialized fun _ =>
      (C g).bind mirrored_queryHalted fun _ => (C g).pure _⟩
  case readReg =>
    exact ⟨_, fun _ => rfl, fun g => (N g).returns <| (N g).online fun _ _ => (C g).bind ((C g).regOperand _) fun _ =>
      (C g).bind (C g).requireInitialized fun _ => (C g).bind mirrored_requireHalted fun _ => mirrored_readReg _⟩
  case readAllRegs =>
    exact ⟨_, fun _ => rfl, fun g => (N g).returnsZero <| (N g).online fun _ _ =>
      (C g).bind (C g).requireInitialized fun _ => (C g).bind mirrored_requireHalted fun _ =>
        (C g).bind (mirrored_readAllRegs _) fun _ => (C g).pure _⟩
  all_goals simp [namesHart, losesMirror] at hn hl

theorem movesHarts_of_losesMirror (hl : losesMirror i = false) : movesHarts i = false := by
  revert hl; cases i <;> simp [losesMirror, movesHarts]

/-- A valid mirror of a session that meets rule R20 stays valid but for the commands of 42_dm.md R140. -/
theorem mirrored_exec (hl : losesMirror i = false) (ht : exec i s = .next t) (hg : Mirrored g s.eng) :
    (t.eng.ses.hart g).cacheValid = true := by
  cases hn : namesHart i with
  | true =>
    obtain ⟨m, hm, hk⟩ := mirrored_named hn hl
    rw [hm] at ht
    cases ht
    exact (finish_hart _ g).symm ▸ (hk g s.eng.begin hg).1
  | false =>
    obtain ⟨m, r, rfl⟩ := (runs i).next ht
    have hh : (endState (m s.eng.begin)).ses.harts = s.eng.begin.ses.harts :=
      r.sameHarts hn (movesHarts_of_losesMirror hl) _
    rw [finish_hart, Session.hart, hh]
    exact hg.1

/-! ## The error detail -/

/-- The detail changes only at a failing end (60_exceptions.md R163); AlreadyHalted is none (log 5). -/
theorem finish_errDetail {r : EStateM.Result Raise Engine Progress} (hr : ∀ k e, r = .error k e → k.kind ≠ .ok)
    (h : (finish r).ses.port.busy = true ∨ (finish r).ses.port.resultStatus = .ok
      ∨ (finish r).ses.port.resultStatus = .alreadyHalted) :
    (finish r).ses.errDetail = (endState r).ses.errDetail := by
  rcases r with ⟨_ | g, e⟩ | ⟨k, e⟩
  · rfl
  · rfl
  · by_cases hk : k.kind = .alreadyHalted
    · simp only [finish, Engine.failed, hk, if_true]; rfl
    · simp only [finish, Engine.failed, hk, if_false] at h
      obtain h | h | h := h
      · cases h
      · exact absurd h (hr k e rfl)
      · exact absurd h hk

end Sys2Proof.Machine
end

section
/-! SUPPORT. The fields of a session change only by the commands that own them (10_state.md R14, R16 to R18, R21). -/

namespace Sys2Proof.Machine

variable {i : Instr} {s t : State}

/-- An acknowledge row's SELECT cache: lost by the wire, or because the transaction in flight writes SELECT. -/
theorem exec_selectLost (hc : i ≠ .connect) (hd : i ≠ .disconnect) (ht : exec i s = .next t)
    (hv : s.eng.ses.dap.selValid = true) (hn : t.eng.ses.dap.selValid = false) :
    t.eng.saw lineResetEvents ∨ t.eng.saw (requestEvents false false 0x8)
      ∨ ackRow i = true ∧ s.eng.ses.txn.request.writesSelect = true := by
  have hlost {r : EStateM.Result Raise Engine Progress} (hr : SelectLost s.eng.begin (endState r)) :
      (finish r).ses.dap.selValid = false →
        (finish r).saw lineResetEvents ∨ (finish r).saw (requestEvents false false 0x8) := by
    rw [finish_dap, Engine.saw, Engine.saw, finish_record]
    exact hr.lost hv
  cases ha : ackRow i with
  | false =>
    obtain ⟨m, r, rfl⟩ := (runs i).next ht
    exact (hlost (r.respects (fun _ => mirror_selectLost) (selectLost_own hc hd ha) _) hn).imp_right .inl
  | true =>
    obtain ⟨ack, hk⟩ := exec_ackRow ha
    rw [hk] at ht
    cases ht
    cases hq : s.eng.ses.txn.request.writesSelect with
    | true => exact .inr (.inr ⟨rfl, rfl⟩)
    | false =>
      refine (hlost ?_ hn).imp_right .inl
      rw [endState_returns]
      exact selectLost_answerAck ack hq

theorem exec_selectHolds (ht : exec i s = .next t) (hv : t.eng.ses.dap.selValid = true) :
    t.eng.select = s.eng.select ∨ t.eng.selectWritten := by
  obtain ⟨m, r, rfl⟩ := (runs i).next ht
  have hr := r.respects (fun _ => mirror_selectHolds) (selectHolds_own i) s.eng.begin
  rw [Engine.select, Engine.selectWritten, Engine.saw, finish_dap, finish_record]
  exact hr.holds (by rwa [finish_dap] at hv)

theorem exec_filled {h : HartId} (ht : exec i s = .next t) (hv : (t.eng.ses.hart h).cacheValid = true) :
    (s.eng.ses.hart h).cacheValid = true ∨ (s.eng.ses.dm.cacheEnabled = true ∧ names s.eng.ses.port.arg0 h
      ∧ (i = .trace ∨ (i = .readAllRegs ∧ t.eng.ses.port.resultStatus = .ok))) := by
  have hfilled (hi : i = .readAllRegs ∨ i = .trace) : (s.eng.ses.hart h).cacheValid = true
      ∨ (s.eng.ses.dm.cacheEnabled = true ∧ names s.eng.ses.port.arg0 h) := by
    obtain ⟨m, r, rfl⟩ := (runs i).next ht
    exact (r.filled hi s.eng.begin).named h (by rwa [finish_hart] at hv)
  by_cases hi : i = .trace
  · exact (hfilled (.inr hi)).imp_right fun ⟨hc, hn⟩ => ⟨hc, hn, .inl hi⟩
  by_cases hr : i = .readAllRegs
  · subst hr
    obtain hs | hf : t.eng.ses.port.resultStatus = .ok ∨ Fades s.eng.begin t.eng := by
      rw [exec_readAllRegs] at ht
      cases ht
      exact finish_readAllRegs _
    · exact (hfilled (.inl rfl)).imp_right fun ⟨hc, hn⟩ => ⟨hc, hn, .inr ⟨rfl, hs⟩⟩
    · exact .inl (hf h hv)
  obtain ⟨m, r, rfl⟩ := (runs i).next ht
  exact .inl (r.fades hr hi s.eng.begin h (by rwa [finish_hart] at hv))

/-- Settles O15: each row's body only changes the fields it owns, the timeline shows every SELECT write and line reset,
and a mirror is filled only at the very end of reading all registers. -/
theorem fieldsChangeOnlyByTheirCommands : Obligations.FieldsChangeOnlyByTheirCommands := by
  intro i s t ht
  have hselect := exec_selectLost (ht := ht)
  have hholds := exec_selectHolds ht
  have hfilled (h : HartId) := exec_filled (h := h) ht
  have hstays (h : HartId) (hs : SessionInv s.eng.ses) (hl : losesMirror i = false)
      (hv : (s.eng.ses.hart h).cacheValid = true) :=
    mirrored_exec hl ht ⟨hv, (hs.mirrorNeedsHalt h hv).1, (hs.mirrorNeedsHalt h hv).2.2⟩
  obtain ⟨m, r, rfl⟩ := (runs i).next ht
  have hk := r.kept s.eng.begin
  refine ⟨fun hc hd => ?_, fun hf => ?_, fun hf hc => ?_, fun hc hd hp => ?_, fun hc hd hi => ?_,
    fun hc hd hi hs => ?_, fun he => ?_, fun hc hd hv hn => ?_, fun hv => ?_, hfilled, hstays, fun he => ?_⟩
  · simpa [Engine.link, and_assoc] using hk.link hc hd
  · simpa using hk.freqKhz hf
  · simpa using hk.clkdiv hf hc
  · simpa using hk.powered hc hd hp
  · simpa using hk.initialized hc hd hi
  · simpa using hk.sbaInitialized hc hd hi hs
  · simpa using hk.cacheEnabled he
  · simpa [Engine.saw, Request.writesSelect, and_assoc, dpSelect] using hselect hc hd hv hn
  · refine (hholds hv).imp_left fun h => ?_
    obtain ⟨h1, h2, h3, h4⟩ : _ ∧ _ ∧ _ ∧ _ := by simpa only [Engine.select, Prod.mk.injEq] using h
    exact ⟨h1 ▸ hv, h2, h3, h4⟩
  · exact (finish_errDetail (fun k e h => r.ends.proper _ _ _ h) he).trans hk.errDetail

end Sys2Proof.Machine
end

section
/-! SUPPORT. A CONNECT that fails raises with no value of its own, so its result value is 0 (60_exceptions.md R163). -/

namespace Sys2Proof.Machine

variable {α β : Type}

/-- Every raise of the procedure has the value 0 (60_exceptions.md R163). -/
def RaisesZero (m : Proc α) : Prop := ∀ e r e', m e = .error r e' → r.value = 0

namespace RaisesZero

theorem of_ok {m : Proc α} (h : ∀ e, ∃ a e', m e = .ok a e') : RaisesZero m := fun e r e' he => by
  obtain ⟨a, e₁, h⟩ := h e
  rw [h] at he; cases he

theorem pure (a : α) : RaisesZero (Pure.pure a : Proc α) := of_ok fun _ => ⟨_, _, rfl⟩
theorem getSes : RaisesZero Machine.getSes := of_ok fun _ => ⟨_, _, rfl⟩
theorem modifySes {f : Session → Session} : RaisesZero (Machine.modifySes f) := of_ok fun _ => ⟨_, _, rfl⟩

theorem throw {r : Raise} (h : r.value = 0) : RaisesZero (MonadExcept.throw r : Proc α) := fun _ _ _ he => by
  cases he; exact h

theorem raise {k : ErrorKind} : RaisesZero (Machine.raise k : Proc α) := throw rfl

theorem bind {m : Proc α} {f : α → Proc β} (hm : RaisesZero m) (hf : ∀ a, RaisesZero (f a)) :
    RaisesZero (m >>= f) := by
  intro e r e' h
  rw [bind_run] at h
  cases hc : m e with
  | ok a e₁ => rw [hc] at h; exact hf a e₁ r e' h
  | error r₁ e₁ => rw [hc] at h; cases h; exact hm e _ _ hc

theorem tryCatch {m : Proc α} {f : Raise → Proc α} (hm : RaisesZero m)
    (hf : ∀ r, r.value = 0 → RaisesZero (f r)) : RaisesZero (MonadExcept.tryCatch m f : Proc α) := by
  intro e r e' h
  cases hc : m e with
  | ok a e₁ => cases (tryCatch_ok hc).symm.trans h
  | error r₁ e₁ => exact hf r₁ (hm e _ _ hc) e₁ r e' ((tryCatch_error hc).symm.trans h)

theorem onRaise {m : Proc α} {c : Proc Unit} (hm : RaisesZero m) (hc : RaisesZero c) :
    RaisesZero (Machine.onRaise m c) := tryCatch hm fun _ hr => bind hc fun _ => throw hr

theorem ite {c : Prop} [Decidable c] {m n : Proc α} (hm : RaisesZero m) (hn : RaisesZero n) :
    RaisesZero (if c then m else n) := by split <;> assumption

theorem require {c : Bool} {k : ErrorKind} : RaisesZero (Machine.require c k) := ite (pure _) raise

/-! A transaction and its retries -/

theorem sample : RaisesZero Machine.sample := fun e r e' h => by
  unfold Machine.sample at h
  split at h <;> cases h

theorem sampleBits : ∀ n, RaisesZero (Machine.sampleBits n)
  | 0 => pure _
  | n + 1 => bind sample fun _ => bind (sampleBits n) fun _ => pure _

theorem driveBits (bs : List Bool) : RaisesZero (Machine.driveBits bs) := of_ok fun e => ⟨_, _, driveBits_run bs e⟩
theorem turnaround : RaisesZero Machine.turnaround := of_ok fun e => ⟨_, _, turnaround_run e⟩
theorem trailingIdle : RaisesZero Machine.trailingIdle := of_ok fun e => ⟨_, _, trailingIdle_run e⟩
theorem sleep {us : Nat} : RaisesZero (Machine.sleep us) := of_ok fun e => ⟨_, _, sleep_run us e⟩
theorem lineResetSeq : RaisesZero Machine.lineResetSeq := of_ok fun e => ⟨_, _, lineResetSeq_run e⟩

theorem dataIn : RaisesZero Machine.dataIn :=
  bind (sampleBits _) fun _ => bind sample fun _ => bind turnaround fun _ => bind trailingIdle fun _ =>
    bind require fun _ => pure _

theorem dataOut (w : Word) : RaisesZero (Machine.dataOut w) := of_ok fun e => ⟨_, _, dataOut_run w e⟩

theorem afterAck (q : Request) (ack : BitVec 3) : RaisesZero (Machine.afterAck q ack) :=
  bind modifySes fun _ => by
    cases ackMeaning ack with
    | ok => exact ite dataIn (dataOut _)
    | wait | fault => exact bind turnaround fun _ => bind trailingIdle fun _ => pure _
    | malformed => exact bind turnaround fun _ => bind lineResetSeq fun _ => bind trailingIdle fun _ => raise

theorem sampleAck : RaisesZero Machine.sampleAck :=
  bind sample fun _ => bind sample fun _ => bind sample fun _ => pure _

theorem txn (q : Request) : RaisesZero (Machine.txn q) :=
  bind (driveBits _) fun _ => bind turnaround fun _ => bind sampleAck fun _ => afterAck q _

theorem settle {m : Proc Word} (hm : RaisesZero m) : ∀ a, RaisesZero (Machine.settle m a)
  | .ok _ => pure _
  | .wait => hm
  | .fault => raise

theorem retry (q : Request) : ∀ n, RaisesZero (Machine.retry q n)
  | 0 => bind modifySes fun _ => bind (txn q) (settle raise)
  | n + 1 => bind modifySes fun _ => bind (txn q) (settle (bind sleep fun _ => retry q n))

theorem retryTxn {q : Request} : RaisesZero (Machine.retryTxn q) := bind getSes fun _ => retry q _

/-! The DAP -/

theorem poll {read : Proc Word} {test : Word → Bool} {us : Nat} (h : RaisesZero read) :
    ∀ n, RaisesZero (Machine.poll read test us n)
  | 0 => pure _
  | n + 1 => bind h fun _ => ite (pure _) (bind (ite sleep (pure _)) fun _ => poll h n)

theorem dpRead {a : BitVec 4} : RaisesZero (Machine.dpRead a) := retryTxn
theorem dpWrite {a : BitVec 4} {w : Word} : RaisesZero (Machine.dpWrite a w) := bind retryTxn fun _ => pure _

theorem selectAp {apsel bank : BitVec 4} : RaisesZero (Machine.selectAp apsel bank) :=
  bind getSes fun _ => ite (pure _) (bind modifySes fun _ => bind dpWrite fun _ => modifySes)

theorem apRead {apsel : BitVec 4} {reg : Byte} : RaisesZero (Machine.apRead apsel reg) :=
  bind selectAp fun _ => bind retryTxn fun _ => dpRead

theorem apWrite {apsel : BitVec 4} {reg : Byte} {w : Word} : RaisesZero (Machine.apWrite apsel reg w) :=
  bind selectAp fun _ => bind retryTxn fun _ => bind dpRead fun _ => pure _

theorem powerUp : RaisesZero Machine.powerUp :=
  bind modifySes fun _ => bind dpWrite fun _ => bind dpWrite fun _ => bind (poll dpRead _) fun o => by
    cases o with
    | none => exact raise
    | some _ => exact modifySes

/-! The initialisation of the DM, and CONNECT -/

theorem handshakeWrite {w : Word} : RaisesZero (Machine.handshakeWrite w) := bind apWrite fun _ => sleep
theorem handshakeStatus : RaisesZero Machine.handshakeStatus := bind apRead fun _ => bind require fun _ => pure _

/-- DmInit ignores what SbaInit raises. -/
theorem tryCatch_ignored {m : Proc Unit} : RaisesZero (MonadExcept.tryCatch m fun _ => Pure.pure () : Proc Unit) :=
  of_ok fun e => by
    cases hm : m e with
    | ok a e₁ => exact ⟨a, e₁, tryCatch_ok hm⟩
    | error r e₁ => exact ⟨(), e₁, tryCatch_error hm⟩

theorem activateDm : RaisesZero Machine.activateDm :=
  bind modifySes fun _ => bind modifySes fun _ => tryCatch_ignored

theorem dmInit : RaisesZero Machine.dmInit := by
  rw [dmInit_eq]
  exact bind modifySes fun _ => bind apWrite fun _ => bind apWrite fun _ => bind handshakeWrite fun _ =>
    bind handshakeWrite fun _ => bind handshakeWrite fun _ => bind handshakeStatus fun _ => bind selectAp fun _ =>
      activateDm

theorem activationSeq : RaisesZero Machine.activationSeq := bind (driveBits _) fun _ => modifySes
theorem readIdcode : RaisesZero Machine.readIdcode := tryCatch dpRead fun _ _ => raise

theorem connectWith {x : Slot} : RaisesZero (Machine.connectWith x) :=
  bind modifySes fun _ => bind activationSeq fun _ => bind readIdcode fun _ => bind require fun _ =>
    bind modifySes fun _ => bind powerUp fun _ => bind dmInit fun _ => pure _

theorem connectUnwind : RaisesZero Machine.connectUnwind := of_ok fun e => by
  obtain ⟨e₁, h, -⟩ := connectUnwind_spec e
  exact ⟨(), e₁, h⟩

theorem connectFrom {x : Slot} : RaisesZero (Machine.connectFrom x) := onRaise connectWith connectUnwind

end RaisesZero

end Sys2Proof.Machine
end

section
/-! SUPPORT. How CONNECT ends, by one CMD write or in two parts (40_wire.md R91 to R93; log 1). -/

namespace Sys2Proof.Machine

variable {s s' t u : State} {e : Engine} {tr : Tracker} {x : Slot} {id : SessionId} {rest : List Input}

/-! ## The slot tracker -/

/-- A slot that `Acquire` gets was free (R92). -/
theorem ownerOf_of_pick {c : Option Slot} (h : tr.pick c = some x) : tr.ownerOf x = none := by
  cases ho : tr.ownerOf x with
  | none => rfl
  | some o => exact absurd h (pick_ne_of_owned ho c)

/-- A free slot that is taken and given back is as it was. -/
theorem setOwner_setOwner_none {o : Option SessionId} (h : tr.ownerOf x = none) :
    (tr.setOwner x o).setOwner x none = tr := by
  have h' : tr.owner[x.index.val] = none := h
  have hset : (tr.owner.set x.index o).set x.index none = tr.owner := by
    ext1 k hk
    simp only [Vector.getElem_set]
    split
    · next hx => subst hx; exact h'.symm
    · rfl
  exact congrArg Tracker.mk hset

/-! ## The end of CONNECT -/

/-- The end of a command leaves the connection's fields as its body left them. -/
theorem finish_unwound (r : EStateM.Result Raise Engine Progress) :
    (finish r).ses.unwound ↔ (endState r).ses.unwound := by
  simp only [Session.unwound, finish_connected, finish_wire, finish_dap, finish_dm]

theorem failed_resultValue (e : Engine) (r : Raise) : (e.failed r).ses.port.resultValue = r.value := by
  unfold Engine.failed
  split <;> rfl

/-- A command that returns a word ends with another status than Ok only by a raise. -/
theorem returns_error_of_status {m : Proc Word} (h : (finish (returns m e)).ses.port.resultStatus ≠ .ok) :
    ∃ r e', m e = .error r e' ∧ returns m e = .error r e' := by
  cases hm : m e with
  | ok v e₁ => rw [returns, bind_ok hm] at h; exact absurd rfl h
  | error r e₁ => exact ⟨r, e₁, rfl, bind_error hm⟩

/-- From `e` a CONNECT that had got slot `x` has failed: the slot is free, the session disconnected, no hart known and
the result value 0 (R91, R93, R163). -/
def ConnectFailed (x : Slot) (e e' : Engine) : Prop :=
  e'.tracker = e.tracker.setOwner x none ∧ e'.ses.unwound ∧ e'.ses.port.resultValue = 0
    ∧ ∀ h, (e'.ses.hart h).known = false ∧ (e'.ses.hart h).halted = false ∧ (e'.ses.hart h).cacheValid = false

theorem finish_continueConnect (h : (finish (continueConnect x e)).ses.port.resultStatus ≠ .ok) :
    ConnectFailed x e (finish (continueConnect x e)) := by
  rw [ConnectFailed]
  rw [continueConnect] at h ⊢
  obtain ⟨r, e₁, hm, hr⟩ := returns_error_of_status h
  obtain ⟨ht, hu, hh⟩ := connectFrom_error hm
  rw [finish_unwound, finish_tracker, hr]
  exact ⟨ht, hu, (failed_resultValue _ _).trans (RaisesZero.connectFrom e r e₁ hm), fun g => by
    rw [finish_hart]; exact hh g⟩

/-! ## The two parts are the whole -/

theorem beginConnect_connected (hc : e.ses.connected = true) : beginConnect e = .ok (.done 0) e := by
  rw [beginConnect, bind_ok (getSes_run e), if_pos hc]; rfl

theorem beginConnect_refused (hc : e.ses.connected = false) (hp : e.tracker.pick e.ses.cfg.slot = none) :
    beginConnect e = .error ⟨.resourceBusy, 0⟩ e := by
  rw [beginConnect, bind_ok (getSes_run e), if_neg (by rw [hc]; decide), bind_error (acquire_none hp)]

theorem returns_connectSession_connected (hc : e.ses.connected = true) :
    returns connectSession e = .ok (.done 0) e := by
  have h : connectSession e = .ok 0 e := by rw [connectSession, bind_ok (getSes_run e), if_pos hc]; rfl
  rw [returns, bind_ok h]; rfl

theorem returns_connectSession_refused (hc : e.ses.connected = false) (hp : e.tracker.pick e.ses.cfg.slot = none) :
    returns connectSession e = .error ⟨.resourceBusy, 0⟩ e := by
  have h : connectSession e = .error ⟨.resourceBusy, 0⟩ e := by
    rw [connectSession, bind_ok (getSes_run e), if_neg (by rw [hc]; decide), bind_error (acquire_none hp)]
  rw [returns, bind_error h]

theorem returns_connectSession_acquired (hc : e.ses.connected = false) (hp : e.tracker.pick e.ses.cfg.slot = some x) :
    returns connectSession e = continueConnect x { e with tracker := e.tracker.setOwner x (some e.self) } := by
  rw [continueConnect, returns, returns, bind_run, bind_run, connectSession_acquired hc hp]

theorem goOn_connect (h : s.eng.ses.hold = .connect x) : goOn s = resumeCommand (continueConnect x) s := by
  unfold goOn; rw [h]

/-- With no CONNECT under way going on has no effect. -/
theorem goOn_idle (h : ∀ x, s.eng.ses.hold ≠ .connect x) : goOn s = .next s := by
  unfold goOn
  split
  · next x hx => exact absurd hx (h x)
  all_goals rfl

/-- Going on directly after `Acquire` is CONNECT by one CMD write. -/
theorem goOn_of_beginConnect (h : runCommand beginConnect s = .next u) :
    goOn u = runCommand (returns connectSession) s := by
  cases h
  cases hc : s.eng.ses.connected with
  | true =>
    rw [beginConnect_connected (e := s.eng.begin) hc, runCommand,
      returns_connectSession_connected (e := s.eng.begin) hc]
    exact goOn_idle nofun
  | false =>
    cases hp : s.eng.tracker.pick s.eng.ses.cfg.slot with
    | none =>
      rw [beginConnect_refused (e := s.eng.begin) hc hp, runCommand,
        returns_connectSession_refused (e := s.eng.begin) hc hp]
      exact goOn_idle nofun
    | some x =>
      rw [beginConnect_acquired (e := s.eng.begin) hc hp, runCommand,
        returns_connectSession_acquired (e := s.eng.begin) hc hp]
      exact goOn_connect rfl

/-! ## Serving the actions -/

/-- The session brought into focus is the one asked for, and no action is served by it. -/
theorem focus_self (h : s.focus id = some s') : s'.eng.self = id ∧ s'.inbox = s.inbox := by
  unfold State.focus at h
  split at h
  · next hl => cases h; exact ⟨by simpa using (Bool.and_eq_true_iff.1 hl).2, rfl⟩
  split at h
  · cases h
  · next p hp => cases h; exact ⟨by simpa using List.find?_some hp, rfl⟩

theorem focus_of_live (hl : s.eng.ses.live = true) (hs : s.eng.self = id) : s.focus id = some s := by
  unfold State.focus
  rw [if_pos (by rw [hl, hs, beq_self_eq_true]; rfl)]

theorem onSession_focus {f : State → Host.Outcome State Fault Refusal} (h : s.focus id = some s') :
    onSession id s f = f s' := by
  unfold onSession; rw [h]

theorem step_startConnect (hi : s.inbox = .startConnect id :: rest)
    (hf : { s with inbox := rest }.focus id = some s') : step s = startConnect s' := by
  unfold step serveNext; rw [hi]; exact onSession_focus hf

theorem step_goOn (hi : s.inbox = .goOn id :: rest) (hf : { s with inbox := rest }.focus id = some s') :
    step s = goOn s' := by
  unfold step serveNext; rw [hi]; exact onSession_focus hf

theorem step_writeCmd {op : Byte} (hi : s.inbox = .writeCmd id op :: rest)
    (hf : { s with inbox := rest }.focus id = some s') : step s = writeCmd op s' := by
  unfold step serveNext; rw [hi]; exact onSession_focus hf

theorem startConnect_busy (hb : s.eng.ses.port.busy = true) : startConnect s = .next s := by
  unfold startConnect; rw [if_pos hb]

theorem startConnect_ready (hb : s.eng.ses.port.busy = false) :
    startConnect s = runCommand beginConnect s.commanded := by
  unfold startConnect; rw [if_neg (by rw [hb]; decide)]; rfl

/-- A CMD write of CONNECT's opcode on a port that is not busy is CONNECT. -/
theorem writeCmd_connect (hb : s.eng.ses.port.busy = false) :
    writeCmd 0x01 s = runCommand (returns connectSession) s.commanded := by
  unfold writeCmd; rw [if_neg (by rw [hb]; decide)]; rfl

/-! ## A CONNECT that fails -/

theorem exec_connect (s : State) :
    exec .connect s = .next { s with eng := finish (returns connectSession s.eng.begin) } := rfl

/-- CONNECT by one CMD write that fails leaves the tracker as it was and the session disconnected. -/
theorem exec_connect_failed (hs : SessionInv s.eng.ses) (hc : s.online = false) (ht : exec .connect s = .next t)
    (hk : t.eng.ses.port.resultStatus ≠ .ok) :
    t.eng.tracker = s.eng.tracker ∧ t.eng.ses.unwound ∧ t.eng.ses.port.resultValue = 0 := by
  injection (exec_connect s).symm.trans ht with ht
  have he : t.eng = finish (returns connectSession s.eng.begin) := by rw [← ht]
  rw [he] at hk ⊢
  cases hp : s.eng.tracker.pick s.eng.ses.cfg.slot with
  | none =>
    obtain ⟨hi, hslot, hpow, hsel, hdm, hsba⟩ := hs.offline hc
    rw [returns_connectSession_refused (e := s.eng.begin) hc hp]
    exact ⟨finish_tracker _, (finish_unwound _).2 ⟨hc, hslot, hi, hpow, hsel, hdm, hsba⟩, failed_resultValue _ _⟩
  | some x =>
    rw [returns_connectSession_acquired (e := s.eng.begin) hc hp] at hk ⊢
    obtain ⟨htrack, hu, hv, -⟩ := finish_continueConnect hk
    exact ⟨htrack.trans (setOwner_setOwner_none (ownerOf_of_pick hp)), hu, hv⟩

/-- A CONNECT under way that goes on and fails frees its slot and leaves the session disconnected. -/
theorem goOn_failed (hx : s.eng.ses.hold = .connect x) (ht : goOn s = .next t)
    (hk : t.eng.ses.port.resultStatus ≠ .ok) : ConnectFailed x s.eng t.eng := by
  rw [goOn_connect hx, resumeCommand] at ht
  injection ht with ht
  have he : t.eng = finish (continueConnect x { s.eng with ses.hold := .none }) := by rw [← ht]
  rw [he] at hk ⊢
  exact finish_continueConnect (e := { s.eng with ses.hold := .none }) hk

/-! ## A CONNECT in two parts -/

/-- `Acquire` of a CONNECT in two parts: the slot is the session's, BUSY is 1, and nothing else changes. -/
theorem startConnect_acquired (hb : s.eng.ses.port.busy = false) (hc : s.online = false)
    (hp : s.eng.tracker.pick s.eng.ses.cfg.slot = some x) :
    startConnect s = .next
      { s.commanded.holding (.connect x) [] with eng.tracker := s.eng.tracker.setOwner x (some s.eng.self) } := by
  rw [startConnect_ready hb, runCommand, beginConnect_acquired (e := s.commanded.eng.begin) hc hp]
  rfl

theorem startConnect_connected (hb : s.eng.ses.port.busy = false) (hc : s.online = true) :
    startConnect s = .next (s.commanded.returned 0 []) := by
  rw [startConnect_ready hb, runCommand, beginConnect_connected (e := s.commanded.eng.begin) hc]
  rfl

theorem startConnect_refused (hb : s.eng.ses.port.busy = false) (hc : s.online = false)
    (hp : s.eng.tracker.pick s.eng.ses.cfg.slot = none) :
    startConnect s = .next (s.commanded.raised .resourceBusy 0 []) := by
  rw [startConnect_ready hb, runCommand, beginConnect_refused (e := s.commanded.eng.begin) hc hp]
  rfl

/-- A begun CONNECT leaves its session in focus and alive. -/
theorem beginConnect_kept (h : runCommand beginConnect s = .next u) :
    u.eng.self = s.eng.self ∧ u.eng.ses.live = s.eng.ses.live ∧ u.inbox = s.inbox := by
  cases h
  rw [finish_self, finish_live]
  cases hc : s.eng.ses.connected with
  | true => rw [beginConnect_connected (e := s.eng.begin) hc]; exact ⟨rfl, rfl, rfl⟩
  | false =>
    cases hp : s.eng.tracker.pick s.eng.ses.cfg.slot with
    | none => rw [beginConnect_refused (e := s.eng.begin) hc hp]; exact ⟨rfl, rfl, rfl⟩
    | some x => rw [beginConnect_acquired (e := s.eng.begin) hc hp]; exact ⟨rfl, rfl, rfl⟩

/-- Starting a CONNECT and going on directly is the CMD write of CONNECT. -/
theorem step_goOn_of_startConnect (hi : s.inbox = .startConnect id :: rest)
    (hf : { s with inbox := rest }.focus id = some s') (hb : s'.eng.ses.port.busy = false)
    (hl : s'.eng.ses.live = true) (hu : step s = .next u) :
    step { u with inbox := .goOn id :: rest } = step { s with inbox := .writeCmd id 0x01 :: rest } := by
  obtain ⟨hself, hinbox⟩ := focus_self hf
  rw [step_startConnect hi hf, startConnect_ready hb] at hu
  obtain ⟨hself', hlive', hinbox'⟩ := beginConnect_kept hu
  have hu' : { u with inbox := rest } = u := congrArg (fun r => { u with inbox := r }) (hinbox'.trans hinbox).symm
  have hfocus : { u with inbox := rest }.focus id = some u :=
    hu' ▸ focus_of_live (hlive'.trans hl) (hself'.trans hself)
  have hwrite : step { s with inbox := .writeCmd id 0x01 :: rest } = writeCmd 0x01 s' := step_writeCmd rfl hf
  calc step { u with inbox := .goOn id :: rest }
      = goOn u := step_goOn rfl hfocus
    _ = runCommand (returns connectSession) s'.commanded := goOn_of_beginConnect hu
    _ = writeCmd 0x01 s' := (writeCmd_connect hb).symm
    _ = step { s with inbox := .writeCmd id 0x01 :: rest } := hwrite.symm

/-- In a state that satisfies the invariant the slot of a CONNECT under way is its session's own, so no `Acquire` gets
it. -/
theorem ProbeInv.pick_ne_connecting (h : ProbeInv s) {p : SessionId × Session} (hp : p ∈ s.sessions)
    (hx : p.2.hold = .connect x) (c : Option Slot) : s.eng.tracker.pick c ≠ some x :=
  pick_ne_of_owned (h.owns p hp x (by rw [Session.takenSlot, hx])) c

/-- Settles O35: the rest of CONNECT is the same procedure in both forms, and what it raises it raises after
ConnectUnwind, which gives back the slot `Acquire` took. -/
theorem failedConnectUnwinds : Obligations.FailedConnectUnwinds := by
  refine ⟨fun s t => exec_connect_failed, fun s s' id rest hi hf => ⟨fun hb => ?_, fun hb => ?_⟩,
    fun s s' id rest hi hf => ?_, fun s p x h => h.pick_ne_connecting⟩
  · rw [step_startConnect hi hf, startConnect_busy hb]
  · have hself := (focus_self hf).1
    refine ⟨fun hc => ?_, fun hc hp => ?_, fun x hc hp => ?_, fun u hl hu => step_goOn_of_startConnect hi hf hb hl hu⟩
    · rw [step_startConnect hi hf, startConnect_connected hb hc]
    · rw [step_startConnect hi hf, startConnect_refused hb hc hp]
    · rw [step_startConnect hi hf, startConnect_acquired hb hc hp, hself]
  · rw [step_goOn hi hf]
    exact ⟨goOn_idle, fun x t => goOn_failed⟩

end Sys2Proof.Machine
end

section
/-! SUPPORT. The words the engine composes, as sums of their fields, and the decoder against the encoder, one encoding
space at a time (30_encoding.md R55 to R71, R75). -/

namespace Sys2Proof

open Machine (word_lt wordOfBytes_wordBytes dmWord bitsOf bitsOf_requestByte apAddr)

/-! ## Words as sums of their fields -/

/-- A field shifted above a smaller word adds up with it. -/
theorem shiftLeft_or_toNat {n : Nat} (y : BitVec n) (k : Nat) {x : Word} (hx : x.toNat < 2 ^ k) (hy : n + k ≤ 32) :
    (y.setWidth 32 <<< k ||| x).toNat = y.toNat * 2 ^ k + x.toNat := by
  have hlt : y.toNat * 2 ^ k < 2 ^ 32 := calc
    y.toNat * 2 ^ k < 2 ^ n * 2 ^ k := Nat.mul_lt_mul_of_pos_right y.isLt (Nat.two_pow_pos k)
    _ = 2 ^ (n + k) := (Nat.pow_add 2 n k).symm
    _ ≤ 2 ^ 32 := Nat.pow_le_pow_right (by decide) hy
  have hle : y.toNat ≤ y.toNat * 2 ^ k := Nat.le_mul_of_pos_right _ (Nat.two_pow_pos k)
  rw [BitVec.toNat_or, BitVec.toNat_shiftLeft, BitVec.toNat_setWidth, Nat.mod_eq_of_lt (hle.trans_lt hlt),
    Nat.shiftLeft_eq, Nat.mod_eq_of_lt hlt, ← Nat.shiftLeft_eq, ← Nat.shiftLeft_add_eq_or_of_lt hx]

theorem selectWord_toNat (apsel bank : BitVec 4) :
    (selectWord apsel bank Config.apCtrlsel).toNat = apsel.toNat * 2 ^ 12 + 0xD * 2 ^ 8 + bank.toNat * 2 ^ 4 + 1 := by
  have hbank : (bank.setWidth 32 <<< 4 ||| (1 : Word)).toNat = bank.toNat * 2 ^ 4 + 1 :=
    shiftLeft_or_toNat bank 4 (by decide) (by decide)
  have hfixed : ((0xD : BitVec 4).setWidth 32 <<< 8 ||| (bank.setWidth 32 <<< 4 ||| (1 : Word))).toNat
      = 0xD * 2 ^ 8 + (bank.toNat * 2 ^ 4 + 1) := hbank ▸ shiftLeft_or_toNat _ 8 (by omega) (by decide)
  have hword : selectWord apsel bank Config.apCtrlsel
      = apsel.setWidth 32 <<< 12 ||| ((0xD : BitVec 4).setWidth 32 <<< 8 ||| (bank.setWidth 32 <<< 4 ||| (1 : Word))) := by
    simp only [selectWord, BitVec.or_assoc]; rfl
  rw [hword, shiftLeft_or_toNat apsel 12 (by omega) (by decide), hfixed]
  omega

theorem insnCsrr_toNat (c : BitVec 12) : (insnCsrr c).toNat = 0x00002473 + c.toNat * 2 ^ 20 := by
  rw [insnCsrr, BitVec.or_comm, shiftLeft_or_toNat c 20 (by decide) (by decide), Nat.add_comm]; rfl

theorem insnCsrw_toNat (c : BitVec 12) : (insnCsrw c).toNat = 0x00041073 + c.toNat * 2 ^ 20 := by
  rw [insnCsrw, BitVec.or_comm, shiftLeft_or_toNat c 20 (by decide) (by decide), Nat.add_comm]; rfl

/-- A register number is added to a word without a wrap. -/
theorem add_setWidth_toNat {x : Word} (hx : x.toNat < 2 ^ 31) (n : BitVec 5) :
    (x + n.setWidth 32).toNat = x.toNat + n.toNat := by
  have := n.isLt
  simp only [BitVec.toNat_add, BitVec.toNat_setWidth, Config.xlen] at hx ⊢
  omega

theorem cmdGprRead_toNat (n : BitVec 5) : (cmdGprRead n).toNat = 0x00221000 + n.toNat := add_setWidth_toNat (by decide) n

theorem cmdGprWrite_toNat (n : BitVec 5) : (cmdGprWrite n).toNat = 0x00231000 + n.toNat := add_setWidth_toNat (by decide) n

/-- A word is the one whose number is its own. -/
theorem wordBytes_of_toNat {x : Word} {n : Nat} (h : x.toNat = n) : wordBytes x = wordBytes (BitVec.ofNat 32 n) := by
  rw [← h, BitVec.ofNat_toNat, BitVec.setWidth_eq]

/-- The row of a DM register's word encodes as that word. -/
theorem encode_of_dmWord {i : Instr} {r : Machine.DmReg} {w : Nat} (h : dmWord i = some (r, w)) :
    encode i = wordBytes (BitVec.ofNat 32 w) := by
  cases i
  all_goals cases h
  case dmcSel h => revert h; decide
  case dmcHalt h => revert h; decide
  case dmcResume h => revert h; decide
  case dmcReset h hr => revert h hr; decide
  case dmcUnreset h hr => revert h hr; decide
  case cmdGprRead n => exact wordBytes_of_toNat (cmdGprRead_toNat n)
  case cmdGprWrite n => exact wordBytes_of_toNat (cmdGprWrite_toNat n)
  case insnCsrr c => exact wordBytes_of_toNat (insnCsrr_toNat c)
  case insnCsrw c => exact wordBytes_of_toNat (insnCsrw_toNat c)
  all_goals rfl

/-! ## Objects of a space -/

/-- The four bytes make a word and are its bytes (20_memory.md R40). -/
theorem wordBytes_wordOfBytes (b0 b1 b2 b3 : Byte) : wordBytes (wordOfBytes b0 b1 b2 b3) = [b0, b1, b2, b3] := by
  have bytes_toNat : (wordOfBytes b0 b1 b2 b3).toNat
      = b3.toNat * 2 ^ 24 + b2.toNat * 2 ^ 16 + b1.toNat * 2 ^ 8 + b0.toNat := by
    simp only [wordOfBytes, BitVec.setWidth_eq, BitVec.toNat_append]
    rw [← Nat.shiftLeft_add_eq_or_of_lt b2.isLt, ← Nat.shiftLeft_add_eq_or_of_lt b1.isLt,
      ← Nat.shiftLeft_add_eq_or_of_lt b0.isLt]
    simp only [Nat.shiftLeft_eq]
    omega
  simp only [wordBytes, List.cons.injEq, ← BitVec.toNat_inj, BitVec.extractLsb'_toNat, Nat.shiftRight_eq_div_pow,
    bytes_toNat, and_true]
  omega

theorem decode_cons {sp : Space} (h : sp.oneByte = true) (b : Byte) (rest : List Byte) :
    decode sp (b :: rest) = (decodeByte sp b).map fun i => (i, rest) := by
  unfold decode; rw [if_pos h]

theorem decode_wordBytes {sp : Space} (h : sp.oneByte = false) (w : Word) (rest : List Byte) :
    decode sp (wordBytes w ++ rest) = (decodeWord sp w).map fun i => (i, rest) := by
  unfold decode
  rw [if_neg (by rw [h]; decide)]
  exact congrArg (fun w => (decodeWord sp w).map fun i => (i, rest)) (wordOfBytes_wordBytes w)

/-- What decodes is one byte, or the four bytes of one word, at the head of the list. -/
theorem decode_eq_some {sp : Space} {bytes rest : List Byte} {i : Instr} (h : decode sp bytes = some (i, rest)) :
    (∃ b, bytes = b :: rest ∧ decodeByte sp b = some i)
      ∨ ∃ w, bytes = wordBytes w ++ rest ∧ decodeWord sp w = some i := by
  unfold decode at h
  split at h
  · split at h
    · next b tail =>
      obtain ⟨j, hj, hp⟩ := Option.map_eq_some_iff.1 h
      cases hp
      exact .inl ⟨b, rfl, hj⟩
    · cases h
  · split at h
    · next b0 b1 b2 b3 tail =>
      obtain ⟨j, hj, hp⟩ := Option.map_eq_some_iff.1 h
      cases hp
      exact .inr ⟨_, by rw [wordBytes_wordOfBytes]; rfl, hj⟩
    · cases h

/-! ## Decoding what is encoded -/

/-- In the instruction's space the bytes are read as the instruction, whatever follows. -/
def ReadsBack (i : Instr) : Prop := ∀ rest, decode i.space (encode i ++ rest) = some (i, rest)

theorem ReadsBack.byte {i : Instr} {b : Byte} (hs : i.space.oneByte = true) (he : encode i = [b])
    (hd : decodeByte i.space b = some i) : ReadsBack i := fun rest => by
  rw [he, List.singleton_append, decode_cons hs, hd]; rfl

theorem ReadsBack.word {i : Instr} {w : Word} (hs : i.space.oneByte = false) (he : encode i = wordBytes w)
    (hd : decodeWord i.space w = some i) : ReadsBack i := fun rest => by
  rw [he, decode_wordBytes hs, hd]; rfl

theorem decodeAck_setWidth {v : BitVec 3} (h : malformedAck v = true) :
    decodeAck (v.setWidth 8) = some (.ackProtocolError v) := by revert v; decide

theorem decodeCommand_reserved {op : Byte} (h : reservedOpcode op = true) :
    decodeCommand op = .reservedHostOpcode op := by
  unfold decodeCommand
  split
  case h_51 => rfl
  all_goals simp_all [reservedOpcode]

/-- A field of a word by its number. -/
theorem extractLsb'_eq_iff {w : Word} {k n : Nat} {x : BitVec n} :
    w.extractLsb' k n = x ↔ w.toNat / 2 ^ k % 2 ^ n = x.toNat := by
  rw [← BitVec.toNat_inj, BitVec.extractLsb'_toNat, Nat.shiftRight_eq_div_pow]

theorem decodeSelect_selectWord (apsel bank : BitVec 4) :
    decodeSelect (selectWord apsel bank Config.apCtrlsel) = some (.selectWord apsel bank) := by
  have ha := apsel.isLt
  have hb := bank.isLt
  have field {k n : Nat} {x : BitVec n}
      (h : (apsel.toNat * 2 ^ 12 + 0xD * 2 ^ 8 + bank.toNat * 2 ^ 4 + 1) / 2 ^ k % 2 ^ n = x.toNat) :
      (selectWord apsel bank Config.apCtrlsel).extractLsb' k n = x :=
    extractLsb'_eq_iff.2 (selectWord_toNat apsel bank ▸ h)
  have hzero : (selectWord apsel bank Config.apCtrlsel).extractLsb' 16 16 = 0 :=
    field (show _ = 0 by omega)
  have hfixed : (selectWord apsel bank Config.apCtrlsel).extractLsb' 8 4 = Config.selectFixed :=
    field (show _ = 0xD by omega)
  have hctrl : (selectWord apsel bank Config.apCtrlsel).extractLsb' 0 4 = Config.apCtrlsel :=
    field (show _ = 1 by omega)
  unfold decodeSelect
  rw [if_pos ⟨hzero, hfixed, hctrl⟩, field (x := apsel) (by omega), field (x := bank) (by omega)]

theorem decodeDmCommand_cmdGprRead (n : BitVec 5) : decodeDmCommand (cmdGprRead n) = some (.cmdGprRead n) := by
  have hn := n.isLt
  have hw := cmdGprRead_toNat n
  have hne : cmdGprRead n ≠ Config.postexecCommand := ne_of_apply_ne BitVec.toNat (hw ▸ show 0x00221000 + n.toNat ≠ 0x00040000 by omega)
  have hop : (cmdGprRead n).extractLsb' 5 27 = 69760 := extractLsb'_eq_iff.2 (show _ = 69760 by omega)
  unfold decodeDmCommand
  rw [if_neg hne, if_pos hop, (extractLsb'_eq_iff (x := n)).2 (by omega)]

theorem decodeDmCommand_cmdGprWrite (n : BitVec 5) : decodeDmCommand (cmdGprWrite n) = some (.cmdGprWrite n) := by
  have hn := n.isLt
  have hw := cmdGprWrite_toNat n
  have hne : cmdGprWrite n ≠ Config.postexecCommand := ne_of_apply_ne BitVec.toNat (hw ▸ show 0x00231000 + n.toNat ≠ 0x00040000 by omega)
  have hop : (cmdGprWrite n).extractLsb' 5 27 = 71808 := extractLsb'_eq_iff.2 (show _ = 71808 by omega)
  unfold decodeDmCommand
  rw [if_neg hne, if_neg (by rw [hop]; decide), if_pos hop, (extractLsb'_eq_iff (x := n)).2 (by omega)]

theorem decodeProgbuf_insnCsrr (c : BitVec 12) : decodeProgbuf (insnCsrr c) = some (.insnCsrr c) := by
  have hc := c.isLt
  have hw := insnCsrr_toNat c
  have hne : insnCsrr c ≠ Config.insnEbreak := ne_of_apply_ne BitVec.toNat (hw ▸ show 0x00002473 + c.toNat * 2 ^ 20 ≠ 0x00100073 by omega)
  have hop : (insnCsrr c).extractLsb' 0 20 = 0x02473 := extractLsb'_eq_iff.2 (show _ = 0x02473 by omega)
  unfold decodeProgbuf
  rw [if_neg hne, if_pos hop, (extractLsb'_eq_iff (x := c)).2 (by omega)]

theorem decodeProgbuf_insnCsrw (c : BitVec 12) : decodeProgbuf (insnCsrw c) = some (.insnCsrw c) := by
  have hc := c.isLt
  have hw := insnCsrw_toNat c
  have hne : insnCsrw c ≠ Config.insnEbreak := ne_of_apply_ne BitVec.toNat (hw ▸ show 0x00041073 + c.toNat * 2 ^ 20 ≠ 0x00100073 by omega)
  have hop : (insnCsrw c).extractLsb' 0 20 = 0x41073 := extractLsb'_eq_iff.2 (show _ = 0x41073 by omega)
  unfold decodeProgbuf
  rw [if_neg hne, if_neg (by rw [hop]; decide), if_pos hop, (extractLsb'_eq_iff (x := c)).2 (by omega)]

theorem readsBack (i : Instr) (hi : i.wellFormed = true) : ReadsBack i := by
  cases i
  case ackProtocolError v => exact .byte rfl rfl (decodeAck_setWidth hi)
  case reservedHostOpcode op => exact .byte rfl rfl (congrArg some (decodeCommand_reserved hi))
  case selectWord apsel bank => exact .word rfl rfl (decodeSelect_selectWord apsel bank)
  case dmcSel h => exact .word rfl rfl (by clear hi; revert h; decide)
  case dmcHalt h => exact .word rfl rfl (by clear hi; revert h; decide)
  case dmcResume h => exact .word rfl rfl (by clear hi; revert h; decide)
  case dmcReset h hr => exact .word rfl rfl (by clear hi; revert h hr; decide)
  case dmcUnreset h hr => exact .word rfl rfl (by clear hi; revert h hr; decide)
  case cmdGprRead n => exact .word rfl rfl (decodeDmCommand_cmdGprRead n)
  case cmdGprWrite n => exact .word rfl rfl (decodeDmCommand_cmdGprWrite n)
  case insnCsrr c => exact .word rfl rfl (decodeProgbuf_insnCsrr c)
  case insnCsrw c => exact .word rfl rfl (decodeProgbuf_insnCsrw c)
  case ctrlstatClear | ctrlstatPwrupReq | ctrlstatClearErrorsPowered | ctrlstatClearErrorsUnpowered
      | cswInit | dminitSeq1 | dminitSeq2 | dminitSeq3 | dminitExpected | cmdPostexec | abstractcsClearCmderr
      | insnEbreak | sbcsCfg => exact .word rfl rfl rfl
  all_goals exact .byte rfl rfl rfl

/-! ## Encoding what is decoded -/

/-- The instruction is well-formed and these are its bytes in its space. -/
structure Encodes (i : Instr) (sp : Space) (bytes : List Byte) : Prop where
  wellFormed : i.wellFormed = true
  space : i.space = sp
  bytes : encode i = bytes

/-- A decoder that compares a word with one constant. -/
theorem Encodes.of_eq {i j : Instr} {sp : Space} {w c : Word} (hj : Encodes j sp (wordBytes c))
    (h : (if w = c then some j else none) = some i) : Encodes i sp (wordBytes w) := by
  split at h
  · next hw => cases h; exact hw ▸ hj
  · cases h

theorem eq_ofNat_of_toNat {b : Byte} {n : Nat} (h : b.toNat = n) : b = BitVec.ofNat 8 n := by
  rw [← h, BitVec.ofNat_toNat, BitVec.setWidth_eq]

theorem decodeRequest_encodes {b : Byte} {i : Instr} (h : decodeRequest b = some i) : Encodes i .request [b] := by
  unfold decodeRequest at h
  split at h
  case h_17 => cases h
  all_goals
    next hb =>
    obtain rfl := eq_ofNat_of_toNat hb
    cases h
    exact ⟨rfl, rfl, rfl⟩

theorem decodeAck_encodes {b : Byte} {i : Instr} (h : decodeAck b = some i) : Encodes i .ack [b] := by
  unfold decodeAck at h
  split at h
  case h_4 h1 h2 h4 =>
    split at h
    · next hlt =>
      have hv : (BitVec.ofNat 3 b.toNat).toNat = b.toNat := Nat.mod_eq_of_lt hlt
      cases h
      refine ⟨?_, rfl, ?_⟩
      · simp only [Instr.wellFormed, malformedAck, Bool.and_eq_true, bne_iff_ne, ne_eq, ← BitVec.toNat_inj, hv]
        exact ⟨⟨h1, h2⟩, h4⟩
      · exact congrArg (fun b => [b]) (BitVec.eq_of_toNat_eq (by rw [BitVec.toNat_setWidth, hv]; omega))
    · cases h
  all_goals
    next hb =>
    obtain rfl := eq_ofNat_of_toNat hb
    cases h
    exact ⟨rfl, rfl, rfl⟩

theorem decodeCommand_encodes (op : Byte) : Encodes (decodeCommand op) .command [op] := by
  unfold decodeCommand
  split
  case h_51 => 
    refine ⟨?_, rfl, rfl⟩
    simp only [Instr.wellFormed, reservedOpcode, Bool.or_eq_true, Bool.and_eq_true, beq_iff_eq, decide_eq_true_eq]
    simp only [imp_false] at *
    omega
  all_goals
    next hb =>
    obtain rfl := eq_ofNat_of_toNat hb
    exact ⟨rfl, rfl, rfl⟩

theorem decodeByte_encodes {sp : Space} {b : Byte} {i : Instr} (h : decodeByte sp b = some i) : Encodes i sp [b] := by
  unfold decodeByte at h
  split at h
  · exact decodeRequest_encodes h
  · exact decodeAck_encodes h
  · cases h; exact decodeCommand_encodes b
  · cases h

theorem decodeSelect_encodes {w : Word} {i : Instr} (h : decodeSelect w = some i) :
    Encodes i .dpSelect (wordBytes w) := by
  unfold decodeSelect at h
  split at h
  · next hw =>
    cases h
    obtain ⟨hzero, hfixed, hctrl⟩ := hw
    have hzero : w.toNat / 2 ^ 16 % 2 ^ 16 = 0 := extractLsb'_eq_iff.1 hzero
    have hfixed : w.toNat / 2 ^ 8 % 2 ^ 4 = 0xD := extractLsb'_eq_iff.1 hfixed
    have hctrl : w.toNat / 2 ^ 0 % 2 ^ 4 = 1 := extractLsb'_eq_iff.1 hctrl
    have hapsel : w.toNat / 2 ^ 12 % 2 ^ 4 = (w.extractLsb' 12 4).toNat := extractLsb'_eq_iff.1 rfl
    have hbank : w.toNat / 2 ^ 4 % 2 ^ 4 = (w.extractLsb' 4 4).toNat := extractLsb'_eq_iff.1 rfl
    have hlt := word_lt w
    exact ⟨rfl, rfl, congrArg wordBytes (BitVec.eq_of_toNat_eq (by rw [selectWord_toNat]; omega))⟩
  · cases h

theorem decodeCtrlStat_encodes {w : Word} {i : Instr} (h : decodeCtrlStat w = some i) :
    Encodes i .ctrlStat (wordBytes w) := by
  unfold decodeCtrlStat at h
  split_ifs at h
  all_goals
    subst w
    cases h
    exact ⟨rfl, rfl, rfl⟩

theorem decodeHandshake_encodes {w : Word} {i : Instr} (h : decodeHandshake w = some i) :
    Encodes i .handshake (wordBytes w) := by
  unfold decodeHandshake at h
  split_ifs at h
  all_goals
    subst w
    cases h
    exact ⟨rfl, rfl, rfl⟩

/-- A DMCONTROL word that names a hart is its flags and its hart selection. -/
theorem flags_or_hartselField {w f : Word} {h : HartId} (hw : decodeHartsel w = some h) (hf : dmcFlags w = f) :
    f ||| hartselField h = w := by
  subst hf
  unfold decodeHartsel at hw
  split at hw
  · cases hw
    refine BitVec.eq_of_getLsbD_eq fun k hk => ?_
    simp only [dmcFlags, hartselField, BitVec.ofNat_toNat, BitVec.setWidth_eq, BitVec.getLsbD_or, BitVec.getLsbD_and,
      BitVec.getLsbD_not, BitVec.getLsbD_shiftLeft, BitVec.getLsbD_setWidth, BitVec.getLsbD_extractLsb',
      BitVec.getLsbD_allOnes]
    by_cases hlo : k < 16
    · simp [hk, hlo]
    · by_cases hhi : k - 16 < 10
      · have hfield : k - 16 < Config.xlen := by omega
        simp [hk, hlo, hhi, hfield, show 16 + (k - 16) = k by omega]
      · simp [hk, hlo, hhi]
  · cases hw

theorem decodeDmControl_encodes {w : Word} {i : Instr} (h : decodeDmControl w = some i) :
    Encodes i .dmControl (wordBytes w) := by
  unfold decodeDmControl at h
  split at h
  · cases h
  · next g hg =>
    have hw {f} : dmcFlags w = f → _ := flags_or_hartselField hg
    have hhalt : (0x80000003 : Word) ||| hartselField g = dmcReset g true := by clear * -; revert g; decide
    have hrun : (0x00000003 : Word) ||| hartselField g = dmcReset g false := by clear * -; revert g; decide
    split_ifs at h with h1 h2 h3 h4 h5
    all_goals cases h
    · exact ⟨rfl, rfl, congrArg wordBytes (hw h1)⟩
    · exact ⟨rfl, rfl, congrArg wordBytes (hw h2)⟩
    · exact ⟨rfl, rfl, congrArg wordBytes (hw h3)⟩
    · exact ⟨rfl, rfl, congrArg wordBytes (hrun.symm.trans (hw h4))⟩
    · exact ⟨rfl, rfl, congrArg wordBytes (hhalt.symm.trans (hw h5))⟩

theorem decodeDmControlRelease_encodes {w : Word} {i : Instr} (h : decodeDmControlRelease w = some i) :
    Encodes i .dmControlRelease (wordBytes w) := by
  unfold decodeDmControlRelease at h
  split at h
  · cases h
  · next g hg =>
    have hw {f} : dmcFlags w = f → _ := flags_or_hartselField hg
    have hhalt : (0x80000001 : Word) ||| hartselField g = dmcUnreset g true := by clear * -; revert g; decide
    have hrun : (0x00000001 : Word) ||| hartselField g = dmcUnreset g false := by clear * -; revert g; decide
    split_ifs at h with h1 h2
    all_goals cases h
    · exact ⟨rfl, rfl, congrArg wordBytes (hrun.symm.trans (hw h1))⟩
    · exact ⟨rfl, rfl, congrArg wordBytes (hhalt.symm.trans (hw h2))⟩

theorem decodeDmCommand_encodes {w : Word} {i : Instr} (h : decodeDmCommand w = some i) :
    Encodes i .dmCommand (wordBytes w) := by
  have hreg : w.toNat / 2 ^ 0 % 2 ^ 5 = (w.extractLsb' 0 5).toNat := extractLsb'_eq_iff.1 rfl
  unfold decodeDmCommand at h
  split_ifs at h with hpost hread hwrite
  all_goals cases h
  · exact ⟨rfl, rfl, hpost ▸ rfl⟩
  · have hread : w.toNat / 2 ^ 5 % 2 ^ 27 = 69760 := extractLsb'_eq_iff.1 hread
    have hlt := word_lt w
    exact ⟨rfl, rfl, congrArg wordBytes (BitVec.eq_of_toNat_eq (by rw [cmdGprRead_toNat]; omega))⟩
  · have hwrite : w.toNat / 2 ^ 5 % 2 ^ 27 = 71808 := extractLsb'_eq_iff.1 hwrite
    have hlt := word_lt w
    exact ⟨rfl, rfl, congrArg wordBytes (BitVec.eq_of_toNat_eq (by rw [cmdGprWrite_toNat]; omega))⟩

theorem decodeProgbuf_encodes {w : Word} {i : Instr} (h : decodeProgbuf w = some i) :
    Encodes i .progbuf (wordBytes w) := by
  have hcsr : w.toNat / 2 ^ 20 % 2 ^ 12 = (w.extractLsb' 20 12).toNat := extractLsb'_eq_iff.1 rfl
  unfold decodeProgbuf at h
  split_ifs at h with hebreak hread hwrite
  all_goals cases h
  · exact ⟨rfl, rfl, hebreak ▸ rfl⟩
  · have hread : w.toNat / 2 ^ 0 % 2 ^ 20 = 0x02473 := extractLsb'_eq_iff.1 hread
    have hlt := word_lt w
    exact ⟨rfl, rfl, congrArg wordBytes (BitVec.eq_of_toNat_eq (by rw [insnCsrr_toNat]; omega))⟩
  · have hwrite : w.toNat / 2 ^ 0 % 2 ^ 20 = 0x41073 := extractLsb'_eq_iff.1 hwrite
    have hlt := word_lt w
    exact ⟨rfl, rfl, congrArg wordBytes (BitVec.eq_of_toNat_eq (by rw [insnCsrw_toNat]; omega))⟩

theorem decodeWord_encodes {sp : Space} {w : Word} {i : Instr} (h : decodeWord sp w = some i) :
    Encodes i sp (wordBytes w) := by
  cases sp
  case dpSelect => exact decodeSelect_encodes h
  case ctrlStat => exact decodeCtrlStat_encodes h
  case handshake => exact decodeHandshake_encodes h
  case dmControl => exact decodeDmControl_encodes h
  case dmControlRelease => exact decodeDmControlRelease_encodes h
  case dmCommand => exact decodeDmCommand_encodes h
  case progbuf => exact decodeProgbuf_encodes h
  case apCsw | handshakeStatus | abstractCs | sbcs => exact .of_eq ⟨rfl, rfl, rfl⟩ h
  case request | ack | command => cases h

/-! ## The statements about the encoding -/

/-- Settles O1: each row's bytes are one object of its space, and the decoder of that space reads it back field by
field. -/
theorem decodeOfEncode : Obligations.DecodeOfEncode := fun i rest hi => readsBack i hi rest

/-- Settles O2: each decoder checks every bit of its object but the fields it reads, which the encoder puts back. -/
theorem encodeOfDecode : Obligations.EncodeOfDecode := by
  intro sp bytes i rest h
  rcases decode_eq_some h with ⟨b, rfl, hb⟩ | ⟨w, rfl, hw⟩
  · obtain ⟨hwf, hsp, hbytes⟩ := decodeByte_encodes hb
    exact ⟨hwf, hsp, by rw [hbytes, List.singleton_append]⟩
  · obtain ⟨hwf, hsp, hbytes⟩ := decodeWord_encodes hw
    exact ⟨hwf, hsp, by rw [hbytes]⟩

/-- Settles O3: each word runs through the decoder of its space. -/
theorem writtenWordsDecode : Obligations.WrittenWordsDecode := by
  exact ⟨rfl, rfl, rfl, rfl, rfl, rfl, rfl, rfl, rfl⟩

theorem bitsOf_getElem {n : Nat} (w : BitVec n) (k : Nat) (hk : k < n) : (bitsOf w)[k]? = some w[k] := by
  rw [bitsOf, List.getElem?_map, List.getElem?_range hk, Option.map_some, BitVec.getLsbD_eq_getElem hk]

/-- The value of the request byte is the sum of its fields (R55). -/
theorem requestByte_toNat (ap rnw : Bool) (a : BitVec 4) :
    (requestByte ap rnw a).toNat = 0x81 + 2 * ap.toNat + 4 * rnw.toNat + 8 * a[2].toNat + 16 * a[3].toNat
      + 32 * (ap ^^ rnw ^^ a[2] ^^ a[3]).toNat := by
  revert a; cases ap <;> cases rnw <;> decide

/-- A[3:2] of an AP access are those of the AP register's offset (R63). -/
theorem apAddr_bit (reg : Byte) {k : Nat} (hk : k < 4) (hmask : (0xC : BitVec 4)[k] = true) :
    (apAddr reg)[k] = reg[k] := by
  rw [apAddr, BitVec.getElem_and, hmask, Bool.and_true, BitVec.getElem_extractLsb', Nat.zero_add,
    BitVec.getLsbD_eq_getElem (by omega)]

/-- Settles O4: the bits of the byte, bit 0 first, are the list that `bitsOf_requestByte` gives. -/
theorem requestByteFields : Obligations.RequestByteFields := by
  refine ⟨fun ap rnw a => ?_, fun reg => ⟨apAddr_bit reg (by decide) (by decide),
    apAddr_bit reg (by decide) (by decide)⟩⟩
  have hbits := bitsOf_requestByte ap rnw a
  have bit (k : Nat) (hk : k < 8) := hbits ▸ (bitsOf_getElem (requestByte ap rnw a) k hk)
  exact ⟨(Option.some.inj (bit 0 (by decide))).symm, (Option.some.inj (bit 1 (by decide))).symm,
    (Option.some.inj (bit 2 (by decide))).symm, (Option.some.inj (bit 3 (by decide))).symm,
    (Option.some.inj (bit 4 (by decide))).symm, (Option.some.inj (bit 5 (by decide))).symm,
    (Option.some.inj (bit 6 (by decide))).symm, (Option.some.inj (bit 7 (by decide))).symm,
    requestByte_toNat ap rnw a, by rw [hbits]; rfl⟩

/-- Settles O5: fields that do not overlap are or-ed together as they are added. -/
theorem composedWords : Obligations.ComposedWords :=
  ⟨fun apsel bank => wordBytes_of_toNat (selectWord_toNat apsel bank), fun _ _ _ => encode_of_dmWord⟩

end Sys2Proof
end

section
/-! SUPPORT. The host's accesses to the command port and what bringing a session into focus does (30_encoding.md R70 to
R74; 44_ops.md R159; 60_exceptions.md R162, R170). -/

namespace Sys2Proof.Machine

variable {s s' : State} {id : SessionId} {rest : List Input}

/-! ## Serving one action -/

/-- An action on a session that exists is served at the state with that session in focus. -/
theorem step_onSession {x : Input} {f : State → Host.Outcome State Fault Refusal}
    (hx : ∀ s, serve x s = onSession id s f) (hi : s.inbox = x :: rest)
    (hf : { s with inbox := rest }.focus id = some s') : step s = f s' := by
  unfold step serveNext
  rw [hi]
  exact (hx _).trans (onSession_focus hf)

theorem step_writeArg {k : Fin 4} {v : Word} (hi : s.inbox = .writeArg id k v :: rest)
    (hf : { s with inbox := rest }.focus id = some s') : step s = .next (s'.modifySes fun x => x.writeArg k v) :=
  step_onSession (f := fun t => .next (t.modifySes fun x => x.writeArg k v)) (fun _ => rfl) hi hf

theorem step_writeDin {w : Word} (hi : s.inbox = .writeDin id w :: rest)
    (hf : { s with inbox := rest }.focus id = some s') :
    step s = resumeDin (s'.modifySes fun x => { x with port.din := x.port.din ++ [w] }) :=
  step_onSession (f := fun t => resumeDin (t.modifySes fun x => { x with port.din := x.port.din ++ [w] }))
    (fun _ => rfl) hi hf

theorem step_writeTraceReply {b : Bool} (hi : s.inbox = .writeTraceReply id b :: rest)
    (hf : { s with inbox := rest }.focus id = some s') : step s = replyTrace b s' :=
  step_onSession (fun _ => rfl) hi hf

theorem step_readPort {r : PortReg} (hi : s.inbox = .readPort id r :: rest)
    (hf : { s with inbox := rest }.focus id = some s') : step s = .next (s'.readPort r) :=
  step_onSession (f := fun t => .next (t.readPort r)) (fun _ => rfl) hi hf

/-! ## A CMD write -/

theorem writeCmd_busy {op : Byte} (hb : s.eng.ses.port.busy = true) : writeCmd op s = .next s := by
  unfold writeCmd; rw [if_pos hb]

/-- A CMD write on a port that is not busy runs the instruction of its opcode (R74). -/
theorem writeCmd_idle {op : Byte} (hb : s.eng.ses.port.busy = false) :
    writeCmd op s = exec (decodeCommand op) (s.modifySes fun x => { x with port.cmd := op }) := by
  have hop : (op.setWidth 32).extractLsb' 0 8 = op := by
    have := op.isLt
    apply BitVec.eq_of_toNat_eq
    rw [BitVec.extractLsb'_toNat, BitVec.toNat_setWidth, Nat.shiftRight_zero]
    omega
  unfold writeCmd
  rw [if_neg (by rw [hb]; decide)]
  exact congrArg (fun b => exec (decodeCommand b) _) hop

/-- Settles O6: a CMD write is served at its session, and one byte of CMD's space is its opcode. -/
theorem stepRunsAWrittenCommand : Obligations.StepRunsAWrittenCommand := by
  intro s s' id op rest i more hi hf hb hd
  cases hd
  rw [step_writeCmd hi hf, writeCmd_idle hb]

/-! ## DIN and TRACE_REPLY writes that no command waits for -/

theorem resumeDin_idle (h : s.eng.ses.hold = .none ∨ (∃ h m c n, s.eng.ses.hold = .trace h m c n)
    ∨ ∃ x, s.eng.ses.hold = .connect x) : resumeDin s = .next s := by
  unfold resumeDin
  rcases h with h | ⟨_, _, _, _, h⟩ | ⟨_, h⟩ <;> rw [h]

theorem replyTrace_idle {b : Bool} (h : ∀ g m c n, s.eng.ses.hold ≠ .trace g m c n) : replyTrace b s = .next s := by
  unfold replyTrace
  split
  · next hh => exact absurd hh (h _ _ _ _)
  all_goals rfl

/-! ## Reads of the port -/

/-- The code of a status is its place in the order of R162. -/
theorem code_of_statusOrder {n : Nat} {k : ErrorKind} (h : statusOrder[n]? = some k) :
    k.code.setWidth Config.xlen = BitVec.ofNat 32 n := by
  have hn : n < 16 := (List.getElem?_eq_some_iff.1 h).1
  revert k
  interval_cases n <;> decide

theorem readPort_resultStatus {n : Nat} (h : statusOrder[n]? = some s.eng.ses.port.resultStatus) :
    s.readPort .resultStatus = { s with hostData := BitVec.ofNat 32 n } := by
  rw [← code_of_statusOrder h]; rfl

/-- A read of DOUT takes its oldest word (R70). -/
theorem readPort_dout {w : Word} {ws : List Word} (h : s.eng.ses.port.dout = w :: ws) :
    s.readPort .dout = { s.modifySes fun x => { x with port.dout := ws } with hostData := w } := by
  unfold State.readPort Session.readPort; rw [h]; rfl

/-- A read of an empty DOUT returns a free value (log 13). -/
theorem readPort_dout_empty (h : s.eng.ses.port.dout = []) :
    s.readPort .dout = { s with hostData := Config.portWord s.eng.free, eng.free := s.eng.free + 1 } := by
  unfold State.readPort Session.readPort; rw [h]

/-! ## Focus -/

/-- Where session numbers are distinct, the sessions are the one of a number and those of other numbers. -/
theorem perm_cons_filter_id {l : List Parked} {p : Parked} (hd : (l.map Parked.id).Nodup) (hp : p ∈ l) :
    l.Perm (p :: l.filter fun q => !(q.id == p.id)) := by
  have hfilter : l.filter (fun q => !(q.id == p.id)) = l.filter (· != p) :=
    List.filter_congr fun q hq => congrArg not (Bool.eq_iff_iff.2 (by
      rw [beq_iff_eq, beq_iff_eq]
      exact ⟨fun h => List.inj_on_of_nodup_map hd hq hp h, congrArg Parked.id⟩))
  rw [hfilter, ← hd.of_map.erase_eq_filter]
  exact List.perm_cons_erase hp

/-- Bringing a session into focus moves the sessions and changes none. -/
theorem ProbeInv.focus_perm (h : ProbeInv s) (hf : s.focus id = some s') : s'.sessions.Perm s.sessions := by
  have hlive' := (h.focus hf).2
  unfold State.focus at hf
  split at hf
  · cases hf; exact .refl _
  split at hf
  · cases hf
  next p hp =>
  cases hf
  have hpid : p.id = id := by simpa using List.find?_some hp
  have hmem : p ∈ s.parkFocus := by
    unfold State.parkFocus
    split
    · exact List.mem_cons_of_mem _ (List.mem_of_find?_eq_some hp)
    · exact List.mem_of_find?_eq_some hp
  have hd : (s.parkFocus.map Parked.id).Nodup := by
    have hd := h.distinct
    rwa [sessions_eq_parkFocus, List.map_map] at hd
  subst hpid
  rw [sessions_of_live hlive', sessions_eq_parkFocus]
  exact ((perm_cons_filter_id hd hmem).map fun p : Parked => (p.id, p.ses)).symm

/-- Bringing a session into focus changes the session in focus and the parked ones only. -/
theorem focus_fields (hf : s.focus id = some s') :
    s'.eng.self = id ∧ s'.eng.tracker = s.eng.tracker ∧ s'.nextId = s.nextId ∧ s'.inbox = s.inbox := by
  obtain ⟨hself, hinbox⟩ := focus_self hf
  refine ⟨hself, ?_, ?_, hinbox⟩ <;>
  · unfold State.focus at hf
    split at hf
    · cases hf; rfl
    split at hf
    · cases hf
    · cases hf; rfl

/-- Settles O8: each action is served at its session; a port register is written or read by its own rule, and nothing is
held that the write would lift. -/
theorem hostPortAccesses : Obligations.HostPortAccesses := by
  refine ⟨fun s s' id k v rest hi hf => ?_, fun s s' id w rest hi hf hh => ?_, fun s s' id r rest hi hf => ?_,
    fun s s' id op rest hi hf hb => ?_, fun s s' id b rest hi hf hh => ?_, fun s s' id hs hf =>
      ⟨hs.focus_perm hf, focus_fields hf⟩⟩
  · rw [step_writeArg hi hf]
    refine ⟨?_, ?_, ?_, ?_⟩ <;> (rintro rfl; rfl)
  · rw [step_writeDin hi hf]
    exact resumeDin_idle hh
  · rw [step_readPort hi hf]
    refine ⟨?_, ?_, ?_, ?_, ?_, fun n hr hn => ?_, ?_, fun w ws hr hd => ?_, fun hr hd => ?_⟩
    case refine_6 => rw [hr, readPort_resultStatus hn]
    case refine_8 => rw [hr, readPort_dout hd]
    case refine_9 => exact ⟨_, by rw [hr, readPort_dout_empty hd]⟩
    all_goals rintro rfl; rfl
  · rw [step_writeCmd hi hf, writeCmd_busy hb]
  · rw [step_writeTraceReply hi hf, replyTrace_idle hh]

end Sys2Proof.Machine
end

section
/-! SUPPORT. How every instruction ends, and the rows of the opcode table that are words for target registers, the SELECT
cache hitting or not (30_encoding.md R64 to R69, R74; 41_dap.md R102, R109; 42_dm.md R117). -/

namespace Sys2Proof.Machine

/-! ## Ended or holding -/

/-- What a body that keeps BUSY at 1 ends as: ended, or held for the host (R74; 60_exceptions.md R169). -/
theorem finish_ended_or_holds {m : Proc Progress} {e : Engine} (hm : Ends m)
    (hb : (endState (m e)).ses.port.busy = true) :
    ((finish (m e)).ses.port.busy = false ∧ (finish (m e)).ses.hold = .none ∧ (finish (m e)).ses.port.din = [])
      ∨ ((finish (m e)).ses.port.busy = true ∧ (finish (m e)).ses.hold ≠ .none) := by
  cases hr : m e with
  | ok p e' =>
    cases p with
    | done v => exact .inl ⟨rfl, rfl, rfl⟩
    | hold h =>
      rw [hr] at hb
      refine .inr ⟨hb, fun hn => ?_⟩
      have hw := hm.waits hr
      rw [show h = .none from hn] at hw
      cases hw
  | error r e' =>
    refine .inl ?_
    simp only [finish, Engine.failed]
    split <;> exact ⟨rfl, rfl, rfl⟩

/-- Settles O18: every row is the run of a body; BUSY is 1 while it runs and the end of the command clears it, unless the
body holds for the host. -/
theorem everyInstructionAnswers : Obligations.EveryInstructionAnswers := by
  intro i s
  obtain ⟨m, hm, hr⟩ := runs i
  exact ⟨_, hm s, finish_ended_or_holds hr.ends (hr.kept s.eng.begin).busy⟩

/-! ## A word and the command that sends it -/

theorem wordBytes_inj {v w : Word} (h : wordBytes v = wordBytes w) : v = w := by
  simp only [wordBytes, List.cons.injEq] at h
  obtain ⟨h0, h1, h2, h3, -⟩ := h
  rw [← wordOfBytes_wordBytes v, ← wordOfBytes_wordBytes w, h0, h1, h2, h3]

/-- The row of a DM register's word writes that word to that register. -/
theorem exec_of_dmWord {i : Instr} {r : DmReg} {w : Nat} (h : dmWord i = some (r, w)) (s : State) :
    exec i s = runCommand (sendWord (dmWrite r (BitVec.ofNat 32 w))) s := by
  obtain ⟨v, hx, hv⟩ : ∃ v, exec i s = runCommand (sendWord (dmWrite r v)) s ∧ encode i = wordBytes v := by
    cases i
    all_goals cases h
    all_goals exact ⟨_, rfl, rfl⟩
  rw [hx, wordBytes_inj (hv.symm.trans (encode_of_dmWord h))]

theorem exec_of_ctrlStatWord {i : Instr} {w : Word} (h : ctrlStatWord i = some w) (s : State) :
    exec i s = runCommand (sendWord (dpWrite dpCtrlStat w)) s := by
  cases i
  all_goals cases h
  all_goals rfl

theorem exec_of_handshakeWord {i : Instr} {w : Word} (h : handshakeWord i = some w) (s : State) :
    exec i s = runCommand (sendWord (handshakeWrite w)) s := by
  cases i
  all_goals cases h
  all_goals rfl

namespace Yields

variable {e e' : Engine} {m : Proc Unit} {t : Script} {P : Unit → Prop}

/-- A word that is sent while connected. -/
theorem sendWord (hc : e.ses.connected = true) (h : Yields m t e P e') :
    Yields (Machine.sendWord m) t e (· = .done 0) e' :=
  returnsZero (bind_quiet (requireConnected hc) fun _ _ => h)

/-- A word of the handshake, the SELECT cache hitting or not. -/
theorem handshakeWriteAny (w : Word) :
    Yields (Machine.handshakeWrite w)
      (maybeSelect (e.ses.selectHit 0xA 1) 0xA 1 ++ apWriteScript apBank1 w ++ [pauses 50000]) e (fun _ => True)
      (e.selecting 0xA 1) :=
  bind (apWrite 0xA apBank1 w) fun _ _ => sleep _

/-- A write over the MEM-AP path, the SELECT cache hitting or not. -/
theorem memApWriteAny {a : Word} (w : Word) (ha : aligned4 a = true) :
    Yields (Machine.memApWrite a w) (maybeSelect (e.ses.selectHit 0xA 0) 0xA 0 ++ memApWriteScript a w) e
      (fun _ => True) (e.selecting 0xA 0) :=
  (bind_quiet (require ha) fun _ _ => bind (apWrite (e := e) 0xA apTar a) fun _ _ =>
    apWriteHit (reg := apDrw) w (selecting_hit _ _ _)).as (List.append_assoc _ _ _)

/-- A write to a DM register, the SELECT cache hitting or not. -/
theorem dmWriteAny (r : DmReg) (w : Word) :
    Yields (Machine.dmWrite r w) (maybeSelect (e.ses.selectHit 0xA 0) 0xA 0 ++ dmWriteScript r w) e (fun _ => True)
      (e.selecting 0xA 0) := by
  rw [dmWriteScript, dmAddress_eq]
  exact memApWriteAny w (aligned4_dm r)

/-- The status word of the handshake, the SELECT cache hitting or not. -/
theorem handshakeStatusAny :
    Yields Machine.handshakeStatus (maybeSelect (e.ses.selectHit 0xA 1) 0xA 1 ++ apReadScript apBank1 (· == 0x04010001)) e
      (· = 0x04010001) (e.selecting 0xA 1) :=
  quiet_bind (apRead 0xA apBank1 (· == 0x04010001)) fun v hv => by
    obtain rfl : v = 0x04010001 := by simpa using hv
    exact bind_quiet (require rfl) fun _ _ => pure _ _

end Yields

/-- Another status word of the handshake, the SELECT cache hitting or not (42_dm.md R117). -/
theorem Raises.handshakeStatusAny {e : Engine} :
    Raises Machine.handshakeStatus (maybeSelect (e.ses.selectHit 0xA 1) 0xA 1 ++ apReadScript apBank1 (· != 0x04010001)) e
      ⟨.invalidState, 0⟩ (e.selecting 0xA 1) :=
  (bind (Yields.apRead 0xA apBank1 (· != 0x04010001)) fun _ hv =>
    head (require (beq_false_of_ne (bne_iff_ne.1 hv)))).as (List.append_nil _)

/-- Settles O58: each row sends its word by the procedure of its register, behind the check of the connection. -/
theorem dpAndApWords : Obligations.DpAndApWords := by
  intro s evs rest hc
  have hc : s.eng.begin.ses.connected = true := hc
  refine ⟨fun apsel bank h => ?_, fun i w hi h => ?_, fun h => ?_, fun i w hi h => ?_, fun h => ?_, fun h => ?_⟩
  · exact completes_done rfl h (.sendWord hc (.writeSelect apsel bank)) rfl rfl
  · exact completes_done (exec_of_ctrlStatWord hi s) h (.sendWord hc (.dpWrite dpCtrlStat w)) rfl rfl
  · have hy := Yields.sendWord hc (.apWrite Config.riscvApsel apCsw Config.cswInit)
    exact completes_done rfl h hy rfl rfl
  · have hy := Yields.sendWord hc (.handshakeWriteAny w)
    exact completes_done (exec_of_handshakeWord hi s) h hy rfl rfl
  · have hy := Yields.returns (.bind_quiet (.requireConnected hc) fun _ _ => .handshakeStatusAny)
    exact completes_done rfl h hy rfl rfl
  · have hy := Raises.head (f := fun v => pure (Progress.done v))
      (Raises.bind_quiet (.requireConnected hc) fun _ _ => .handshakeStatusAny)
    exact completes_raise rfl h hy rfl rfl

/-- Settles O59: each row writes its word to its register by the MEM-AP path, which selects AP 0xA bank 0 when the cache
misses. -/
theorem dmWords : Obligations.DmWords := by
  intro i r w s evs rest hc hw h
  have hc : s.eng.begin.ses.connected = true := hc
  have hy := Yields.sendWord hc (.dmWriteAny r (BitVec.ofNat 32 w))
  exact completes_done (exec_of_dmWord hw s) h hy rfl rfl

/-- Settles O33: CONNECT of a session that is not connected, with a slot to be had, is one script that the target
answers. -/
theorem connectSucceeds : Obligations.ConnectSucceeds := by
  intro s x sba id evs rest hc hx hid h
  exact completes_done rfl h (.returns (.connectSession (e := s.eng.begin) sba hc hx hid)) rfl rfl

end Sys2Proof.Machine
end

section
/-! SUPPORT. A command held for DIN goes on with the next word (30_encoding.md R73; 42_dm.md R137; 44_ops.md R156 to
R158). -/

namespace Sys2Proof.Machine

/-! ## Scripts with a transaction -/

/-- The script has a transaction, so that its timeline has a sample (40_wire.md R82). -/
def Sampled (t : Script) : Prop :=
  ∀ n bits evs rest, talk t n bits evs rest → evs.any WireEvent.isSample = true

namespace Sampled

variable {t u : Script}

theorem left (h : Sampled t) (u : Script) : Sampled (t ++ u) := fun n bits evs rest ht => by
  obtain ⟨mid, evs₁, evs₂, h₁, -, rfl⟩ := talk_append.1 ht
  rw [List.any_append, h _ _ _ _ h₁, Bool.true_or]

theorem right (t : Script) (h : Sampled u) : Sampled (t ++ u) := fun n bits evs rest ht => by
  obtain ⟨mid, evs₁, evs₂, -, h₂, rfl⟩ := talk_append.1 ht
  rw [List.any_append, h _ _ _ _ h₂, Bool.or_true]

theorem writes (ap : Bool) (a : BitVec 4) (w : Word) : Sampled [Machine.writes ap a w] := fun n bits evs rest ht => by
  obtain ⟨k, -, -, rfl⟩ := talk_singleton.1 ht
  simp [okWriteEvents, okWriteBits, WireEvent.isSample]

theorem memApWrite (a w : Word) : Sampled (memApWriteScript a w) := (writes true _ a).left _

theorem memWrite (sba : Bool) (a w : Word) : Sampled (memWriteScript sba a w) := by
  cases sba
  · exact memApWrite a w
  · exact (memApWrite _ a).left _

theorem progbuf (h : HartId) (l : List Word) : Sampled (progbufScript h l) := by
  simp only [progbufScript, List.append_assoc]
  exact (memApWrite _ _).left _

end Sampled

/-! ## Going on -/

/-- Without words on DIN, the end of a command leaves DIN as it is. -/
theorem result_of_din_nil {e : Engine} (hd : e.ses.port.din = []) (k : ErrorKind) (v : Word) :
    e.result k v = { e with
      ses.port.resultStatus := k, ses.port.resultValue := v, ses.port.busy := false, ses.hold := .none } := by
  simp only [Engine.result, hd]

/-- The probe whose held command goes on with the word `w`, the only one on DIN. -/
def State.given (s : State) (w : Word) : State := s.modifySes fun x => { x with port.din := x.port.din ++ [w] }

/-- The engine of a command that was held and goes on, DIN being empty. -/
def Engine.resumed (e : Engine) : Engine := { e with ses.hold := .none }

theorem resumeCommand_eq (body : Proc Progress) (s : State) :
    resumeCommand body s = .next { s with eng := finish (body s.eng.resumed) } := rfl

/-- A held command goes on after a script: its timeline is added to, and the last transaction was acknowledged OK. -/
theorem resumeCommand_yields {body : Proc Progress} {s : State} {t : Script} {evs : List WireEvent} {rest : List Bool}
    {p : Progress} {e' : Engine} (h : s.hears t evs rest) (ht : Sampled t)
    (hy : Yields body t s.eng.resumed (· = p) e') :
    ∃ fl, resumeCommand body s = .next { s with
      eng := (finish (.ok p e')).on rest (evs.reverse ++ s.eng.ses.record) fl 1 } := by
  obtain ⟨-, a, fl, rfl, hb⟩ := hy _ _ _ s.eng.ses.record s.eng.ses.txn s.eng.ses.dap.lastAck h
  have hb : body s.eng.resumed = _ := hb
  have hack : ackAfter evs s.eng.ses.dap.lastAck = 1 := if_pos (ht _ _ _ _ h)
  refine ⟨fl, ?_⟩
  rw [hack] at hb
  rw [resumeCommand_eq, hb]
  cases a <;> rfl

section
variable {s : State} {h : HartId} {a : Word} {n j : Nat} {got : List Word}

theorem resumeDin_writeBlock (hg : s.eng.ses.hold = .writeBlock a n j) :
    resumeDin s = resumeCommand (continueWriteBlock a n j) s := by unfold resumeDin; rw [hg]
theorem resumeDin_upload (hg : s.eng.ses.hold = .upload a n j) :
    resumeDin s = resumeCommand (continueUpload a n j) s := by unfold resumeDin; rw [hg]
theorem resumeDin_executeCode (hg : s.eng.ses.hold = .executeCode h a n j) :
    resumeDin s = resumeCommand (continueExecuteCode h a n j) s := by unfold resumeDin; rw [hg]
theorem resumeDin_progbuf (hg : s.eng.ses.hold = .progbuf h n got) :
    resumeDin s = resumeCommand (continueProgbuf h n got) s := by unfold resumeDin; rw [hg]

end

/-- A DIN write for a session whose held command goes on with that word. -/
theorem step_writeDin_goes_on {s s' : State} {id : SessionId} {w : Word} {inputs : List Input} {body : Proc Progress}
    {t : Script} {evs : List WireEvent} {rest : List Bool} {p : Progress} {e' : Engine}
    (hi : s.inbox = .writeDin id w :: inputs) (hf : { s with inbox := inputs }.focus id = some s')
    (hb : resumeDin (s'.given w) = resumeCommand body (s'.given w)) (h : s'.hears t evs rest) (ht : Sampled t)
    (hy : Yields body t (s'.given w).eng.resumed (· = p) e') :
    ∃ fl, step s = .next { s' with
      eng := (finish (.ok p e')).on rest (evs.reverse ++ s'.eng.ses.record) fl 1 } := by
  rw [step_writeDin hi hf, show resumeDin (s'.modifySes _) = _ from hb]
  exact resumeCommand_yields h ht hy

section
variable {s : State} {w : Word} (hd : s.eng.ses.port.din = [])
include hd

theorem given_din : (s.given w).eng.resumed.ses.port.din = [w] := by
  change s.eng.ses.port.din ++ [w] = [w]
  rw [hd, List.nil_append]

/-- The word taken from DIN, the engine is as it was held. -/
theorem given_withDin : (s.given w).eng.resumed.withDin [] = s.eng.resumed := by
  rw [← hd]; rfl

end

/-- What a block command answers that was given word `j` of `n`: it has ended, or it holds for the next. -/
def blockProgress (n j : Nat) (more : Hold) : Progress :=
  if j + 1 = n then .done (BitVec.ofNat 32 n) else .hold more

/-- The session after that answer. -/
theorem finish_blockProgress {s : State} (hd : s.eng.ses.port.din = []) (n j : Nat) (more : Hold)
    (bits : List Bool) (r : List WireEvent) (fl : InFlight) :
    { s with eng := (finish (.ok (blockProgress n j more) s.eng.resumed)).on bits r fl 1 }
      = (s.modifySes fun x =>
          if j + 1 = n then
            { x with
              hold := .none, port.busy := false, port.resultStatus := .ok, port.resultValue := BitVec.ofNat 32 n }
          else { x with hold := more }).onWire bits r fl 1 := by
  unfold blockProgress
  by_cases hn : j + 1 = n
  · simp only [if_pos hn, finish, result_of_din_nil (e := s.eng.resumed) hd]
    rfl
  · simp only [if_neg hn, finish]
    rfl

namespace Yields

variable {e : Engine}

/-- A block command that finds one word on DIN: it does that one, and is done or asks for the next. -/
theorem feedOne {f : Nat → Word → Proc Unit} {t : Nat → Word → Script} {w : Word} {n j : Nat}
    (hf : ∀ j w d, Yields (f j w) (t j w) (e.withDin d) (fun _ => True) (e.withDin d))
    (hd : e.ses.port.din = [w]) (hj : j < n) :
    Yields (feed f (n - j) j) (t j w) e (· = if j + 1 = n then none else some (j + 1)) (e.withDin []) := by
  have hscript : (([w].zipIdx j).flatMap fun x => t x.2 x.1) = t j w := by simp
  by_cases hn : j + 1 = n
  · rw [if_pos hn, ← hscript, show n - j = [w].length by simp; omega]
    exact feedAll [w] hf (hd.trans (List.append_nil _).symm)
  · rw [if_neg hn, ← hscript]
    exact feedSome [w] hf hd (by simp; omega)

theorem continueWriteBlock {sba : Bool} {a : Word} {n j : Nat} {w : Word} (hj : j < n) (ha : aligned4 a = true)
    (hs : e.ses.selectHit 0xA 0 = true) (hb : sba = e.ses.dm.sbaInitialized) (hd : e.ses.port.din = [w]) :
    Yields (Machine.continueWriteBlock a n j) (memWriteScript sba (blockAddr a j) w) e
      (· = blockProgress n j (.writeBlock a n (j + 1))) (e.withDin []) :=
  quiet_bind (feedOne (fun i _ _ => memWrite _ (aligned4_blockAddr ha i) hs hb) hd hj) fun o ho => by
    subst ho
    unfold blockProgress
    by_cases hn : j + 1 = n
    · simp only [if_pos hn]; exact pure _ _
    · simp only [if_neg hn]; exact pure _ _

theorem continueUpload {sba : Bool} {a : Word} {n j : Nat} {w : Word} (hj : j < n) (ha : aligned4 a = true)
    (hs : e.ses.selectHit 0xA 0 = true) (hb : sba = e.ses.dm.sbaInitialized) (hd : e.ses.port.din = [w]) :
    Yields (Machine.continueUpload a n j)
      (memWriteScript sba (blockAddr a j) w ++ memReadScript sba (blockAddr a j) w) e
      (· = blockProgress n j (.upload a n (j + 1))) (e.withDin []) :=
  quiet_bind (feedOne (t := fun i w => memWriteScript sba (blockAddr a i) w ++ memReadScript sba (blockAddr a i) w)
    (fun i w _ => uploadWord i w ha hs hb) hd hj) fun o ho => by
    subst ho
    unfold blockProgress
    by_cases hn : j + 1 = n
    · simp only [if_pos hn]; exact pure _ _
    · simp only [if_neg hn]; exact pure _ _

/-- EXECUTE_CODE with more words to come. -/
theorem continueExecuteCode {sba : Bool} {h : HartId} {a : Word} {n j : Nat} {w : Word} (hj : j + 1 < n)
    (ha : aligned4 a = true) (hs : e.ses.selectHit 0xA 0 = true) (hb : sba = e.ses.dm.sbaInitialized)
    (hd : e.ses.port.din = [w]) :
    Yields (Machine.continueExecuteCode h a n j)
      (memWriteScript sba (blockAddr a j) w ++ memReadScript sba (blockAddr a j) w) e
      (· = .hold (.executeCode h a n (j + 1))) (e.withDin []) :=
  quiet_bind (feedOne (t := fun i w => memWriteScript sba (blockAddr a i) w ++ memReadScript sba (blockAddr a i) w)
    (fun i w _ => uploadWord i w ha hs hb) hd (by omega)) fun o ho => by
    rw [if_neg (by omega)] at ho
    subst ho
    exact pure _ _

/-- EXECUTE_CODE with the last word of its upload. -/
theorem continueExecuteCodeLast {sba known hit : Bool} {h : HartId} {a w s0 s0' : Word} {n j : Nat} (hj : j + 1 = n)
    (ha : aligned4 a = true) (hs : e.ses.selectHit 0xA 0 = true) (hb : sba = e.ses.dm.sbaInitialized)
    (hd : e.ses.port.din = [w]) (hk : known = ((e.ses.hart h).known && (e.ses.hart h).halted))
    (hm : hit = (known && e.ses.mirrorHit h)) (h0 : hit = true → s0 = (e.ses.hart h).gpr[8]) :
    Yields (Machine.continueExecuteCode h a n j)
      (memWriteScript sba (blockAddr a j) w ++ memReadScript sba (blockAddr a j) w
        ++ launchScript known hit h a s0 s0') e (· = .done 0)
      ((e.withDin []).withHart h fun x =>
        { x.afterCsr e.ses.dm.cacheEnabled s0' with known := true, halted := false }) :=
  bind (feedOne (t := fun i w => memWriteScript sba (blockAddr a i) w ++ memReadScript sba (blockAddr a i) w)
    (fun i w _ => uploadWord i w ha hs hb) hd (by omega)) fun o ho => by
    rw [if_pos hj] at ho
    subst ho
    exact returnsZero (launch (e := e.withDin []) h a s0 s0' hs hk hm h0)

/-- The program of EXECUTE_PROGBUF's words is run on the hart, found halted (42_dm.md R137). -/
theorem executeWords {h : HartId} {ws l : List Word} (hl : progbufList ws = some l)
    (hi : e.ses.dm.initialized = true) (hs : e.ses.selectHit 0xA 0 = true)
    (hk : (e.ses.hart h).known = true → (e.ses.hart h).halted = true) :
    Yields (Machine.executeWords h ws) (requireHaltedScript (e.ses.hart h).known h ++ progbufScript h l) e
      (fun _ => True) (e.withHart h fun x => { x.knownHalted with cacheValid := false }) := by
  unfold Machine.executeWords
  rw [hl]
  exact (bind_quiet (requireInitialized hi) fun _ _ => bind (requireHalted h hs hk) fun _ _ =>
    runProgbuf h l (by simpa using hs)).leaving (by rw [withHart_withHart])

end Yields

/-- The program of one or two words: an `ebreak` comes last, appended where there is room (42_dm.md R137). -/
theorem progbufList_of_programOf {ws l : List Word} (h : programOf ws = some l) : progbufList ws = some l := by
  unfold programOf at h
  split at h
  · next w =>
    by_cases hw : w = 0x00100073
    · subst hw; cases h; rfl
    · rw [if_neg hw] at h
      cases h
      exact (if_neg fun hc => hw (Option.some.inj hc)).trans (if_pos (show 1 < 2 by decide))
  · next w v =>
    split at h
    · next hv => subst hv; cases h; exact if_pos rfl
    · cases h
  · cases h

theorem collectDin_succ {e : Engine} {w : Word} {ws : List Word} (hd : e.ses.port.din = w :: ws) (need : Nat)
    (got : List Word) : collectDin (need + 1) got e = collectDin need (got ++ [w]) (e.withDin ws) := by
  rw [collectDin, bind_ok (popDin_cons hd)]

theorem collectDin_empty {e : Engine} (hd : e.ses.port.din = []) (need : Nat) (got : List Word) :
    collectDin (need + 1) got e = .ok (false, got) e := by
  rw [collectDin, bind_ok (popDin_nil hd)]; rfl

/-- EXECUTE_PROGBUF with more words to come. -/
theorem continueProgbuf_short {e : Engine} {h : HartId} {n : Nat} {got : List Word} {w : Word}
    (hn : got.length + 1 < n) (hd : e.ses.port.din = [w]) :
    continueProgbuf h n got e = .ok (.hold (.progbuf h n (got ++ [w]))) (e.withDin []) := by
  obtain ⟨k, hk⟩ : ∃ k, n - got.length = k + 1 + 1 := ⟨n - got.length - 2, by omega⟩
  have hc : collectDin (n - got.length) got e = .ok (false, got ++ [w]) (e.withDin []) := by
    rw [hk, collectDin_succ hd, collectDin_empty rfl]
  rw [continueProgbuf, bind_ok hc]
  rfl

/-- EXECUTE_PROGBUF with the last of its words. -/
theorem Yields.continueProgbuf {e : Engine} {h : HartId} {n : Nat} {got l : List Word} {w : Word}
    (hn : got.length + 1 = n) (hl : progbufList (got ++ [w]) = some l) (hd : e.ses.port.din = [w])
    (hi : e.ses.dm.initialized = true) (hs : e.ses.selectHit 0xA 0 = true)
    (hk : (e.ses.hart h).known = true → (e.ses.hart h).halted = true) :
    Yields (Machine.continueProgbuf h n got)
      (requireHaltedScript (e.ses.hart h).known h ++ progbufScript h l) e (· = .done 0)
      ((e.withDin []).withHart h fun x => { x.knownHalted with cacheValid := false }) := by
  have hc : Yields (collectDin (n - got.length) got) [] e (· = (true, got ++ [w])) (e.withDin []) := by
    rw [show n - got.length = 0 + 1 by omega]
    exact bind_quiet (popDin hd) fun o ho => by subst ho; exact pure _ _
  exact bind_quiet hc fun x hx => by
    subst hx
    exact returnsZero (executeWords (e := e.withDin []) hl hi hs hk)

/-- The session after a held command has returned 0 and changed one hart. -/
theorem finish_zero_withHart {s : State} (hd : s.eng.ses.port.din = []) (h : HartId) (f : Hart → Hart)
    (bits : List Bool) (r : List WireEvent) (fl : InFlight) :
    (.next { s with eng := (finish (.ok (.done 0) (s.eng.resumed.withHart h f))).on bits r fl 1 } :
        Host.Outcome State Fault Refusal)
      = .next (((s.withHart h f).modifySes fun x =>
          { x with hold := .none, port.busy := false, port.resultStatus := .ok, port.resultValue := 0 }).onWire
            bits r fl 1) := by
  rw [finish, result_of_din_nil (e := s.eng.resumed.withHart h f) hd]
  rfl

/-- Settles O54: the held command finds the word on DIN and goes on as the command does that finds it there; it holds at
the next word or runs to its end. -/
theorem heldCommandsGoOn : Obligations.HeldCommandsGoOn := by
  intro s s' id w rest evs left hi hf hready hd
  simp only [State.ready, Bool.and_eq_true] at hready
  obtain ⟨⟨-, hinit⟩, hsel⟩ := hready
  have hdin := given_din (w := w) hd
  have hend := given_withDin (w := w) hd
  refine ⟨fun a n j hj hn ha => ?_, ?_⟩
  · have ha : aligned4 a = true := (aligned4_iff a).2 ha
    refine ⟨fun hg h => ?_, fun hg h => ?_, fun g hg => ⟨fun hlt h => ?_, fun known hit s0 s0' hlast hk hm h0 h => ?_⟩⟩
    · obtain ⟨fl, hstep⟩ := step_writeDin_goes_on hi hf (resumeDin_writeBlock hg) h (.memWrite _ _ _)
        (.continueWriteBlock hj ha hsel rfl hdin)
      rw [hend, finish_blockProgress hd] at hstep
      exact ⟨fl, hstep⟩
    · obtain ⟨fl, hstep⟩ := step_writeDin_goes_on hi hf (resumeDin_upload hg) h ((Sampled.memWrite _ _ _).left _)
        (.continueUpload hj ha hsel rfl hdin)
      rw [hend, finish_blockProgress hd] at hstep
      exact ⟨fl, hstep⟩
    · obtain ⟨fl, hstep⟩ := step_writeDin_goes_on hi hf (resumeDin_executeCode hg) h ((Sampled.memWrite _ _ _).left _)
        (.continueExecuteCode hlt ha hsel rfl hdin)
      rw [hend] at hstep
      exact ⟨fl, hstep⟩
    · obtain ⟨fl, hstep⟩ := step_writeDin_goes_on hi hf (resumeDin_executeCode hg) h
        (((Sampled.memWrite _ _ _).left _).left _)
        (.continueExecuteCodeLast hlast ha hsel rfl hdin hk hm h0)
      rw [hend] at hstep
      exact ⟨fl, hstep.trans (finish_zero_withHart hd g _ _ _ _)⟩
  · intro g n got hg
    refine ⟨fun hlt => ?_, fun l hlast hl hk h => ?_⟩
    · rw [step_writeDin hi hf, show resumeDin (s'.modifySes _) = _ from resumeDin_progbuf (s := s'.given w) hg,
        resumeCommand_eq, continueProgbuf_short hlt hdin, hend]
      rfl
    · obtain ⟨fl, hstep⟩ := step_writeDin_goes_on hi hf (resumeDin_progbuf hg) h (.right _ (.progbuf _ _))
        (.continueProgbuf hlast (progbufList_of_programOf hl) hdin hinit hsel hk)
      rw [hend] at hstep
      exact ⟨fl, hstep.trans (finish_zero_withHart hd g _ _ _ _)⟩

end Sys2Proof.Machine
end

section
/-! SUPPORT. What an acknowledge row does to the transaction in flight (30_encoding.md R57, R77; 40_wire.md R82; 41_dap.md
R96; logs 14 and 16). -/

namespace Sys2Proof.Machine

variable {i : Instr} {s : State} {e e' : Engine} {m : Proc Word} {q : Request} {n : Nat} {v : Word} {ack : BitVec 3}

/-! ## Commands that return a word -/

/-- A command that returns a word with the engine `u` but for its wire fields. -/
theorem runCommand_returns_ok {u : Engine} {bits : List Bool} {r : List WireEvent} {fl : InFlight}
    (h : m s.eng.begin = .ok v (u.begin.on bits r fl ack)) :
    runCommand (returns m) s = .next (({ s with eng := u }.returned v []).onWire bits r fl ack) := by
  rw [runCommand, returns, bind_ok h]; rfl

/-- A command that raises with the engine `u` but for its wire fields. -/
theorem runCommand_returns_error {u : Engine} {bits : List Bool} {r : List WireEvent} {fl : InFlight} {k : ErrorKind}
    (hk : k ≠ .alreadyHalted) (h : m s.eng.begin = .error ⟨k, v⟩ (u.begin.on bits r fl ack)) :
    runCommand (returns m) s = .next (({ s with eng := u }.raised k v []).onWire bits r fl ack) := by
  rw [runCommand, returns, bind_error h, finish, Engine.failed, if_neg hk]; rfl

/-! ## The transaction in flight -/

theorem writesSelect_iff (q : Request) : q.writesSelect = true ↔ q.apndp = false ∧ q.rnw = false ∧ q.addr = 0x8 := by
  simp [Request.writesSelect, dpSelect, and_assoc]

/-- The engine as an acknowledge row finds it when it goes on (log 16). -/
def Engine.answering (e : Engine) : Engine :=
  if e.ses.txn.request.writesSelect then { e with ses.dap.selValid := false } else e

theorem answering_eq (s : State) : s.answering = { s with eng := s.eng.answering } := by
  unfold State.answering Engine.answering
  by_cases h : s.eng.ses.txn.request.writesSelect = true
  · rw [if_pos h, if_pos ((writesSelect_iff _).1 h)]; rfl
  · rw [if_neg h, if_neg fun hc => h ((writesSelect_iff _).2 hc)]

/-- The engine after the three acknowledge cycles, the value noted (R57, R82). -/
def Engine.acknowledged (e : Engine) (ack : BitVec 3) : Engine :=
  { e.logged (sampled [ack[0], ack[1], ack[2]]) with ses.dap.lastAck := ack }

theorem logEvent_logged (ev : WireEvent) (e : Engine) : logEvent ev e = .ok () (e.logged [ev]) := rfl

/-- An acknowledge row is the transaction in flight from its acknowledge on, under the retry loop. -/
theorem answerAck_run (hc : e.ses.connected = true) (ht : e.ses.txn = ⟨q, n⟩) (ack : BitVec 3) :
    answerAck ack e = (afterMeaning q (ackMeaning ack) >>= settle (onWait q n)) (e.answering.acknowledged ack) := by
  have hf : onlyIf e.ses.txn.request.writesSelect forgetSelect e = .ok () e.answering := by
    unfold Engine.answering
    cases e.ses.txn.request.writesSelect <;> rfl
  have htxn : e.answering.ses.txn = ⟨q, n⟩ := by
    unfold Engine.answering
    split <;> exact ht
  rw [answerAck, bind_ok (requireConnected_online hc), bind_ok (getSes_run e), bind_ok hf,
    bind_ok (logEvent_logged _ _), bind_ok (logEvent_logged _ _), bind_ok (logEvent_logged _ _), logged_logged,
    logged_logged,
    bind_ok (getSes_run _), show (e.answering.logged _).ses.txn = ⟨q, n⟩ from htxn, bind_run, bind_run, afterAck_run]
  rfl

/-! ## What follows an acknowledge -/

theorem afterMeaning_ok_read {d : Word} {rest : List Bool} (hq : q.rnw = true)
    (h : e.ses.swdio = bitsOf d ++ [xorReduce d] ++ rest) :
    afterMeaning q .ok e = .ok (.ok d) ((e.heard (bitsOf d ++ [xorReduce d]) rest).logged [.release]) := by
  change (if q.rnw then dataIn else dataOut q.wdata) e = _
  rw [if_pos hq, dataIn_run (rest := rest) (by rw [h, List.append_assoc]; rfl), if_pos rfl]

theorem afterMeaning_ok_write (hq : q.rnw = false) :
    afterMeaning q .ok e
      = .ok (Answer.ok 0) (e.logged ([.release] ++ driven (bitsOf q.wdata) ++ [.drive (xorReduce q.wdata)])) := by
  change (if q.rnw then dataIn else dataOut q.wdata) e = _
  rw [if_neg (by rw [hq]; decide), dataOut_run]

theorem afterMeaning_wait : afterMeaning q .wait e = .ok .wait (e.logged [.release]) := by
  change (turnaround >>= fun _ => trailingIdle >>= fun _ => pure Answer.wait) e = _
  rw [bind_ok (turnaround_run _), bind_ok (trailingIdle_run _)]; rfl

theorem afterMeaning_fault : afterMeaning q .fault e = .ok .fault (e.logged [.release]) := by
  change (turnaround >>= fun _ => trailingIdle >>= fun _ => pure Answer.fault) e = _
  rw [bind_ok (turnaround_run _), bind_ok (trailingIdle_run _)]; rfl

theorem afterMeaning_malformed :
    afterMeaning q .malformed e
      = .error ⟨.protocol, 0⟩ { e.logged ([.release] ++ lineResetEvents) with ses.dap.selValid := false } := by
  change (turnaround >>= fun _ => lineResetSeq >>= fun _ => trailingIdle >>= fun _ => raise .protocol) e = _
  rw [bind_ok (turnaround_run _), bind_ok (lineResetSeq_run _), bind_ok (trailingIdle_run _), raise_run,
    ← logged_logged]
  rfl

theorem ackMeaning_malformed {v : BitVec 3} (h : malformedAck v = true) : ackMeaning v = .malformed := by
  revert v; decide

/-! ## The rows -/

@[simp] theorem answering_swdio (e : Engine) : e.answering.ses.swdio = e.ses.swdio := by
  unfold Engine.answering; split <;> rfl

theorem answering_begin (e : Engine) : e.begin.answering = e.answering.begin := by
  unfold Engine.answering
  rw [begin_txn]
  split <;> rfl

/-- A read in flight is no SELECT write. -/
theorem answering_of_read (ht : s.eng.ses.txn = ⟨q, n⟩) (hq : q.rnw = true) : s.answering = s := by
  unfold State.answering
  rw [if_neg (by rw [ht, hq]; simp)]

/-- The engine of an acknowledge row after its timeline `evs`. -/
theorem acknowledged_begin_logged (e : Engine) (ack : BitVec 3) (evs : List WireEvent) :
    (e.begin.acknowledged ack).logged evs
      = e.begin.on e.ses.swdio (sampled [ack[0], ack[1], ack[2]] ++ evs).reverse e.ses.txn ack := by
  simp only [Engine.acknowledged, Engine.logged, Engine.on, begin_record, List.append_nil, List.reverse_append]
  rfl

theorem acknowledged_begin_swdio (e : Engine) (ack : BitVec 3) : (e.begin.acknowledged ack).ses.swdio = e.ses.swdio := rfl

/-- The same with samples before those events. -/
theorem acknowledged_begin_heard (e : Engine) (ack : BitVec 3) (bs rest : List Bool) (evs : List WireEvent) :
    ((e.begin.acknowledged ack).heard bs rest).logged evs
      = e.begin.on rest (sampled [ack[0], ack[1], ack[2]] ++ (sampled bs ++ evs)).reverse e.ses.txn ack := by
  simp only [Engine.acknowledged, Engine.heard, Engine.logged, Engine.on, begin_record, List.append_nil,
    List.reverse_append, List.append_assoc]
  rfl

/-- A WAIT with retries left (41_dap.md R96). -/
theorem settle_wait (q : Request) (n : Nat) (e : Engine) :
    settle (onWait q (n + 1)) .wait e = retry q n (e.logged [.sleep 100]) := bind_ok (sleep_run _ _)

section
variable (hc : s.online = true) (ht : s.eng.ses.txn = ⟨q, n⟩)
include hc ht

theorem answerAck_begin (ack : BitVec 3) :
    answerAck ack s.eng.begin
      = (afterMeaning q (ackMeaning ack) >>= settle (onWait q n)) (s.eng.answering.begin.acknowledged ack) := by
  rw [answerAck_run (e := s.eng.begin) hc ht, answering_begin]

theorem exec_ackOk_read {d : Word} {rest : List Bool} (hq : q.rnw = true)
    (h : s.eng.ses.swdio = bitsOf d ++ [xorReduce d] ++ rest) :
    ∃ fl, exec .ackOk s = .next ((s.answering.returned d []).onWire rest
        (sampled (okReadBits d) ++ [WireEvent.release]).reverse fl 1) := by
  have hr := answerAck_begin hc ht 1
  have hbits : (s.eng.answering.begin.acknowledged 1).ses.swdio = bitsOf d ++ [xorReduce d] ++ rest := by
    rw [acknowledged_begin_swdio, answering_swdio, h]
  rw [show ackMeaning 1 = .ok from rfl, bind_ok (afterMeaning_ok_read hq hbits), acknowledged_begin_heard] at hr
  rw [answering_eq, okReadBits, List.append_assoc [true, false, false], sampled_append, List.append_assoc]
  exact ⟨_, runCommand_returns_ok hr⟩

theorem exec_ackOk_write (hq : q.rnw = false) :
    ∃ fl, exec .ackOk s = .next ((s.answering.returned 0 []).onWire s.eng.ses.swdio
      (sampled okWriteBits ++ [WireEvent.release] ++ driven (bitsOf q.wdata ++ [xorReduce q.wdata])).reverse fl 1) := by
  have hr := answerAck_begin hc ht 1
  rw [show ackMeaning 1 = .ok from rfl, bind_ok (afterMeaning_ok_write hq), acknowledged_begin_logged,
    answering_swdio, List.append_assoc] at hr
  rw [answering_eq, driven_append, List.append_assoc]
  exact ⟨_, runCommand_returns_ok hr⟩

theorem exec_ackWait_last (hn : n = 0) :
    ∃ fl, exec .ackWait s = .next ((s.answering.raised .timeout 0 []).onWire s.eng.ses.swdio
      (sampled waitBits ++ [WireEvent.release]).reverse fl 2) := by
  subst hn
  have hr := answerAck_begin hc ht 2
  rw [show ackMeaning 2 = .wait from rfl, bind_ok afterMeaning_wait, acknowledged_begin_logged,
    answering_swdio] at hr
  rw [answering_eq]
  exact ⟨_, runCommand_returns_error (by decide) hr⟩

/-- A WAIT with retries left: the delay, then the transaction once more, which the target answers. -/
theorem exec_ackWait_retry {d : Word} {okBits rest : List Bool} {okEvs evs : List WireEvent} (hn : 0 < n)
    (hok : ∀ (rest : List Bool) (e : Engine), e.ses.swdio = okBits ++ rest →
      txn q e = .ok (.ok d) (e.after okEvs rest 1))
    (h : answered q.apndp q.rnw q.addr okBits okEvs (n - 1) s.eng.ses.swdio evs rest) :
    ∃ fl, exec .ackWait s = .next ((s.answering.returned d []).onWire rest
      (sampled waitBits ++ [WireEvent.release, WireEvent.sleep 100] ++ evs).reverse fl 1) := by
  obtain ⟨n, rfl⟩ : ∃ k, n = k + 1 := ⟨n - 1, by omega⟩
  obtain ⟨k, hk, hbits, rfl⟩ := h
  have hr := answerAck_begin hc ht 2
  rw [show ackMeaning 2 = .wait from rfl, bind_ok afterMeaning_wait] at hr
  have hbits' : (s.eng.answering.begin.on s.eng.answering.ses.swdio
      (sampled waitBits ++ [WireEvent.release, WireEvent.sleep 100]).reverse s.eng.answering.ses.txn 2).ses.swdio
      = (List.replicate k waitBits).flatten ++ (okBits ++ rest) := by
    rw [on_swdio, answering_swdio, hbits, List.append_assoc]
  obtain ⟨fl, hretry⟩ := retry_ok (hok rest) k _ hk hbits'
  rw [on_on, on_record, ← List.reverse_append] at hretry
  rw [settle_wait, logged_logged, acknowledged_begin_logged] at hr
  rw [answering_eq]
  exact ⟨fl, runCommand_returns_ok (hr.trans hretry)⟩

theorem exec_ackFault : ∃ fl, exec .ackFault s = .next ((s.answering.raised .fault 0 []).onWire s.eng.ses.swdio
    (sampled faultBits ++ [WireEvent.release]).reverse fl 4) := by
  have hr := answerAck_begin hc ht 4
  rw [show ackMeaning 4 = .fault from rfl, bind_ok afterMeaning_fault, acknowledged_begin_logged,
    answering_swdio] at hr
  rw [answering_eq]
  exact ⟨_, runCommand_returns_error (by decide) hr⟩

theorem exec_ackProtocolError {v : BitVec 3} (hv : malformedAck v = true) :
    ∃ fl, exec (.ackProtocolError v) s = .next ((s.unselected.raised .protocol 0 []).onWire s.eng.ses.swdio
      (sampled [v[0], v[1], v[2]] ++ [WireEvent.release] ++ lineResetEvents).reverse fl v) := by
  have hr := answerAck_begin hc ht v
  rw [ackMeaning_malformed hv, bind_error afterMeaning_malformed, acknowledged_begin_logged, answering_swdio] at hr
  rw [List.append_assoc]
  have hu : { s.eng.answering with ses.dap.selValid := false } = s.unselected.eng := by
    unfold Engine.answering
    split <;> rfl
  exact ⟨_, runCommand_returns_error (u := s.unselected.eng) (by decide) (by rw [← hu]; exact hr)⟩

end

/-- Settles O26: each row is the transaction in flight from its acknowledge on; after OK the data, after a WAIT the retry
loop, after any other value a raise. -/
theorem acknowledgeRows : Obligations.AcknowledgeRows := by
  intro s q n rest hc ht
  refine ⟨fun d hq h => ?_, exec_ackOk_write hc ht, exec_ackWait_last hc ht, fun d evs hn hq h => ?_,
    fun evs hn hq h => ?_, exec_ackFault hc ht, fun v => exec_ackProtocolError hc ht⟩
  · have hr := exec_ackOk_read hc ht hq h
    rwa [answering_of_read ht hq] at hr
  · have hr := exec_ackWait_retry hc ht hn (fun _ _ => txn_ok_read hq) (by rw [hq]; exact h)
    rwa [answering_of_read ht hq] at hr
  · exact exec_ackWait_retry hc ht hn (fun _ _ => txn_ok_write hq) (by rw [hq]; exact h)

end Sys2Proof.Machine
end

section
/-! SUPPORT. How many cycles a request makes, whatever the target answers (30_encoding.md R77; 40_wire.md R82 to R84;
41_dap.md R96; log 14). -/

namespace Sys2Proof.Machine

variable {i : Instr} {s : State} {e e' : Engine} {q : Request} {n k : Nat} {ap rnw : Bool} {a : BitVec 4}

/-! ## Cycles -/

/-- The event is a cycle of the wire; a delay is none (40_wire.md R80). -/
def WireEvent.isCycle : WireEvent → Bool
  | .sleep _ => false
  | _ => true

theorem cycles_eq (s : State) : s.cycles = s.eng.ses.record.countP WireEvent.isCycle := by
  have hp : WireEvent.isCycle = fun ev => match ev with
      | .sleep _ => false
      | _ => true := funext fun ev => by cases ev <;> rfl
  rw [hp]
  rfl

theorem countP_driven (bs : List Bool) : (driven bs).countP WireEvent.isCycle = bs.length := by
  rw [driven, List.countP_map]
  exact List.countP_eq_length.2 fun _ _ => rfl

theorem countP_sampled (bs : List Bool) : (sampled bs).countP WireEvent.isCycle = bs.length := by
  rw [sampled, List.countP_map]
  exact List.countP_eq_length.2 fun _ _ => rfl

/-- The request and its turnaround (R55, R59). -/
theorem countP_requestEvents (ap rnw : Bool) (a : BitVec 4) :
    (requestEvents ap rnw a).countP WireEvent.isCycle = 9 := by
  rw [requestEvents, List.countP_append, countP_driven]; rfl

/-- A transaction without data (R77). -/
theorem countP_noDataEvents (ap rnw a0 a1 a2 : Bool) (a : BitVec 4) :
    (noDataEvents ap rnw a [a0, a1, a2]).countP WireEvent.isCycle = 13 := by
  rw [noDataEvents, List.countP_append, List.countP_append, countP_requestEvents, countP_sampled]; rfl

theorem countP_waitEvents (ap rnw : Bool) (a : BitVec 4) :
    (waitEvents ap rnw a).countP WireEvent.isCycle = 13 := by
  rw [waitEvents, List.countP_append, waitBits, countP_noDataEvents]; rfl

theorem countP_waits (k : Nat) (ap rnw : Bool) (a : BitVec 4) :
    ((List.replicate k (waitEvents ap rnw a)).flatten).countP WireEvent.isCycle = 13 * k := by
  rw [List.countP_flatten, List.map_replicate, countP_waitEvents, List.sum_replicate, smul_eq_mul, Nat.mul_comm]

/-- A read with its data phase (R77). -/
theorem countP_readEvents (ap : Bool) (a : BitVec 4) {data : List Bool} (hd : data.length = 33) :
    (requestEvents ap true a ++ sampled (okWriteBits ++ data) ++ [WireEvent.release]).countP WireEvent.isCycle = 46 := by
  rw [List.countP_append, List.countP_append, countP_requestEvents, countP_sampled, List.length_append, hd]; rfl

/-- A write with its data phase (R77). -/
theorem countP_okWriteEvents (ap : Bool) (a : BitVec 4) (w : Word) :
    (okWriteEvents ap a w).countP WireEvent.isCycle = 46 := by
  rw [okWriteEvents, List.countP_append, List.countP_append, List.countP_append, countP_requestEvents, countP_sampled,
    countP_driven, List.length_append, bitsOf_length]
  rfl

theorem countP_lineResetEvents : lineResetEvents.countP WireEvent.isCycle = 64 := by
  rw [lineResetEvents, countP_driven, List.length_append, List.length_replicate, List.length_replicate]

/-! ## A request row -/

/-- The retry loop after k WAITs (41_dap.md R96). -/
theorem retry_waits {bits : List Bool} (k : Nat) : ∀ {n : Nat} (e : Engine), k ≤ n →
    e.ses.swdio = (List.replicate k waitBits).flatten ++ bits →
    ∃ e', retry q n e = (txn q >>= settle (onWait q (n - k))) e' ∧ e'.ses.swdio = bits
      ∧ e'.ses.record = ((List.replicate k (waitEvents q.apndp q.rnw q.addr)).flatten).reverse ++ e.ses.record := by
  induction k with
  | zero =>
    intro n e _ h
    exact ⟨_, retry_eq q n e, by simpa using h, rfl⟩
  | succ k ih =>
    intro n e hn h
    obtain ⟨n, rfl⟩ : ∃ m, n = m + 1 := ⟨n - 1, by omega⟩
    have h' : e.ses.swdio = waitBits ++ ((List.replicate k waitBits).flatten ++ bits) := by
      simpa [List.replicate_succ] using h
    obtain ⟨e', hr, hbits, hrec⟩ := ih (n := n)
      (((e.on e.ses.swdio e.ses.record ⟨q, n + 1⟩ e.ses.dap.lastAck).after
        (noDataEvents q.apndp q.rnw q.addr waitBits) ((List.replicate k waitBits).flatten ++ bits) 2).logged
          [.sleep Config.retryDelayUs]) (by omega) rfl
    refine ⟨e', (retry_eq q (n + 1) e).trans ((bind_ok (txn_wait q
      (e := e.on e.ses.swdio e.ses.record ⟨q, n + 1⟩ e.ses.dap.lastAck) h')).trans ((bind_ok (sleep_run _ _)).trans
      ?_)), hbits, ?_⟩
    · rw [hr, Nat.add_sub_add_right]
    · rw [hrec]
      simp [Engine.on, Engine.after, Engine.logged, List.replicate_succ, waitEvents, Config.retryDelayUs]

/-- A request row that the engine sends is its transaction under the retry loop (R56; log 14). -/
theorem exec_requestRow (hi : requestRow i = some (ap, rnw, a)) (hc : s.online = true) :
    exec i s = runCommand (returns (issueRequest ap rnw a)) (s.issuing i) := by
  cases i
  case swdReqDpW8 =>
    cases hi
    have hf : (do requireConnected; forgetSelect; issueRequest false false dpSelect : Proc Word) s.eng.begin
        = issueRequest false false dpSelect s.unselected.eng.begin :=
      (bind_ok (requireConnected_online (e := s.eng.begin) hc)).trans (bind_ok rfl)
    have hr : returns (do requireConnected; forgetSelect; issueRequest false false dpSelect) s.eng.begin
        = returns (issueRequest false false dpSelect) s.unselected.eng.begin :=
      (bind_run _ _ _).trans (hf ▸ (bind_run _ _ _).symm)
    exact congrArg (fun r => Host.Outcome.next { s with eng := finish r }) hr
  all_goals cases hi
  all_goals rfl

theorem issueRequest_run (hc : e.ses.connected = true) (ap rnw : Bool) (a : BitVec 4) :
    issueRequest ap rnw a e = retry ⟨ap, rnw, a, e.ses.txn.request.wdata⟩ e.ses.dap.retryCount.toNat e := by
  rw [issueRequest, bind_ok (requireConnected_online hc), bind_ok (getSes_run e), retryTxn, bind_ok (getSes_run e)]

/-- The cycles so far, as `State.cycles` counts them. -/
def Engine.cycles (e : Engine) : Nat := e.ses.record.countP WireEvent.isCycle

theorem cycles_after (e : Engine) (evs : List WireEvent) (rest : List Bool) (ack : BitVec 3) :
    (e.after evs rest ack).cycles = evs.countP WireEvent.isCycle + e.cycles := by
  simp [Engine.cycles, Engine.after]

/-- The transaction of the request `q`, sent with `m` retries left, ends after `c` cycles when it finds `bits`. -/
def EndsAfter (q : Request) (m : Nat) (bits : List Bool) (c : Nat) : Prop :=
  ∀ e : Engine, e.ses.swdio = bits → (endState ((txn q >>= settle (onWait q m)) e)).cycles = c + e.cycles

/-- A request row makes the cycles of its WAITs and those of its last transaction. -/
theorem exec_requestRow_cycles {bits : List Bool} {c : Nat} (hi : requestRow i = some (ap, rnw, a))
    (hc : s.online = true) (hk : k ≤ s.eng.ses.dap.retryCount.toNat)
    (hb : s.eng.ses.swdio = (List.replicate k waitBits).flatten ++ bits)
    (hlast : ∀ w, EndsAfter ⟨ap, rnw, a, w⟩ (s.eng.ses.dap.retryCount.toNat - k) bits c) :
    ∃ t, exec i s = .next t ∧ t.cycles = 13 * k + c := by
  obtain ⟨e, he, hcon, hbits, hretries, hrec⟩ : ∃ e, (s.issuing i).eng.begin = e ∧ e.ses.connected = true
      ∧ e.ses.swdio = s.eng.ses.swdio ∧ e.ses.dap.retryCount = s.eng.ses.dap.retryCount ∧ e.ses.record = [] := by
    refine ⟨_, rfl, ?_⟩
    unfold State.issuing
    split <;> exact ⟨hc, rfl, rfl, rfl⟩
  refine ⟨_, exec_requestRow hi hc, ?_⟩
  obtain ⟨e', hrun, hbits', hrec'⟩ := retry_waits (q := ⟨ap, rnw, a, e.ses.txn.request.wdata⟩) k e
    (hretries ▸ hk) (hbits.trans hb)
  rw [cycles_eq, finish_record, endState_returns, he, issueRequest_run hcon, hrun, hretries]
  calc (endState _).cycles
      = c + e'.cycles := hlast _ e' hbits'
    _ = 13 * k + c := by
      rw [Engine.cycles, hrec', hrec, List.append_nil, List.countP_reverse, countP_waits, Nat.add_comm]

/-! ## The last transaction, for each answer (40_wire.md R82 to R84) -/

/-- Thirty-two bits are those of a word. -/
theorem exists_bitsOf {bs : List Bool} (h : bs.length = 32) : ∃ d : Word, bitsOf d = bs := by
  refine ⟨wordOfBits bs, List.ext_getElem (by rw [bitsOf_length, h]) fun j hj _ => ?_⟩
  have hj' : j < 32 := hj.trans_eq (bitsOf_length _)
  have hbs : j < bs.length := h ▸ hj'
  simp [bitsOf, wordOfBits, hj', hbs]

/-- A read makes its data phase whatever the parity is; wrong parity is found after it (R82). -/
theorem endsAfter_read {m : Nat} {data rest : List Bool} (hq : q.rnw = true) (hd : data.length = 33) :
    EndsAfter q m (okWriteBits ++ data ++ rest) 46 := by
  intro e h
  obtain ⟨d, hbits⟩ := exists_bitsOf (bs := data.take 32) (by simp [hd])
  obtain ⟨p, rfl⟩ : ∃ p, data = bitsOf d ++ [p] :=
    ⟨data[32], by rw [hbits, List.take_append_getElem]; simp [← hd]⟩
  have hcount := countP_readEvents q.apndp q.addr hd
  by_cases hp : p = xorReduce d
  · subst hp
    rw [bind_ok (txn_ok_read hq (d := d) (rest := rest) (by simpa [okReadBits, okWriteBits] using h))]
    refine (cycles_after _ _ _ _).trans ?_
    rw [← hcount]
    simp [okReadEvents, okReadBits, okWriteBits]
  · obtain rfl : p = !xorReduce d := Bool.eq_not_iff.2 hp
    rw [bind_error (txn_bad_parity hq (d := d) (rest := rest) (by simpa [okWriteBits] using h))]
    refine (cycles_after _ _ _ _).trans ?_
    rw [← hcount]
    simp [okWriteBits]

theorem endsAfter_write {m : Nat} {rest : List Bool} (hq : q.rnw = false) :
    EndsAfter q m (okWriteBits ++ rest) 46 := by
  intro e h
  rw [bind_ok (txn_ok_write hq h), ← countP_okWriteEvents q.apndp q.addr q.wdata]
  exact cycles_after _ _ _ _

theorem endsAfter_fault {m : Nat} {rest : List Bool} : EndsAfter q m (faultBits ++ rest) 13 := by
  intro e h
  rw [bind_ok (txn_fault q h), ← countP_noDataEvents q.apndp q.rnw false false true q.addr]
  exact cycles_after _ _ _ _

/-- A WAIT with no retry left (41_dap.md R96). -/
theorem endsAfter_wait {rest : List Bool} : EndsAfter q 0 (waitBits ++ rest) 13 := by
  intro e h
  rw [bind_ok (txn_wait q h), ← countP_noDataEvents q.apndp q.rnw false true false q.addr]
  exact cycles_after _ _ _ _

/-- The five acknowledges that R57 does not name are malformed. -/
theorem malformedAck_ackOfBits {a0 a1 a2 : Bool} (ho : [a0, a1, a2] ≠ okWriteBits) (hw : [a0, a1, a2] ≠ waitBits)
    (hf : [a0, a1, a2] ≠ faultBits) : malformedAck (ackOfBits a0 a1 a2) = true := by
  revert a0 a1 a2
  decide

theorem endsAfter_malformed {m : Nat} {a0 a1 a2 : Bool} {rest : List Bool}
    (hm : malformedAck (ackOfBits a0 a1 a2) = true) : EndsAfter q m ([a0, a1, a2] ++ rest) (13 + 64) := by
  intro e h
  obtain ⟨e', htxn, rfl⟩ := txn_malformed q hm h
  rw [bind_error htxn, ← countP_noDataEvents q.apndp q.rnw a0 a1 a2 q.addr, ← countP_lineResetEvents,
    ← List.countP_append]
  exact cycles_after e _ rest (ackOfBits a0 a1 a2)

/-- Settles O27: 13 cycles for each WAIT, then those of the last transaction, by its answer. -/
theorem transactionCycleCounts : Obligations.TransactionCycleCounts := by
  intro i s ap rnw a k bits hi hc hk hb
  have count {c : Nat} := exec_requestRow_cycles (c := c) hi hc hk hb
  refine ⟨fun data hr hd hp => ?_, fun hr hp => ?_, fun hp => ?_, fun a0 a1 a2 ho hw hf hp => ?_, fun hlast hp => ?_⟩
  all_goals obtain ⟨rest, rfl⟩ := hp
  case refine_1 => exact count fun _ => endsAfter_read hr hd
  case refine_2 => exact count fun _ => endsAfter_write hr
  case refine_3 => exact count fun _ => endsAfter_fault
  case refine_4 => exact count fun _ => endsAfter_malformed (malformedAck_ackOfBits ho hw hf)
  case refine_5 =>
    rw [hlast, Nat.sub_self, ← hlast] at count
    exact count fun _ => endsAfter_wait

end Sys2Proof.Machine
end

section
/-! SUPPORT. A word presented to a session, and the Wire Engine's commands that wait for no answer of the target: line
sequences, the clock divider, the slot tracker, connection and belief queries (30_encoding.md section 2; 40_wire.md R84 to
R95; 41_dap.md R108; 42_dm.md R118, R138, R139; log 14). -/

namespace Sys2Proof.Machine

variable {s s' : State} {e u : Engine} {v : Word}

/-! ## A presented word -/

theorem step_issue {id : SessionId} {sp : Space} {w data : Word} {rest : List Input}
    (hi : s.inbox = .issue id sp w data :: rest) (hf : { s with inbox := rest }.focus id = some s') :
    step s = issueWord sp w data s' := step_onSession (fun _ => rfl) hi hf

theorem fetchRun_decoded {sp : Space} {w : Word} {i : Instr} {more : List Byte}
    (hd : decode sp (wordBytes w) = some (i, more)) (s : State) : fetchRun sp w s = exec i s := by
  unfold fetchRun; rw [hd]

/-- A word on a port that is not busy runs the instruction it decodes to; only a request takes the write data. -/
theorem issueWord_idle {sp : Space} {w data : Word} {i : Instr} {more : List Byte}
    (hb : s.eng.ses.port.busy = false) (hd : decode sp (wordBytes w) = some (i, more)) :
    issueWord sp w data s
      = exec i (if sp = .request then s.modifySes (fun x => { x with txn.request.wdata := data }) else s) := by
  unfold issueWord
  rw [if_neg (by rw [hb]; decide), fetchRun_decoded hd]
  cases sp <;> rfl

/-- Settles O7: the word is served at its session, where the fetch decodes it. -/
theorem stepRunsAPresentedWord : Obligations.StepRunsAPresentedWord := by
  intro s s' id sp w data rest i more hi hf hb hd
  rw [step_issue hi hf, issueWord_idle hb hd]

/-! ## Commands without wire activity -/

/-- A command that returns with the engine `u`. -/
theorem runCommand_ok {body : Proc Progress} (h : body s.eng.begin = .ok (.done v) u.begin) :
    runCommand body s = .next ({ s with eng := u }.returned v []) := by
  rw [runCommand, h]; rfl

/-- A command that returns 0 with the engine `u`. -/
theorem runCommand_zero {m : Proc Unit} (h : m s.eng.begin = .ok () u.begin) :
    runCommand (returnsZero m) s = .next ({ s with eng := u }.returned 0 []) :=
  runCommand_ok (bind_ok h)

/-- A command that raises with the engine as it began. -/
theorem runCommand_error {body : Proc Progress} {k : ErrorKind} (hk : k ≠ .alreadyHalted)
    (h : body s.eng.begin = .error ⟨k, v⟩ s.eng.begin) : runCommand body s = .next (s.raised k v []) := by
  rw [runCommand, h, finish, Engine.failed, if_neg hk]; rfl

theorem runCommand_needsLink {body : Proc Progress} (hn : NeedsLink body) (hc : s.online = false) :
    runCommand body s = .next (s.raised .notConnected 0 []) :=
  runCommand_error (by decide) (hn s.eng.begin hc)

/-- A command that raises at its operand. -/
theorem runCommand_operand {α : Type} {operand : Word → Proc α} {f : α → Proc Unit} {k : ErrorKind}
    (hk : k ≠ .alreadyHalted) (h : ∀ e, operand s.eng.ses.port.arg0 e = .error ⟨k, 0⟩ e) :
    runCommand (returnsZero do let a ← operand (← getSes).port.arg0; f a) s = .next (s.raised k 0 []) :=
  runCommand_error hk (bind_error ((bind_ok (getSes_run _)).trans (bind_error (h _))))

/-! ## Line sequences (40_wire.md R84 to R86) -/

namespace Yields

/-- n cycles of one bit. -/
theorem driveRepeat (b : Bool) (n : Nat) :
    Yields (Machine.driveRepeat b n) [Machine.sends (List.replicate n b)] e (fun _ => True) e := by
  intro bits rest evs r fl ack ht
  obtain ⟨rfl, rfl⟩ := talk_singleton.1 ht
  refine ⟨rfl, (), fl, trivial, (driveRepeat_run b n _).trans ?_⟩
  rw [ackAfter, driven_not_sampled]
  rfl

theorem lineResetSeq :
    Yields Machine.lineResetSeq
      [Machine.sends (List.replicate 56 true), Machine.sends (List.replicate 8 false)] e (fun _ => True)
      { e with ses.dap.selValid := false } :=
  bind (driveRepeat true 56) fun _ _ => quiet_bind (driveRepeat false 8) fun _ _ => update rfl fun _ _ _ _ => rfl

end Yields

/-- The target has no part in bits that are driven. -/
theorem hears_sends (bs : List Bool) : s.hears [sends bs] (driven bs) s.eng.ses.swdio := talk_singleton.2 ⟨rfl, rfl⟩

theorem hears_lineReset :
    s.hears [sends (List.replicate 56 true), sends (List.replicate 8 false)] lineResetEvents s.eng.ses.swdio :=
  ⟨_, _, _, ⟨rfl, rfl⟩, talk_singleton.2 ⟨rfl, rfl⟩, driven_append _ _⟩

/-- Settles O28: each command is its sequence behind the check of the connection. -/
theorem lineSequences : Obligations.LineSequences := by
  intro s
  refine ⟨fun hc => ⟨?_, ?_⟩, fun hc => ⟨runCommand_needsLink .onlineZero hc, runCommand_needsLink .onlineZero hc⟩⟩
  · exact completes_done rfl hears_lineReset
      (.returnsZero (.bind_quiet (.requireConnected (e := s.eng.begin) hc) fun _ _ => .lineResetSeq)) rfl rfl
  · exact completes_done rfl (hears_sends _)
      (.returnsZero (.bind_quiet (.requireConnected (e := s.eng.begin) hc) fun _ _ =>
        .look (fun _ _ _ _ => rfl) (.driveRepeat false _))) rfl rfl

/-! ## Beliefs (40_wire.md R90, R95; 41_dap.md R108; 42_dm.md R118, R138, R139) -/

theorem boolOperand_above {w : Word} (h : 1 < w.toNat) (e : Engine) :
    boolOperand w e = .error ⟨.invalidParam, 0⟩ e := by
  unfold boolOperand
  rw [if_neg (by rintro rfl; exact absurd h (by decide)), if_neg (by rintro rfl; exact absurd h (by decide))]
  rfl

theorem hartOperand_above {w : Word} (h : 1 < w.toNat) (e : Engine) :
    hartOperand w e = .error ⟨.invalidParam, 0⟩ e := by
  unfold hartOperand
  rw [dif_neg (Nat.not_lt.2 h)]
  rfl

theorem hartOperand_named {w : Word} {h : HartId} (hw : names w h) (e : Engine) : hartOperand w e = .ok h e := by
  have hval := toNat_of_names hw
  unfold hartOperand
  rw [dif_pos (hval ▸ h.isLt)]
  exact congrArg (EStateM.Result.ok · e) (Fin.ext hval)

theorem boolOperand_named {w : Word} {b : Bool} (hw : w = BitVec.ofNat 32 b.toNat) (e : Engine) :
    boolOperand w e = .ok b e := by
  subst hw; cases b <;> rfl

/-- ENABLE_CACHE with a truth value is `setCaching` of it. -/
theorem exec_enableCache {b : Bool} (h : s.eng.ses.port.arg0 = BitVec.ofNat 32 b.toNat)
    (hr : setCaching b s.eng.begin = .ok () u.begin) : exec .enableCache s = .next ({ s with eng := u }.returned 0 []) :=
  runCommand_zero ((bind_ok (getSes_run _)).trans ((bind_ok (boolOperand_named h _)).trans hr))

theorem exec_invalidateCache {h : HartId} (hw : names s.eng.ses.port.arg0 h) :
    exec .invalidateCache s = .next ((s.withHart h fun x => { x with cacheValid := false }).returned 0 []) :=
  runCommand_zero ((bind_ok (getSes_run _)).trans ((bind_ok (hartOperand_named hw _)).trans rfl))

/-- Settles O29: the queries read one field; the two cache commands act behind the check of their operand. -/
theorem commandsWithoutWire : Obligations.CommandsWithoutWire := by
  intro s
  refine ⟨rfl, rfl, rfl, rfl, 
    fun h => exec_enableCache (b := true) h rfl, fun h => exec_enableCache (b := false) h rfl,
    fun h => exec_invalidateCache, fun h => ⟨?_, ?_⟩⟩
  · exact runCommand_operand (by decide) (boolOperand_above h)
  · exact runCommand_operand (by decide) (hartOperand_above h)

/-! ## The clock divider (40_wire.md R88, R89) -/

theorem setFrequency_run {f : Word} (hf : f ≠ 0) (e : Engine) :
    setFrequency f e = .ok () { e with ses.wire.freqKhz := f, ses.wire.clkdiv := divider f } := by
  rw [setFrequency, bne_iff_ne.2 hf, bind_ok (require_true _ e)]; rfl

theorem setFrequency_zero (e : Engine) : setFrequency 0 e = .error ⟨.invalidParam, 0⟩ e := rfl

/-- The model's rounded-up quotient is Mathlib's. -/
theorem ceilDiv_eq (a b : Nat) : ceilDiv a b = a ⌈/⌉ b := (Nat.ceilDiv_eq_add_pred_div a b).symm

/-- The rounded-up quotient is the least number whose product with the divisor reaches the dividend. -/
theorem ceilDiv_le_iff {a b c : Nat} (hb : 0 < b) : ceilDiv a b ≤ c ↔ a ≤ b * c := by
  rw [ceilDiv_eq, ceilDiv_le_iff_le_mul hb]

/-- Settles O31: the operand is checked and written with its divider, whose two quotients are rounded up. -/
theorem setFrequencySetsTheDivider : Obligations.SetFrequencySetsTheDivider := by
  refine ⟨fun s hf => ?_, fun s hf => ?_, fun sys f hf => ?_⟩
  · exact runCommand_zero ((bind_ok (getSes_run _)).trans (setFrequency_run hf _))
  · refine runCommand_error (by decide) (bind_error ((bind_ok (getSes_run _)).trans ?_))
    rw [begin_arg0, hf]
    exact setFrequency_zero _
  · have hq {c : Nat} : ceilDiv sys f ≤ c ↔ sys ≤ c * f := by rw [ceilDiv_le_iff hf, Nat.mul_comm]
    have hd {c : Nat} : ceilDiv (ceilDiv sys f + 3) 4 ≤ c ↔ ceilDiv sys f + 3 ≤ 4 * c := ceilDiv_le_iff (by decide)
    exact ⟨ceilDiv sys f, ceilDiv (ceilDiv sys f + 3) 4, hq.1 le_rfl, fun _ => hq.2, hd.1 le_rfl, fun _ => hd.2, rfl⟩

/-! ## The slot tracker (40_wire.md R92) -/

/-- The first free slot is free, and every slot before it has an owner. -/
theorem firstFree_eq_some {t : Tracker} {x : Slot} : t.firstFree = some x ↔
    t.ownerOf x = none ∧ ∀ y : Slot, y.index.val < x.index.val → t.ownerOf y ≠ none := by
  have hslot (k : Fin Config.slots) : slotAt k = x ↔ k = x.index :=
    ⟨fun h => by rw [← h, index_slotAt], fun h => by rw [h, slotAt_index]⟩
  simp only [Tracker.firstFree, ← Fin.find?_eq_find?_finRange, Option.map_eq_some_iff, hslot, exists_eq_right,
    Fin.find?_eq_some_iff, Option.isNone_iff_eq_none, Option.isNone_eq_false_iff, Option.isSome_iff_ne_none]
  exact and_congr Iff.rfl
    ⟨fun h y => h y.index, fun h k hk => by rw [← index_slotAt k] at hk ⊢; exact h (slotAt k) hk⟩

theorem firstFree_eq_none {t : Tracker} : t.firstFree = none ↔ ∀ x : Slot, t.ownerOf x ≠ none := by
  simp only [Tracker.firstFree, ← Fin.find?_eq_find?_finRange, Option.map_eq_none_iff, Fin.find?_eq_none_iff,
    Option.isNone_eq_false_iff, Option.isSome_iff_ne_none]
  exact ⟨fun h x => h x.index, fun h k => by rw [← index_slotAt k]; exact h (slotAt k)⟩

/-- Settles O32: `Acquire` follows `Tracker.pick`, and that is the first free slot, or the configured one if it is free. -/
theorem acquireTakesTheFirstFreeSlot : Obligations.AcquireTakesTheFirstFreeSlot := by
  refine ⟨fun c e => ?_, ownerOf_setOwner, fun t => ⟨fun x => ?_, ?_, pick_some t⟩⟩
  · cases h : e.tracker.pick c with
    | some x => exact acquire_some h
    | none => exact acquire_none h
  · rw [pick_none, firstFree_eq_some]; simp only [index_val]
  · rw [pick_none, firstFree_eq_none]

/-! ## Connection without wire activity (40_wire.md R91, R93, R94) -/

/-- What ConnectUnwind leaves of a session that holds a slot or none is what DISCONNECT leaves. -/
theorem connectUnwind_begin (s : State) : connectUnwind s.eng.begin = .ok () s.left.eng.begin := rfl

/-- Settles O34: DISCONNECT is ConnectUnwind of a connected session, and CONNECT raises at `Acquire`. -/
theorem disconnectAndConnectWithoutWire : Obligations.DisconnectAndConnectWithoutWire := by
  intro s
  refine ⟨fun hc => ?_, fun hc => ?_, fun hc => ?_, fun hc hp => ?_⟩
  · exact runCommand_zero ((disconnectSession_connected (e := s.eng.begin) hc).trans (connectUnwind_begin s))
  · exact runCommand_zero (disconnectSession_offline (e := s.eng.begin) hc)
  · exact runCommand_ok (returns_connectSession_connected (e := s.eng.begin) hc)
  · exact runCommand_error (by decide) (returns_connectSession_refused (e := s.eng.begin) hc hp)

end Sys2Proof.Machine
end

section
/-! SUPPORT. A request row, by what the target answers (30_encoding.md R57 to R59; 40_wire.md R82 to R84; 41_dap.md R96; log
14). -/

namespace Sys2Proof.Machine

variable {i : Instr} {s : State} {k : ErrorKind} {ap rnw : Bool} {a : BitVec 4}

/-! ## Parity (00_scope.md R8) -/

theorem bitsOf_eq_ofFn (d : Word) : bitsOf d = List.ofFn fun k : Fin 32 => d[k.val] :=
  List.ext_getElem (by rw [bitsOf_length, List.length_ofFn]) fun k hk _ => by
    rw [bitsOf_length] at hk
    rw [List.getElem_ofFn, List.getElem_eq_iff, bitsOf_getElem d k hk]

/-- The exclusive or of bits is 1 when an odd number of them is. -/
theorem foldr_xor_iff (bs : List Bool) : bs.foldr xor false = true ↔ bs.count true % 2 = 1 := by
  induction bs with
  | nil => decide
  | cons b bs ih =>
    cases b with
    | false => simpa using ih
    | true =>
      rw [List.foldr_cons, Bool.true_xor, Bool.not_eq_true', ← Bool.not_eq_true, ih, List.count_cons_self]
      omega

theorem xorReduce_iff (d : Word) : xorReduce d = true ↔ (bitsOf d).count true % 2 = 1 := foldr_xor_iff _

/-- A data phase with an odd number of ones is a word and the parity bit it does not have (30_encoding.md R58). -/
theorem exists_bad_parity {data : List Bool} (hd : data.length = 33) (hodd : data.count true % 2 = 1) :
    ∃ d : Word, data = bitsOf d ++ [!xorReduce d] := by
  obtain ⟨d, hbits⟩ := exists_bitsOf (bs := data.take 32) (by simp [hd])
  obtain ⟨p, rfl⟩ : ∃ p, data = bitsOf d ++ [p] :=
    ⟨data[32], by rw [hbits, List.take_append_getElem]; simp [← hd]⟩
  obtain rfl : p = !xorReduce d := Bool.eq_not_iff.2 fun hp => by
    have hx := xorReduce_iff d
    rw [← hp] at hx
    rw [List.count_append] at hodd
    cases p with
    | false => exact absurd (hx.2 hodd) (by decide)
    | true =>
      have hone : [true].count true = 1 := rfl
      have hbitsOdd := hx.1 rfl
      omega
  exact ⟨d, rfl⟩

/-! ## A request row as its transaction -/

/-- The request of a request row: the write data are those presented with it (log 14). -/
def State.request (s : State) (ap rnw : Bool) (a : BitVec 4) : Request := ⟨ap, rnw, a, s.eng.ses.txn.request.wdata⟩

/-- A request row finds the connection and the wire as they are, whether it writes SELECT or not. -/
theorem issuing_kept (i : Instr) (s : State) :
    (s.issuing i).online = s.online ∧ (s.issuing i).eng.ses.swdio = s.eng.ses.swdio
      ∧ (s.issuing i).eng.ses.txn = s.eng.ses.txn
      ∧ (s.issuing i).eng.ses.dap.retryCount = s.eng.ses.dap.retryCount := by
  unfold State.issuing
  split <;> exact ⟨rfl, rfl, rfl, rfl⟩

/-- A read request writes no SELECT. -/
theorem issuing_of_read (hi : requestRow i = some (ap, true, a)) (s : State) : s.issuing i = s :=
  if_neg (by rintro rfl; cases hi)

theorem unselected_issuing (i : Instr) (s : State) : { s.issuing i with eng := s.unselected.eng } = s.unselected := by
  unfold State.issuing
  split <;> rfl

/-- A request row's body is the retry loop. -/
theorem issueRequest_issuing (hc : s.online = true) (i : Instr) (ap rnw : Bool) (a : BitVec 4) :
    issueRequest ap rnw a (s.issuing i).eng.begin
      = retry (s.request ap rnw a) s.eng.ses.dap.retryCount.toNat (s.issuing i).eng.begin := by
  obtain ⟨hon, -, htxn, hretries⟩ := issuing_kept i s
  rw [issueRequest_run (e := (s.issuing i).eng.begin) (hon.trans hc), begin_txn, begin_dap, htxn, hretries]
  rfl

/-- With a sample among the events, `last_ack` is OK (40_wire.md R82). -/
theorem onWire_eq_wired {t : State} {bits : List Bool} {evs : List WireEvent} {fl : InFlight}
    (hs : evs.any WireEvent.isSample = true) : t.onWire bits evs.reverse fl 1 = t.wired bits evs.reverse fl := by
  have hack : ackAfter evs t.eng.ses.dap.lastAck = 1 := if_pos hs
  rw [State.wired, ← on_wired, ackAfter_reverse, hack]
  rfl

/-- A request row whose transaction the target answers OK after at most `retry_count` WAITs (41_dap.md R96). -/
theorem completes_requestRow {d : Word} {okBits rest : List Bool} {okEvs evs : List WireEvent}
    (hi : requestRow i = some (ap, rnw, a)) (hc : s.online = true)
    (hok : ∀ (rest : List Bool) (e : Engine), e.ses.swdio = okBits ++ rest →
      txn (s.request ap rnw a) e = .ok (.ok d) (e.after okEvs rest 1))
    (hs : okEvs.any WireEvent.isSample = true) (h : s.hears [answered ap rnw a okBits okEvs] evs rest) :
    completes i s ((s.issuing i).returned d []) evs rest := by
  obtain ⟨n, hn, hbits, rfl⟩ := talk_singleton.1 h
  have hbits' : (s.issuing i).eng.begin.ses.swdio = (List.replicate n waitBits).flatten ++ (okBits ++ rest) := by
    rw [begin_swdio, (issuing_kept i s).2.1, hbits, List.append_assoc]
  obtain ⟨fl, hr⟩ := retry_ok (hok rest) n _ hn hbits'
  rw [begin_record, List.append_nil] at hr
  refine ⟨fl, ?_⟩
  rw [exec_requestRow hi hc, ← onWire_eq_wired (by rw [List.any_append, hs, Bool.or_true])]
  exact runCommand_returns_ok ((issueRequest_issuing hc i ap rnw a).trans hr)

/-- Settles O22: the retry loop on a read that the target answers with `d`. -/
theorem okReadRequest : Obligations.OkReadRequest := by
  intro i s ap a d evs rest hi hc h
  have hr := completes_requestRow hi hc (fun _ _ => txn_ok_read rfl)
    (by simp [okReadEvents, okReadBits, WireEvent.isSample]) h
  rwa [issuing_of_read hi] at hr

/-- Settles O23: the bits of a word and their parity, and the retry loop on a write that the target acknowledges. -/
theorem okWriteRequest : Obligations.OkWriteRequest := by
  refine ⟨fun d => ⟨bitsOf_eq_ofFn d, bitsOf_eq_ofFn d ▸ xorReduce_iff d⟩, fun i s ap a evs rest hi hc h => ?_⟩
  exact completes_requestRow hi hc (fun _ _ => txn_ok_write rfl)
    (by simp [okWriteEvents, okWriteBits, WireEvent.isSample]) h

/-! ## Answers that end a request by a raise -/

/-- A transaction on an engine that has begun a command is its whole timeline. -/
theorem begin_on_after (e : Engine) (bits rest : List Bool) (evs : List WireEvent) (fl : InFlight) (ack ack' : BitVec 3) :
    (e.begin.on bits [] fl ack).after evs rest ack' = e.begin.on rest evs.reverse fl ack' := by
  rw [Engine.after, on_record, List.append_nil]; rfl

/-- The transaction in flight at the first attempt of a request row (41_dap.md R96; log 16). -/
def State.firstTry (s : State) (ap rnw : Bool) (a : BitVec 4) : InFlight :=
  ⟨s.request ap rnw a, s.eng.ses.dap.retryCount.toNat⟩

/-- The engine of a request row as its first attempt finds it. -/
def State.requesting (s : State) (i : Instr) (ap rnw : Bool) (a : BitVec 4) : Engine :=
  (s.issuing i).eng.begin.on s.eng.ses.swdio [] (s.firstTry ap rnw a) s.eng.ses.dap.lastAck

section
variable {ack : BitVec 3} {rest : List Bool} {evs : List WireEvent}

theorem requesting_after : (s.requesting i ap rnw a).after evs rest ack
    = (s.issuing i).eng.begin.on rest evs.reverse (s.firstTry ap rnw a) ack := begin_on_after _ _ _ _ _ _ _

variable (hi : requestRow i = some (ap, rnw, a)) (hc : s.online = true)
include hi hc

/-- A request row whose first attempt raises: the command leaves the engine `u` but for its wire fields. -/
theorem exec_requestRow_raised (u : Engine) (hk : k ≠ .alreadyHalted)
    (h : (txn (s.request ap rnw a) >>= settle (onWait (s.request ap rnw a) s.eng.ses.dap.retryCount.toNat))
      (s.requesting i ap rnw a) = .error ⟨k, 0⟩ (u.begin.on rest evs.reverse (s.firstTry ap rnw a) ack)) :
    ∃ fl, exec i s = .next (({ s.issuing i with eng := u }.raised k 0 []).onWire rest evs.reverse fl ack) := by
  have he : (s.issuing i).eng.begin.on (s.issuing i).eng.begin.ses.swdio (s.issuing i).eng.begin.ses.record
      (s.firstTry ap rnw a) (s.issuing i).eng.begin.ses.dap.lastAck = s.requesting i ap rnw a := by
    unfold State.requesting State.issuing
    split <;> rfl
  rw [exec_requestRow hi hc]
  exact ⟨_, runCommand_returns_error hk ((issueRequest_issuing hc i ap rnw a).trans
    ((retry_eq _ _ _).trans ((congrArg _ he).trans h)))⟩

theorem exec_requestRow_fault (h : s.eng.ses.swdio = faultBits ++ rest) :
    ∃ fl, exec i s = .next (((s.issuing i).raised .fault 0 []).onWire rest
      (noDataEvents ap rnw a faultBits).reverse fl 4) := by
  have htxn := txn_fault (e := s.requesting i ap rnw a) (s.request ap rnw a) h
  rw [requesting_after] at htxn
  exact exec_requestRow_raised hi hc (s.issuing i).eng (by decide) (bind_ok htxn)

theorem exec_requestRow_parity {data : List Bool} (hr : rnw = true) (hd : data.length = 33)
    (hodd : data.count true % 2 = 1) (h : s.eng.ses.swdio = [true, false, false] ++ data ++ rest) :
    ∃ fl, exec i s = .next (((s.issuing i).raised .parity 0 []).onWire rest
      (requestEvents ap true a ++ sampled ([true, false, false] ++ data) ++ [WireEvent.release]).reverse fl 1) := by
  obtain ⟨d, rfl⟩ := exists_bad_parity hd hodd
  rw [← List.append_assoc] at h ⊢
  have htxn := txn_bad_parity (e := s.requesting i ap rnw a) (q := s.request ap rnw a) hr h
  rw [requesting_after] at htxn
  exact exec_requestRow_raised hi hc (s.issuing i).eng (by decide) (bind_error htxn)

theorem exec_requestRow_malformed {a0 a1 a2 : Bool} (hm : malformedAck (ackOfBits a0 a1 a2) = true)
    (h : s.eng.ses.swdio = [a0, a1, a2] ++ rest) :
    ∃ fl, exec i s = .next ((s.unselected.raised .protocol 0 []).onWire rest
      (noDataEvents ap rnw a [a0, a1, a2] ++ lineResetEvents).reverse fl (ackOfBits a0 a1 a2)) := by
  obtain ⟨e', htxn, rfl⟩ := txn_malformed (e := s.requesting i ap rnw a) (s.request ap rnw a) hm h
  rw [requesting_after] at htxn
  have hu : { (s.issuing i).eng with ses.dap.selValid := false } = s.unselected.eng := by
    unfold State.issuing
    split <;> rfl
  have hrow := exec_requestRow_raised hi hc { (s.issuing i).eng with ses.dap.selValid := false } (by decide)
    (bind_error htxn)
  rwa [hu, unselected_issuing] at hrow

end

/-- Settles O25: the first transaction raises, by its answer, and the retry loop lets the raise through. -/
theorem badAnswersEndTheCommand : Obligations.BadAnswersEndTheCommand := by
  intro i s ap rnw a rest hi hc
  exact ⟨exec_requestRow_fault hi hc, fun data => exec_requestRow_parity hi hc,
    fun a0 a1 a2 ho hw hf => exec_requestRow_malformed hi hc (malformedAck_ackOfBits ho hw hf)⟩

end Sys2Proof.Machine
end

section
/-! SUPPORT. A request that the target answers WAIT on every attempt (41_dap.md R96; log 14). -/

namespace Sys2Proof.Machine

variable {e : Engine} {i : Instr} {s : State} {ap rnw : Bool} {a : BitVec 4} {rest : List Bool}

/-- A round of the loop that the target answers WAIT. -/
theorem retry_wait (q : Request) (n : Nat) (h : e.ses.swdio = waitBits ++ rest) :
    retry q n e = settle (onWait q n) .wait
      (e.on rest ((noDataEvents q.apndp q.rnw q.addr waitBits).reverse ++ e.ses.record) ⟨q, n⟩ 2) :=
  (retry_eq q n e).trans (bind_ok (txn_wait q (e := e.on e.ses.swdio e.ses.record ⟨q, n⟩ e.ses.dap.lastAck) h))

/-- With a retry left, the loop goes on after the delay. -/
theorem retry_succ_wait (q : Request) (n : Nat) (h : e.ses.swdio = waitBits ++ rest) :
    retry q (n + 1) e
      = retry q n (e.on rest ((waitEvents q.apndp q.rnw q.addr).reverse ++ e.ses.record) ⟨q, n + 1⟩ 2) := by
  rw [retry_wait q (n + 1) h, settle_wait, waitEvents, List.reverse_append]
  rfl

/-- One WAIT more than there are retries: Timeout, with a delay after each WAIT but the last. -/
theorem retry_timeout (q : Request) (rest : List Bool) (n : Nat) : ∀ e : Engine,
    e.ses.swdio = (List.replicate (n + 1) waitBits).flatten ++ rest →
    retry q n e = .error ⟨.timeout, 0⟩ (e.on rest
      (((List.replicate n (waitEvents q.apndp q.rnw q.addr)).flatten
        ++ noDataEvents q.apndp q.rnw q.addr waitBits).reverse ++ e.ses.record) ⟨q, 0⟩ 2) := by
  induction n with
  | zero => exact fun e h => retry_wait q 0 h
  | succ n ih =>
    intro e h
    rw [List.replicate_succ, List.flatten_cons, List.append_assoc] at h
    rw [retry_succ_wait q n h, ih _ (on_swdio ..), on_on, on_record, List.replicate_succ, List.flatten_cons,
      List.append_assoc (waitEvents ..), List.reverse_append (as := waitEvents ..), List.append_assoc]

/-- Settles O24: the retry loop of the request row finds one WAIT more than it has retries. -/
theorem waitExhaustionTimesOut : Obligations.WaitExhaustionTimesOut := by
  intro i s ap rnw a rest hi hc h
  have hbits := (issuing_kept i s).2.1.trans h
  have hr := retry_timeout (s.request ap rnw a) rest _ (s.issuing i).eng.begin hbits
  rw [begin_record, List.append_nil] at hr
  rw [exec_requestRow hi hc]
  exact ⟨_, runCommand_returns_error (by decide) ((issueRequest_issuing hc i ap rnw a).trans hr)⟩

end Sys2Proof.Machine
end

section
/-! SUPPORT. The commands that access a DP register, an AP register or a word over the MEM-AP (41_dap.md R97 to R106, R110
to R112). -/

namespace Sys2Proof.Machine

variable {a apsel : BitVec 4} {reg : Byte} {v w : Word} {e : Engine} {s : State}
  {evs : List WireEvent} {rest : List Bool}

/-! ## Operands (R99, R105, R106) -/

/-- An operand holds its field. -/
theorem setWidth_of_operand {k : Nat} {x : BitVec k} (hk : k ≤ 32) (h : v = x.setWidth 32) : v.setWidth k = x := by
  rw [h, BitVec.setWidth_setWidth_of_le x hk, BitVec.setWidth_eq]

theorem readableDp_of_operand (h : v = a.setWidth 32) (ha : a = 0x0 ∨ a = 0x4 ∨ a = 0xC) : readableDp v = true := by
  subst h
  rcases ha with rfl | rfl | rfl <;> rfl

theorem writableDp_of_operand (h : v = a.setWidth 32) (ha : a = 0x4 ∨ a = 0x8) : writableDp v = true := by
  subst h
  rcases ha with rfl | rfl <;> rfl

/-- Every AP number and every aligned offset is an operand of READ_AP and WRITE_AP. -/
theorem apOperandsOk_of_operands (hv : v = apsel.setWidth 32) (hw : w = reg.setWidth 32) (hreg : reg.toNat % 4 = 0) :
    apOperandsOk v w = true := by
  have hapsel : v.toNat = apsel.toNat := hv ▸ BitVec.toNat_setWidth_of_le (by decide)
  have hoffset : w.toNat = reg.toNat := hw ▸ BitVec.toNat_setWidth_of_le (by decide)
  have haligned : aligned4 w = true := (aligned4_iff w).2 (hoffset ▸ hreg)
  rw [apOperandsOk, Bool.and_eq_true, Bool.and_eq_true, decide_eq_true_eq, decide_eq_true_eq]
  exact ⟨⟨by omega, by omega⟩, haligned⟩

/-! ## Commands behind their checks -/

namespace Yields

/-- A procedure behind the check of the connection and that of its operands (60_exceptions.md R167). -/
theorem checked {α : Type} {c : Session → Bool} {k : ErrorKind} {f : Session → Proc α} {t : Script} {P : α → Prop}
    {e' : Engine} (hc : e.ses.connected = true) (hok : c e.ses = true)
    (hview : ∀ bits r fl ack, c (e.on bits r fl ack).ses = c e.ses ∧ f (e.on bits r fl ack).ses = f e.ses)
    (h : Yields (f e.ses) t e P e') :
    Yields (do Machine.requireConnected; let x ← getSes; Machine.require (c x) k; f x) t e P e' :=
  bind_quiet (requireConnected hc) fun _ _ =>
    look (fun bits r fl ack => by obtain ⟨hcheck, hgo⟩ := hview bits r fl ack; rw [hcheck, hgo])
      (bind_quiet (require hok) fun _ _ => h)

/-- WRITE_DP behind its checks: a write of SELECT first makes the cache invalid (R101). -/
theorem writeDpChecked (hv : v = a.setWidth 32) (w : Word) :
    Yields (Machine.writeDpChecked v w) [writes false a w] e (fun _ => True)
      (if a = 0x8 then { e with ses.dap.selValid := false } else e) := by
  have hselect : (v == 0x8) = decide (a = 0x8) := by subst hv; revert a; decide
  rw [Machine.writeDpChecked, setWidth_of_operand (by decide) hv, hselect]
  have hforget : Yields forgetSelect [] e (fun _ => True) { e with ses.dap.selValid := false } :=
    update rfl fun _ _ _ _ => rfl
  simpa using bind_quiet (onlyIf (c := decide (a = 0x8)) hforget) fun _ _ => dpWrite a w

/-- A read over the MEM-AP path, the SELECT cache hitting or not (R110). -/
theorem memApReadAny {a : Word} (p : Word → Bool) (ha : aligned4 a = true) :
    Yields (Machine.memApRead a) (maybeSelect (e.ses.selectHit 0xA 0) 0xA 0 ++ memApReadScript a p) e
      (fun d => p d = true) (e.selecting 0xA 0) :=
  (bind_quiet (require ha) fun _ _ => bind (apWrite (e := e) 0xA apTar a) fun _ _ =>
    apReadHit (reg := apDrw) p (selecting_hit _ _ _)).as (List.append_assoc _ _ _)

end Yields

/-- WRITE_DP sends its word to the address of its operand; a write of SELECT is outside the cache path (R101). -/
theorem completes_writeDp (hc : s.online = true) (harg : s.eng.ses.port.arg0 = a.setWidth 32) (ha : a = 0x4 ∨ a = 0x8)
    (h : s.hears [writes false a s.eng.ses.port.arg1] evs rest) :
    completes .writeDp s ((if a = 0x8 then s.unselected else s).returned 0 []) evs rest := by
  have hc : s.eng.begin.ses.connected = true := hc
  have hwrite := Yields.writeDpChecked (e := s.eng.begin) harg s.eng.ses.port.arg1
  refine completes_done rfl h (.returnsZero
    (.checked hc (writableDp_of_operand harg ha) (fun _ _ _ _ => ⟨rfl, rfl⟩) hwrite)) ?_ ?_
  all_goals split <;> rfl

/-- Settles O37: behind its checks each command is one transaction. -/
theorem dpAccess : Obligations.DpAccess := by
  intro s a evs rest hc harg
  refine ⟨fun d ha h => ?_, fun ha h => ?_, fun ha h => ?_⟩
  · have hc : s.eng.begin.ses.connected = true := hc
    obtain rfl : s.eng.ses.port.arg0.setWidth 4 = a := setWidth_of_operand (by decide) harg
    exact completes_done rfl h (.returns (.checked hc (readableDp_of_operand harg ha) (fun _ _ _ _ => ⟨rfl, rfl⟩)
      (.txnRead false _ 0 d))) rfl rfl
  · have hr := completes_writeDp hc harg (.inl ha) h
    rwa [if_neg (by rw [ha]; decide)] at hr
  · have hr := completes_writeDp hc harg (.inr ha) h
    rwa [if_pos ha] at hr

/-- Settles O38: behind its checks each command is the procedure of an AP access. -/
theorem apAccess : Obligations.ApAccess := by
  intro s apsel reg evs rest hc harg0 harg1 hreg
  have hc : s.eng.begin.ses.connected = true := hc
  have hok := apOperandsOk_of_operands harg0 harg1 hreg
  obtain rfl : s.eng.ses.port.arg0.setWidth 4 = apsel := setWidth_of_operand (by decide) harg0
  obtain rfl : s.eng.ses.port.arg1.setWidth 8 = reg := setWidth_of_operand (by decide) harg1
  refine ⟨fun d h => ?_, fun h => ?_⟩
  · have hread := Yields.exactly (.apRead (e := s.eng.begin) (s.eng.ses.port.arg0.setWidth 4)
      (s.eng.ses.port.arg1.setWidth 8) (· == d))
    exact completes_done rfl h (.returns (.checked hc hok (fun _ _ _ _ => ⟨rfl, rfl⟩) hread)) rfl rfl
  · have hwrite := Yields.apWrite (e := s.eng.begin) (s.eng.ses.port.arg0.setWidth 4) (s.eng.ses.port.arg1.setWidth 8)
      s.eng.ses.port.arg2
    exact completes_done rfl h (.returnsZero (.checked hc hok (fun _ _ _ _ => ⟨rfl, rfl⟩) hwrite)) rfl rfl

/-- Settles O39: behind its checks each command is the procedure of the MEM-AP path. -/
theorem memApAccess : Obligations.MemApAccess := by
  intro s evs rest hc haligned
  have hc : s.eng.begin.ses.connected = true := hc
  have ha : aligned4 s.eng.ses.port.arg0 = true := (aligned4_iff _).2 haligned
  refine ⟨fun d h => ?_, fun h => ?_⟩
  · have hread := Yields.exactly (.memApReadAny (e := s.eng.begin) (· == d) ha)
    exact completes_done rfl h (.returns (.checked hc ha (fun _ _ _ _ => ⟨rfl, rfl⟩) hread)) rfl rfl
  · have hwrite := Yields.memApWriteAny (e := s.eng.begin) s.eng.ses.port.arg1 ha
    exact completes_done rfl h (.returnsZero (.checked hc ha (fun _ _ _ _ => ⟨rfl, rfl⟩) hwrite)) rfl rfl

end Sys2Proof.Machine
end

section
/-! SUPPORT. What a DM driver command does once the checks at its head have passed (60_exceptions.md R167): the session is
ready and ARG0 names hart `h`. -/

namespace Sys2Proof.Machine

variable {α β : Type} {s : State} {e : Engine} {h : HartId} {w v : Word} {n : BitVec 5} {c : BitVec 12}

/-! ## A ready session -/

theorem ready_iff (s : State) : s.ready = true ↔
    s.eng.ses.connected = true ∧ s.eng.ses.dm.initialized = true ∧ s.eng.ses.selectHit 0xA 0 = true := by
  simp only [State.ready, Bool.and_eq_true, and_assoc]

theorem selected_of_ready (hr : s.ready = true) : s.eng.begin.ses.selectHit 0xA 0 = true :=
  ((ready_iff s).1 hr).2.2

/-! ## Operands in range (30_encoding.md R72) -/

theorem hartOperand_of_names (hn : names w h) : hartOperand w = pure h := by
  have hw : w.toNat = h.val := toNat_of_names hn
  rw [hartOperand, dif_pos (hw ▸ h.isLt)]
  exact congrArg pure (Fin.ext hw)

theorem boolOperand_of_operand {b : Bool} (hw : w = BitVec.ofNat 32 b.toNat) : boolOperand w = pure b := by
  subst hw; cases b <;> rfl

theorem regOperand_of_operand (hw : w = n.setWidth 32) : regOperand w = pure n := by
  have hn : w.toNat = n.toNat := hw ▸ BitVec.toNat_setWidth_of_le (by decide)
  rw [regOperand, if_pos (hn ▸ n.isLt), setWidth_of_operand (by decide) hw]

theorem csrOperand_of_operand (hw : w = c.setWidth 32) : csrOperand w = pure c := by
  have hc : w.toNat = c.toNat := hw ▸ BitVec.toNat_setWidth_of_le (by decide)
  rw [csrOperand, if_pos (hc ▸ Nat.le_of_lt_succ c.isLt), setWidth_of_operand (by decide) hw]

/-! ## Behind the checks -/

theorem requireInitialized_run (hi : e.ses.dm.initialized = true) : requireInitialized e = .ok () e := by
  rw [requireInitialized, bind_ok (getSes_run e), hi]; rfl

/-- A procedure on the hart that ARG0 names, while connected. -/
theorem onHart_run (hc : e.ses.connected = true) (hn : names e.ses.port.arg0 h) (f : Session → HartId → Proc α) :
    (do requireConnected; let x ← getSes; let g ← hartOperand x.port.arg0; f x g) e = f e.ses h e := by
  rw [bind_ok (requireConnected_online hc), bind_ok (getSes_run e), hartOperand_of_names hn, pure_bind]

/-- A command that behaves as another body does, behind a return of 0. -/
theorem runCommand_zero_congr {m m' : Proc Unit} (hm : m s.eng.begin = m' s.eng.begin) :
    runCommand (returnsZero m) s = runCommand (returnsZero m') s := by
  simp only [runCommand, returnsZero, bind_run, hm]

@[inherit_doc runCommand_zero_congr]
theorem runCommand_word_congr {m m' : Proc Word} (hm : m s.eng.begin = m' s.eng.begin) :
    runCommand (returns m) s = runCommand (returns m') s := by
  simp only [runCommand, returns, bind_run, hm]

section ready
variable (hr : s.ready = true) (hn : names s.eng.ses.port.arg0 h)
include hr hn

/-- The checks of a ready session pass. -/
theorem ready_run (f : Session → HartId → Proc α) :
    (do requireConnected; let x ← getSes; let g ← hartOperand x.port.arg0; requireInitialized; f x g) s.eng.begin
      = f s.eng.begin.ses h s.eng.begin := by
  obtain ⟨hc, hi, -⟩ := (ready_iff s).1 hr
  exact (onHart_run (e := s.eng.begin) hc hn fun x g => do requireInitialized; f x g).trans
    (bind_ok (requireInitialized_run hi))

/-- The checks of a ready session pass, a second operand among them. -/
theorem ready_operand_run {o : Session → Proc β} {b : β} (ho : o s.eng.begin.ses = pure b)
    (f : Session → HartId → β → Proc α) :
    (do requireConnected; let x ← getSes; let g ← hartOperand x.port.arg0; let y ← o x; requireInitialized; f x g y)
        s.eng.begin = f s.eng.begin.ses h b s.eng.begin := by
  obtain ⟨hc, hi, -⟩ := (ready_iff s).1 hr
  refine (onHart_run (e := s.eng.begin) hc hn fun x g => do let y ← o x; requireInitialized; f x g y).trans ?_
  rw [ho, pure_bind]
  exact bind_ok (requireInitialized_run hi)

theorem exec_halt : exec .halt s = runCommand (returnsZero do
    let already ← haltHart h
    onlyIf already (endWith .alreadyHalted 0)) s := runCommand_zero_congr (ready_run hr hn _)

theorem exec_resume : exec .resume s = runCommand (returnsZero (resumeHart h)) s :=
  runCommand_zero_congr (ready_run hr hn fun _ g => resumeHart g)

theorem exec_isHalted : exec .isHalted s = runCommand (returns do return boolWord (← queryHalted h)) s :=
  runCommand_word_congr (ready_run hr hn _)

theorem exec_step : exec .step s = runCommand (returnsZero do requireHalted h; stepHart h) s :=
  runCommand_zero_congr (ready_run hr hn _)

theorem exec_reset {b : Bool} (hb : s.eng.ses.port.arg1 = BitVec.ofNat 32 b.toNat) :
    exec .reset s = runCommand (returnsZero (resetHart h b)) s :=
  runCommand_zero_congr (ready_operand_run (o := fun x => boolOperand x.port.arg1) hr hn (boolOperand_of_operand hb)
    fun _ g b => resetHart g b)

theorem exec_readReg (hw : s.eng.ses.port.arg1 = n.setWidth 32) :
    exec .readReg s = runCommand (returns do requireHalted h; readReg h n) s :=
  runCommand_word_congr (ready_operand_run (o := fun x => regOperand x.port.arg1) hr hn (regOperand_of_operand hw) _)

theorem exec_writeReg (hw : s.eng.ses.port.arg1 = n.setWidth 32) :
    exec .writeReg s = runCommand (returnsZero do requireHalted h; writeReg h n s.eng.ses.port.arg2) s :=
  runCommand_zero_congr (ready_operand_run (o := fun x => regOperand x.port.arg1) hr hn (regOperand_of_operand hw)
    fun x g n => do requireHalted g; writeReg g n x.port.arg2)

theorem exec_readAllRegs_ready :
    exec .readAllRegs s = runCommand (returnsZero do requireHalted h; let _ ← readAllRegs h true) s :=
  runCommand_zero_congr (ready_run hr hn _)

theorem exec_readCsr (hw : s.eng.ses.port.arg1 = c.setWidth 32) :
    exec .readCsr s = runCommand (returns do requireHalted h; csrRead h c) s :=
  runCommand_word_congr (ready_operand_run (o := fun x => csrOperand x.port.arg1) hr hn (csrOperand_of_operand hw) _)

theorem exec_writeCsr (hw : s.eng.ses.port.arg1 = c.setWidth 32) :
    exec .writeCsr s = runCommand (returnsZero do requireHalted h; csrWrite h c s.eng.ses.port.arg2) s :=
  runCommand_zero_congr (ready_operand_run (o := fun x => csrOperand x.port.arg1) hr hn (csrOperand_of_operand hw)
    fun x g c => do requireHalted g; csrWrite g c x.port.arg2)

theorem exec_readPc : exec .readPc s = runCommand (returns do requireHalted h; csrRead h csrDpc) s :=
  runCommand_word_congr (ready_run hr hn _)

theorem exec_writePc :
    exec .writePc s = runCommand (returnsZero do requireHalted h; csrWrite h csrDpc s.eng.ses.port.arg1) s :=
  runCommand_zero_congr (ready_run hr hn fun x g => do requireHalted g; csrWrite g csrDpc x.port.arg1)

/-- EXECUTE_PROGBUF with one or two words asked for; it looks at the DM later, with its words. -/
theorem exec_executeProgbuf {k : Nat} (hk : s.eng.ses.port.arg1 = BitVec.ofNat 32 k) (h1 : 1 ≤ k) (h2 : k ≤ 2) :
    exec .executeProgbuf s = runCommand (continueProgbuf h k []) s := by
  obtain ⟨hc, -, -⟩ := (ready_iff s).1 hr
  have hw : s.eng.begin.ses.port.arg1.toNat = k := by
    rw [begin_arg1, hk, BitVec.toNat_ofNat, Nat.mod_eq_of_lt (lt_of_le_of_lt h2 (by decide))]
  have hrun := onHart_run (e := s.eng.begin) hc hn fun x g => do
    require (1 ≤ x.port.arg1.toNat && x.port.arg1.toNat ≤ Config.progbufSize) .invalidParam
    continueProgbuf g x.port.arg1.toNat []
  rw [hw, show (decide (1 ≤ k) && decide (k ≤ Config.progbufSize)) = true from by simp [h1, h2, Config.progbufSize],
    bind_ok (require_true _ _)] at hrun
  exact congrArg (fun r => Host.Outcome.next { s with eng := finish r }) hrun

end ready

/-! ## A hart whose state is known (42_dm.md R119, R120, R122, R123) -/

theorem queryHalted_known (hk : (e.ses.hart h).known = true) : queryHalted h e = .ok (e.ses.hart h).halted e := by
  rw [queryHalted, bind_ok (getSes_run e), if_pos hk]; rfl

theorem requireHalted_known (hk : (e.ses.hart h).known = true) (hh : (e.ses.hart h).halted = true) :
    requireHalted h e = .ok () e := by
  rw [requireHalted, bind_ok (queryHalted_known hk), hh]; rfl

theorem haltHart_known (hk : ((e.ses.hart h).known && (e.ses.hart h).halted) = true) :
    haltHart h e = .ok true e := by
  rw [haltHart, bind_ok (getSes_run e), if_pos hk]; rfl

theorem resumeHart_known (hk : ((e.ses.hart h).known && !(e.ses.hart h).halted) = true) :
    resumeHart h e = .ok () e := by
  rw [resumeHart, bind_ok (getSes_run e), if_pos hk]; rfl

end Sys2Proof.Machine
end

section
/-! SUPPORT. The DM driver's commands that activate the DM or run a hart (42_dm.md R117 to R125). -/

namespace Sys2Proof.Machine

variable {s : State} {e : Engine} {h : HartId} {i : Instr} {t : Script} {evs : List WireEvent} {rest : List Bool}
  {f : Hart → Hart}

/-! ## A command that changes one hart -/

/-- The command returns a word. -/
theorem completes_word {m : Proc Word} {v : Word} (hx : exec i s = runCommand (returns m) s) (hh : s.hears t evs rest)
    (hy : Yields m t s.eng.begin (· = v) (s.eng.begin.withHart h f)) :
    completes i s ((s.withHart h f).returned v []) evs rest := completes_done hx hh (.returns hy) rfl rfl

/-- The command returns 0. -/
theorem completes_zero {m : Proc Unit} {P : Unit → Prop} (hx : exec i s = runCommand (returnsZero m) s)
    (hh : s.hears t evs rest) (hy : Yields m t s.eng.begin P (s.eng.begin.withHart h f)) :
    completes i s ((s.withHart h f).returned 0 []) evs rest := completes_done hx hh (.returnsZero hy) rfl rfl

theorem failed_of_ne {k : ErrorKind} (hk : k ≠ .alreadyHalted) (v : Word) (e : Engine) : e.failed ⟨k, v⟩ =
    { e.result k v with ses.errDetail := freeErrDetail e.free, free := e.free + 1 } := by
  rw [Engine.failed, if_neg hk]

/-- The command raises. -/
theorem completes_error {body : Proc Progress} {k : ErrorKind} (hk : k ≠ .alreadyHalted)
    (hx : exec i s = runCommand body s) (hh : s.hears t evs rest)
    (hy : Raises body t s.eng.begin ⟨k, 0⟩ (s.eng.begin.withHart h f)) :
    completes i s ((s.withHart h f).raised k 0 []) evs rest :=
  completes_raise hx hh hy rfl (by rw [failed_of_ne hk]; rfl)

/-! ## INIT -/

/-- Settles O40: behind the check of the connection INIT is DmInit, which succeeds with SBA or without, or finds another
status word. -/
theorem initActivatesTheDm : Obligations.InitActivatesTheDm := by
  intro s evs rest hc
  have hc : s.eng.begin.ses.connected = true := hc
  refine ⟨fun hh => ?_, fun hh => ?_, fun hh => ?_⟩
  · exact completes_done rfl hh (.returnsZero (.bind_quiet (.requireConnected hc) fun _ _ => .dmInitAs true rfl)) rfl rfl
  · exact completes_done rfl hh (.returnsZero (.bind_quiet (.requireConnected hc) fun _ _ => .dmInitAs false rfl)) rfl rfl
  · exact completes_raise rfl hh (.head (.bind_quiet (.requireConnected hc) fun _ _ => .dmInit rfl)) rfl rfl

/-! ## HALT, RESUME, IS_HALTED -/

/-- Settles O41: behind its checks HALT is haltHart, whose answer true is the AlreadyHalted end. -/
theorem haltHaltsAHart : Obligations.HaltHaltsAHart := by
  intro s h evs rest hr hn
  have hsel := selected_of_ready hr
  refine ⟨fun hk hh => ?_, fun hk hh => ?_, fun hk => ?_⟩
  · exact completes_zero (exec_halt hr hn) hh (.quiet_bind (.haltHart h hsel hk) fun already ha => by
      subst ha; exact .pure () _)
  · exact completes_error (by decide) (exec_halt hr hn) hh (.head (.head (.haltHart h hsel hk)))
  · rw [exec_halt hr hn, runCommand, returnsZero, bind_assoc, bind_ok (haltHart_known (e := s.eng.begin) hk)]
    rfl

/-- Settles O42: behind its checks RESUME is resumeHart. -/
theorem resumeResumesAHart : Obligations.ResumeResumesAHart := by
  intro s h evs rest hr hn
  have hsel := selected_of_ready hr
  refine ⟨fun hk hh => ?_, fun hk hh => ?_, fun hk => ?_⟩
  · exact completes_zero (exec_resume hr hn) hh (.resumeHart h hsel hk)
  · exact completes_error (by decide) (exec_resume hr hn) hh (.head (.resumeHart h hsel hk))
  · rw [exec_resume hr hn, runCommand, returnsZero, bind_ok (resumeHart_known (e := s.eng.begin) hk)]
    rfl

/-- QueryHalted of a hart not known: what DMSTATUS says is known then (42_dm.md R119). -/
theorem Yields.queryHalted_unknown (h : HartId) (b : Bool) (hs : e.ses.selectHit 0xA 0 = true)
    (hk : (e.ses.hart h).known = false) :
    Yields (queryHalted h) (selectHartScript h ++ dmReadScript .dmstatus fun v => v[9] == b) e (· = b)
      (e.withHart h fun x => { x with known := true, halted := b, cacheValid := x.cacheValid && b }) := by
  refine look (fun _ _ _ _ => rfl) ?_
  rw [if_neg (by rw [hk]; decide)]
  refine bind (selectHart h hs) fun _ _ => quiet_bind (dmRead .dmstatus (fun v => v[9] == b) hs) fun v hv => ?_
  obtain rfl : allHalted v = b := beq_iff_eq.1 hv
  exact bind_quiet (modifyHart h _) fun _ _ => pure _ _

/-- Settles O43: behind its checks IS_HALTED is queryHalted. -/
theorem isHaltedAnswers : Obligations.IsHaltedAnswers := by
  intro s h b evs rest hr hn
  refine ⟨fun hk => ?_, fun hk hh => ?_⟩
  · rw [exec_isHalted hr hn, runCommand, returns, bind_assoc, bind_ok (queryHalted_known (e := s.eng.begin) hk)]
    rfl
  · exact completes_word (exec_isHalted hr hn) hh
      (.quiet_bind (.queryHalted_unknown h b (selected_of_ready hr) hk) fun a ha => by subst ha; exact .pure _ _)

/-! ## STEP and RESET -/

/-- A CSR access leaves what is known of the hart's state. -/
theorem knownHalted_afterCsr (x : Hart) (on : Bool) (s0 : Word) :
    x.knownHalted.afterCsr on s0 = (x.afterCsr on s0).knownHalted := by
  unfold Hart.afterCsr Hart.mirrored
  split <;> rfl

/-- Settles O44: behind its checks STEP is stepHart of a hart found halted. -/
theorem stepStepsAHart : Obligations.StepStepsAHart := by
  intro s h dcsr s0 s0' s0'' evs rest hr hn hk h0
  have hsel := selected_of_ready hr
  have hhalted := Yields.requireHalted (e := s.eng.begin) h hsel hk
  have hmirror := (withHart_mirrorHit_knownHalted s.eng.begin h).symm
  have hs0 : s.eng.ses.mirrorHit h = true → s0 = ((s.eng.begin.withHart h Hart.knownHalted).ses.hart h).gpr[8] := by
    rw [withHart_hart]; exact h0
  refine ⟨fun hh => ?_, fun hh => ?_⟩
  · refine completes_zero (exec_step hr hn) hh ((hhalted.bind fun _ _ =>
      .stepHart h dcsr s0 s0' s0'' ((withHart_selectHit ..).trans hsel) hmirror hs0).leaving ?_)
    simp only [withHart_withHart, withHart_dm, knownHalted_afterCsr]
    rfl
  · refine completes_error (by decide) (exec_step hr hn) hh (.head ((Raises.bind hhalted fun _ _ =>
      .stepHart h dcsr s0 s0' ((withHart_selectHit ..).trans hsel) hmirror hs0).leaving ?_))
    simp only [withHart_withHart, withHart_dm, knownHalted_afterCsr]
    rfl

/-- Settles O45: behind its checks RESET is resetHart. -/
theorem resetResetsTheHarts : Obligations.ResetResetsTheHarts := by
  intro s h b evs rest hr hn hb
  have hsel := selected_of_ready hr
  refine ⟨fun hh => ?_, fun ht hh => ?_⟩
  · exact completes_done (exec_reset hr hn hb) hh (.returnsZero (.resetHart h b hsel)) rfl rfl
  · subst ht
    exact completes_raise (exec_reset hr hn hb) hh (.head (.resetHart h hsel)) rfl rfl

end Sys2Proof.Machine
end

section
/-! SUPPORT. The DM driver's commands that access a halted hart's registers and CSRs or run a program on it, and how they
fail (42_dm.md R126 to R137; 60_exceptions.md R164; 70_reset_and_hazards.md R191). -/

namespace Sys2Proof.Machine

variable {α : Type} {s : State} {e e' e₁ e₂ : Engine} {h : HartId} {n : BitVec 5} {c : BitVec 12} {t u : Script}
  {evs : List WireEvent} {rest : List Bool} {x : Raise}

/-! ## The register rows -/

/-- A mirror that already holds a register's value is not changed by it. -/
theorem mirrored_of_eq {y : Hart} (on : Bool) {v : Word} (hv : v = y.gpr[n.toNat]'n.isLt) : y.mirrored on n v = y := by
  subst hv
  unfold Hart.mirrored
  split
  · rw [Vector.set_getElem_self]
  · rfl

/-- ReadReg, from the mirror or over the wire (42_dm.md R128). -/
theorem Yields.readReg {v : Word} (h : HartId) (hs : e.ses.selectHit 0xA 0 = true)
    (hv : e.ses.mirrorHit h = true → v = (e.ses.hart h).gpr[n.toNat]'n.isLt) :
    Yields (Machine.readReg h n) (maybeReadReg (e.ses.mirrorHit h) h n v) e (· = v)
      (e.withHart h (·.mirrored e.ses.dm.cacheEnabled n v)) := by
  cases hm : e.ses.mirrorHit h with
  | true =>
    have he : e.withHart h (·.mirrored e.ses.dm.cacheEnabled n v) = e := by
      rw [Engine.withHart, mirrored_of_eq _ (hv hm), setHart_hart]
    rw [he, hv hm]
    exact readRegHit h n hm
  | false => exact readRegMiss h n v hs hm

/-! ## A failing WRITE_REG (42_dm.md R140; log 22) -/

theorem mirror_answers (h : HartId) (n : BitVec 5) (v : Word) (e : Engine) : ∃ e', mirror h n v e = .ok () e' := by
  rw [mirror, bind_ok (getSes_run e)]
  split
  · exact ⟨_, modifyHart_run ..⟩
  · exact ⟨e, rfl⟩

/-- WriteReg that raises leaves the mirror invalid, at whichever of its steps it failed. -/
theorem writeReg_error {v : Word} (hw : writeReg h n v e = .error x e') : Unmirrored h e' := by
  rw [writeReg, bind_run, onRaise, tryCatch_run] at hw
  cases hm : (do selectHart h; gprWrite n v : Proc Unit) e with
  | ok _ e₁ =>
    obtain ⟨e₂, hok⟩ := mirror_answers h n v e₁
    rw [hm] at hw
    cases hok.symm.trans hw
  | error r e₁ =>
    rw [hm] at hw
    cases hw
    exact congrArg Hart.cacheValid (hart_setHart_same _ _ _)

/-- A command that returns 0 ends with another status than Ok only by a raise. -/
theorem returnsZero_error_of_status {m : Proc Unit} (hs : (finish (returnsZero m e)).ses.port.resultStatus ≠ .ok) :
    ∃ r e', m e = .error r e' ∧ returnsZero m e = .error r e' := by
  cases hm : m e with
  | ok _ e₁ => rw [returnsZero, bind_ok hm] at hs; exact absurd rfl hs
  | error r e₁ => exact ⟨r, e₁, rfl, bind_error hm⟩

/-- Settles O46: behind its checks and the halt check each command is readReg or writeReg, and a writeReg that raises
has invalidated the mirror. -/
theorem registerAccess : Obligations.RegisterAccess := by
  intro s h n v evs rest hr hn hw hk
  have hsel := selected_of_ready hr
  have hhalted := Yields.requireHalted (e := s.eng.begin) h hsel hk
  refine ⟨fun hv hh => ?_, fun hv hh => ?_, fun t hknown hx hstatus => ?_⟩
  · have hread := Yields.readReg (e := s.eng.begin.withHart h Hart.knownHalted) (n := n) (v := v) h
      ((withHart_selectHit ..).trans hsel) (by rw [withHart_mirrorHit_knownHalted, withHart_hart]; exact hv)
    rw [withHart_mirrorHit_knownHalted, withHart_withHart] at hread
    exact completes_word (exec_readReg hr hn hw) hh (.bind hhalted fun _ _ => hread)
  · subst hv
    have hwrite := Yields.writeReg (e := s.eng.begin.withHart h Hart.knownHalted) h n s.eng.ses.port.arg2
      ((withHart_selectHit ..).trans hsel)
    rw [withHart_withHart] at hwrite
    exact completes_zero (exec_writeReg hr hn hw) hh (.bind hhalted fun _ _ => hwrite)
  · rw [exec_writeReg hr hn hw] at hx
    injection hx with hx
    subst hx
    obtain ⟨r, e₁, hraise, hrun⟩ := returnsZero_error_of_status hstatus
    rw [bind_ok (requireHalted_known (e := s.eng.begin) hknown (hk hknown))] at hraise
    change ((finish _).ses.hart h).cacheValid = false
    rw [hrun, finish_hart]
    exact writeReg_error hraise

/-- Settles O47: behind its checks and the halt check READ_ALL_REGS is readAllRegs, its words going out. -/
theorem readAllRegsReadsAll : Obligations.ReadAllRegsReadsAll := by
  intro s h vs evs rest hr hn hk hl hh
  have hsel := selected_of_ready hr
  have hhalted := Yields.requireHalted (e := s.eng.begin) h hsel hk
  have hread := Yields.readAllRegs (e := s.eng.begin.withHart h Hart.knownHalted) h true vs hl
    ((withHart_selectHit ..).trans hsel)
  rw [withHart_withHart] at hread
  exact completes_done (exec_readAllRegs_ready hr hn) hh (.returnsZero
    (.bind hhalted fun _ _ => .quiet_bind hread fun _ _ => (Yields.pure () _).weaken fun _ _ => trivial)) rfl rfl

/-! ## CSRs -/

/-- Settles O48: behind its checks and the halt check each command is csrRead or csrWrite. -/
theorem csrAccess : Obligations.CsrAccess := by
  intro s h c s0 v evs rest hr hn hk h0
  have hsel := selected_of_ready hr
  have hhalted := Yields.requireHalted (e := s.eng.begin) h hsel hk
  have hsel' := (withHart_selectHit s.eng.begin h Hart.knownHalted 0xA 0).trans hsel
  have hmirror := (withHart_mirrorHit_knownHalted s.eng.begin h).symm
  have hs0 : s.eng.ses.mirrorHit h = true → s0 = ((s.eng.begin.withHart h Hart.knownHalted).ses.hart h).gpr[8] := by
    rw [withHart_hart]; exact h0
  have hread := Yields.csrRead h c s0 v hsel' hmirror hs0
  have hwrite := Yields.csrWrite h c s0 v hsel' hmirror hs0
  rw [withHart_withHart] at hread hwrite
  refine ⟨fun hh => ⟨fun hw => ?_, fun hc => ?_⟩, fun hh => ⟨fun hw hv => ?_, fun hc hv => ?_⟩⟩
  · exact completes_word (exec_readCsr hr hn hw) hh (.bind hhalted fun _ _ => hread)
  · subst hc
    exact completes_word (exec_readPc hr hn) hh (.bind hhalted fun _ _ => hread)
  · subst hv
    exact completes_zero (exec_writeCsr hr hn hw) hh (.bind hhalted fun _ _ => hwrite)
  · subst hc hv
    exact completes_zero (exec_writePc hr hn) hh (.bind hhalted fun _ _ => hwrite)

/-! ## EXECUTE_PROGBUF (42_dm.md R137) -/

/-- All the words asked for are on DIN. -/
theorem collectDin_all {more : List Word} (ws : List Word) : ∀ {e : Engine} (got : List Word),
    e.ses.port.din = ws ++ more → collectDin ws.length got e = .ok (true, got ++ ws) (e.withDin more) := by
  induction ws with
  | nil => intro e got hd; rw [List.nil_append] at hd; subst hd; rw [List.append_nil]; rfl
  | cons w ws ih =>
    intro e got hd
    rw [List.length_cons, collectDin_succ hd, ih _ rfl, List.append_assoc]
    rfl

/-- DIN runs empty before the words asked for are there. -/
theorem collectDin_short (ws : List Word) : ∀ {e : Engine} {k : Nat} (got : List Word),
    e.ses.port.din = ws → ws.length < k → collectDin k got e = .ok (false, got ++ ws) (e.withDin []) := by
  induction ws with
  | nil =>
    intro e k got hd hk
    obtain ⟨k, rfl⟩ := Nat.exists_eq_add_of_lt hk
    rw [List.length_nil, Nat.zero_add, collectDin_empty hd, List.append_nil, ← hd]
    rfl
  | cons w ws ih =>
    intro e k got hd hk
    obtain ⟨k, rfl⟩ := Nat.exists_eq_add_of_lt hk
    rw [show (w :: ws).length + k + 1 = ws.length + k + 1 + 1 by rw [List.length_cons]; omega, collectDin_succ hd,
      ih _ rfl (by omega), List.append_assoc]
    rfl

/-- A procedure that runs the same way whatever the wire fields are, without wire activity. -/
theorem Yields.of_run {m : Proc α} {a : α} (hc : e'.ses.dap.retryCount = e.ses.dap.retryCount)
    (hm : ∀ bits r fl ack, m (e.on bits r fl ack) = .ok a (e'.on bits r fl ack)) : Yields m [] e (· = a) e' := by
  rintro bits rest evs r fl ack ⟨rfl, rfl⟩
  exact ⟨hc, a, fl, rfl, hm _ _ _ _⟩

theorem length_of_programOf {ws l : List Word} (hl : programOf ws = some l) : 1 ≤ ws.length ∧ ws.length ≤ 2 := by
  unfold programOf at hl
  split at hl
  · exact ⟨le_refl 1, Nat.le_succ 1⟩
  · exact ⟨Nat.le_succ 1, le_refl 2⟩
  · cases hl

/-- Two words without an `ebreak` at the end are no program. -/
theorem progbufList_of_not_programOf {ws : List Word} (h2 : ws.length = 2) (hp : programOf ws = none) :
    progbufList ws = none := by
  obtain ⟨w, v, rfl⟩ := List.length_eq_two.1 h2
  have hv : v ≠ 0x00100073 := fun hv => by rw [programOf, if_pos hv] at hp; cases hp
  exact (if_neg fun hlast => hv (Option.some.inj hlast)).trans (if_neg (show ¬2 < 2 by decide))

/-- Settles O49: behind its checks EXECUTE_PROGBUF takes its words off DIN, all of them or those that are there. -/
theorem executeProgbufRunsAProgram : Obligations.ExecuteProgbufRunsAProgram := by
  intro s h ws more evs rest hr hn
  obtain ⟨-, hi, hsel⟩ := (ready_iff s).1 hr
  refine ⟨fun l hd hw hl hk hh => ?_, fun hd hw h2 hp => ?_, fun k hd hw hlt h2 => ?_⟩
  · obtain ⟨h1, h2⟩ := length_of_programOf hl
    have hcollect : Yields (collectDin ws.length []) [] s.eng.begin (· = (true, ws)) (s.eng.begin.withDin more) :=
      .of_run rfl fun _ _ _ _ => collectDin_all ws [] hd
    have hexecute := Yields.executeWords (e := s.eng.begin.withDin more) (progbufList_of_programOf hl) hi hsel hk
    have hrun : Yields (continueProgbuf h ws.length []) _ _ _ _ :=
      .bind_quiet hcollect fun got hg => by subst hg; exact .returnsZero hexecute
    exact completes_done (exec_executeProgbuf hr hn hw h1 h2) hh hrun rfl rfl
  · have hcollect := collectDin_all (e := s.eng.begin) ws [] hd
    rw [h2, List.nil_append] at hcollect
    rw [exec_executeProgbuf hr hn (k := 2) hw (by decide) (by decide), runCommand, continueProgbuf]
    rw [List.length_nil, Nat.sub_zero, bind_ok hcollect]
    simp only [executeWords, progbufList_of_not_programOf h2 hp]
    rfl
  · have hcollect := collectDin_short (e := s.eng.begin) ws [] hd hlt
    rw [List.nil_append] at hcollect
    rw [exec_executeProgbuf hr hn hw (by omega) h2, runCommand, continueProgbuf]
    rw [List.length_nil, Nat.sub_zero, bind_ok hcollect]
    rfl

/-! ## Failures (42_dm.md R126, R132) -/

namespace Raises

/-- GprRead whose command fails. -/
theorem gprRead (hs : e.ses.selectHit 0xA 0 = true) (hw : Raises Machine.waitAbstract u e x e) :
    Raises (Machine.gprRead n) (dmWriteScript .command (cmdGprRead n) ++ u) e x e :=
  bind (Yields.dmWrite _ _ hs) fun _ _ => head hw

/-- ReadReg over the wire whose command fails. -/
theorem readReg (hs : e.ses.selectHit 0xA 0 = true) (hm : e.ses.mirrorHit h = false)
    (hw : Raises Machine.waitAbstract u e x e) :
    Raises (Machine.readReg h n) (selectHartScript h ++ dmWriteScript .command (cmdGprRead n) ++ u) e x e := by
  refine look (fun _ _ _ _ => rfl) ?_
  rw [if_neg (by rw [show (_ && _) = false from hm]; decide)]
  exact (bind (Yields.selectHart h hs) fun _ _ => head (gprRead hs hw)).as (List.append_assoc ..).symm

/-- A program that fails. -/
theorem runProgbuf (h : HartId) (l : List Word) (hs : e.ses.selectHit 0xA 0 = true)
    (hw : Raises Machine.waitAbstract u (e.withHart h fun y => { y with cacheValid := false }) x
      (e.withHart h fun y => { y with cacheValid := false })) :
    Raises (Machine.runProgbuf h l)
      ((l.zipIdx.flatMap fun y => dmWriteScript (.progbuf y.2) y.1) ++ (dmWriteScript .command 0x00040000 ++ u)) e x
      (e.withHart h fun y => { y with cacheValid := false }) :=
  bind (Yields.writeProgbuf hs l 0) fun _ _ => bind_quiet (Yields.modifyHart h _) fun _ _ =>
    bind (Yields.dmWrite .command _ ((withHart_selectHit ..).trans hs)) fun _ _ => hw

/-- s0 is restored after a procedure that failed; the first error is raised (60_exceptions.md R164). -/
theorem thenRestoreS0 {m : Proc α} (h : HartId) (s0 : Word) (hm : Raises m t e x e₁)
    (hs : e₁.ses.selectHit 0xA 0 = true) :
    Raises (Machine.thenRestoreS0 h s0 m) (t ++ writeRegScript h 8 s0) e x
      (e₁.withHart h (·.mirrored e₁.ses.dm.cacheEnabled 8 s0)) :=
  bind hm.attempt fun first hf => by
    subst hf
    exact (bind (Yields.attempt (Yields.writeReg h regS0 s0 hs)) fun _ _ => throw x _).as (List.append_nil _)

/-- CsrRead whose program fails: s0 was saved, and is restored (42_dm.md R132). -/
theorem csrRead (h : HartId) (c : BitVec 12) (s0 : Word) (hs : e.ses.selectHit 0xA 0 = true)
    (hm : e.ses.mirrorHit h = false)
    (hw : ∀ {e : Engine}, e.ses.selectHit 0xA 0 = true → Raises Machine.waitAbstract u e x e) :
    Raises (Machine.csrRead h c)
      (readRegScript h 8 s0 ++ selectHartScript h ++ dmWriteScript .progbuf0 (insnCsrr c)
        ++ dmWriteScript .progbuf1 0x00100073 ++ dmWriteScript .command 0x00040000 ++ u ++ writeRegScript h 8 s0) e x
      (e.withHart h (·.afterCsr e.ses.dm.cacheEnabled s0)) := by
  have hsaved := (withHart_selectHit e h (·.mirrored e.ses.dm.cacheEnabled 8 s0) 0xA 0).trans hs
  have hprogram : Raises (do
        Machine.selectHart h
        Machine.runProgbuf h [insnCsrr c, Config.insnEbreak]
        Machine.readReg h regS0) _ (e.withHart h (·.mirrored e.ses.dm.cacheEnabled 8 s0)) x _ :=
    bind (Yields.selectHart h hsaved) fun _ _ =>
      head (runProgbuf h _ hsaved (hw ((withHart_selectHit ..).trans hsaved)))
  refine ((bind (Yields.readRegMiss h regS0 s0 hs hm) fun a ha => by
    subst ha
    exact thenRestoreS0 h a hprogram ((withHart_selectHit ..).trans hsaved)).as ?_).leaving ?_
  · simp [Config.insnEbreak, regS0]
  · simp only [withHart_withHart, withHart_dm]
    exact congrArg _ (funext fun y => by simp only [Hart.mirrored, Hart.afterCsr]; split <;> simp)

end Raises

/-- A command that returns a word ends in a FAULT and changed one hart. -/
theorem runCommand_faults {m : Proc Word} {f : Hart → Hart} (hh : s.hears t evs rest)
    (hm : Faults m t s.eng.begin (s.eng.begin.withHart h f)) :
    ∃ fl, runCommand (returns m) s = .next (((s.withHart h f).raised .fault 0 []).onWire rest evs.reverse fl 4) := by
  obtain ⟨-, fl, hrun⟩ := hm _ _ _ [] s.eng.ses.txn s.eng.ses.dap.lastAck hh
  rw [List.append_nil] at hrun
  exact ⟨fl, runCommand_returns_error (u := s.eng.withHart h f) (by decide) hrun⟩

theorem readyHalted_iff : s.readyHalted h = true ↔
    s.ready = true ∧ (s.eng.ses.hart h).known = true ∧ (s.eng.ses.hart h).halted = true := by
  simp only [State.readyHalted, Bool.and_eq_true, and_assoc]

section halted
variable (hr : s.readyHalted h = true) (hn : names s.eng.ses.port.arg0 h)
include hr

/-- The halt check of a hart known halted passes at once. -/
theorem readyHalted_run (m : Proc α) : (do requireHalted h; m) s.eng.begin = m s.eng.begin := by
  obtain ⟨-, hknown, hhalted⟩ := readyHalted_iff.1 hr
  exact bind_ok (requireHalted_known (e := s.eng.begin) hknown hhalted)

include hn

theorem exec_readReg_halted (hw : s.eng.ses.port.arg1 = n.setWidth 32) :
    exec .readReg s = runCommand (returns (readReg h n)) s :=
  (exec_readReg (readyHalted_iff.1 hr).1 hn hw).trans (runCommand_word_congr (readyHalted_run hr _))

theorem exec_readCsr_halted (hw : s.eng.ses.port.arg1 = c.setWidth 32) :
    exec .readCsr s = runCommand (returns (csrRead h c)) s :=
  (exec_readCsr (readyHalted_iff.1 hr).1 hn hw).trans (runCommand_word_congr (readyHalted_run hr _))

end halted

/-- Settles O60: READ_REG raises what WaitAbstract raises, READ_CSR too, after it has restored s0; a FAULT at both
selections of READ_CSR leaves the mirror invalid by the restore of s0. -/
theorem failedRegisterAccessCleansUp : Obligations.FailedRegisterAccessCleansUp := by
  intro s h evs rest hr hn
  have hsel := selected_of_ready (readyHalted_iff.1 hr).1
  refine ⟨fun hm => ⟨fun n hw => ⟨fun hh => ?_, fun hh => ?_⟩, fun c s0 hw hh => ?_⟩, fun hm c hw hh => ?_⟩
  · exact completes_raise (exec_readReg_halted hr hn hw) hh (.head (.readReg hsel hm (.waitAbstract hsel))) rfl rfl
  · exact completes_raise (exec_readReg_halted hr hn hw) hh (.head (.readReg hsel hm (.waitAbstractTimeout hsel))) rfl rfl
  · exact completes_error (by decide) (exec_readCsr_halted hr hn hw) hh
      (.head (.csrRead h c s0 hsel hm fun hs => .waitAbstract hs))
  · rw [exec_readCsr_halted hr hn hw]
    exact runCommand_faults hh (.csrRead h c hsel hm)

end Sys2Proof.Machine
end

section
/-! SUPPORT. The System Bus Access commands on a ready session (43_sba.md R141 to R144). -/

namespace Sys2Proof.Machine

variable {α : Type} {s : State} {e : Engine} {v : Word}

/-! ## SBA_CHECK_ERRORS behind its checks (43_sba.md R144) -/

/-- What SBA_CHECK_ERRORS does with the SBCS word `v`. -/
def judgeSbcs (v : Word) : Proc Word :=
  if sberror v = 0 then return v
  else do
    dmWrite .sbcs Config.sbcsCfg
    endWith .fault v

theorem Yields.judgeSbcs (hv : sberror v = 0) : Yields (Machine.judgeSbcs v) [] e (· = v) e := by
  rw [Machine.judgeSbcs, if_pos hv]
  exact pure v e

theorem Raises.judgeSbcs (hv : sberror v ≠ 0) (hs : e.ses.selectHit 0xA 0 = true) :
    Raises (Machine.judgeSbcs v) (dmWriteScript .sbcs 0x00147000) e ⟨.fault, v⟩ e := by
  rw [Machine.judgeSbcs, if_neg hv]
  exact (bind (Yields.dmWrite .sbcs _ hs) fun _ _ => throw _ e).as (List.append_nil _)

/-! ## Behind the checks -/

theorem requireSba_run (hi : e.ses.dm.initialized = true) (hb : e.ses.dm.sbaInitialized = true) :
    requireSba e = .ok () e := by
  rw [requireSba, bind_ok (getSes_run e), hi, hb]; rfl

section ready
variable (hr : s.ready = true)
include hr

theorem exec_sbaInit : exec .sbaInit s = runCommand (returnsZero sbaInit) s := by
  obtain ⟨hc, hi, -⟩ := (ready_iff s).1 hr
  exact runCommand_zero_congr ((bind_ok (requireConnected_online (e := s.eng.begin) hc)).trans
    (bind_ok (requireInitialized_run hi)))

variable (hb : s.eng.ses.dm.sbaInitialized = true)
include hb

theorem exec_sbaCheckErrors : exec .sbaCheckErrors s = runCommand (returns (dmRead .sbcs >>= judgeSbcs)) s := by
  obtain ⟨hc, hi, -⟩ := (ready_iff s).1 hr
  exact runCommand_word_congr ((bind_ok (requireConnected_online (e := s.eng.begin) hc)).trans
    (bind_ok (requireSba_run hi hb)))

/-- The checks of SBA_READ32 and SBA_WRITE32 pass (43_sba.md R142, R143). -/
theorem readySba_run (ha : s.eng.ses.port.arg0.toNat % 4 = 0) (f : Session → Proc α) :
    (do requireConnected; let x ← getSes; require (aligned4 x.port.arg0) .alignment; requireSba; f x) s.eng.begin
      = f s.eng.begin.ses s.eng.begin := by
  obtain ⟨hc, hi, -⟩ := (ready_iff s).1 hr
  rw [bind_ok (requireConnected_online (e := s.eng.begin) hc), bind_ok (getSes_run _), begin_arg0,
    (aligned4_iff _).2 ha, bind_ok (require_true _ _)]
  exact bind_ok (requireSba_run hi hb)

theorem exec_sbaRead32 (ha : s.eng.ses.port.arg0.toNat % 4 = 0) :
    exec .sbaRead32 s = runCommand (returns (sbaRead s.eng.ses.port.arg0)) s :=
  runCommand_word_congr (readySba_run hr hb ha fun x => sbaRead x.port.arg0)

theorem exec_sbaWrite32 (ha : s.eng.ses.port.arg0.toNat % 4 = 0) :
    exec .sbaWrite32 s = runCommand (returnsZero (sbaWrite s.eng.ses.port.arg0 s.eng.ses.port.arg1)) s :=
  runCommand_zero_congr (readySba_run hr hb ha fun x => sbaWrite x.port.arg0 x.port.arg1)

end ready

/-! ## The rows -/

/-- Settles O50: behind its checks each command is the procedure of its rule; SBA_INIT raises when SBCS has no SBA, and
SBA_CHECK_ERRORS when SBCS has an error. -/
theorem sbaCommands : Obligations.SbaCommands := by
  intro s evs rest hr
  have hsel := selected_of_ready hr
  have hread (v : Word) := Yields.exactly (.dmRead .sbcs (· == v) hsel)
  refine ⟨fun hh => ?_, fun hh => ?_, fun hb ha => ⟨fun d hh => ?_, fun hh => ?_⟩,
    fun hb v => ⟨fun hv hh => ?_, fun hv hh => ?_⟩⟩
  · exact completes_done (exec_sbaInit hr) hh (.returnsZero (.sbaInit hsel)) rfl rfl
  · exact completes_raise (exec_sbaInit hr) hh (.head (.sbaInit hsel)) rfl rfl
  · exact completes_done (exec_sbaRead32 hr hb ha) hh (.returns (.sbaRead _ d hsel)) rfl rfl
  · exact completes_done (exec_sbaWrite32 hr hb ha) hh (.returnsZero (.sbaWrite _ _ hsel)) rfl rfl
  · have hjudge := (hread v).quiet_bind (f := judgeSbcs) fun _ hw => by subst hw; exact .judgeSbcs hv
    exact completes_done (exec_sbaCheckErrors hr hb) hh (.returns hjudge) rfl rfl
  · have hjudge := Raises.bind (f := judgeSbcs) (hread v) fun _ hw => by subst hw; exact .judgeSbcs hv hsel
    exact completes_raise (exec_sbaCheckErrors hr hb) hh (.head hjudge) rfl rfl

end Sys2Proof.Machine
end

section
/-! SUPPORT. The commands of the memory API on a ready session: a word, or the 16 or 8 bits at a place in the containing
word, read or written over the selected path (20_memory.md R40; 44_ops.md R146 to R153). -/

namespace Sys2Proof.Machine

variable {α : Type} {s : State} {e : Engine} {f : Session → Proc α}

/-! ## A field of the containing word -/

/-- The field of the word at `a` under `mask` at shift `sh` (R150, R151). -/
def readField (a mask : Word) (sh : Nat) : Proc Word := do
  let w ← memRead a
  return (w >>> sh) &&& mask

/-- The word at `a` read and written back with the field under `mask` at shift `sh` replaced by `v` (R152, R153). -/
def replaceField (a mask v : Word) (sh : Nat) : Proc Unit := do
  let w ← memRead a
  memWrite a (insertField w mask v sh)

theorem Yields.readField {a : Word} (mask : Word) (sh : Nat) (d : Word) (ha : aligned4 a = true)
    (hs : e.ses.selectHit 0xA 0 = true) :
    Yields (Machine.readField a mask sh) (memReadScript e.ses.dm.sbaInitialized a d) e (· = (d >>> sh) &&& mask) e :=
  quiet_bind (memRead d ha hs rfl) fun _ hw => by subst hw; exact pure _ _

theorem Yields.replaceField {a : Word} (mask v : Word) (sh : Nat) (d : Word) (ha : aligned4 a = true)
    (hs : e.ses.selectHit 0xA 0 = true) :
    Yields (Machine.replaceField a mask v sh)
      (memReadScript e.ses.dm.sbaInitialized a d
        ++ memWriteScript e.ses.dm.sbaInitialized a (insertField d mask v sh)) e (fun _ => True) e :=
  bind_eq (memRead d ha hs rfl) (memWrite _ ha hs rfl)

/-- A word is the one with a field replaced when each of its bits is. -/
theorem eq_insertField {mask v w d : Word} {n sh : Nat} (hm : ∀ i, i < 32 → mask.getLsbD i = decide (i < n))
    (hv : v.toNat < 2 ^ n)
    (hw : ∀ k, (hk : k < 32) → w[k] = if sh ≤ k ∧ k < sh + n then v.getLsbD (k - sh) else d[k]) :
    w = insertField d mask v sh :=
  BitVec.eq_of_getElem_eq fun k hk => (hw k hk).trans (insertField_bit hm hv d sh k hk).symm

/-! ## Behind the checks (R147) -/

section ready
variable (hr : s.ready = true)
include hr

/-- The checks of the connection and of the DM pass. -/
theorem readyMem_run : (do requireConnected; let x ← getSes; requireInitialized; f x) s.eng.begin
    = f s.eng.begin.ses s.eng.begin := by
  obtain ⟨hc, hi, -⟩ := (ready_iff s).1 hr
  rw [bind_ok (requireConnected_online (e := s.eng.begin) hc), bind_ok (getSes_run _)]
  exact bind_ok (requireInitialized_run hi)

/-- The same with a check of the operands between the two. -/
theorem readyMem_checked_run {c : Session → Bool} {k : ErrorKind} (hok : c s.eng.begin.ses = true) :
    (do requireConnected; let x ← getSes; require (c x) k; requireInitialized; f x) s.eng.begin
      = f s.eng.begin.ses s.eng.begin := by
  obtain ⟨hc, hi, -⟩ := (ready_iff s).1 hr
  rw [bind_ok (requireConnected_online (e := s.eng.begin) hc), bind_ok (getSes_run _), hok, bind_ok (require_true _ _)]
  exact bind_ok (requireInitialized_run hi)

theorem exec_readMem32 (ha : aligned4 s.eng.ses.port.arg0 = true) :
    exec .readMem32 s = runCommand (returns (memRead s.eng.ses.port.arg0)) s :=
  runCommand_word_congr (readyMem_checked_run hr ha (f := fun x => memRead x.port.arg0))

theorem exec_readMem16 (ha : aligned2 s.eng.ses.port.arg0 = true) : exec .readMem16 s = runCommand
    (returns (readField (wordAddr s.eng.ses.port.arg0) 0xFFFF (halfShift s.eng.ses.port.arg0))) s :=
  runCommand_word_congr (readyMem_checked_run hr ha
    (f := fun x => readField (wordAddr x.port.arg0) 0xFFFF (halfShift x.port.arg0)))

theorem exec_readMem8 : exec .readMem8 s = runCommand
    (returns (readField (wordAddr s.eng.ses.port.arg0) 0xFF (byteShift s.eng.ses.port.arg0))) s :=
  runCommand_word_congr (readyMem_run hr
    (f := fun x => readField (wordAddr x.port.arg0) 0xFF (byteShift x.port.arg0)))

theorem exec_writeMem32 (ha : aligned4 s.eng.ses.port.arg0 = true) :
    exec .writeMem32 s = runCommand (returnsZero (memWrite s.eng.ses.port.arg0 s.eng.ses.port.arg1)) s :=
  runCommand_zero_congr (readyMem_checked_run hr ha (f := fun x => memWrite x.port.arg0 x.port.arg1))

theorem exec_writeMem8 (hv : s.eng.ses.port.arg1.toNat < 2 ^ 8) : exec .writeMem8 s = runCommand (returnsZero
    (replaceField (wordAddr s.eng.ses.port.arg0) 0xFF s.eng.ses.port.arg1 (byteShift s.eng.ses.port.arg0))) s :=
  runCommand_zero_congr (readyMem_checked_run hr (c := fun x => x.port.arg1.toNat < 2 ^ 8) (decide_eq_true hv)
    (f := fun x => replaceField (wordAddr x.port.arg0) 0xFF x.port.arg1 (byteShift x.port.arg0)))

theorem exec_writeMem16 (hv : s.eng.ses.port.arg1.toNat < 2 ^ 16) (ha : aligned2 s.eng.ses.port.arg0 = true) :
    exec .writeMem16 s = runCommand (returnsZero
      (replaceField (wordAddr s.eng.ses.port.arg0) 0xFFFF s.eng.ses.port.arg1 (halfShift s.eng.ses.port.arg0))) s := by
  obtain ⟨hc, hi, -⟩ := (ready_iff s).1 hr
  refine runCommand_zero_congr ?_
  rw [bind_ok (requireConnected_online (e := s.eng.begin) hc), bind_ok (getSes_run _), begin_arg1,
    decide_eq_true hv, bind_ok (require_true _ _), begin_arg0, ha, bind_ok (require_true _ _)]
  exact bind_ok (requireInitialized_run hi)

end ready

/-! ## The rows -/

/-- Settles O51: behind its checks each command reads the containing word, which is the word itself for READ_MEM32, and
takes its field. -/
theorem memoryReads : Obligations.MemoryReads := by
  intro s d evs rest hr hh
  have hsel := selected_of_ready hr
  have haligned := aligned4_wordAddr s.eng.ses.port.arg0
  have hfield (mask : Word) (sh : Nat) := Yields.readField (e := s.eng.begin) mask sh d haligned hsel
  rw [← wordAddr_eq] at hh
  refine ⟨fun h4 => ?_, fun h2 => ?_, ?_⟩
  · have ha := (aligned4_iff _).2 h4
    rw [wordAddr_self ha] at hh
    exact completes_done (exec_readMem32 hr ha) hh (.returns (.memRead d ha hsel rfl)) rfl rfl
  · rw [← halfShift_eq _ h2, ← halfField_eq]
    exact completes_done (exec_readMem16 hr ((aligned2_iff _).2 h2)) hh (.returns (hfield 0xFFFF _)) rfl rfl
  · rw [← byteShift_eq, ← byteField_eq]
    exact completes_done (exec_readMem8 hr) hh (.returns (hfield 0xFF _)) rfl rfl

/-- Settles O52: behind its checks WRITE_MEM32 writes its word, and the other two replace a field of the containing
one. -/
theorem memoryWrites : Obligations.MemoryWrites := by
  intro s d w evs rest hr
  have hsel := selected_of_ready hr
  have haligned := aligned4_wordAddr s.eng.ses.port.arg0
  have hfield (mask v : Word) (sh : Nat) := Yields.replaceField (e := s.eng.begin) mask v sh d haligned hsel
  refine ⟨fun h4 hh => ?_, fun hh => ⟨fun h2 hv hw => ?_, fun hv hw => ?_⟩⟩
  · have ha := (aligned4_iff _).2 h4
    exact completes_done (exec_writeMem32 hr ha) hh (.returnsZero (.memWrite _ ha hsel rfl)) rfl rfl
  · rw [← wordAddr_eq, eq_insertField getLsbD_ffff hv hw, ← halfShift_eq _ h2] at hh
    exact completes_done (exec_writeMem16 hr hv ((aligned2_iff _).2 h2)) hh (.returnsZero (hfield 0xFFFF _ _)) rfl rfl
  · rw [← wordAddr_eq, eq_insertField getLsbD_ff hv hw, ← byteShift_eq] at hh
    exact completes_done (exec_writeMem8 hr hv) hh (.returnsZero (hfield 0xFF _ _)) rfl rfl

end Sys2Proof.Machine
end

section
/-! SUPPORT. RESOURCE_USAGE and GET_ERROR_DETAIL: the slots in use and their bitmaps, and the bytes of the error detail
packed into words (44_ops.md R160, R161). -/

namespace Sys2Proof.Machine

variable {s : State}

/-! ## The slots in use (R160) -/

theorem toList_eq_map_finRange {α : Type} {n : Nat} (v : Vector α n) :
    v.toList = (List.finRange n).map fun k => v[k] := by
  apply List.ext_getElem <;> simp

theorem activeSessions_eq (t : Tracker) : t.activeSessions = t.owner.toList.countP Option.isSome := by
  rw [Tracker.activeSessions, ← List.countP_eq_length_filter, toList_eq_map_finRange, List.countP_map]
  rfl

/-- Bit m of a block's bitmap says whether slot m of the block has an owner, and there are no other bits. -/
theorem bitmap_bits (t : Tracker) (b : Fin Config.pioBlocks) :
    (∀ m : Fin 4, (t.bitmap b)[m.val] = (t.ownerOf ⟨b, m⟩).isSome) ∧ (t.bitmap b).toNat < 16 := by
  have hbits : ∀ b0 b1 b2 b3 : Bool,
      (∀ m : Fin 4, (0 ||| bitAt 32 b0 0 ||| bitAt 32 b1 1 ||| bitAt 32 b2 2 ||| bitAt 32 b3 3)[m.val]
        = [b0, b1, b2, b3][m])
      ∧ (0 ||| bitAt 32 b0 0 ||| bitAt 32 b1 1 ||| bitAt 32 b2 2 ||| bitAt 32 b3 3).toNat < 16 := by decide
  obtain ⟨hm, hlt⟩ := hbits (t.ownerOf ⟨b, 0⟩).isSome (t.ownerOf ⟨b, 1⟩).isSome (t.ownerOf ⟨b, 2⟩).isSome
    (t.ownerOf ⟨b, 3⟩).isSome
  refine ⟨fun m => (hm m).trans ?_, hlt⟩
  fin_cases m <;> rfl

/-! ## The bytes of the error detail (R161) -/

/-- Byte k of a word made of four bytes. -/
theorem wordOfBytes_byte (b0 b1 b2 b3 : Byte) {k : Nat} (hk : k < 4) :
    (wordOfBytes b0 b1 b2 b3).extractLsb' (8 * k) 8 = [b0, b1, b2, b3].getD k 0 := by
  rw [← wordBytes_wordOfBytes b0 b1 b2 b3]
  interval_cases k <;> rfl

/-- The first word of a packed list holds its first four bytes, 0 standing for those that are not there. -/
theorem packBytes_of_ne_nil {d : List Byte} (hd : d ≠ []) :
    packBytes d = wordOfBytes (d.getD 0 0) (d.getD 1 0) (d.getD 2 0) (d.getD 3 0) :: packBytes (d.drop 4) :=
  match d with
  | [] => absurd rfl hd
  | [_] | [_, _] | [_, _, _] | _ :: _ :: _ :: _ :: _ => by simp [packBytes]

theorem length_packBytes (d : List Byte) : (packBytes d).length = (d.length + 3) / 4 := by
  induction d using packBytes.induct with
  | case1 | case2 | case3 | case4 => simp [packBytes]
  | case5 b0 b1 b2 b3 rest ih => simp only [packBytes, List.length_cons, ih]; omega

/-- Byte r of word q is byte 4q + r of the list. -/
theorem packBytes_byte {r : Nat} (hr : r < 4) : ∀ (q : Nat) (d : List Byte), q < (packBytes d).length →
    ((packBytes d).getD q 0).extractLsb' (8 * r) 8 = d.getD (4 * q + r) 0 := by
  intro q
  induction q with
  | zero =>
    intro d hq
    have hd : d ≠ [] := by rintro rfl; cases hq
    rw [packBytes_of_ne_nil hd, List.getD_cons_zero, wordOfBytes_byte _ _ _ _ hr]
    interval_cases r <;> rfl
  | succ q ih =>
    intro d hq
    have hd : d ≠ [] := by rintro rfl; cases hq
    rw [packBytes_of_ne_nil hd] at hq ⊢
    rw [List.getD_cons_succ, ih _ (Nat.lt_of_succ_lt_succ hq)]
    simp only [List.getD_eq_getElem?_getD, List.getElem?_drop]
    congr 2; omega

/-- Settles O30: the tracker's owners counted and mapped, and the detail packed; the bound is the invariant's. -/
theorem resourceUsageAndErrorDetail : Obligations.ResourceUsageAndErrorDetail := by
  intro s
  have hbitmap (b : Fin Config.pioBlocks) := bitmap_bits s.eng.tracker b
  refine ⟨⟨s.eng.tracker.bitmap 0, s.eng.tracker.bitmap 1, ?_, fun m => ⟨(hbitmap 0).1 m, (hbitmap 1).1 m⟩,
      (hbitmap 0).2, (hbitmap 1).2⟩,
    ⟨packBytes s.eng.ses.errDetail, rfl, length_packBytes _, fun i hi => ?_⟩, fun hs => hs.detailBound⟩
  · rw [← activeSessions_eq]
    rfl
  · rw [packBytes_byte (Nat.mod_lt i (by decide)) (i / 4) _ (by omega), Nat.div_add_mod]

end Sys2Proof.Machine
end

section
/-! SUPPORT. A loop over the words of a block that stops early: it holds for a word, or fails at one, by a word that
reads back differently, by a FAULT or however else (30_encoding.md R73; 44_ops.md R155 to R157). -/

namespace Sys2Proof.Machine

variable {α β : Type} {e e' e₁ e₂ : Engine} {x : Raise} {t u : Script} {i n : Nat}

/-! ## A loop in two parts -/

theorem readBlock_add (a : Word) (n m : Nat) : ∀ i,
    readBlock a (n + m) i = readBlock a n i >>= fun _ => readBlock a m (i + n) := by
  induction n with
  | zero => intro i; rw [Nat.zero_add]; rfl
  | succ n ih =>
    intro i
    rw [Nat.succ_add]
    simp only [readBlock, ih, bind_assoc, Nat.add_assoc, Nat.add_comm 1 n]

/-- What follows the words fed so far: nothing if DIN ran empty at one of them. -/
def feedOn (rest : Proc (Option Nat)) : Option Nat → Proc (Option Nat)
  | some j => return some j
  | none => rest

theorem feed_add (f : Nat → Word → Proc Unit) (n m : Nat) : ∀ i,
    feed f (n + m) i = feed f n i >>= feedOn (feed f m (i + n)) := by
  induction n with
  | zero => intro i; rw [Nat.zero_add]; rfl
  | succ n ih =>
    intro i
    rw [Nat.succ_add]
    simp only [feed, bind_assoc]
    congr 1
    funext o
    cases o with
    | none => rfl
    | some w => simp only [ih, bind_assoc, Nat.add_assoc, Nat.add_comm 1 n]

/-! ## Failing at a word -/

/-- A raise at word `i` has its index as its value. -/
theorem Raises.atWord {m : Proc α} (h : Raises m t e x e') :
    Raises (Machine.atWord i m) t e ⟨x.kind, BitVec.ofNat 32 i⟩ e' := by
  intro bits rest evs r fl ack ht
  obtain ⟨hr, fl', hm⟩ := h _ _ _ r fl ack ht
  exact ⟨hr, fl', tryCatch_error hm⟩

/-- A word of an upload that reads back differently (R157). -/
theorem Raises.uploadWord {a w d : Word} (i : Nat) (ha : aligned4 a = true) (hs : e.ses.selectHit 0xA 0 = true)
    (hd : d ≠ w) :
    Raises (Machine.uploadWord a i w)
      (memWriteScript e.ses.dm.sbaInitialized (blockAddr a i) w
        ++ memReadScript e.ses.dm.sbaInitialized (blockAddr a i) d) e ⟨.verify, BitVec.ofNat 32 i⟩ e :=
  bind (Yields.memWrite w (aligned4_blockAddr ha i) hs rfl) fun _ _ =>
    (bind (Yields.memRead d (aligned4_blockAddr ha i) hs rfl) fun r hr => by
      subst hr
      rw [if_neg hd]
      exact throw _ _).as (List.append_nil _)

/-- Whatever the wire fields of `e` are, the procedure raises `Fault` with the value `i` after the script, whose last
transaction is answered FAULT. -/
def FaultsAt (i : Nat) (m : Proc α) (t : Script) (e e' : Engine) : Prop :=
  ∀ bits rest evs r fl ack, talk t e.ses.dap.retryCount.toNat bits evs rest →
    ∃ fl', m (e.on bits r fl ack) = .error ⟨.fault, BitVec.ofNat 32 i⟩ (e'.on rest (evs.reverse ++ r) fl' 4)

/-- A write over the selected path whose first transaction is answered FAULT (44_ops.md R146). -/
theorem Faults.memWrite {a : Word} (w : Word) (ha : aligned4 a = true) (hs : e.ses.selectHit 0xA 0 = true) :
    Faults (Machine.memWrite a w) [faults true false 0x4] e e := by
  intro bits rest evs r fl ack ht
  rw [Machine.memWrite, bind_ok (getSes_run _)]
  split
  · exact head (f := fun _ => Machine.dmWrite .sbdata0 w) (memApWrite a (by decide) hs) bits rest evs r fl ack ht
  · exact memApWrite w ha hs bits rest evs r fl ack ht

namespace FaultsAt

variable {m : Proc α} {f : α → Proc β} {P : α → Prop}

theorem atWord (h : Faults m t e e') : FaultsAt i (Machine.atWord i m) t e e' := fun _ _ _ r fl ack ht => by
  obtain ⟨-, fl', hm⟩ := h _ _ _ r fl ack ht
  exact ⟨fl', tryCatch_error hm⟩

/-- The first of two procedures ends in the FAULT. -/
theorem head (h : FaultsAt i m t e e') : FaultsAt i (m >>= f) t e e' := fun _ _ _ r fl ack ht => by
  obtain ⟨fl', hm⟩ := h _ _ _ r fl ack ht
  exact ⟨fl', bind_error hm⟩

/-- The second of two procedures ends in the FAULT. -/
theorem bind (hm : Yields m t e P e₁) (hf : ∀ a, P a → FaultsAt i (f a) u e₁ e₂) :
    FaultsAt i (m >>= f) (t ++ u) e e₂ := fun _ _ _ r fl ack ht => by
  obtain ⟨mid, evs₁, evs₂, h₁, h₂, rfl⟩ := talk_append.1 ht
  obtain ⟨hr, a, fl', ha, hm'⟩ := hm _ _ _ r fl ack h₁
  rw [← hr] at h₂
  obtain ⟨fl'', hf'⟩ := hf a ha _ _ _ (evs₁.reverse ++ r) fl' (ackAfter evs₁ ack) h₂
  exact ⟨fl'', by rw [bind_ok hm', hf', List.reverse_append, List.append_assoc]⟩

/-- A block read that ends in a FAULT after the words `ws` (R155). -/
theorem readBlock {a : Word} {ws : List Word} (ha : aligned4 a = true) (hs : e.ses.selectHit 0xA 0 = true)
    (hn : ws.length < n) :
    FaultsAt ws.length (Machine.readBlock a n 0)
      (readBlockScript e.ses.dm.sbaInitialized a ws ++ [faults true false 0x4]) e (e.emitted ws) := by
  obtain ⟨k, rfl⟩ := Nat.exists_eq_add_of_lt hn
  rw [Nat.add_assoc, readBlock_add, Nat.zero_add]
  exact bind (Yields.readBlock ws ha hs rfl) fun _ _ => head (atWord (.memRead (aligned4_blockAddr ha _) hs))

end FaultsAt

/-! ## Words from DIN (30_encoding.md R73) -/

/-- What follows the words fed to a command: it holds where DIN ran empty, and goes on to `last` behind the last one. -/
def feedEnd (hold : Nat → Hold) (last : Proc Progress) : Option Nat → Proc Progress
  | some j => return .hold (hold j)
  | none => last

/-- The words of a block fed from DIN, and what follows them. -/
def feedThen (f : Nat → Word → Proc Unit) (hold : Nat → Hold) (last : Proc Progress) (n : Nat) : Proc Progress :=
  feed f n 0 >>= feedEnd hold last

theorem continueWriteBlock_eq (a : Word) (n : Nat) : continueWriteBlock a n 0 =
    feedThen (fun j w => memWrite (blockAddr a j) w) (.writeBlock a n) (pure (.done (BitVec.ofNat 32 n))) n := rfl

theorem continueUpload_eq (a : Word) (n : Nat) : continueUpload a n 0 =
    feedThen (uploadWord a) (.upload a n) (pure (.done (BitVec.ofNat 32 n))) n := rfl

theorem continueExecuteCode_eq (h : HartId) (a : Word) (n : Nat) : continueExecuteCode h a n 0 =
    feedThen (uploadWord a) (.executeCode h a n) (returnsZero (launch h a)) n := rfl

/-- What is done with each word of a block, whatever words are left on DIN. -/
def Feeds (f : Nat → Word → Proc Unit) (script : Nat → Word → Script) (e : Engine) : Prop :=
  ∀ j w d, Yields (f j w) (script j w) (e.withDin d) (fun _ => True) (e.withDin d)

theorem feeds_memWrite {a : Word} (ha : aligned4 a = true) (hs : e.ses.selectHit 0xA 0 = true) :
    Feeds (fun j w => memWrite (blockAddr a j) w)
      (fun j w => memWriteScript e.ses.dm.sbaInitialized (blockAddr a j) w) e :=
  fun j w d => .memWrite (e := e.withDin d) w (aligned4_blockAddr ha j) hs rfl

theorem feeds_uploadWord {a : Word} (ha : aligned4 a = true) (hs : e.ses.selectHit 0xA 0 = true) :
    Feeds (uploadWord a) (fun j w => memWriteScript e.ses.dm.sbaInitialized (blockAddr a j) w
      ++ memReadScript e.ses.dm.sbaInitialized (blockAddr a j) w) e :=
  fun j w d => .uploadWord (e := e.withDin d) j w ha hs rfl

section feedThen
variable {f : Nat → Word → Proc Unit} {hold : Nat → Hold} {last : Proc Progress} {s : Nat → Word → Script}
  {ws more : List Word} {w : Word} (hf : Feeds f s e)
include hf

/-- All the words are on DIN. -/
theorem Yields.feedThen {P : Progress → Prop} (hd : e.ses.port.din = ws ++ more)
    (hl : Yields last u (e.withDin more) P e') :
    Yields (feedThen f hold last ws.length) ((ws.zipIdx.flatMap fun x => s x.2 x.1) ++ u) e P e' :=
  bind (feedAll ws hf hd) fun o ho => by subst ho; exact hl

/-- DIN runs empty. -/
theorem Yields.feedThen_short (hd : e.ses.port.din = ws) (hn : ws.length < n) :
    Yields (Machine.feedThen f hold last n) (ws.zipIdx.flatMap fun x => s x.2 x.1) e (· = .hold (hold ws.length))
      (e.withDin []) :=
  quiet_bind (feedSome ws hf hd hn) fun o ho => by subst ho; rw [Nat.zero_add]; exact pure _ _

/-- What follows the last word raises. -/
theorem Raises.feedThen_last (hd : e.ses.port.din = ws ++ more) (hl : Raises last u (e.withDin more) x e') :
    Raises (Machine.feedThen f hold last ws.length) ((ws.zipIdx.flatMap fun x => s x.2 x.1) ++ u) e x e' :=
  bind (Yields.feedAll ws hf hd) fun o ho => by subst ho; exact hl

/-- A word raises. -/
theorem Raises.feedThen_word (hd : e.ses.port.din = ws ++ w :: more) (hn : ws.length < n)
    (hw : Raises (f ws.length w) u (e.withDin more) x e') :
    Raises (Machine.feedThen f hold last n) ((ws.zipIdx.flatMap fun x => s x.2 x.1) ++ u) e
      ⟨x.kind, BitVec.ofNat 32 ws.length⟩ e' := by
  obtain ⟨k, rfl⟩ := Nat.exists_eq_add_of_lt hn
  rw [Machine.feedThen, Nat.add_assoc, feed_add, Nat.zero_add]
  exact head (bind (Yields.feedAll ws hf hd) fun o ho => by
    subst ho
    exact bind_quiet (Yields.popDin rfl) fun o ho => by subst ho; exact head hw.atWord)

/-- A word ends in a FAULT. -/
theorem FaultsAt.feedThen_word (hd : e.ses.port.din = ws ++ w :: more) (hn : ws.length < n)
    (hw : Faults (f ws.length w) u (e.withDin more) e') :
    FaultsAt ws.length (Machine.feedThen f hold last n) ((ws.zipIdx.flatMap fun x => s x.2 x.1) ++ u) e e' := by
  obtain ⟨k, rfl⟩ := Nat.exists_eq_add_of_lt hn
  rw [Machine.feedThen, Nat.add_assoc, feed_add, Nat.zero_add]
  exact head (bind (Yields.feedAll ws hf hd) fun o ho => by
    subst ho
    exact bind (t := []) (Yields.popDin rfl) fun o ho => by subst ho; exact head (atWord hw))

end feedThen

end Sys2Proof.Machine
end

section
/-! SUPPORT. The block commands on a ready session (44_ops.md R154 to R157). -/

namespace Sys2Proof.Machine

variable {α : Type} {s u : State} {e e' : Engine} {i : Instr} {t : Script} {evs : List WireEvent} {rest : List Bool}
  {body : Proc Progress} {a n : Word} {r : Raise}

/-! ## Ends of commands -/

/-- A command that behaves as another body does. -/
theorem runCommand_congr {m m' : Proc Progress} (hm : m s.eng.begin = m' s.eng.begin) :
    runCommand m s = runCommand m' s := by
  simp only [runCommand, hm]

/-- A command that holds after a script. -/
theorem completes_hold {h : Hold} (hx : exec i s = runCommand body s) (hh : s.hears t evs rest)
    (hy : Yields body t s.eng.begin (· = .hold h) e') (hl : e'.ses.dap.lastAck = s.eng.ses.dap.lastAck)
    (hu : { s with eng := { e' with ses.hold := h } } = u) : completes i s u evs rest :=
  completes_of (eu := { e' with ses.hold := h }) hl (by rw [hx]; exact runCommand_hold hh hy) hu

/-- A command that ends in a FAULT at a word. -/
theorem runCommand_faultsAt {k : Nat} (hh : s.hears t evs rest) (hm : FaultsAt k body t s.eng.begin e') :
    ∃ fl, runCommand body s = .next { s with
      eng := (e'.failed ⟨.fault, BitVec.ofNat 32 k⟩).on rest evs.reverse fl 4 } := by
  obtain ⟨fl, hb⟩ := hm _ _ _ [] s.eng.ses.txn s.eng.ses.dap.lastAck hh
  have hb : body s.eng.begin = _ := hb
  rw [List.append_nil] at hb
  exact ⟨fl, by rw [runCommand, hb, finish, failed_of_ne (by decide), failed_of_ne (by decide)]; rfl⟩

/-! ## Behind the checks (R147, R154) -/

/-- READ_MEM_BLOCK behind its checks. -/
def readBlockRow (a : Word) (n : Nat) : Proc Progress := do
  readBlock a n 0
  return .done (BitVec.ofNat 32 n)

theorem Yields.readBlockRow {a : Word} (ws : List Word) (ha : aligned4 a = true) (hs : e.ses.selectHit 0xA 0 = true) :
    Yields (Machine.readBlockRow a ws.length) (readBlockScript e.ses.dm.sbaInitialized a ws) e
      (· = .done (BitVec.ofNat 32 ws.length)) (e.emitted ws) :=
  quiet_bind (readBlock ws ha hs rfl) fun _ _ => pure _ _

/-- A word is the word of its number. -/
theorem ofNat_toNat_word (w : Word) : BitVec.ofNat 32 w.toNat = w :=
  (BitVec.ofNat_toNat _ _).trans (BitVec.setWidth_eq _)

section ready
variable (hr : s.ready = true)
include hr

theorem blockChecks_run (ha : a.toNat % 4 = 0) (hn : a.toNat + 4 * n.toNat ≤ 2 ^ 32) :
    blockChecks a n s.eng.begin = .ok () s.eng.begin := by
  obtain ⟨hc, hi, -⟩ := (ready_iff s).1 hr
  rw [blockChecks, bind_ok (requireConnected_online (e := s.eng.begin) hc), inRange, decide_eq_true hn,
    bind_ok (require_true _ _), (aligned4_iff a).2 ha, bind_ok (require_true _ _)]
  exact requireInitialized_run hi

variable (ha : s.eng.ses.port.arg0.toNat % 4 = 0)
  (hn : s.eng.ses.port.arg0.toNat + 4 * s.eng.ses.port.arg1.toNat ≤ 2 ^ 32)
include ha hn

theorem exec_readMemBlock : exec .readMemBlock s =
    runCommand (readBlockRow s.eng.ses.port.arg0 s.eng.ses.port.arg1.toNat) s := by
  refine runCommand_congr ?_
  rw [readBlockRow, ofNat_toNat_word]
  simp only [returns, bind_assoc, pure_bind]
  exact (bind_ok (getSes_run _)).trans (bind_ok (blockChecks_run hr ha hn))

theorem exec_writeMemBlock : exec .writeMemBlock s =
    runCommand (continueWriteBlock s.eng.ses.port.arg0 s.eng.ses.port.arg1.toNat 0) s :=
  runCommand_congr ((bind_ok (getSes_run _)).trans (bind_ok (blockChecks_run hr ha hn)))

theorem exec_uploadCode : exec .uploadCode s =
    runCommand (continueUpload s.eng.ses.port.arg0 s.eng.ses.port.arg1.toNat 0) s :=
  runCommand_congr ((bind_ok (getSes_run _)).trans (bind_ok (blockChecks_run hr ha hn)))

end ready

/-! ## The words a READ_MEM_BLOCK pushes (R155) -/

/-- A transaction pushes no word. -/
theorem talkClosed_dout : TalkClosed fun e e' => e'.ses.port.dout = e.ses.port.dout :=
  .of_moved (.view fun e => e.ses.port.dout) fun _ _ _ _ _ _ _ _ _ _ => rfl

/-- A word of a block is read and pushed, or the block ends there. -/
theorem readBlock_succ (a : Word) (left i : Nat) (e : Engine) :
    (∃ r e', readBlock a (left + 1) i e = .error r e' ∧ r.value = BitVec.ofNat 32 i
      ∧ e'.ses.port.dout = e.ses.port.dout)
    ∨ ∃ e', readBlock a (left + 1) i e = readBlock a left (i + 1) e'
      ∧ e'.ses.port.dout.length = e.ses.port.dout.length + 1 := by
  have hkept := talkClosed_dout.atWord (i := i) (talkClosed_dout.memRead (blockAddr a i)) e
  cases hw : atWord i (memRead (blockAddr a i)) e with
  | error r e₁ => rw [hw] at hkept; exact .inl ⟨r, e₁, bind_error hw, atWord_error hw, hkept⟩
  | ok w e₁ =>
    rw [hw] at hkept
    refine .inr ⟨e₁.emitted [w], (bind_ok hw).trans (bind_ok rfl), ?_⟩
    rw [← show e₁.ses.port.dout = e.ses.port.dout from hkept]
    exact List.length_append

theorem readBlock_ok_dout {a : Word} : ∀ {left i : Nat} {e e' : Engine} {v : Unit},
    readBlock a left i e = .ok v e' → e'.ses.port.dout.length = e.ses.port.dout.length + left := by
  intro left
  induction left with
  | zero => intro i e e' v h; cases h; rfl
  | succ left ih =>
    intro i e e' v h
    rcases readBlock_succ a left i e with ⟨r, e₁, he, -, -⟩ | ⟨e₁, he, hd⟩
    · rw [he] at h; cases h
    · rw [he] at h; rw [ih h, hd]; omega

theorem readBlock_error_dout {a : Word} {r : Raise} : ∀ {left i : Nat} {e e' : Engine},
    readBlock a left i e = .error r e' →
      ∃ k, k < left ∧ e'.ses.port.dout.length = e.ses.port.dout.length + k ∧ r.value = BitVec.ofNat 32 (i + k) := by
  intro left
  induction left with
  | zero => intro i e e' h; cases h
  | succ left ih =>
    intro i e e' h
    rcases readBlock_succ a left i e with ⟨r₁, e₁, he, hv, hd⟩ | ⟨e₁, he, hd⟩
    · rw [he] at h; cases h; exact ⟨0, Nat.succ_pos _, congrArg _ hd, hv⟩
    · rw [he] at h
      obtain ⟨k, hk, hlen, hv⟩ := ih h
      exact ⟨k + 1, by omega, by rw [hlen, hd]; omega, by rw [hv]; congr 1; omega⟩

theorem failed_port (e : Engine) (r : Raise) : (e.failed r).ses.port = (e.result r.kind r.value).ses.port := by
  unfold Engine.failed
  split <;> rfl

/-- However READ_MEM_BLOCK ends, its result is the number of words on DOUT, all of them exactly when it ends with Ok. -/
theorem finish_readBlockRow (a : Word) (n : Nat) (hd : e.ses.port.dout = []) :
    (finish (readBlockRow a n e)).ses.port.resultValue
        = BitVec.ofNat 32 (finish (readBlockRow a n e)).ses.port.dout.length
      ∧ (finish (readBlockRow a n e)).ses.port.dout.length ≤ n
      ∧ ((finish (readBlockRow a n e)).ses.port.resultStatus = .ok
        ↔ (finish (readBlockRow a n e)).ses.port.dout.length = n) := by
  have hempty : e.ses.port.dout.length = 0 := by rw [hd]; rfl
  cases hrun : readBlock a n 0 e with
  | ok v e' =>
    have hlen : e'.ses.port.dout.length = n := by rw [readBlock_ok_dout hrun, hempty, Nat.zero_add]
    rw [readBlockRow, bind_ok hrun]
    exact ⟨congrArg (BitVec.ofNat 32) hlen.symm, hlen.le, fun _ => hlen, fun _ => rfl⟩
  | error r e' =>
    obtain ⟨k, hk, hlen, hv⟩ := readBlock_error_dout hrun
    rw [hempty, Nat.zero_add] at hlen
    rw [Nat.zero_add] at hv
    rw [readBlockRow, bind_error hrun, finish, failed_port]
    change r.value = BitVec.ofNat 32 e'.ses.port.dout.length ∧ e'.ses.port.dout.length ≤ n
      ∧ (r.kind = .ok ↔ e'.ses.port.dout.length = n)
    rw [hlen]
    exact ⟨hv, hk.le, fun hok => absurd hok (Proper.readBlock _ _ _ _ _ hrun), fun h => absurd h hk.ne⟩

end Sys2Proof.Machine
end

section
/-! SUPPORT. A block command that fails does so at one word, whatever number of words it is asked for (44_ops.md R155 to
R157). -/

namespace Sys2Proof.Machine

variable {α : Type} {s t : State} {e e' : Engine} {i : Instr} {r : Raise} {body : Nat → Proc Progress} {a b : Word}

/-! ## Procedures that do not look at ARG0 and ARG1 -/

/-- The probe with other words in ARG0 and ARG1. -/
def State.withArgs (s : State) (a b : Word) : State := { s with eng := s.eng.withArgs a b }

theorem failed_withArgs (e : Engine) (a b : Word) (r : Raise) :
    (e.withArgs a b).failed r = (e.failed r).withArgs a b := by
  unfold Engine.failed
  split <;> rfl

/-- A procedure that does not look at the two registers leaves them as they are, and so does its raise. -/
theorem Blind.failed_kept {m : Proc α} (B : Blind m) (h : m e = .error r e') :
    (e'.failed r).withArgs e.ses.port.arg0 e.ses.port.arg1 = e'.failed r := by
  have hrun : mapEngine (·.withArgs e.ses.port.arg0 e.ses.port.arg1) (m e) = m e := (B e _ _).symm
  rw [h] at hrun
  injection hrun with _ he
  rw [← failed_withArgs]
  exact congrArg (·.failed r) he

/-- Whatever the two registers hold, a command whose body does not look at them ends the same way. -/
theorem runCommand_withArgs {m : Proc Progress} (B : Blind m) (s : State) (a b : Word) :
    runCommand m (s.withArgs a b)
      = .next ({ s with eng := finish (m s.eng.begin) }.withArgs a b) := by
  have hbegin : m (s.withArgs a b).eng.begin = mapEngine (·.withArgs a b) (m s.eng.begin) := B s.eng.begin a b
  rw [runCommand, hbegin]
  rcases m s.eng.begin with ⟨_ | h, e₁⟩ | ⟨r, e₁⟩
  · rfl
  · rfl
  · simp only [mapEngine, finish, failed_withArgs]
    rfl

/-! ## How a body ends -/

/-- A body that answers ends its command with Ok or holds. -/
theorem not_failed_of_ok {p : Progress} (hb : e.ses.port.busy = true) :
    State.failed { s with eng := finish (.ok p e) } = false := by
  cases p with
  | done v => rfl
  | hold h => exact congrArg (fun busy => !busy && _) hb

/-- A command that has failed did so by a raise of its body. -/
theorem error_of_failed {m : Proc Progress}
    (hm : Respects (fun e e' => e'.ses.port.busy = e.ses.port.busy) m) (ht : runCommand m s = .next t)
    (hf : t.failed = true) : ∃ r e', m s.eng.begin = .error r e' ∧ t = { s with eng := e'.failed r } := by
  injection ht with ht
  subst ht
  have hbusy := hm s.eng.begin
  cases hrun : m s.eng.begin with
  | error r e' => exact ⟨r, e', rfl, rfl⟩
  | ok p e' =>
    rw [hrun] at hbusy hf
    cases (not_failed_of_ok (s := s) (p := p) hbusy).symm.trans hf

/-! ## Bodies that fail at a word -/

/-- A body that fails does so at one of the words it is asked for, and asked for another number of words it fails in the
same way if that word is among them. -/
def FailsAtWord (body : Nat → Proc Progress) : Prop :=
  ∀ ⦃n r e e'⦄, body n e = .error r e' → ∃ k, k < n ∧ r.value = BitVec.ofNat 32 k
    ∧ ∀ m, (m ≤ k → ∃ p e₁, body m e = .ok p e₁) ∧ (k < m → body m e = .error r e')

/-- A loop over the words of a block, then an answer. -/
theorem Loop.failsAtWord {run : Nat → Nat → Proc α} (L : Loop run) {g : Nat → α → Proc Progress}
    (hg : ∀ n x e, ∃ p, g n x e = .ok p e) : FailsAtWord fun n => run n 0 >>= g n := by
  intro n r e e' h
  have h : (run n 0 >>= g n) e = .error r e' := h
  have hrun : run n 0 e = .error r e' := by
    cases hc : run n 0 e with
    | ok x e₁ =>
      obtain ⟨p, hp⟩ := hg n x e₁
      rw [bind_ok hc, hp] at h
      cases h
    | error r₁ e₁ => rw [bind_error hc] at h; cases h; rfl
  obtain ⟨k, hk, hv, hm⟩ := L.error hrun
  refine ⟨k, hk, by rw [hv, Nat.zero_add], fun m => ⟨fun hle => ?_, fun hlt => bind_error ((hm m).2 hlt)⟩⟩
  obtain ⟨x, e₁, hx⟩ := (hm m).1 hle
  obtain ⟨p, hp⟩ := hg m x e₁
  exact ⟨p, e₁, (bind_ok hx).trans hp⟩

/-- What a block command's body has in common with the others, asked for any number of words. -/
structure BlockBody (body : Nat → Proc Progress) : Prop where
  blind : ∀ n, Blind (body n)
  busy : ∀ n, Respects (fun e e' => e'.ses.port.busy = e.ses.port.busy) (body n)
  error : FailsAtWord body

/-- BUSY is no host data stream. -/
theorem portClosed_busy (h : HartId) : PortClosed h fun e e' => e'.ses.port.busy = e.ses.port.busy :=
  { TalkClosed.of_moved (.view fun e => e.ses.port.busy) fun _ _ _ _ _ _ _ _ _ _ => rfl with
    hart := fun _ _ _ => rfl
    dout := fun _ _ => rfl
    din := fun _ _ => rfl }

theorem blockBody_read (a : Word) : BlockBody (readBlockRow a) where
  blind n := .bind (.readBlock a n 0) fun _ => .pure _
  busy n := (portClosed_busy 0).bind ((portClosed_busy 0).readBlock a n 0) fun _ => (portClosed_busy 0).pure _
  error := (loop_readBlock a).failsAtWord fun n _ _ => ⟨.done (BitVec.ofNat 32 n), rfl⟩

theorem blockBody_feed {f : Nat → Word → Proc Unit} {hold : Nat → Nat → Hold} (hb : ∀ i w, Blind (f i w))
    (hp : ∀ i w, Respects (fun e e' => e'.ses.port.busy = e.ses.port.busy) (f i w)) :
    BlockBody fun n => feedThen f (hold n) (pure (.done (BitVec.ofNat 32 n))) n where
  blind n := .bind (.feed hb n 0) fun o => by cases o <;> exact .pure _
  busy n := (portClosed_busy 0).bind ((portClosed_busy 0).feed hp n 0) fun o => by
    cases o <;> exact (portClosed_busy 0).pure _
  error := (loop_feed f).failsAtWord (g := fun n => feedEnd (hold n) (pure (.done (BitVec.ofNat 32 n))))
    fun n o _ => by
      cases o with
      | none => exact ⟨.done (BitVec.ofNat 32 n), rfl⟩
      | some j => exact ⟨.hold (hold n j), rfl⟩

theorem blockBody_write (a : Word) : BlockBody fun n => continueWriteBlock a n 0 :=
  blockBody_feed (fun _ _ => .memWrite _ _) fun _ _ => (portClosed_busy 0).memWrite _ _

theorem blockBody_upload (a : Word) : BlockBody fun n => continueUpload a n 0 :=
  blockBody_feed (fun _ _ => .uploadWord _ _ _) fun _ _ => (portClosed_busy 0).uploadWord _ _ _

/-- A block command that fails: its result is the index of the word, and asked for another number of words it ends the
same way, or without failing if it is not asked for that word. -/
theorem BlockBody.failed (B : BlockBody body)
    (hx : ∀ m : Word, m.toNat ≤ s.eng.ses.port.arg1.toNat → exec i (s.withArgs s.eng.ses.port.arg0 m)
      = runCommand (body m.toNat) (s.withArgs s.eng.ses.port.arg0 m))
    (ht : exec i s = .next t) (hf : t.failed = true) :
    ∃ k : Nat, k < s.eng.ses.port.arg1.toNat ∧ t.eng.ses.port.resultValue = BitVec.ofNat 32 k
      ∧ ∀ (m : Word) (u : State), m.toNat ≤ s.eng.ses.port.arg1.toNat →
        exec i (s.withArgs s.eng.ses.port.arg0 m) = .next u →
        (m.toNat ≤ k → u.failed = false)
        ∧ (k < m.toNat → u = t.modifySes fun x => { x with port.arg1 := m }) := by
  have ht : runCommand (body s.eng.ses.port.arg1.toNat) s = .next t := (hx _ le_rfl).symm.trans ht
  obtain ⟨r, e', hrun, rfl⟩ := error_of_failed (B.busy _) ht hf
  obtain ⟨k, hk, hv, hother⟩ := B.error hrun
  have hkept := (B.blind _).failed_kept hrun
  refine ⟨k, hk, (failed_resultValue _ _).trans hv, fun m u hm hu => ?_⟩
  rw [hx m hm, runCommand_withArgs (B.blind _)] at hu
  injection hu with hu
  subst hu
  refine ⟨fun hle => ?_, fun hlt => ?_⟩
  · obtain ⟨p, e₁, hok⟩ := (hother m.toNat).1 hle
    have hbusy := B.busy m.toNat s.eng.begin
    rw [hok] at hbusy ⊢
    exact not_failed_of_ok (s := s) hbusy
  · rw [(hother m.toNat).2 hlt, ← hkept]
    rfl

/-! ## Rows that feed words from DIN -/

section feedRow
variable {f : Nat → Word → Proc Unit} {hold : Nat → Hold} {last : Proc Progress} {script : Nat → Word → Script}
  {n : Nat} {ws more : List Word} {w : Word} {k : ErrorKind} {v : Word} {tail : Script}
  {evs : List WireEvent} {rest : List Bool}
  (hx : exec i s = runCommand (feedThen f hold last n) s)
  (hf : Feeds f script s.eng.begin)
include hx hf

/-- All the words are on DIN, and nothing follows them. -/
theorem completes_feed_done (hl : last = pure (.done v)) (hn : ws.length = n) (hd : s.eng.ses.port.din = ws ++ more)
    (hh : s.hears (ws.zipIdx.flatMap fun x => script x.2 x.1) evs rest) :
    completes i s (s.returned v []) evs rest := by
  subst hl hn
  have hrun : Yields (feedThen f hold _ ws.length) _ s.eng.begin _ _ := .feedThen hf hd (.pure (.done v) _)
  exact completes_done hx hh (hrun.as (List.append_nil _)) rfl rfl

/-- With DIN short of words the command holds after those it has. -/
theorem completes_feed_short (hd : s.eng.ses.port.din = ws) (hn : ws.length < n)
    (hh : s.hears (ws.zipIdx.flatMap fun x => script x.2 x.1) evs rest) :
    completes i s ((s.holding (hold ws.length) []).modifySes fun x => { x with port.din := [] }) evs rest :=
  completes_hold (e' := s.eng.begin.withDin []) hx hh (.feedThen_short hf hd hn) rfl rfl

/-- A word raises. -/
theorem completes_feed_word (hk : k ≠ .alreadyHalted) (hd : s.eng.ses.port.din = ws ++ w :: more) (hn : ws.length < n)
    (hw : Raises (f ws.length w) tail (s.eng.begin.withDin more) ⟨k, v⟩ (s.eng.begin.withDin more))
    (hh : s.hears ((ws.zipIdx.flatMap fun x => script x.2 x.1) ++ tail) evs rest) :
    completes i s (s.raised k (BitVec.ofNat 32 ws.length) []) evs rest :=
  completes_raise hx hh (.feedThen_word hf hd hn hw) rfl (by rw [failed_of_ne hk]; rfl)

/-- A word ends in a FAULT. -/
theorem exec_feed_fault (hd : s.eng.ses.port.din = ws ++ w :: more) (hn : ws.length < n)
    (hw : Faults (f ws.length w) tail (s.eng.begin.withDin more) (s.eng.begin.withDin more))
    (hh : s.hears ((ws.zipIdx.flatMap fun x => script x.2 x.1) ++ tail) evs rest) :
    ∃ fl, exec i s = .next ((s.raised .fault (BitVec.ofNat 32 ws.length) []).onWire rest evs.reverse fl 4) := by
  obtain ⟨fl, hrun⟩ := runCommand_faultsAt hh (.feedThen_word hf hd hn hw)
  rw [failed_of_ne (by decide)] at hrun
  exact ⟨fl, hx.trans hrun⟩

end feedRow

/-! ## The rows -/

/-- Each block command that fails does so at a word. -/
theorem exec_block_failed (hr : s.ready = true) (ha : s.eng.ses.port.arg0.toNat % 4 = 0)
    (hn : s.eng.ses.port.arg0.toNat + 4 * s.eng.ses.port.arg1.toNat ≤ 2 ^ 32)
    (hi : i = .readMemBlock ∨ i = .writeMemBlock ∨ i = .uploadCode) (ht : exec i s = .next t) (hf : t.failed = true) :
    ∃ k : Nat, k < s.eng.ses.port.arg1.toNat ∧ t.eng.ses.port.resultValue = BitVec.ofNat 32 k
      ∧ ∀ (m : Word) (u : State), m.toNat ≤ s.eng.ses.port.arg1.toNat →
        exec i (s.withArgs s.eng.ses.port.arg0 m) = .next u →
        (m.toNat ≤ k → u.failed = false)
        ∧ (k < m.toNat → u = t.modifySes fun x => { x with port.arg1 := m }) := by
  have hready (m : Word) : (s.withArgs s.eng.ses.port.arg0 m).ready = true := hr
  have hrange {m : Word} (hm : m.toNat ≤ s.eng.ses.port.arg1.toNat) :
      s.eng.ses.port.arg0.toNat + 4 * m.toNat ≤ 2 ^ 32 := by omega
  rcases hi with rfl | rfl | rfl
  · exact (blockBody_read s.eng.ses.port.arg0).failed (fun m hm => exec_readMemBlock (hready m) ha (hrange hm)) ht hf
  · exact (blockBody_write s.eng.ses.port.arg0).failed (fun m hm => exec_writeMemBlock (hready m) ha (hrange hm)) ht hf
  · exact (blockBody_upload s.eng.ses.port.arg0).failed (fun m hm => exec_uploadCode (hready m) ha (hrange hm)) ht hf

/-- Settles O53: behind its checks each command is a loop over the words of its block, which ends with its count, holds
where DIN runs empty, or fails at a word. -/
theorem blockTransfer : Obligations.BlockTransfer := by
  intro s ws more evs rest hr ha hn
  have hsel := selected_of_ready hr
  have haligned : aligned4 s.eng.ses.port.arg0 = true := (aligned4_iff _).2 ha
  have hread := exec_readMemBlock hr ha hn
  have hwrite := exec_writeMemBlock hr ha hn
  have hupload := exec_uploadCode hr ha hn
  have hcount : (pure (.done (BitVec.ofNat 32 s.eng.ses.port.arg1.toNat)) : Proc Progress)
      = pure (.done s.eng.ses.port.arg1) := by rw [ofNat_toNat_word]
  have hwriteWord := feeds_memWrite haligned hsel
  have huploadWord := feeds_uploadWord haligned hsel
  refine ⟨fun hlen => ⟨fun hh => ?_, fun hd => ⟨fun hh => ?_, fun hh => ?_⟩⟩,
    fun hlt hd => ⟨fun hh => ?_, fun hh => ?_⟩, fun w d hlt hd hne hh => ?_, fun t ht => ?_,
    fun hlt => ⟨fun hh => ?_, fun w hd hh => ?_⟩, fun i t hi ht hf => ?_⟩
  · rw [← hlen] at hread
    refine completes_done hread hh (.readBlockRow ws haligned hsel) rfl ?_
    rw [hlen, ofNat_toNat_word]
    rfl
  · exact completes_feed_done hwrite hwriteWord hcount hlen hd hh
  · exact completes_feed_done hupload huploadWord hcount hlen hd hh
  · exact completes_feed_short hwrite hwriteWord hd hlt hh
  · exact completes_feed_short hupload huploadWord hd hlt hh
  · rw [List.append_assoc] at hh
    exact completes_feed_word hupload huploadWord (by decide) hd hlt
      (.uploadWord (e := s.eng.begin.withDin more) _ haligned hsel hne) hh
  · rw [hread] at ht
    injection ht with ht
    subst ht
    exact finish_readBlockRow _ _ rfl
  · obtain ⟨fl, hrun⟩ := runCommand_faultsAt hh (.head (.readBlock haligned hsel hlt))
    rw [failed_of_ne (by decide)] at hrun
    exact ⟨fl, hread.trans hrun⟩
  · exact exec_feed_fault hwrite hwriteWord hd hlt (.memWrite w (aligned4_blockAddr haligned _) hsel) hh
  · exact exec_block_failed hr ha hn hi ht hf

end Sys2Proof.Machine
end

section
/-! SUPPORT. EXECUTE_CODE on a ready session (44_ops.md R158). -/

namespace Sys2Proof.Machine

variable {s t : State} {e e' : Engine} {h : HartId} {f : Nat → Word → Proc Unit} {n : Nat} {r : Raise}

/-- EXECUTE_CODE behind its checks (R147, R158). -/
theorem exec_executeCode (hr : s.ready = true) (hn : names s.eng.ses.port.arg0 h)
    (ha : s.eng.ses.port.arg1.toNat % 4 = 0) (h0 : 0 < s.eng.ses.port.arg2.toNat)
    (hrange : s.eng.ses.port.arg1.toNat + 4 * s.eng.ses.port.arg2.toNat ≤ 2 ^ 32) : exec .executeCode s =
      runCommand (continueExecuteCode h s.eng.ses.port.arg1 s.eng.ses.port.arg2.toNat 0) s := by
  obtain ⟨hc, hi, -⟩ := (ready_iff s).1 hr
  have hcount : (s.eng.ses.port.arg2 != 0) = true := bne_iff_ne.2 fun hz => by rw [hz] at h0; cases h0
  have hparams : (s.eng.ses.port.arg2 != 0 && inRange s.eng.ses.port.arg1 s.eng.ses.port.arg2) = true := by
    rw [hcount, inRange, decide_eq_true hrange]; rfl
  refine runCommand_congr ((onHart_run (e := s.eng.begin) hc hn fun x g => do
    require (x.port.arg2 != 0 && inRange x.port.arg1 x.port.arg2) .invalidParam
    require (aligned4 x.port.arg1) .alignment
    requireInitialized
    continueExecuteCode g x.port.arg1 x.port.arg2.toNat 0).trans ?_)
  rw [begin_arg1, begin_arg2, hparams, bind_ok (require_true _ _), (aligned4_iff _).2 ha, bind_ok (require_true _ _)]
  exact bind_ok (requireInitialized_run hi)

/-- Words that fail to be fed fail whatever was to follow them. -/
theorem feedThen_error {hold : Nat → Hold} {p : Progress} (he : feedThen f hold (pure p) n e = .error r e')
    (hold' : Nat → Hold) (last : Proc Progress) : feedThen f hold' last n e = .error r e' := by
  cases hrun : feed f n 0 e with
  | error r₁ e₁ => rw [feedThen, bind_error hrun] at he; cases he; exact bind_error hrun
  | ok o e₁ => rw [feedThen, bind_ok hrun] at he; cases o <;> cases he

/-- An upload that fails ends EXECUTE_CODE in the state UPLOAD_CODE of the same words leaves, but for the operands. -/
theorem exec_executeCode_upload_failed (hr : s.ready = true) (hn : names s.eng.ses.port.arg0 h)
    (ha : s.eng.ses.port.arg1.toNat % 4 = 0)
    (hrange : s.eng.ses.port.arg1.toNat + 4 * s.eng.ses.port.arg2.toNat ≤ 2 ^ 32)
    (ht : exec .uploadCode (s.withArgs s.eng.ses.port.arg1 s.eng.ses.port.arg2) = .next t) (hf : t.failed = true) :
    exec .executeCode s = .next (t.withArgs s.eng.ses.port.arg0 s.eng.ses.port.arg1) := by
  have B := blockBody_upload s.eng.ses.port.arg1
  have hupload : exec .uploadCode (s.withArgs s.eng.ses.port.arg1 s.eng.ses.port.arg2)
      = runCommand (continueUpload s.eng.ses.port.arg1 s.eng.ses.port.arg2.toNat 0) _ :=
    exec_uploadCode (s := s.withArgs s.eng.ses.port.arg1 s.eng.ses.port.arg2) hr ha hrange
  rw [hupload, runCommand_withArgs (B.blind _)] at ht
  injection ht with ht
  subst ht
  obtain ⟨r, e', hrun, -⟩ := error_of_failed (s := s) (B.busy s.eng.ses.port.arg2.toNat) rfl hf
  obtain ⟨k, hk, -, -⟩ := B.error hrun
  have hkept := (B.blind _).failed_kept hrun
  have hlaunch : continueExecuteCode h s.eng.ses.port.arg1 s.eng.ses.port.arg2.toNat 0 s.eng.begin = .error r e' :=
    feedThen_error (hold := .upload _ _) hrun _ _
  rw [exec_executeCode hr hn ha (Nat.zero_lt_of_lt hk) hrange, runCommand, hlaunch, hrun, finish, ← hkept]
  rfl

/-- Settles O55: behind its checks EXECUTE_CODE uploads its words, which ends or holds as UPLOAD_CODE does, and then
launches the hart, which succeeds or fails at its halt, its pc or its resume. -/
theorem executeCodeLaunches : Obligations.ExecuteCodeLaunches := by
  intro s h ws more evs rest hr hn ha hrange
  have hsel := selected_of_ready hr
  have haligned : aligned4 s.eng.ses.port.arg1 = true := (aligned4_iff _).2 ha
  have hwords := feeds_uploadWord haligned hsel
  have hall (hlen : s.eng.ses.port.arg2.toNat = ws.length) (hne : ws ≠ []) : exec .executeCode s = runCommand
      (feedThen (uploadWord s.eng.ses.port.arg1) (.executeCode h s.eng.ses.port.arg1 ws.length)
        (returnsZero (launch h s.eng.ses.port.arg1)) ws.length) s := by
    rw [exec_executeCode hr hn ha (hlen ▸ List.length_pos_iff.2 hne) hrange, hlen]
    rfl
  refine ⟨fun known hit s0 s0' hk hm h0 hlen hne hd hh => ?_, fun hlt hd hh => ?_, fun w d hlt hd hne hh => ?_,
    fun t ht hf => exec_executeCode_upload_failed hr hn ha hrange ht hf,
    fun known hit s0 s0' pc hk hm h0 hlen hne hd => ⟨fun hunknown hh => ?_, fun hpc hh => ?_, fun hh => ?_⟩⟩
  · exact completes_done (hall hlen hne) hh (.feedThen hwords hd (.returnsZero
      (.launch (e := s.eng.begin.withDin more) h _ s0 s0' hsel hk hm h0))) rfl rfl
  · exact completes_feed_short (exec_executeCode hr hn ha (Nat.zero_lt_of_lt hlt) hrange) hwords hd hlt hh
  · rw [List.append_assoc] at hh
    exact completes_feed_word (exec_executeCode hr hn ha (Nat.zero_lt_of_lt hlt) hrange) hwords (by decide) hd hlt
      (.uploadWord (e := s.eng.begin.withDin more) _ haligned hsel hne) hh
  · exact completes_raise (hall hlen hne) hh (.feedThen_last hwords hd
      (.head (.launchHalt (e := s.eng.begin.withDin more) h _ hsel (hk ▸ hunknown)))) rfl
      (by rw [failed_of_ne (by decide)]; rfl)
  · exact completes_raise (hall hlen hne) hh (.feedThen_last hwords hd
      (.head (.launchVerify (e := s.eng.begin.withDin more) h _ s0 s0' pc hsel hk hm h0 hpc))) rfl
      (by rw [failed_of_ne (by decide)]; rfl)
  · rw [List.append_assoc] at hh
    exact completes_raise (hall hlen hne) hh (.feedThen_last hwords hd
      (.head (.launchResume (e := s.eng.begin.withDin more) h _ s0 s0' hsel hk hm h0))) rfl
      (by rw [failed_of_ne (by decide)]; rfl)

end Sys2Proof.Machine
end

section
/-! SUPPORT. TRACE: a record, the guard around the body, the first record and those after an answer (44_ops.md
R159). -/

namespace Sys2Proof.Machine

variable {s s' : State} {e e' : Engine} {h : HartId} {t : Script} {c hit : Bool} {s0 pc insn : Word} {vs : List Word}
  {max : Word} {n : Nat}

/-! ## The hart -/

/-- A CSR access gives the mirror up, whether or not it was valid. -/
theorem afterCsr_withCacheValid (x : Hart) (on v : Bool) (s0 : Word) :
    ({ x with cacheValid := v } : Hart).afterCsr on s0 = x.afterCsr on s0 := by
  unfold Hart.afterCsr Hart.mirrored
  split <;> rfl

/-- A hart as a record leaves it: DPC read and then, when they are captured, the registers. -/
def Hart.recorded (on c : Bool) (s0 : Word) (vs : List Word) (x : Hart) : Hart :=
  if c then (x.afterCsr on s0).afterReadAll on vs else x.afterCsr on s0

theorem recorded_knownHalted (x : Hart) (on c : Bool) (s0 : Word) (vs : List Word) :
    x.knownHalted.recorded on c s0 vs = x.traced on c s0 vs := by
  rw [Hart.recorded, knownHalted_afterCsr, Hart.traced]

theorem recorded_withCacheValid (x : Hart) (on c v : Bool) (s0 : Word) (vs : List Word) :
    Hart.recorded on c s0 vs { x with cacheValid := v } = x.recorded on c s0 vs := by
  rw [Hart.recorded, afterCsr_withCacheValid, Hart.recorded]

/-! ## A record -/

/-- The registers of a record. -/
theorem Yields.traceRegs (hv : c = true → vs.length = 32) (hs : e.ses.selectHit 0xA 0 = true) :
    Yields (Machine.traceRegs h c) (if c then readAllRegsScript h vs else []) e (· = if c then vs else [])
      (e.withHart h fun x => if c then x.afterReadAll e.ses.dm.cacheEnabled vs else x) := by
  cases c
  · exact (pure [] e).leaving (withHart_id ..).symm
  · exact (readAllRegs h false vs (hv rfl) hs).leaving (emitted_nil _)

/-- A record of an aligned pc. -/
theorem Yields.traceRecord (hp : pc.toNat % 4 = 0) (hv : c = true → vs.length = 32)
    (hs : e.ses.selectHit 0xA 0 = true) (hm : hit = e.ses.mirrorHit h)
    (h0 : hit = true → s0 = (e.ses.hart h).gpr[8]) :
    Yields (Machine.traceRecord h c n) (recordScript hit e.ses.dm.sbaInitialized c h s0 pc insn vs) e (fun _ => True)
      ((e.withHart h (·.recorded e.ses.dm.cacheEnabled c s0 vs)).emitted (recordWords c n pc insn vs)) := by
  have ha := (aligned4_iff pc).2 hp
  have hs' : (e.withHart h (·.afterCsr e.ses.dm.cacheEnabled s0)).ses.selectHit 0xA 0 = true := by simpa using hs
  refine ((bind_eq (csrRead h csrDpc s0 pc hs hm h0) <| bind_quiet (require ha) fun _ _ =>
    bind_eq (memRead insn ha hs' rfl) <| quiet_bind (traceRegs hv hs') fun regs hr => by
      subst hr; exact outs _).as ?_).leaving ?_
  · simp [recordScript, csrDpc]
  · simp only [withHart_withHart, withHart_dm]
    cases c <;> rfl

/-- A misaligned pc has no record. -/
theorem Raises.traceRecord (hp : pc.toNat % 4 ≠ 0) (hs : e.ses.selectHit 0xA 0 = true) (hm : hit = e.ses.mirrorHit h)
    (h0 : hit = true → s0 = (e.ses.hart h).gpr[8]) :
    Raises (Machine.traceRecord h c n) (csrReadScript hit h csrDpc s0 pc) e ⟨.alignment, 0⟩
      (e.withHart h (·.afterCsr e.ses.dm.cacheEnabled s0)) := by
  have ha : aligned4 pc = false := Bool.eq_false_iff.2 fun ha => hp ((aligned4_iff pc).1 ha)
  exact (bind (Yields.csrRead h csrDpc s0 pc hs hm h0) fun v hv => by subst hv; exact head (require ha)).as
    (List.append_nil _)

/-! ## The guard around TRACE's body -/

/-- Without a record a raise is reported with the negated code of its status. -/
theorem Raises.traceGuard_first {m : Proc Progress} {x : Raise} (hm : Raises m t e x e') :
    Raises (traceGuard 0 m) t e ⟨x.kind, negCode x.kind⟩ e' := by
  intro bits rest evs r fl ack ht
  obtain ⟨hr, fl', hm'⟩ := hm _ _ _ r fl ack ht
  exact ⟨hr, fl', tryCatch_error hm'⟩

/-- After a record a raise is swallowed: the count of records is the result. -/
theorem Raises.traceGuard_later {m : Proc Progress} {x : Raise} (hn : 1 ≤ n) (hm : Raises m t e x e') :
    Yields (traceGuard n m) t e (· = .done (BitVec.ofNat 32 n)) e' := by
  refine (hm.caught (u := []) ?_).as (List.append_nil t)
  rw [if_pos hn]
  exact .pure _ _

/-- With the record delivered TRACE holds for the answer. -/
theorem Yields.traceNext (hr : Yields (Machine.traceRecord h c n) t e (fun _ => True) e') :
    Yields (Machine.traceNext h max c n) t e (· = .hold (.trace h max c (n + 1))) e' :=
  quiet_bind hr fun _ _ => pure _ _

/-! ## The first record -/

/-- TRACE behind its checks (R147, R159). -/
theorem exec_trace (hr : s.ready = true) (hn : names s.eng.ses.port.arg0 h)
    (hc : s.eng.ses.port.arg2 = BitVec.ofNat 32 c.toNat) : exec .trace s = runCommand (traceGuard 0 do
      let _ ← haltHart h
      traceNext h s.eng.ses.port.arg1 c 0) s :=
  runCommand_congr (ready_operand_run (o := fun x => boolOperand x.port.arg2) hr hn (boolOperand_of_operand hc)
    fun x g b => traceGuard 0 do
      let _ ← haltHart g
      traceNext g x.port.arg1 b 0)

/-- Settles O56: behind its checks TRACE halts the hart and delivers record 0, or finds a misaligned pc. -/
theorem traceDeliversItsFirstRecord : Obligations.TraceDeliversItsFirstRecord := by
  intro s h known hit c pc insn s0 vs evs rest hr hn hc hk hm h0
  have hsel := selected_of_ready hr
  have hhalt := Yields.haltAny (e := s.eng.begin) h hsel hk
  have hsel' := (withHart_selectHit (e := s.eng.begin) (h := h) (f := fun x =>
    { x.knownHalted with cacheValid := x.cacheValid && known }) 0xA 0).trans hsel
  have hmirror := hm.trans (Yields.mirrorHit_haltAny (e := s.eng.begin) h known).symm
  refine ⟨fun hp hv hh => ?_, fun hp hh => ?_⟩
  · refine completes_hold (exec_trace hr hn hc) hh (.tryCatch (hhalt.bind fun _ _ =>
      .traceNext (.traceRecord hp hv hsel' hmirror (by simpa [Hart.knownHalted] using h0)))) rfl ?_
    simp only [withHart_withHart, withHart_dm, recorded_withCacheValid, recorded_knownHalted]
    rfl
  · refine completes_raise (exec_trace hr hn hc) hh (.traceGuard_first (.bind hhalt fun _ _ =>
      .head (.traceRecord hp hsel' hmirror (by simpa [Hart.knownHalted] using h0)))) rfl ?_
    rw [failed_of_ne (by decide)]
    simp only [withHart_withHart, withHart_dm, afterCsr_withCacheValid, knownHalted_afterCsr]
    rfl

/-! ## The answer -/

/-- An answer of 0, or the last record. -/
theorem continueTrace_done {b : Bool} (hb : b = false ∨ max ≠ 0 ∧ n = max.toNat) :
    continueTrace h max c n b = pure (.done (BitVec.ofNat 32 n)) := by
  rw [continueTrace]
  rcases hb with rfl | hlast
  · rfl
  · rw [if_pos hlast, ite_self]

/-- An answer of 1 with records left. -/
theorem continueTrace_more (hmore : max = 0 ∨ n ≠ max.toNat) : continueTrace h max c n true =
    traceGuard n (stepHart h >>= fun _ => traceNext h max c n) := by
  rw [continueTrace, if_neg (by decide), if_neg fun ⟨hmax, hlast⟩ => hmore.elim hmax (· hlast)]

/-- The probe with the host's answer to a record. -/
def State.answered (s : State) (b : Bool) : State := s.modifySes fun x => { x with port.traceReply := b }

section
variable {id : SessionId} {b : Bool} {inputs : List Input} (hi : s.inbox = .writeTraceReply id b :: inputs)
  (hf : { s with inbox := inputs }.focus id = some s') (hg : s'.eng.ses.hold = .trace h max c n)
include hi hf hg

/-- A TRACE_REPLY for a session whose TRACE holds. -/
theorem step_traceReply : step s = resumeCommand (continueTrace h max c n b) (s'.answered b) := by
  rw [step_writeTraceReply hi hf, replyTrace, hg]
  rfl

/-- A TRACE_REPLY for a session whose TRACE goes on. -/
theorem step_traceReply_goes_on {evs : List WireEvent} {left : List Bool} {p : Progress} (ht : Sampled t)
    (hh : s'.hears t evs left) (hy : Yields (continueTrace h max c n b) t (s'.answered b).eng.resumed (· = p) e') :
    ∃ fl, step s = .next { s' with
      eng := (finish (.ok p e')).on left (evs.reverse ++ s'.eng.ses.record) fl 1 } := by
  rw [step_traceReply hi hf hg]
  exact resumeCommand_yields hh ht hy

end

/-- `Step` writes DCSR, so that a script with a step has a transaction. -/
theorem sampled_step (h : HartId) (dcsr s1 s2 : Word) : Sampled (stepScript hit h dcsr s0 s1 s2) :=
  (((Sampled.progbuf h _).right _).left _).right _

section
variable {dcsr s1 s2 s3 : Word} (hmore : max = 0 ∨ n ≠ max.toNat) (hs : e.ses.selectHit 0xA 0 = true)
  (hm : hit = e.ses.mirrorHit h) (h0 : hit = true → s0 = (e.ses.hart h).gpr[8])
include hmore hs hm h0

/-- The hart steps and its next record is delivered. -/
theorem Yields.continueTrace (hp : pc.toNat % 4 = 0) (hv : c = true → vs.length = 32) :
    Yields (Machine.continueTrace h max c n true)
      (stepScript hit h dcsr s0 s1 s2 ++ recordScript false e.ses.dm.sbaInitialized c h s3 pc insn vs) e
      (· = .hold (.trace h max c (n + 1)))
      ((e.withHart h fun x => (x.afterCsr e.ses.dm.cacheEnabled s2).traced e.ses.dm.cacheEnabled c s3 vs).emitted
        (recordWords c n pc insn vs)) := by
  rw [continueTrace_more hmore]
  refine (tryCatch (bind (stepHart h dcsr s0 s1 s2 hs hm h0) fun _ _ =>
    traceNext (traceRecord (hit := false) (s0 := s3) (insn := insn) hp hv ((withHart_selectHit ..).trans hs) ?_
      (by simp)))).leaving ?_ |>.as ?_
  · simp [Session.mirrorHit, Hart.afterCsr, Hart.knownHalted]
  · simp only [withHart_withHart, withHart_dm, recorded_knownHalted]
  · rw [withHart_dm]

/-- The hart steps to a misaligned pc: TRACE ends with the records it has delivered. -/
theorem Yields.continueTrace_misaligned (hn : 1 ≤ n) (hp : pc.toNat % 4 ≠ 0) :
    Yields (Machine.continueTrace h max c n true)
      (stepScript hit h dcsr s0 s1 s2 ++ csrReadScript false h csrDpc s3 pc) e (· = .done (BitVec.ofNat 32 n))
      (e.withHart h fun x => (x.afterCsr e.ses.dm.cacheEnabled s2).traced e.ses.dm.cacheEnabled false s3 []) := by
  rw [continueTrace_more hmore]
  refine (Raises.traceGuard_later hn (.bind (stepHart h dcsr s0 s1 s2 hs hm h0) fun _ _ =>
    .head (.traceRecord (hit := false) (s0 := s3) hp ((withHart_selectHit ..).trans hs) ?_ (by simp)))).leaving ?_
  · simp [Session.mirrorHit, Hart.afterCsr, Hart.knownHalted]
  · simp only [withHart_withHart, withHart_dm, knownHalted_afterCsr]
    rfl

end

/-- Settles O57: TRACE ends at the answer, or steps the hart and either delivers the next record or finds a misaligned
pc, which the guard swallows. -/
theorem traceGoesOnWithTheAnswer : Obligations.TraceGoesOnWithTheAnswer := by
  intro s s' id b rest h max c n hi hf hg
  refine ⟨fun hb => ?_, fun dcsr s0 s0' s0'' s1 pc insn vs evs left hb hmore hr hn h0 => ?_⟩
  · rw [step_traceReply hi hf hg, continueTrace_done hb, resumeCommand_eq]; rfl
  subst hb
  have hsel : (s'.answered true).eng.resumed.ses.selectHit 0xA 0 = true := selected_of_ready hr
  have hsampled := (sampled_step (hit := s'.eng.ses.mirrorHit h) (s0 := s0) h dcsr s0' s0'').left
  exact ⟨fun hp hv hh => step_traceReply_goes_on hi hf hg (hsampled _) hh
      (.continueTrace hmore hsel rfl h0 hp hv),
    fun hp hh => step_traceReply_goes_on hi hf hg (hsampled _) hh
      (.continueTrace_misaligned hmore hsel rfl h0 hn hp)⟩

end Sys2Proof.Machine
end

section
/-! SUPPORT. The checks at the head of a command, in the order of 60_exceptions.md R167: one entry per row of the opcode
table says that the command makes them in that order, and what it does behind them. -/

namespace Sys2Proof.Machine

variable {α β : Type} {e : Engine} {h : HartId} {w v : Word} {c d b : Bool} {k : ErrorKind}
  {cs : List (Bool × ErrorKind)}

/-! ## Operands as numbers -/

theorem beq_eq_toNat_beq (a b : Word) : (a == b) = (a.toNat == b.toNat) := by
  rw [Bool.eq_iff_iff, beq_iff_eq, beq_iff_eq, BitVec.toNat_inj]

theorem aligned4_eq (a : Word) : aligned4 a = (a.toNat % 4 == 0) := by
  rw [Bool.eq_iff_iff, aligned4_iff, beq_iff_eq]

theorem aligned2_eq (a : Word) : aligned2 a = (a.toNat % 2 == 0) := by
  rw [Bool.eq_iff_iff, aligned2_iff, beq_iff_eq]

theorem readableDp_eq (a : Word) : readableDp a = (a.toNat == 0x0 || a.toNat == 0x4 || a.toNat == 0xC) := by
  rw [readableDp, beq_eq_toNat_beq, beq_eq_toNat_beq, beq_eq_toNat_beq]; rfl

theorem writableDp_eq (a : Word) : writableDp a = (a.toNat == 0x4 || a.toNat == 0x8) := by
  rw [writableDp, beq_eq_toNat_beq, beq_eq_toNat_beq]; rfl

theorem apOperandsOk_eq (a r : Word) :
    apOperandsOk a r = (decide (a.toNat ≤ 15) && decide (r.toNat ≤ 0xFC) && r.toNat % 4 == 0) :=
  congrArg (_ && ·) (aligned4_eq r)

theorem bne_zero_eq (a : Word) : (a != 0) = (a.toNat != 0) := congrArg not (beq_eq_toNat_beq a 0)

theorem codeOperands_eq (b : Bool) (a n : Word) :
    (b && (n != 0 && inRange a n)) = (b && n.toNat != 0 && decide (a.toNat + 4 * n.toNat ≤ 2 ^ 32)) := by
  rw [bne_zero_eq, ← Bool.and_assoc]; rfl

/-! ## Checks in order -/

/-- What a procedure did. -/
abbrev Ended (α : Type) := EStateM.Result Raise Engine α

/-- The first check of the list that fails raises its kind, the engine being `e` still; when every check passes, what
was done is as `Q` says. -/
def Checked (e : Engine) (Q : Ended α → Prop) (r : Ended α) : List (Bool × ErrorKind) → Prop
  | [] => Q r
  | (c, k) :: cs => (c = false → r = .error ⟨k, 0⟩ e) ∧ (c = true → Checked e Q r cs)

/-- What is done begins with the check that the hart of ARG0 is halted. -/
def AwaitsHalt (e : Engine) (r : Ended α) : Prop :=
  ∃ (h : HartId) (f : Unit → Proc α), names e.ses.port.arg0 h ∧ r = (requireHalted h >>= f) e

/-- The check of the hart comes next, where it is asked for. -/
def AwaitsHaltIf (halts : Bool) (e : Engine) (r : Ended α) : Prop := halts = true → AwaitsHalt e r

/-- The checks of a row in R167's order, each with the kind it raises. -/
def rowChecks (i : Instr) (x : Session) : List (Bool × ErrorKind) :=
  [(offlineRow i || x.connected, .notConnected), (paramsOk i x.port, .invalidParam),
    (addressAligned i x.port, .alignment), (initialisedFor i x, .notInitialized)]

/-- What a row does behind these checks: EXECUTE_PROGBUF pops its words (42_dm.md R137), a row that needs a halted hart
checks that. -/
def Behind (i : Instr) (e : Engine) (r : Ended Progress) : Prop :=
  match i with
  | .executeProgbuf => ∃ h, names e.ses.port.arg0 h ∧ r = continueProgbuf h e.ses.port.arg1.toNat [] e
  | i => AwaitsHaltIf (needsHalted i) e r

namespace Checked

variable {Q : Ended α → Prop} {r : Ended α}

theorem pass (h : Checked e Q r cs) : Checked e Q r ((true, k) :: cs) := ⟨nofun, fun _ => h⟩

/-- Two checks that raise the same. -/
theorem both (h : Checked e Q r ((c, k) :: (d, k) :: cs)) : Checked e Q r ((c && d, k) :: cs) := by
  obtain ⟨hfails, hpasses⟩ := h
  cases c with
  | false => exact ⟨fun _ => hfails rfl, nofun⟩
  | true => exact hpasses rfl

/-- The same check written another way. -/
theorem as (hc : c = d) (h : Checked e Q r ((c, k) :: cs)) : Checked e Q r ((d, k) :: cs) := hc ▸ h

theorem raise : Checked e Q ((Machine.raise k : Proc α) e) ((false, k) :: cs) := ⟨fun _ => rfl, nofun⟩

/-- A procedure begins with the check of an operand. -/
theorem operand {o : Proc β} {f : β → Proc α} (hfail : c = false → o e = .error ⟨k, 0⟩ e)
    (hpass : c = true → ∃ x, o e = .ok x e ∧ Checked e Q (f x e) cs) :
    Checked e Q ((o >>= f) e) ((c, k) :: cs) := by
  refine ⟨fun hc => bind_error (hfail hc), fun hc => ?_⟩
  obtain ⟨x, hx, hf⟩ := hpass hc
  rwa [bind_ok hx]

theorem look {f : Session → Proc α} (h : Checked e Q (f e.ses e) cs) : Checked e Q ((getSes >>= f) e) cs := by
  rwa [bind_ok (getSes_run e)]

theorem require {f : Unit → Proc α} (h : Checked e Q (f () e) cs) :
    Checked e Q ((Machine.require c k >>= f) e) ((c, k) :: cs) :=
  operand (fun hc => hc ▸ require_false k e) fun hc => ⟨(), hc ▸ require_true k e, h⟩

theorem requireConnected {f : Unit → Proc α} (h : Checked e Q (f () e) cs) :
    Checked e Q ((Machine.requireConnected >>= f) e) ((e.ses.connected, .notConnected) :: cs) :=
  operand (NeedsLink.connected e) fun hc => ⟨(), requireConnected_online hc, h⟩

theorem requireInitialized {f : Unit → Proc α} (h : Checked e Q (f () e) cs) :
    Checked e Q ((Machine.requireInitialized >>= f) e) ((e.ses.dm.initialized && true, .notInitialized) :: cs) := by
  rw [Bool.and_true, Machine.requireInitialized, bind_assoc]
  exact look (require h)

theorem requireSba {f : Unit → Proc α} (h : Checked e Q (f () e) cs) :
    Checked e Q ((Machine.requireSba >>= f) e)
      ((e.ses.dm.initialized && e.ses.dm.sbaInitialized, .notInitialized) :: cs) := by
  rw [Machine.requireSba, bind_assoc]
  exact look (require h)

theorem hartOperand {f : HartId → Proc α} (hf : ∀ h, names w h → Checked e Q (f h e) cs) :
    Checked e Q ((Machine.hartOperand w >>= f) e) ((decide (w.toNat ≤ 1), .invalidParam) :: cs) := by
  have hlt : w.toNat ≤ 1 ↔ w.toNat < Config.harts := Nat.lt_succ_iff.symm
  refine operand (fun hc => ?_) fun hc => ?_
  · rw [Machine.hartOperand, dif_neg (hlt.not.1 (of_decide_eq_false hc)), raise_run]
  · have hw := hlt.1 (of_decide_eq_true hc)
    exact ⟨⟨w.toNat, hw⟩, by rw [Machine.hartOperand, dif_pos hw, pure_run], hf _ (names_of_hartOperand w hw)⟩

theorem boolOperand {f : Bool → Proc α} (hf : ∀ b, Checked e Q (f b e) cs) :
    Checked e Q ((Machine.boolOperand w >>= f) e) ((decide (w.toNat ≤ 1), .invalidParam) :: cs) := by
  have hzero : w = 0 ↔ w.toNat = 0 := BitVec.toNat_inj.symm
  have hone : w = 1 ↔ w.toNat = 1 := BitVec.toNat_inj.symm
  refine operand (fun hc => ?_) fun hc => ?_
  · have hw := of_decide_eq_false hc
    rw [Machine.boolOperand, if_neg (by rw [hzero]; omega), if_neg (by rw [hone]; omega), raise_run]
  · rcases Nat.le_one_iff_eq_zero_or_eq_one.1 (of_decide_eq_true hc) with hw | hw
    · exact ⟨false, by rw [hzero.2 hw]; rfl, hf _⟩
    · exact ⟨true, by rw [hone.2 hw]; rfl, hf _⟩

/-- An operand that is passed on when it is in range. -/
theorem ranged {p : Prop} [Decidable p] {x : β} {f : β → Proc α} (hf : Checked e Q (f x e) cs) :
    Checked e Q (((if p then Pure.pure x else Machine.raise k) >>= f) e) ((decide p, k) :: cs) :=
  operand (fun hc => by rw [if_neg (of_decide_eq_false hc), raise_run]) fun hc =>
    ⟨x, by rw [if_pos (of_decide_eq_true hc), pure_run], hf⟩

theorem regOperand {f : BitVec 5 → Proc α} (hf : ∀ n, Checked e Q (f n e) cs) :
    Checked e Q ((Machine.regOperand w >>= f) e) ((decide (w.toNat ≤ 31), .invalidParam) :: cs) :=
  as (decide_eq_decide.2 Nat.lt_succ_iff) (ranged (hf _))

theorem csrOperand {f : BitVec 12 → Proc α} (hf : ∀ n, Checked e Q (f n e) cs) :
    Checked e Q ((Machine.csrOperand w >>= f) e) ((decide (w.toNat ≤ 0xFFF), .invalidParam) :: cs) := ranged (hf _)

/-! What comes behind the checks -/

theorem free : Checked e (AwaitsHaltIf false e) r [] := nofun

theorem requireHalted {f : Unit → Proc α} (hn : names e.ses.port.arg0 h) :
    Checked e (AwaitsHaltIf true e) ((Machine.requireHalted h >>= f) e) [] := fun _ => ⟨h, f, hn, rfl⟩

/-- Checks stay at the head when more is to be done. -/
theorem lift {m : Proc α} {g : α → Proc β} (hm : Checked e (AwaitsHaltIf b e) (m e) cs) :
    Checked e (AwaitsHaltIf b e) ((m >>= g) e) cs := by
  induction cs with
  | nil =>
    intro hb
    obtain ⟨h, f, hn, hr⟩ := hm hb
    refine ⟨h, fun x => f x >>= g, hn, ?_⟩
    rw [← bind_assoc, bind_run, hr, ← bind_run]
  | cons x cs ih =>
    obtain ⟨hfails, hpasses⟩ := hm
    exact ⟨fun hc => bind_error (hfails hc), fun hc => ih (hpasses hc)⟩

/-! The checks of rows that have them in common -/

/-- A row that checks nothing. -/
theorem unchecked : Checked e (AwaitsHaltIf false e) r
    [(true, .notConnected), (true, .invalidParam), (true, .alignment), (true, .notInitialized)] :=
  pass (pass (pass (pass free)))

/-- A row that checks its connection only. -/
theorem linked {f : Unit → Proc α} : Checked e (AwaitsHaltIf false e) ((Machine.requireConnected >>= f) e)
    [(e.ses.connected, .notConnected), (true, .invalidParam), (true, .alignment), (true, .notInitialized)] :=
  requireConnected (pass (pass (pass free)))

/-- A row that reads its operands behind the check of its connection. -/
theorem operands {f : Session → Proc α} (h : Checked e Q (f e.ses e) cs) :
    Checked e Q ((do Machine.requireConnected; let x ← getSes; f x) e) ((e.ses.connected, .notConnected) :: cs) :=
  requireConnected (look h)

/-- A row that needs the DM and a halted hart. -/
theorem haltedHart {f : Unit → Proc α} (hn : names e.ses.port.arg0 h) :
    Checked e (AwaitsHaltIf true e) ((do Machine.requireInitialized; let x ← Machine.requireHalted h; f x) e)
      [(true, .alignment), (e.ses.dm.initialized && true, .notInitialized)] :=
  pass (requireInitialized (requireHalted hn))

/-- A row of a block. -/
theorem block {f : Unit → Proc α} : Checked e (AwaitsHaltIf false e) ((blockChecks w v >>= f) e)
    [(e.ses.connected, .notConnected), (inRange w v, .invalidParam), (w.toNat % 4 == 0, .alignment),
      (e.ses.dm.initialized && true, .notInitialized)] := by
  simp only [blockChecks, bind_assoc]
  exact requireConnected (require (as (aligned4_eq w) (require (requireInitialized free))))

end Checked

/-! ## Rows -/

/-- The command of an instruction makes its checks first, in R167's order. -/
def ChecksFirst (i : Instr) : Prop :=
  ∃ m, (∀ s, exec i s = runCommand m s) ∧ ∀ e, Checked e (Behind i e) (m e) (rowChecks i e.ses)

/-- Every row of the table. -/
theorem checksFirst (i : Instr) : ChecksFirst i := by
  cases i
  -- rows that check nothing, or their connection only
  case connect | disconnect | isConnected | getFrequency | isPowered | isInitialized | resourceUsage | getErrorDetail =>
    exact ⟨_, fun _ => rfl, fun _ => .unchecked⟩
  case swdReqDpR0 | swdReqDpR4 | swdReqDpRC | swdReqDpW4 | swdReqDpW8 | swdReqApR0 | swdReqApR4 | swdReqApR8
      | swdReqApRC | swdReqApW0 | swdReqApW4 | swdReqApW8 | swdReqApWC | ackOk | ackWait | ackFault | ackProtocolError
      | lineReset | sendIdleClocks | powerUp | clearErrors | init | selectWord | ctrlstatClear | ctrlstatPwrupReq
      | ctrlstatClearErrorsPowered | ctrlstatClearErrorsUnpowered | cswInit | dminitSeq1 | dminitSeq2 | dminitSeq3
      | dminitExpected | dmcSel | dmcHalt | dmcResume | dmcReset | dmcUnreset | cmdGprRead | cmdGprWrite | cmdPostexec
      | abstractcsClearCmderr | insnCsrr | insnCsrw | insnEbreak | sbcsCfg =>
    exact ⟨_, fun _ => rfl, fun _ => .lift .linked⟩
  -- rows with no operands in range
  case swdReqDpR8 | swdReqDpW0 | swdReqDpWC => exact ⟨_, fun _ => rfl, fun _ => .lift (.requireConnected .raise)⟩
  case reservedHostOpcode => exact ⟨_, fun _ => rfl, fun _ => .pass .raise⟩
  -- rows that check an operand without a connection
  case setFrequency =>
    exact ⟨_, fun _ => rfl, fun _ => .lift (.pass (.look (.as (bne_zero_eq _) (.require (.pass (.pass .free))))))⟩
  case enableCache =>
    exact ⟨_, fun _ => rfl, fun _ => .lift (.pass (.look (.boolOperand fun _ => .pass (.pass .free))))⟩
  case invalidateCache =>
    exact ⟨_, fun _ => rfl, fun _ => .lift (.pass (.look (.hartOperand fun _ _ => .pass (.pass .free))))⟩
  -- the DAP Engine
  case readDp =>
    exact ⟨_, fun _ => rfl, fun _ => .lift (.operands (.as (readableDp_eq _) (.require (.pass (.pass .free)))))⟩
  case writeDp =>
    exact ⟨_, fun _ => rfl, fun _ => .lift (.operands (.as (writableDp_eq _) (.require (.pass (.pass .free)))))⟩
  case readAp | writeAp =>
    exact ⟨_, fun _ => rfl, fun _ => .lift (.operands (.as (apOperandsOk_eq _ _) (.require (.pass (.pass .free)))))⟩
  case dapReadMem32 | dapWriteMem32 =>
    exact ⟨_, fun _ => rfl, fun _ => .lift (.operands (.pass (.as (aligned4_eq _) (.require (.pass .free)))))⟩
  -- the DM driver
  case halt | resume | isHalted =>
    exact ⟨_, fun _ => rfl, fun _ => .lift (.operands (.hartOperand fun _ _ => .pass (.requireInitialized .free)))⟩
  case reset =>
    exact ⟨_, fun _ => rfl, fun _ => .lift (.operands (.both (.hartOperand fun _ _ => .boolOperand fun _ =>
      .pass (.requireInitialized .free))))⟩
  case step | readAllRegs | readPc | writePc =>
    exact ⟨_, fun _ => rfl, fun _ => .lift (.operands (.hartOperand fun _ hn => .haltedHart hn))⟩
  case readReg | writeReg =>
    exact ⟨_, fun _ => rfl, fun _ => .lift (.operands (.both (.hartOperand fun _ hn => .regOperand fun _ =>
      .haltedHart hn)))⟩
  case readCsr | writeCsr =>
    exact ⟨_, fun _ => rfl, fun _ => .lift (.operands (.both (.hartOperand fun _ hn => .csrOperand fun _ =>
      .haltedHart hn)))⟩
  case executeProgbuf =>
    exact ⟨_, fun _ => rfl, fun _ => .operands (.as (Bool.and_assoc ..).symm (.both (.hartOperand fun _ hn =>
      .require (.pass (.pass ⟨_, hn, rfl⟩)))))⟩
  -- System Bus Access
  case sbaInit =>
    exact ⟨_, fun _ => rfl, fun _ => .lift (.requireConnected (.pass (.pass (.requireInitialized .free))))⟩
  case sbaRead32 | sbaWrite32 =>
    exact ⟨_, fun _ => rfl, fun _ => .lift (.operands (.pass (.as (aligned4_eq _) (.require (.requireSba .free)))))⟩
  case sbaCheckErrors =>
    exact ⟨_, fun _ => rfl, fun _ => .lift (.requireConnected (.pass (.pass (.requireSba .free))))⟩
  -- memory
  case readMem8 =>
    exact ⟨_, fun _ => rfl, fun _ => .lift (.operands (.pass (.pass (.requireInitialized .free))))⟩
  case readMem16 =>
    exact ⟨_, fun _ => rfl, fun _ => .lift (.operands (.pass (.as (aligned2_eq _)
      (.require (.requireInitialized .free)))))⟩
  case readMem32 | writeMem32 =>
    exact ⟨_, fun _ => rfl, fun _ => .lift (.operands (.pass (.as (aligned4_eq _)
      (.require (.requireInitialized .free)))))⟩
  case writeMem8 =>
    exact ⟨_, fun _ => rfl, fun _ => .lift (.operands (.require (.pass (.requireInitialized .free))))⟩
  case writeMem16 =>
    exact ⟨_, fun _ => rfl, fun _ => .lift (.operands (.require (.as (aligned2_eq _)
      (.require (.requireInitialized .free)))))⟩
  case readMemBlock => exact ⟨_, fun _ => rfl, fun _ => .lift (.look .block)⟩
  case writeMemBlock | uploadCode => exact ⟨_, fun _ => rfl, fun _ => .look .block⟩
  case executeCode =>
    exact ⟨_, fun _ => rfl, fun _ => .operands (.as (codeOperands_eq ..) (.both (.hartOperand fun _ _ =>
      .require (.as (aligned4_eq _) (.require (.requireInitialized .free))))))⟩
  case trace =>
    exact ⟨_, fun _ => rfl, fun _ => .operands (.both (.hartOperand fun _ _ => .boolOperand fun _ =>
      .pass (.requireInitialized .free)))⟩

/-- The checks of a command look at nothing that its beginning changes. -/
theorem rowChecks_begin (i : Instr) (e : Engine) : rowChecks i e.begin.ses = rowChecks i e.ses := rfl

end Sys2Proof.Machine
end

section
/-! SUPPORT. The order of checks (60_exceptions.md R167): a check that fails ends the command with its status, and the
check of the hart is the last (42_dm.md R119, R120, R137). -/

namespace Sys2Proof.Machine

variable {e : Engine} {s : State} {i : Instr} {h : HartId} {v : Word} {k : ErrorKind}

/-! ## A check that fails -/

/-- The run of an instruction makes its checks first. -/
theorem exec_checked (i : Instr) (s : State) :
    ∃ m, exec i s = runCommand m s
      ∧ Checked s.eng.begin (Behind i s.eng.begin) (m s.eng.begin) (rowChecks i s.eng.ses) := by
  obtain ⟨m, hexec, hm⟩ := checksFirst i
  exact ⟨m, hexec s, rowChecks_begin i s.eng ▸ hm s.eng.begin⟩

/-- Settles O19: the check of the connection is the first of every row that needs one. -/
theorem notConnectedComesFirst : Obligations.NotConnectedComesFirst := by
  intro i s hi hc
  obtain ⟨m, hexec, hlink, -⟩ := exec_checked i s
  have hoff : (offlineRow i || s.eng.ses.connected) = false := Bool.or_eq_false_iff.2 ⟨hi, hc⟩
  rw [hexec, runCommand_error (by decide) (hlink hoff)]

/-- Settles O20: the check of the operands comes behind that of the connection. -/
theorem invalidParamComesSecond : Obligations.InvalidParamComesSecond := by
  intro i s hon hp
  obtain ⟨m, hexec, -, hlinked⟩ := exec_checked i s
  obtain ⟨hparam, -⟩ := hlinked (Bool.or_eq_true_iff.2 hon)
  rw [hexec, runCommand_error (by decide) (hparam hp)]

/-! ## Behind the checks -/

theorem awaitsHalt_of_behind {r : Ended Progress} (hi : needsHalted i = true) (h : Behind i e r) : AwaitsHalt e r := by
  unfold Behind at h
  split at h
  · cases hi
  · exact h hi

/-- A hart known to run does not pass its check (42_dm.md R120). -/
theorem requireHalted_running (hk : (e.ses.hart h).known = true) (hh : (e.ses.hart h).halted = false) :
    requireHalted h e = .error ⟨.notHalted, 0⟩ e := by
  rw [requireHalted, bind_ok (queryHalted_known hk), hh, require_false]

/-- A row whose checks all pass goes on as `Behind` says. -/
theorem exec_behind (hon : s.online = true) (hp : paramsOk i s.eng.ses.port = true)
    (ha : addressAligned i s.eng.ses.port = true) (hinit : initialisedFor i s.eng.ses = true) :
    ∃ m, exec i s = runCommand m s ∧ Behind i s.eng.begin (m s.eng.begin) := by
  obtain ⟨m, hexec, -, hlinked⟩ := exec_checked i s
  obtain ⟨-, hparam⟩ := hlinked (Bool.or_eq_true_iff.2 (.inr hon))
  obtain ⟨-, haligned⟩ := hparam hp
  obtain ⟨-, hready⟩ := haligned ha
  exact ⟨m, hexec, hready hinit⟩

/-- A row that needs a halted hart is then its check of the hart and what follows. -/
theorem exec_awaitsHalt (hon : s.online = true) (hp : paramsOk i s.eng.ses.port = true)
    (ha : addressAligned i s.eng.ses.port = true) (hinit : initialisedFor i s.eng.ses = true)
    (hi : needsHalted i = true) (hn : names s.eng.ses.port.arg0 h) :
    ∃ f : Unit → Proc Progress, exec i s = runCommand (requireHalted h >>= f) s := by
  obtain ⟨m, hexec, hbehind⟩ := exec_behind hon hp ha hinit
  obtain ⟨g, f, hg, hr⟩ := awaitsHalt_of_behind hi hbehind
  obtain rfl := names_inj hg hn
  exact ⟨f, hexec.trans (runCommand_congr hr)⟩

/-- EXECUTE_PROGBUF with its operands in range pops its words (42_dm.md R137). -/
theorem exec_executeProgbuf_online (hon : s.online = true) (hp : paramsOk .executeProgbuf s.eng.ses.port = true)
    (hn : names s.eng.ses.port.arg0 h) :
    exec .executeProgbuf s = runCommand (continueProgbuf h s.eng.ses.port.arg1.toNat []) s := by
  obtain ⟨m, hexec, g, hg, hr⟩ := exec_behind hon hp rfl rfl
  obtain rfl := names_inj hg hn
  exact hexec.trans (runCommand_congr hr)

/-! ## The check of the hart, and EXECUTE_PROGBUF's two last checks (42_dm.md R120, R137) -/

/-- A command that checks a hart known to run. -/
theorem runCommand_running {f : Unit → Proc Progress} (hk : (s.eng.ses.hart h).known = true)
    (hh : (s.eng.ses.hart h).halted = false) :
    runCommand (requireHalted h >>= f) s = .next (s.raised .notHalted 0 []) :=
  runCommand_error (by decide) (bind_error (requireHalted_running (e := s.eng.begin) hk hh))

/-- A command that raises when it has popped words: DIN is emptied at its end anyway (60_exceptions.md R163). -/
theorem runCommand_error_popped {body : Proc Progress} {ws : List Word} (hk : k ≠ .alreadyHalted)
    (hb : body s.eng.begin = .error ⟨k, v⟩ (s.eng.begin.withDin ws)) : runCommand body s = .next (s.raised k v []) := by
  rw [runCommand, hb, finish, failed_of_ne hk]; rfl

/-- EXECUTE_PROGBUF with its words on DIN runs them when it has popped them. -/
theorem continueProgbuf_run {ws more : List Word} (hd : e.ses.port.din = ws ++ more) :
    continueProgbuf h ws.length [] e = returnsZero (executeWords h ws) (e.withDin more) := by
  rw [continueProgbuf, List.length_nil, Nat.sub_zero, bind_ok (collectDin_all ws [] hd), List.nil_append]

/-- With a program the words are checked, the DM and the hart come next. -/
theorem executeWords_program {ws l : List Word} (hl : programOf ws = some l) : executeWords h ws = (do
    requireInitialized
    requireHalted h
    selectHart h
    runProgbuf h l) := by
  rw [executeWords, progbufList_of_programOf hl]

section words
variable {ws more l : List Word} (hl : programOf ws = some l)
include hl

theorem executeWords_uninitialised (hinit : e.ses.dm.initialized = false) :
    executeWords h ws e = .error ⟨.notInitialized, 0⟩ e := by
  rw [executeWords_program hl, requireInitialized, bind_assoc, bind_ok (getSes_run e), hinit]
  exact bind_error (require_false _ e)

theorem executeWords_running (hinit : e.ses.dm.initialized = true) (hk : (e.ses.hart h).known = true)
    (hh : (e.ses.hart h).halted = false) : executeWords h ws e = .error ⟨.notHalted, 0⟩ e := by
  rw [executeWords_program hl, bind_ok (requireInitialized_run hinit)]
  exact bind_error (requireHalted_running hk hh)

/-- The hart is not known, and DMSTATUS says that it runs. -/
theorem Raises.executeWords (hinit : e.ses.dm.initialized = true) (hk : (e.ses.hart h).known = false)
    (hs : e.ses.selectHit 0xA 0 = true) :
    Raises (Machine.executeWords h ws) (selectHartScript h ++ dmReadScript .dmstatus fun v => v[9] == false) e
      ⟨.notHalted, 0⟩ (e.withHart h fun x => { x with known := true, halted := false, cacheValid := false }) := by
  rw [executeWords_program hl]
  exact bind_quiet (.requireInitialized hinit) fun _ _ => head (requireHalted h hs hk)

end words

/-- Settles O21: the checks of the address and the initialisation come behind that of the operands, and the check of the
hart behind these; EXECUTE_PROGBUF makes the last two behind its words. -/
theorem laterChecksFollowInOrder : Obligations.LaterChecksFollowInOrder := by
  intro i s evs rest hon hp
  obtain ⟨m, hexec, -, hlinked⟩ := exec_checked i s
  obtain ⟨-, hparam⟩ := hlinked (Bool.or_eq_true_iff.2 (.inr hon))
  obtain ⟨hmisaligned, haligned⟩ := hparam hp
  refine ⟨fun ha => ?_, fun ha => ⟨fun hinit => ?_, fun h hinit hi hn => ?_⟩, fun h ws more l hi hn hd hw hl => ?_⟩
  · rw [hexec, runCommand_error (by decide) (hmisaligned ha)]
  · obtain ⟨huninitialised, -⟩ := haligned ha
    rw [hexec, runCommand_error (by decide) (huninitialised hinit)]
  · obtain ⟨f, hawaits⟩ := exec_awaitsHalt hon hp ha hinit hi hn
    exact ⟨fun hk hh => hawaits.trans (runCommand_running hk hh),
      fun hk hs hh => completes_error (by decide) hawaits hh (.head (.requireHalted h hs hk))⟩
  · subst hi
    obtain ⟨-, h2⟩ := length_of_programOf hl
    have hlen : s.eng.ses.port.arg1.toNat = ws.length := by
      rw [hw, BitVec.toNat_ofNat, Nat.mod_eq_of_lt (lt_of_le_of_lt h2 (by decide))]
    have hpops := exec_executeProgbuf_online hon hp hn
    rw [hlen] at hpops
    have hrun := continueProgbuf_run (e := s.eng.begin) (h := h) hd
    refine ⟨fun hinit => ?_, fun hinit hk hh => ?_, fun hinit hk hs hh => ?_⟩
    · rw [hpops, runCommand_error_popped (by decide) (hrun.trans (bind_error (executeWords_uninitialised hl hinit)))]
    · rw [hpops, runCommand_error_popped (by decide) (hrun.trans (bind_error (executeWords_running hl hinit hk hh)))]
    · have hcollect : Yields (collectDin ws.length []) [] s.eng.begin (· = (true, ws)) (s.eng.begin.withDin more) :=
        .of_run rfl fun _ _ _ _ => collectDin_all ws [] hd
      have hraises : Raises (continueProgbuf h ws.length []) _ s.eng.begin _ _ :=
        .bind_quiet hcollect fun got hg => by
          subst hg
          exact .head (.executeWords (e := s.eng.begin.withDin more) hl hinit hk hs)
      exact completes_raise hpops hh hraises rfl (by rw [failed_of_ne (by decide)]; rfl)

end Sys2Proof.Machine
end

section
/-! SUPPORT. The probe at power-on, and sessions that come and go (40_wire.md R93, R94; 70_reset_and_hazards.md R177 to
R179). -/

namespace Sys2Proof.Machine

variable {s s' : State} {e : Engine} {x : Slot} {id : SessionId} {rest : List Input}

/-! ## Power-on -/

theorem ownerOf_reset (x : Slot) : Tracker.reset.ownerOf x = none := Vector.getElem_replicate _

/-- A tracker whose slots are all free counts no session. -/
theorem activeSessions_of_free {t : Tracker} (h : ∀ x : Slot, t.ownerOf x = none) : t.activeSessions = 0 := by
  refine List.length_eq_zero_iff.2 (List.filter_eq_nil_iff.2 fun k _ => ?_)
  have hk : t.owner[k] = none := by simpa only [Tracker.ownerOf, index_slotAt] using h (slotAt k)
  rw [hk]
  exact Bool.false_ne_true

/-- Settles O9: no slot of the reset tracker has an owner, so none is counted. -/
theorem resetOfTheProbe : Obligations.ResetOfTheProbe :=
  ⟨ownerOf_reset, activeSessions_of_free ownerOf_reset, sessions_reset⟩

/-! ## Creation -/

theorem step_create {cfg : Cfg} (hi : s.inbox = .create cfg :: rest) :
    step s = .next ({ s with inbox := rest }.createSession cfg) := by
  unfold step serveNext; rw [hi]; rfl

/-- A frequency of 0 is refused (R178). -/
theorem createSession_refused {cfg : Cfg} (h : cfg.freqKhz = 0) : s.createSession cfg = s := if_pos h

/-- The created session comes into focus under the next number, and the one that was there is parked (R178). -/
theorem createSession_created {cfg : Cfg} (h : cfg.freqKhz ≠ 0) : s.createSession cfg =
    { s with
      eng := { s.eng with ses := Session.fresh cfg true, self := s.nextId }
      parked := s.parkFocus
      nextId := s.nextId + 1 } := if_neg h

theorem ses_createSession {cfg : Cfg} (h : cfg.freqKhz ≠ 0) :
    (s.createSession cfg).eng.ses = Session.fresh cfg true := by
  rw [createSession_created h]

/-- Creation takes no slot, and serves no action. -/
theorem createSession_frame {cfg : Cfg} (h : cfg.freqKhz ≠ 0) :
    (s.createSession cfg).eng.tracker = s.eng.tracker ∧ (s.createSession cfg).inbox = s.inbox := by
  rw [createSession_created h]; exact ⟨rfl, rfl⟩

/-- Creation adds one session and changes none. -/
theorem sessions_createSession {cfg : Cfg} (h : cfg.freqKhz ≠ 0) :
    (s.createSession cfg).sessions = (s.nextId, Session.fresh cfg true) :: s.sessions := by
  rw [createSession_created h, sessions_of_live rfl, sessions_eq_parkFocus s]

theorem hart_fresh (cfg : Cfg) (live : Bool) (h : HartId) : (Session.fresh cfg live).hart h = Hart.reset :=
  Vector.getElem_replicate _

theorem gpr_reset (n : Fin 32) : Hart.reset.gpr[n] = 0 := Vector.getElem_replicate _

/-- Settles O10: the created session is `Session.fresh` of its configuration, whose fields are R178's table. -/
theorem sessionCreation : Obligations.SessionCreation := by
  refine ⟨⟨rfl, rfl⟩, fun s cfg rest hi => ⟨fun h0 => ?_, fun h0 => ⟨_, step_create hi, ?_⟩⟩⟩
  · rw [step_create hi, createSession_refused h0]
  · obtain ⟨htracker, hinbox⟩ := createSession_frame (s := { s with inbox := rest }) h0
    rw [ses_createSession h0]
    refine ⟨sessions_createSession h0, htracker, hinbox, rfl, rfl, rfl, rfl, rfl, rfl, rfl, rfl, rfl, rfl, rfl, rfl, rfl,
      rfl, rfl, rfl, rfl, fun h => ?_, rfl, rfl, rfl, rfl, rfl, rfl, rfl, rfl, rfl, rfl⟩
    rw [hart_fresh]
    exact ⟨rfl, rfl, rfl, gpr_reset⟩

/-! ## Destruction -/

/-- The invariant does not look at the actions still to be served. -/
theorem ProbeInv.withInbox (h : ProbeInv s) (inputs : List Input) : ProbeInv { s with inbox := inputs } :=
  ⟨h.each, h.distinct, h.numbered, h.owns, h.parkedLive⟩

/-- ConnectUnwind without a slot leaves the tracker as it is. -/
theorem connectUnwind_tracker_of_unslotted (h : e.ses.wire.slot = none) :
    (endState (connectUnwind e)).tracker = e.tracker := by
  simp only [connectUnwind, releaseSlot, disconnectFields, bind_run, modify_run, modifySes_run, h, endState]

/-- ConnectUnwind gives the session's slot back (R93). -/
theorem connectUnwind_tracker_of_slotted (h : e.ses.wire.slot = some x) :
    (endState (connectUnwind e)).tracker = e.tracker.setOwner x none := by
  obtain ⟨e₁, hrun, -, htracker, -⟩ := connectUnwind_spec e
  rw [hrun]
  exact htracker x h

theorem takenSlot_of_connecting {y : Session} (h : y.hold = .connect x) : y.takenSlot = some x := by
  rw [Session.takenSlot, h]

theorem takenSlot_of_not_connecting {y : Session} (h : ∀ x, y.hold ≠ .connect x) : y.takenSlot = y.wire.slot := by
  unfold Session.takenSlot
  split
  · next hc => exact absurd hc (h _)
  · rfl

/-- Destruction unwinds a CONNECT under way with the slot it has got (log 21). -/
theorem disconnected_of_connecting (h : e.ses.hold = .connect x) :
    e.disconnected = endState (connectUnwind { e with ses.wire.slot := some x }) := by
  rw [Engine.disconnected, h]

/-- Any other session is destroyed as DISCONNECT leaves it (R94, R179). -/
theorem disconnected_of_not_connecting (h : ∀ x, e.ses.hold ≠ .connect x) :
    e.disconnected = if e.ses.connected then endState (connectUnwind e) else e := by
  unfold Engine.disconnected
  split
  · next hc => exact absurd hc (h _)
  · rfl

/-- Destruction frees the slot the session has taken. -/
theorem disconnected_tracker_of_taken (h : SessionInv e.ses) (hx : e.ses.takenSlot = some x) :
    e.disconnected.tracker = e.tracker.setOwner x none := by
  by_cases hc : ∃ y, e.ses.hold = .connect y
  · obtain ⟨y, hy⟩ := hc
    cases (takenSlot_of_connecting hy).symm.trans hx
    rw [disconnected_of_connecting hy, connectUnwind_tracker_of_slotted rfl]
  · rw [not_exists] at hc
    have hslot : e.ses.wire.slot = some x := (takenSlot_of_not_connecting hc).symm.trans hx
    have hconn : e.ses.connected = true := by
      by_contra hn
      exact absurd (hslot.symm.trans (h.offline (Bool.eq_false_iff.2 hn)).2.1) (Option.some_ne_none x)
    rw [disconnected_of_not_connecting hc, if_pos hconn, connectUnwind_tracker_of_slotted hslot]

/-- Destruction of a session that has taken no slot leaves the tracker as it is. -/
theorem disconnected_tracker_of_not_taken (hx : e.ses.takenSlot = none) : e.disconnected.tracker = e.tracker := by
  have hc (y : Slot) : e.ses.hold ≠ .connect y := fun hy =>
    absurd ((takenSlot_of_connecting hy).symm.trans hx) (Option.some_ne_none y)
  rw [disconnected_of_not_connecting hc]
  split
  · exact connectUnwind_tracker_of_unslotted ((takenSlot_of_not_connecting hc).symm.trans hx)
  · rfl

theorem sessions_destroyFocus (s : State) : s.destroyFocus.sessions = s.parked.map fun p => (p.id, p.ses) :=
  sessions_of_not_live rfl

theorem step_destroy (hi : s.inbox = .destroy id :: rest) (hf : { s with inbox := rest }.focus id = some s') :
    step s = .next s'.destroyFocus :=
  step_onSession (f := fun t => .next t.destroyFocus) (fun _ => rfl) hi hf

/-- No session comes into focus under a number that none has. -/
theorem focus_of_absent (h : id ∉ s.sessions.map Prod.fst) : s.focus id = none := by
  cases hf : s.focus id with
  | none => rfl
  | some s' =>
    refine absurd ?_ h
    unfold State.focus at hf
    split at hf
    · next hl =>
      obtain ⟨hlive, hself⟩ := Bool.and_eq_true_iff.1 hl
      rw [sessions_of_live hlive, List.map_cons, ← beq_iff_eq.1 hself]
      exact List.mem_cons_self
    split at hf
    · cases hf
    next p hp =>
    have hid : p.id = id := by simpa using List.find?_some hp
    have hmem : (p.id, p.ses) ∈ s.parked.map fun p => (p.id, p.ses) :=
      List.mem_map_of_mem (List.mem_of_find?_eq_some hp)
    exact hid ▸ List.mem_map_of_mem (f := Prod.fst) (List.mem_append_right _ hmem)

theorem onSession_absent {f : State → Host.Outcome State Fault Refusal} (h : s.focus id = none) :
    onSession id s f = .next s := by
  unfold onSession; rw [h]

/-- A CMD write to a session that does not exist has no effect but to be served. -/
theorem step_writeCmd_absent {op : Byte} (hi : s.inbox = .writeCmd id op :: rest)
    (hf : { s with inbox := rest }.focus id = none) : step s = .next { s with inbox := rest } := by
  unfold step serveNext; rw [hi]; exact onSession_absent hf

/-- Settles O11: destruction runs DISCONNECT, or unwinds the CONNECT under way, which frees the session's own slot; as
numbers are distinct, no session that is left answers to the destroyed one's. -/
theorem destructionReturnsTheSlot : Obligations.DestructionReturnsTheSlot := by
  intro s s' id rest h hi hf
  obtain ⟨hinv, hlive⟩ := (h.withInbox rest).focus hf
  have hself : s'.eng.self = id := (focus_self hf).1
  have hsessions : s'.sessions = (id, s'.eng.ses) :: s'.destroyFocus.sessions := by
    rw [sessions_of_live hlive, hself, sessions_destroyFocus]
  have habsent : id ∉ s'.destroyFocus.sessions.map Prod.fst := by
    have hd := hinv.distinct
    rw [hsessions, List.map_cons, List.nodup_cons] at hd
    exact hd.1
  have htracker : s'.destroyFocus.eng.tracker = s'.eng.disconnected.tracker := rfl
  refine ⟨_, step_destroy hi hf, hsessions, focus_of_absent habsent, ?_,
    fun op more => step_writeCmd_absent rfl (focus_of_absent habsent)⟩
  rw [htracker]
  split
  · next x hx => exact disconnected_tracker_of_taken (hinv.sound hlive).inv hx
  · next hx => exact disconnected_tracker_of_not_taken hx

end Sys2Proof.Machine
end
